-- ==== Sys2Proof/Word.lean ====
section
/-! DEFINITION. The words of the Vital voice DSP block: bytes, 32-bit register and response words,
64-bit command words, binary32 patterns (00_scope.md R9, R11; 30_encoding.md R140). -/

namespace Sys2Proof

/-- A byte of a command, or one of the 8-bit fields OP, X, Y, Z (R140). -/
abbrev Byte := BitVec 8

/-- A 32-bit word: a register's readback value, a response word, the field D (R32, R102, R140). -/
abbrev Word := BitVec 32

/-- A 64-bit command word (R140). -/
abbrev Command := BitVec 64

/-- A binary32 datum by its bit pattern: sign in bit 31, exponent in bits 30:23, fraction in bits
22:0 (R107). -/
abbrev F32 := BitVec 32

/-- A boolean register reads 0 or 1 (R32). -/
def Word.ofBool (b : Bool) : Word := if b then 1#32 else 0#32

end Sys2Proof
end

