-- ==== Sys2Proof/Syntax.lean ====
section
/-! DEFINITION. The commands of VVB-CMD version 1, whole: one constructor per row of
spec/opcode_table.json (30_encoding.md R143). The operands are the fields the row reads, assembled as
R141 says; an operand's legality is the check phase's concern (R160), not the syntax's. -/

namespace Sys2Proof

/-- A command. `x` is a unit index or slot, `y` an enumeration or small integer, `d` the 32-bit field D. -/
inductive Instr where
  -- family 0x0: control and FastMath
  | nop
  | reset
  | setSampleRate (d : Word)
  | setTempo (d : Word)
  | seedPrng (d : Word)
  | read (cls idx fld : Byte)
  | clearStatus
  -- family 0x1: voice
  | noteOn (note vel : Byte) (d : Word)
  | noteOff
  | voiceStop
  | voiceKill
  | setPressure (y : Byte)
  | process (d : Word)
  -- family 0x2: oscillator
  | oscSetWave (x y : Byte)
  | oscSetFreq (x : Byte) (d : Word)
  | oscSetPhase (x : Byte) (d : Word)
  | oscSetDetune (x : Byte) (d : Word)
  | oscSetPw (x : Byte) (d : Word)
  | oscSetMix (x : Byte) (d : Word)
  | oscCustWrite (x : Byte) (n : BitVec 16) (d : Word)
  | oscCustCommit (x : Byte) (d : Word)
  -- family 0x3: filter
  | fltSetType (x y : Byte)
  | fltSetCutoff (x : Byte) (d : Word)
  | fltSetRes (x : Byte) (d : Word)
  | fltSetGain (x : Byte) (d : Word)
  | fltSetEnable (x y : Byte)
  | fltReset (x : Byte)
  -- family 0x4: envelope
  | envSetAttack (x : Byte) (d : Word)
  | envSetDecay (x : Byte) (d : Word)
  | envSetSustain (x : Byte) (d : Word)
  | envSetRelease (x : Byte) (d : Word)
  | envSetCurve (x y : Byte)
  | envSetVelsens (x : Byte) (d : Word)
  | envTrigger (x : Byte)
  | envRelease (x : Byte)
  | envStop (x : Byte)
  -- family 0x5: LFO
  | lfoSetWave (x y : Byte)
  | lfoSetFreq (x : Byte) (d : Word)
  | lfoSetMode (x y : Byte)
  | lfoSetDiv (x y : Byte)
  | lfoSetDepth (x : Byte) (d : Word)
  | lfoSetInvert (x y : Byte)
  | lfoSetRetrig (x y : Byte)
  | lfoSetPw (x : Byte) (d : Word)
  | lfoSetPhase (x : Byte) (d : Word)
  | lfoTrigger (x : Byte)
  -- family 0x6: routing
  | routeSet (x src dst : Byte) (d : Word)
  | routeClear (x : Byte)
  deriving DecidableEq, Repr

end Sys2Proof
end

