-- ==== Sys2Proof/Decode.lean ====
section
/-! DEFINITION. Command encoding (30_encoding.md): the word format, the opcode map, the decoder with steps 1 and 2
of the check phase (R160), the encoder. A word is 64 bits; on a byte transport it comes least significant byte
first (20_memory.md R107). -/

namespace Sys2Proof

/-- What a command word decodes to. An unassigned opcode and a non-zero reserved field are defined outcomes, events
1 and 2 (R160, R164), and carry the opcode the event records. -/
inductive Decoded where
  | instr (i : Instr)
  | illegalOpcode (op : Byte)
  | reservedNonzero (op : Byte)
  deriving DecidableEq, Repr

/-- OP = W[63:56] (R140). -/
def Command.op (w : Command) : Byte := w.extractLsb' 56 8
/-- X = W[55:48] (R140). -/
def Command.x (w : Command) : Byte := w.extractLsb' 48 8
/-- Y = W[47:40] (R140). -/
def Command.y (w : Command) : Byte := w.extractLsb' 40 8
/-- Z = W[39:32] (R140). -/
def Command.z (w : Command) : Byte := w.extractLsb' 32 8
/-- D = W[31:0] (R140). -/
def Command.d (w : Command) : Word := w.extractLsb' 0 32

/-- The command, if its reserved-zero fields are zero (R161). -/
def ifReservedZero (op : Byte) (zero : Bool) (i : Instr) : Decoded :=
  if zero then .instr i else .reservedNonzero op

/-- The opcode map on the five fields of a word (R143), with steps 1 and 2 of the check phase (R160, R161, R164, R165). -/
def decodeFields (op x y z : Byte) (d : Word) : Decoded :=
  match op.toNat with
  | 0x00 => .instr .nop
  | 0x01 => ifReservedZero op (x == 0 && y == 0 && z == 0 && d == 0) .reset
  | 0x02 => ifReservedZero op (x == 0 && y == 0 && z == 0) (.setSampleRate d)
  | 0x03 => ifReservedZero op (x == 0 && y == 0 && z == 0) (.setTempo d)
  | 0x04 => ifReservedZero op (x == 0 && y == 0 && z == 0) (.seedPrng d)
  | 0x05 => ifReservedZero op (d == 0) (.read x y z)
  | 0x06 => ifReservedZero op (x == 0 && y == 0 && z == 0 && d == 0) .clearStatus
  | 0x10 => ifReservedZero op (z == 0) (.noteOn x y d)
  | 0x11 => ifReservedZero op (x == 0 && y == 0 && z == 0 && d == 0) .noteOff
  | 0x12 => ifReservedZero op (x == 0 && y == 0 && z == 0 && d == 0) .voiceStop
  | 0x13 => ifReservedZero op (x == 0 && y == 0 && z == 0 && d == 0) .voiceKill
  | 0x14 => ifReservedZero op (x == 0 && z == 0 && d == 0) (.setPressure y)
  | 0x15 => ifReservedZero op (x == 0 && y == 0 && z == 0) (.process d)
  | 0x20 => ifReservedZero op (z == 0 && d == 0) (.oscSetWave x y)
  | 0x21 => ifReservedZero op (y == 0 && z == 0) (.oscSetFreq x d)
  | 0x22 => ifReservedZero op (y == 0 && z == 0) (.oscSetPhase x d)
  | 0x23 => ifReservedZero op (y == 0 && z == 0) (.oscSetDetune x d)
  | 0x24 => ifReservedZero op (y == 0 && z == 0) (.oscSetPw x d)
  | 0x25 => ifReservedZero op (y == 0 && z == 0) (.oscSetMix x d)
  | 0x26 => .instr (.oscCustWrite x (y ++ z) d)
  | 0x27 => ifReservedZero op (y == 0 && z == 0) (.oscCustCommit x d)
  | 0x30 => ifReservedZero op (z == 0 && d == 0) (.fltSetType x y)
  | 0x31 => ifReservedZero op (y == 0 && z == 0) (.fltSetCutoff x d)
  | 0x32 => ifReservedZero op (y == 0 && z == 0) (.fltSetRes x d)
  | 0x33 => ifReservedZero op (y == 0 && z == 0) (.fltSetGain x d)
  | 0x34 => ifReservedZero op (z == 0 && d == 0) (.fltSetEnable x y)
  | 0x35 => ifReservedZero op (y == 0 && z == 0 && d == 0) (.fltReset x)
  | 0x40 => ifReservedZero op (y == 0 && z == 0) (.envSetAttack x d)
  | 0x41 => ifReservedZero op (y == 0 && z == 0) (.envSetDecay x d)
  | 0x42 => ifReservedZero op (y == 0 && z == 0) (.envSetSustain x d)
  | 0x43 => ifReservedZero op (y == 0 && z == 0) (.envSetRelease x d)
  | 0x44 => ifReservedZero op (z == 0 && d == 0) (.envSetCurve x y)
  | 0x45 => ifReservedZero op (y == 0 && z == 0) (.envSetVelsens x d)
  | 0x46 => ifReservedZero op (y == 0 && z == 0 && d == 0) (.envTrigger x)
  | 0x47 => ifReservedZero op (y == 0 && z == 0 && d == 0) (.envRelease x)
  | 0x48 => ifReservedZero op (y == 0 && z == 0 && d == 0) (.envStop x)
  | 0x50 => ifReservedZero op (z == 0 && d == 0) (.lfoSetWave x y)
  | 0x51 => ifReservedZero op (y == 0 && z == 0) (.lfoSetFreq x d)
  | 0x52 => ifReservedZero op (z == 0 && d == 0) (.lfoSetMode x y)
  | 0x53 => ifReservedZero op (z == 0 && d == 0) (.lfoSetDiv x y)
  | 0x54 => ifReservedZero op (y == 0 && z == 0) (.lfoSetDepth x d)
  | 0x55 => ifReservedZero op (z == 0 && d == 0) (.lfoSetInvert x y)
  | 0x56 => ifReservedZero op (z == 0 && d == 0) (.lfoSetRetrig x y)
  | 0x57 => ifReservedZero op (y == 0 && z == 0) (.lfoSetPw x d)
  | 0x58 => ifReservedZero op (y == 0 && z == 0) (.lfoSetPhase x d)
  | 0x59 => ifReservedZero op (y == 0 && z == 0 && d == 0) (.lfoTrigger x)
  | 0x60 => .instr (.routeSet x y z d)
  | 0x61 => ifReservedZero op (y == 0 && z == 0 && d == 0) (.routeClear x)
  | _ => .illegalOpcode op

/-- The decoder, total on every 64-bit word. -/
def decodeCommand (w : Command) : Decoded :=
  decodeFields (Command.op w) (Command.x w) (Command.y w) (Command.z w) (Command.d w)

/-- The opcode of each command (R143). -/
def Instr.opcode : Instr → Byte
  | .nop => 0x00#8
  | .reset => 0x01#8
  | .setSampleRate _ => 0x02#8
  | .setTempo _ => 0x03#8
  | .seedPrng _ => 0x04#8
  | .read _ _ _ => 0x05#8
  | .clearStatus => 0x06#8
  | .noteOn _ _ _ => 0x10#8
  | .noteOff => 0x11#8
  | .voiceStop => 0x12#8
  | .voiceKill => 0x13#8
  | .setPressure _ => 0x14#8
  | .process _ => 0x15#8
  | .oscSetWave _ _ => 0x20#8
  | .oscSetFreq _ _ => 0x21#8
  | .oscSetPhase _ _ => 0x22#8
  | .oscSetDetune _ _ => 0x23#8
  | .oscSetPw _ _ => 0x24#8
  | .oscSetMix _ _ => 0x25#8
  | .oscCustWrite _ _ _ => 0x26#8
  | .oscCustCommit _ _ => 0x27#8
  | .fltSetType _ _ => 0x30#8
  | .fltSetCutoff _ _ => 0x31#8
  | .fltSetRes _ _ => 0x32#8
  | .fltSetGain _ _ => 0x33#8
  | .fltSetEnable _ _ => 0x34#8
  | .fltReset _ => 0x35#8
  | .envSetAttack _ _ => 0x40#8
  | .envSetDecay _ _ => 0x41#8
  | .envSetSustain _ _ => 0x42#8
  | .envSetRelease _ _ => 0x43#8
  | .envSetCurve _ _ => 0x44#8
  | .envSetVelsens _ _ => 0x45#8
  | .envTrigger _ => 0x46#8
  | .envRelease _ => 0x47#8
  | .envStop _ => 0x48#8
  | .lfoSetWave _ _ => 0x50#8
  | .lfoSetFreq _ _ => 0x51#8
  | .lfoSetMode _ _ => 0x52#8
  | .lfoSetDiv _ _ => 0x53#8
  | .lfoSetDepth _ _ => 0x54#8
  | .lfoSetInvert _ _ => 0x55#8
  | .lfoSetRetrig _ _ => 0x56#8
  | .lfoSetPw _ _ => 0x57#8
  | .lfoSetPhase _ _ => 0x58#8
  | .lfoTrigger _ => 0x59#8
  | .routeSet _ _ _ _ => 0x60#8
  | .routeClear _ => 0x61#8

/-- The fields X, Y, Z, D a command writes; a reserved-zero field, and every field of NOP, is 0 (R143, R165). -/
def Instr.fields : Instr → Byte × Byte × Byte × Word
  | .nop => (0, 0, 0, 0)
  | .reset => (0, 0, 0, 0)
  | .setSampleRate d => (0, 0, 0, d)
  | .setTempo d => (0, 0, 0, d)
  | .seedPrng d => (0, 0, 0, d)
  | .read x y z => (x, y, z, 0)
  | .clearStatus => (0, 0, 0, 0)
  | .noteOn x y d => (x, y, 0, d)
  | .noteOff => (0, 0, 0, 0)
  | .voiceStop => (0, 0, 0, 0)
  | .voiceKill => (0, 0, 0, 0)
  | .setPressure y => (0, y, 0, 0)
  | .process d => (0, 0, 0, d)
  | .oscSetWave x y => (x, y, 0, 0)
  | .oscSetFreq x d => (x, 0, 0, d)
  | .oscSetPhase x d => (x, 0, 0, d)
  | .oscSetDetune x d => (x, 0, 0, d)
  | .oscSetPw x d => (x, 0, 0, d)
  | .oscSetMix x d => (x, 0, 0, d)
  | .oscCustWrite x n d => (x, n.extractLsb' 8 8, n.extractLsb' 0 8, d)
  | .oscCustCommit x d => (x, 0, 0, d)
  | .fltSetType x y => (x, y, 0, 0)
  | .fltSetCutoff x d => (x, 0, 0, d)
  | .fltSetRes x d => (x, 0, 0, d)
  | .fltSetGain x d => (x, 0, 0, d)
  | .fltSetEnable x y => (x, y, 0, 0)
  | .fltReset x => (x, 0, 0, 0)
  | .envSetAttack x d => (x, 0, 0, d)
  | .envSetDecay x d => (x, 0, 0, d)
  | .envSetSustain x d => (x, 0, 0, d)
  | .envSetRelease x d => (x, 0, 0, d)
  | .envSetCurve x y => (x, y, 0, 0)
  | .envSetVelsens x d => (x, 0, 0, d)
  | .envTrigger x => (x, 0, 0, 0)
  | .envRelease x => (x, 0, 0, 0)
  | .envStop x => (x, 0, 0, 0)
  | .lfoSetWave x y => (x, y, 0, 0)
  | .lfoSetFreq x d => (x, 0, 0, d)
  | .lfoSetMode x y => (x, y, 0, 0)
  | .lfoSetDiv x y => (x, y, 0, 0)
  | .lfoSetDepth x d => (x, 0, 0, d)
  | .lfoSetInvert x y => (x, y, 0, 0)
  | .lfoSetRetrig x y => (x, y, 0, 0)
  | .lfoSetPw x d => (x, 0, 0, d)
  | .lfoSetPhase x d => (x, 0, 0, d)
  | .lfoTrigger x => (x, 0, 0, 0)
  | .routeSet x y z d => (x, y, z, d)
  | .routeClear x => (x, 0, 0, 0)

/-- The encoder: OP, X, Y, Z, D from the most significant end (R140). -/
def Instr.encode (i : Instr) : Command :=
  let f := i.fields
  i.opcode ++ f.1 ++ f.2.1 ++ f.2.2.1 ++ f.2.2.2

/-- The bytes of a command word as a byte transport carries them, byte 0 = W[7:0] first (20_memory.md R107). -/
def Command.toBytes (w : Command) : List Byte :=
  (List.range 8).map fun k => w.extractLsb' (8 * k) 8

/-- A word from its bytes, least significant first. -/
def wordOfBytes : List Byte → Nat
  | [] => 0
  | b :: bs => b.toNat + 256 * wordOfBytes bs

/-- The first command of a byte sequence and the bytes after it; none while the command is not whole: a partial
command is never executed (R108). -/
def decodeBytes (bs : List Byte) : Option (Decoded × List Byte) :=
  if bs.length < 8 then none
  else some (decodeCommand (BitVec.ofNat 64 (wordOfBytes (bs.take 8))), bs.drop 8)

/-- The 64-bit word whose low `nbits` bits are those of `w`, the rest zero. -/
def tableWord (nbits w : Nat) : Command := BitVec.ofNat 64 (w % 2 ^ nbits)

/-- The instruction the decoder reads from a word numbered as spec/opcode_table.json numbers it (format W64: bit
63 is the top bit of OP). The word is laid out in the transport's byte order and decoded from those bytes. -/
def decodeTableWord (nbits w : Nat) : Option Instr :=
  match decodeBytes (Command.toBytes (tableWord nbits w)) with
  | some (.instr i, _) => some i
  | _ => none

/-- One row of spec/opcode_table.json: a word is the command when (word & mask) = pattern. -/
structure OpcodeRow where
  mnemonic : String
  pattern : Command
  mask : Command
  deriving DecidableEq, Repr

/-- The rows of spec/opcode_table.json, families 0x0 and 0x1. -/
def opcodeRowsVoice : List OpcodeRow :=
  [⟨"NOP", 0x0000000000000000#64, 0xFF00000000000000#64⟩,
   ⟨"RESET", 0x0100000000000000#64, 0xFFFFFFFFFFFFFFFF#64⟩,
   ⟨"SET_SAMPLE_RATE", 0x0200000000000000#64, 0xFFFFFFFF00000000#64⟩,
   ⟨"SET_TEMPO", 0x0300000000000000#64, 0xFFFFFFFF00000000#64⟩,
   ⟨"SEED_PRNG", 0x0400000000000000#64, 0xFFFFFFFF00000000#64⟩,
   ⟨"READ", 0x0500000000000000#64, 0xFF000000FFFFFFFF#64⟩,
   ⟨"CLEAR_STATUS", 0x0600000000000000#64, 0xFFFFFFFFFFFFFFFF#64⟩,
   ⟨"NOTE_ON", 0x1000000000000000#64, 0xFF0000FF00000000#64⟩,
   ⟨"NOTE_OFF", 0x1100000000000000#64, 0xFFFFFFFFFFFFFFFF#64⟩,
   ⟨"VOICE_STOP", 0x1200000000000000#64, 0xFFFFFFFFFFFFFFFF#64⟩,
   ⟨"VOICE_KILL", 0x1300000000000000#64, 0xFFFFFFFFFFFFFFFF#64⟩,
   ⟨"SET_PRESSURE", 0x1400000000000000#64, 0xFFFF00FFFFFFFFFF#64⟩,
   ⟨"PROCESS", 0x1500000000000000#64, 0xFFFFFFFF00000000#64⟩]

/-- The rows of families 0x2 and 0x3. -/
def opcodeRowsOscFlt : List OpcodeRow :=
  [⟨"OSC_SET_WAVE", 0x2000000000000000#64, 0xFF0000FFFFFFFFFF#64⟩,
   ⟨"OSC_SET_FREQ", 0x2100000000000000#64, 0xFF00FFFF00000000#64⟩,
   ⟨"OSC_SET_PHASE", 0x2200000000000000#64, 0xFF00FFFF00000000#64⟩,
   ⟨"OSC_SET_DETUNE", 0x2300000000000000#64, 0xFF00FFFF00000000#64⟩,
   ⟨"OSC_SET_PW", 0x2400000000000000#64, 0xFF00FFFF00000000#64⟩,
   ⟨"OSC_SET_MIX", 0x2500000000000000#64, 0xFF00FFFF00000000#64⟩,
   ⟨"OSC_CUST_WRITE", 0x2600000000000000#64, 0xFF00000000000000#64⟩,
   ⟨"OSC_CUST_COMMIT", 0x2700000000000000#64, 0xFF00FFFF00000000#64⟩,
   ⟨"FLT_SET_TYPE", 0x3000000000000000#64, 0xFF0000FFFFFFFFFF#64⟩,
   ⟨"FLT_SET_CUTOFF", 0x3100000000000000#64, 0xFF00FFFF00000000#64⟩,
   ⟨"FLT_SET_RES", 0x3200000000000000#64, 0xFF00FFFF00000000#64⟩,
   ⟨"FLT_SET_GAIN", 0x3300000000000000#64, 0xFF00FFFF00000000#64⟩,
   ⟨"FLT_SET_ENABLE", 0x3400000000000000#64, 0xFF0000FFFFFFFFFF#64⟩,
   ⟨"FLT_RESET", 0x3500000000000000#64, 0xFF00FFFFFFFFFFFF#64⟩]

/-- The rows of families 0x4 to 0x6. -/
def opcodeRowsEnvLfo : List OpcodeRow :=
  [⟨"ENV_SET_ATTACK", 0x4000000000000000#64, 0xFF00FFFF00000000#64⟩,
   ⟨"ENV_SET_DECAY", 0x4100000000000000#64, 0xFF00FFFF00000000#64⟩,
   ⟨"ENV_SET_SUSTAIN", 0x4200000000000000#64, 0xFF00FFFF00000000#64⟩,
   ⟨"ENV_SET_RELEASE", 0x4300000000000000#64, 0xFF00FFFF00000000#64⟩,
   ⟨"ENV_SET_CURVE", 0x4400000000000000#64, 0xFF0000FFFFFFFFFF#64⟩,
   ⟨"ENV_SET_VELSENS", 0x4500000000000000#64, 0xFF00FFFF00000000#64⟩,
   ⟨"ENV_TRIGGER", 0x4600000000000000#64, 0xFF00FFFFFFFFFFFF#64⟩,
   ⟨"ENV_RELEASE", 0x4700000000000000#64, 0xFF00FFFFFFFFFFFF#64⟩,
   ⟨"ENV_STOP", 0x4800000000000000#64, 0xFF00FFFFFFFFFFFF#64⟩,
   ⟨"LFO_SET_WAVE", 0x5000000000000000#64, 0xFF0000FFFFFFFFFF#64⟩,
   ⟨"LFO_SET_FREQ", 0x5100000000000000#64, 0xFF00FFFF00000000#64⟩,
   ⟨"LFO_SET_MODE", 0x5200000000000000#64, 0xFF0000FFFFFFFFFF#64⟩,
   ⟨"LFO_SET_DIV", 0x5300000000000000#64, 0xFF0000FFFFFFFFFF#64⟩,
   ⟨"LFO_SET_DEPTH", 0x5400000000000000#64, 0xFF00FFFF00000000#64⟩,
   ⟨"LFO_SET_INVERT", 0x5500000000000000#64, 0xFF0000FFFFFFFFFF#64⟩,
   ⟨"LFO_SET_RETRIG", 0x5600000000000000#64, 0xFF0000FFFFFFFFFF#64⟩,
   ⟨"LFO_SET_PW", 0x5700000000000000#64, 0xFF00FFFF00000000#64⟩,
   ⟨"LFO_SET_PHASE", 0x5800000000000000#64, 0xFF00FFFF00000000#64⟩,
   ⟨"LFO_TRIGGER", 0x5900000000000000#64, 0xFF00FFFFFFFFFFFF#64⟩,
   ⟨"ROUTE_SET", 0x6000000000000000#64, 0xFF00000000000000#64⟩,
   ⟨"ROUTE_CLEAR", 0x6100000000000000#64, 0xFF00FFFFFFFFFFFF#64⟩]

/-- spec/opcode_table.json. -/
def opcodeRows : List OpcodeRow := opcodeRowsVoice ++ opcodeRowsOscFlt ++ opcodeRowsEnvLfo

/-- The mnemonic of each command (R143). -/
def Instr.mnemonic : Instr → String
  | .nop => "NOP"
  | .reset => "RESET"
  | .setSampleRate _ => "SET_SAMPLE_RATE"
  | .setTempo _ => "SET_TEMPO"
  | .seedPrng _ => "SEED_PRNG"
  | .read _ _ _ => "READ"
  | .clearStatus => "CLEAR_STATUS"
  | .noteOn _ _ _ => "NOTE_ON"
  | .noteOff => "NOTE_OFF"
  | .voiceStop => "VOICE_STOP"
  | .voiceKill => "VOICE_KILL"
  | .setPressure _ => "SET_PRESSURE"
  | .process _ => "PROCESS"
  | .oscSetWave _ _ => "OSC_SET_WAVE"
  | .oscSetFreq _ _ => "OSC_SET_FREQ"
  | .oscSetPhase _ _ => "OSC_SET_PHASE"
  | .oscSetDetune _ _ => "OSC_SET_DETUNE"
  | .oscSetPw _ _ => "OSC_SET_PW"
  | .oscSetMix _ _ => "OSC_SET_MIX"
  | .oscCustWrite _ _ _ => "OSC_CUST_WRITE"
  | .oscCustCommit _ _ => "OSC_CUST_COMMIT"
  | .fltSetType _ _ => "FLT_SET_TYPE"
  | .fltSetCutoff _ _ => "FLT_SET_CUTOFF"
  | .fltSetRes _ _ => "FLT_SET_RES"
  | .fltSetGain _ _ => "FLT_SET_GAIN"
  | .fltSetEnable _ _ => "FLT_SET_ENABLE"
  | .fltReset _ => "FLT_RESET"
  | .envSetAttack _ _ => "ENV_SET_ATTACK"
  | .envSetDecay _ _ => "ENV_SET_DECAY"
  | .envSetSustain _ _ => "ENV_SET_SUSTAIN"
  | .envSetRelease _ _ => "ENV_SET_RELEASE"
  | .envSetCurve _ _ => "ENV_SET_CURVE"
  | .envSetVelsens _ _ => "ENV_SET_VELSENS"
  | .envTrigger _ => "ENV_TRIGGER"
  | .envRelease _ => "ENV_RELEASE"
  | .envStop _ => "ENV_STOP"
  | .lfoSetWave _ _ => "LFO_SET_WAVE"
  | .lfoSetFreq _ _ => "LFO_SET_FREQ"
  | .lfoSetMode _ _ => "LFO_SET_MODE"
  | .lfoSetDiv _ _ => "LFO_SET_DIV"
  | .lfoSetDepth _ _ => "LFO_SET_DEPTH"
  | .lfoSetInvert _ _ => "LFO_SET_INVERT"
  | .lfoSetRetrig _ _ => "LFO_SET_RETRIG"
  | .lfoSetPw _ _ => "LFO_SET_PW"
  | .lfoSetPhase _ _ => "LFO_SET_PHASE"
  | .lfoTrigger _ => "LFO_TRIGGER"
  | .routeSet _ _ _ _ => "ROUTE_SET"
  | .routeClear _ => "ROUTE_CLEAR"

end Sys2Proof
end

