-- ==== Sys2Proof/Machine/Constants.lean ====
section
/-! DEFINITION. The fixed constants of the datapath (00_scope.md R8), each the RN32 of the decimal the rule
gives; Tests/Slice0.lean checks the patterns that are not exact. -/

namespace Sys2Proof.Const

/-- F_MIN = 20 Hz -/
def fMin : F32 := 0x41A00000#32
/-- F_MAX = 20000 Hz -/
def fMax : F32 := 0x469C4000#32
/-- DET_MIN = −12 semitones -/
def detMin : F32 := 0xC1400000#32
/-- DET_MAX = 12 semitones -/
def detMax : F32 := 0x41400000#32
/-- PW_MIN = 0.01 -/
def pwMin : F32 := 0x3C23D70A#32
/-- PW_MAX = 0.99 -/
def pwMax : F32 := 0x3F7D70A4#32
/-- FS_MIN = 8000 Hz -/
def fsMin : F32 := 0x45FA0000#32
/-- FS_MAX = 192000 Hz -/
def fsMax : F32 := 0x483B8000#32
/-- TEMPO_MIN = 20 BPM -/
def tempoMin : F32 := 0x41A00000#32
/-- TEMPO_MAX = 300 BPM -/
def tempoMax : F32 := 0x43960000#32
/-- CUT_MIN = 20 Hz -/
def cutMin : F32 := 0x41A00000#32
/-- CUT_MAX = 20000 Hz -/
def cutMax : F32 := 0x469C4000#32
/-- NYQ_FRAC = 0.49 -/
def nyqFrac : F32 := 0x3EFAE148#32
/-- Q_MIN = 0.1 -/
def qMin : F32 := 0x3DCCCCCD#32
/-- Q_MAX = 20 -/
def qMax : F32 := 0x41A00000#32
/-- GAIN_MIN = −24 dB -/
def gainMin : F32 := 0xC1C00000#32
/-- GAIN_MAX = 24 dB -/
def gainMax : F32 := 0x41C00000#32
/-- GUARD = 4096 -/
def guardLimit : F32 := 0x45800000#32
/-- MIX_MIN = 0 -/
def mixMin : F32 := 0x00000000#32
/-- MIX_MAX = 1 -/
def mixMax : F32 := 0x3F800000#32
/-- AMP_MIN = 0 -/
def ampMin : F32 := 0x00000000#32
/-- AMP_MAX = 2 -/
def ampMax : F32 := 0x40000000#32
/-- TIME_MIN = 0 s -/
def timeMin : F32 := 0x00000000#32
/-- TIME_MAX = 30 s -/
def timeMax : F32 := 0x41F00000#32
/-- T_SHUT = 0.003 s -/
def tShut : F32 := 0x3B449BA6#32
/-- LFO_F_MIN = 0.01 Hz -/
def lfoFMin : F32 := 0x3C23D70A#32
/-- LFO_F_MAX = 100 Hz -/
def lfoFMax : F32 := 0x42C80000#32
/-- −AMT_MAX = −1000000 -/
def amtMin : F32 := 0xC9742400#32
/-- AMT_MAX = 1000000 -/
def amtMax : F32 := 0x49742400#32
/-- The level bounds 0.0 and 1.0 of SUSTAIN, VELSENS and DEPTH (43_envelope.md R372, R375; 44_lfo.md R434). -/
def levelMin : F32 := 0x00000000#32
/-- See `levelMin`. -/
def levelMax : F32 := 0x3F800000#32
/-- NOTE_NONE = 255 -/
def noteNone : Byte := 255#8
/-- 127.0, the divisor of velocity and pressure (30_encoding.md R153). -/
def f127 : F32 := 0x42FE0000#32
/-- 0.25 -/
def quarter : F32 := 0x3E800000#32
/-- 0.5 -/
def half : F32 := 0x3F000000#32
/-- 0.75 -/
def threeQuarters : F32 := 0x3F400000#32
/-- 4.0 -/
def four : F32 := 0x40800000#32
/-- −1.0 -/
def minusOne : F32 := 0xBF800000#32
/-- Reset FS = 48000 Hz (10_state.md R33) -/
def fsReset : F32 := 0x473B8000#32
/-- Reset TEMPO = 120 BPM (R33) -/
def tempoReset : F32 := 0x42F00000#32
/-- Reset oscillator FREQ = 440 Hz (R37) -/
def freqReset : F32 := 0x43DC0000#32
/-- Reset RES = RN32(1/√2) (R38) -/
def resReset : F32 := 0x3F3504F3#32
/-- Reset ATTACK = 0.01 s (R39) -/
def attackReset : F32 := 0x3C23D70A#32
/-- Reset DECAY = 0.1 s (R39) -/
def decayReset : F32 := 0x3DCCCCCD#32
/-- Reset SUSTAIN = 0.8 (R39) -/
def sustainReset : F32 := 0x3F4CCCCD#32
/-- Reset RELEASE = 0.2 s (R39) -/
def releaseReset : F32 := 0x3E4CCCCD#32

end Sys2Proof.Const
end

