-- ==== Sys2Proof/Config.lean ====
section
/-! DEFINITION. The implementation parameters of 00_scope.md R7. They are arguments of the model:
State holds one Config, every rule reads it, no command changes it (10_state.md R31). -/

namespace Sys2Proof

/-- The parameters of R7, under the spec's names. -/
structure Config where
  /-- N_OSC, audio oscillators -/
  nOsc : Nat
  /-- N_FLT, filters in the cascade -/
  nFlt : Nat
  /-- N_ENV, envelopes; envelope 0 is the amplitude envelope -/
  nEnv : Nat
  /-- N_LFO, low-frequency oscillators -/
  nLfo : Nat
  /-- N_ROUTE, modulation-routing slots -/
  nRoute : Nat
  /-- TSIN, sine-table entries -/
  tsin : Nat
  /-- T, entries of a band table and of a custom table -/
  tab : Nat
  /-- NB, band-limited frequency bands -/
  nb : Nat
  /-- U_MAX, longest user waveform -/
  uMax : Nat
  deriving DecidableEq, Repr

/-- The reference configuration: the value column of R7. -/
def Config.reference : Config :=
  { nOsc := 3, nFlt := 2, nEnv := 3, nLfo := 2, nRoute := 8, tsin := 1024, tab := 2048, nb := 8, uMax := 4096 }

/-- The sign (bit 22) and the payload (bits 21:0) of a NaN the datapath makes: a free value (log entry 1). The spec gives
such a NaN no bits, and no frame, response or delay register can show it. -/
opaque Config.nanBits : BitVec 23

/-- A power of two. -/
def isPowerOfTwo (n : Nat) : Bool := 2 ^ Nat.log2 n == n

/-- The legal-range column of R7. A configuration outside it is refused by name (60_exceptions.md R625,
93_implementation_defined.md I2). -/
def Config.legal (c : Config) : Bool :=
  (1 ≤ c.nOsc && c.nOsc ≤ 16) && (1 ≤ c.nFlt && c.nFlt ≤ 16) && (3 ≤ c.nEnv && c.nEnv ≤ 16) &&
  (1 ≤ c.nLfo && c.nLfo ≤ 16) && (1 ≤ c.nRoute && c.nRoute ≤ 64) &&
  (64 ≤ c.tsin && c.tsin ≤ 65536 && isPowerOfTwo c.tsin) &&
  (64 ≤ c.tab && c.tab ≤ 65536 && isPowerOfTwo c.tab) &&
  (1 ≤ c.nb && c.nb ≤ 16) && (1 ≤ c.uMax && c.uMax ≤ 65536)

end Sys2Proof
end

