-- ==== Sys2Proof/Machine/Float.lean ====
section
/-! DEFINITION. IEEE 754 binary32 with round-to-nearest, ties-to-even, subnormals kept, no fused
operation (00_scope.md R11 to R15).

Every finite binary32 is a whole multiple of 2^-149, the least subnormal. `toInt` is that multiple, so
sums, comparisons, floors are exact Int arithmetic, and one function, `roundMag`, rounds every result. -/

namespace Sys2Proof.F32

/-- Sign bit. -/
def neg? (x : F32) : Bool := x.msb

/-- Biased exponent, bits 30:23. -/
def expo (x : F32) : Nat := x.toNat / 2 ^ 23 % 256

/-- Fraction, bits 22:0. -/
def frac (x : F32) : Nat := x.toNat % 2 ^ 23

/-- A NaN, any payload, either sign (R162). -/
def isNaN (x : F32) : Bool := expo x == 255 && frac x != 0

/-- +∞ or −∞. -/
def isInf (x : F32) : Bool := expo x == 255 && frac x == 0

/-- R13: true unless x is an infinity or a NaN. -/
def isFinite (x : F32) : Bool := expo x != 255

/-- +0.0 -/
def posZero : F32 := 0x00000000#32
/-- −0.0 -/
def negZero : F32 := 0x80000000#32
/-- 1.0 -/
def one : F32 := 0x3F800000#32
/-- 2.0 -/
def two : F32 := 0x40000000#32
/-- −2.0 -/
def negTwo : F32 := 0xC0000000#32
/-- +∞ -/
def posInf : F32 := 0x7F800000#32
/-- The NaN an invalid operation gives: a quiet one, its sign and payload a free value (log entry 1). -/
def nan : F32 := (Config.nanBits.extractLsb' 22 1 ++ 0x1FF#9 ++ Config.nanBits.extractLsb' 0 22 : BitVec 32)

/-- |x| as a multiple of 2^-149. An infinity gives 2^277, above every finite value, so comparisons
need no case of their own. -/
def mag (x : F32) : Nat :=
  if expo x = 0 then frac x else (frac x + 2 ^ 23) <<< (expo x - 1)

/-- x as a whole multiple of 2^-149. -/
def toInt (x : F32) : Int := if neg? x then -(mag x : Int) else (mag x : Int)

/-- The nearest whole number to n/d, ties to even; `d > 0`. -/
def roundHalfEven (n d : Nat) : Nat :=
  let q := n / d
  let r := n % d
  if 2 * r > d || (2 * r == d && q % 2 == 1) then q + 1 else q

/-- Round the magnitude (n/d)·2^-149 once to binary32, ties to even: bits 30:0 of the result. With `k`
doublings beyond the 24 significant bits, the pattern is k·2^23 plus the rounded 24-bit significand, which
also carries into the exponent, down to the subnormals and up to infinity. -/
def roundMag (n d : Nat) : Nat :=
  let k := Nat.log2 (n / d) - 23
  min (k <<< 23 + roundHalfEven n (d <<< k)) 0x7F800000

/-- A magnitude pattern with a sign. -/
def ofMag (neg : Bool) (m : Nat) : F32 := BitVec.ofNat 32 (if neg then m + 2 ^ 31 else m)

/-- Round the exact integer multiple `z` of 2^-149, `z ≠ 0`. -/
def roundInt (z : Int) : F32 := ofMag (decide (z < 0)) (roundMag z.natAbs 1)

/-- R12: negation flips the sign bit only. -/
def neg (x : F32) : F32 := x ^^^ 0x80000000#32

/-- |x| -/
def abs (x : F32) : F32 := x &&& 0x7FFFFFFF#32

/-- ⊕ (R12). The sum of two zeros is −0.0 only if both are; an exact cancellation is +0.0. -/
def add (a b : F32) : F32 :=
  if isNaN a || isNaN b then nan
  else if isInf a then (if isInf b && neg? a != neg? b then nan else a)
  else if isInf b then b
  else
    let z := toInt a + toInt b
    if z = 0 then (if neg? a && neg? b then negZero else posZero) else roundInt z

/-- ⊖ (R12). -/
def sub (a b : F32) : F32 := add a (neg b)

/-- ⊗ (R12). -/
def mul (a b : F32) : F32 :=
  let s := neg? a != neg? b
  if isNaN a || isNaN b then nan
  else if isInf a || isInf b then
    (if mag a == 0 || mag b == 0 then nan else ofMag s 0x7F800000)
  else ofMag s (roundMag (mag a * mag b) (2 ^ 149))

/-- ⊘ (R12). -/
def div (a b : F32) : F32 :=
  let s := neg? a != neg? b
  if isNaN a || isNaN b then nan
  else if isInf a then (if isInf b then nan else ofMag s 0x7F800000)
  else if isInf b then ofMag s 0
  else if mag b = 0 then (if mag a = 0 then nan else ofMag s 0x7F800000)
  else ofMag s (roundMag (mag a * 2 ^ 149) (mag b))

/-- The whole part of the k-th root of `n` among numbers below 2^bits, one bit a step from the top. -/
def rootBits (k n : Nat) : Nat → Nat → Nat
  | 0, r => r
  | b + 1, r => if (r + 2 ^ b) ^ k ≤ n then rootBits k n b (r + 2 ^ b) else rootBits k n b r

/-- sqrt32 (R12). The root of m·2^-149 is the root of m·2^149 in units of 2^-149; it is taken with two
extra bits and a sticky bit, so the one rounding is exact. -/
def sqrt (x : F32) : F32 :=
  if isNaN x then nan
  else if mag x = 0 then x
  else if neg? x then nan
  else if isInf x then x
  else
    let n := mag x * 2 ^ 149 * 2 ^ 4
    let r := rootBits 2 n 216 0
    ofMag false (roundMag (2 * r + (if r * r = n then 0 else 1)) (2 ^ 3))

/-- a < b on values; false if either is a NaN; −0.0 and +0.0 are equal. -/
def lt (a b : F32) : Bool := !isNaN a && !isNaN b && decide (toInt a < toInt b)

/-- a ≤ b on values; false if either is a NaN. -/
def le (a b : F32) : Bool := !isNaN a && !isNaN b && decide (toInt a ≤ toInt b)

/-- R13 clamp: lo if x < lo, else hi if x > hi, else x. -/
def clamp (x lo hi : F32) : F32 := if lt x lo then lo else if lt hi x then hi else x

/-- R13 min: the smaller of two values. -/
def min (a b : F32) : F32 := if lt b a then b else a

/-- R13 floor, on finite x. -/
def floor (x : F32) : Int := toInt x / 2 ^ 149

/-- R13 float: an integer to binary32. -/
def float (n : Int) : F32 :=
  if n = 0 then posZero else ofMag (decide (n < 0)) (roundMag (n.natAbs * 2 ^ 149) 1)

/-- R13 roundeven, on finite x. -/
def roundeven (x : F32) : Int :=
  if neg? x then -(roundHalfEven (mag x) (2 ^ 149) : Int) else (roundHalfEven (mag x) (2 ^ 149) : Int)

/-- R13 lerp: a ⊕ (t ⊗ (b ⊖ a)). -/
def lerp (a b t : F32) : F32 := add a (mul t (sub b a))

/-- R13 wrap, on finite x: the result is in [0, 1). -/
def wrap (x : F32) : F32 :=
  let y := sub x (float (floor x))
  if le one y then posZero else if y = negZero then posZero else y

/-- RN32 of the rational n/d, `d > 0` (R15). -/
def ofRat (neg : Bool) (n d : Nat) : F32 := ofMag neg (roundMag (n * 2 ^ 149) d)

end Sys2Proof.F32
end

