-- ==== Sys2Proof/Machine/Memory.lean ====
section
/-! DEFINITION. The writable table memories USER and CTAB (20_memory.md R104), reached by TableRead and
TableWrite (00_scope.md R10). A table is a list of (index, sample) pairs in one canonical form: indices
strictly rising, no entry equal to what an unlisted index reads as. -/

namespace Sys2Proof

/-- A table memory. -/
abbrev Memory := List (Nat × F32)

/-- What an unlisted index reads as: the spec's reset content, +0.0 (R104). -/
def Memory.unlisted : F32 := F32.posZero

/-- TableRead(tab, i). -/
def Memory.read : Memory → Nat → F32
  | [], _ => Memory.unlisted
  | (j, v) :: m, i => if i = j then v else if i < j then Memory.unlisted else Memory.read m i

/-- An entry in front of a table, left out if it says what an unlisted index reads as. -/
def Memory.entry (i : Nat) (v : F32) (m : Memory) : Memory := if v = Memory.unlisted then m else (i, v) :: m

/-- TableWrite(tab, i, v). -/
def Memory.write : Memory → Nat → F32 → Memory
  | [], i, v => Memory.entry i v []
  | (j, w) :: m, i, v =>
    if i = j then Memory.entry i v m
    else if i < j then Memory.entry i v ((j, w) :: m)
    else (j, w) :: Memory.write m i v

/-- The entries of `f` at the n indices from `i` on. -/
def Memory.tabulate (f : Nat → F32) : Nat → Nat → Memory
  | 0, _ => []
  | n + 1, i => Memory.entry i (f i) (Memory.tabulate f n (i + 1))

/-- Indices at or above `lo`, strictly rising, no entry equal to the unlisted value. -/
def Memory.wfFrom : Nat → Memory → Bool
  | _, [] => true
  | lo, (i, v) :: m => decide (lo ≤ i) && v != Memory.unlisted && Memory.wfFrom (i + 1) m

/-- The canonical form. -/
def Memory.wf (m : Memory) : Bool := Memory.wfFrom 0 m

/-- Every listed index lies below the table's size. -/
def Memory.below (n : Nat) (m : Memory) : Bool := m.all (fun e => decide (e.1 < n))

end Sys2Proof
end

