-- ==== Sys2Proof/Machine/Units.lean ====
section
/-! DEFINITION. The register sets of the block's units (10_state.md R37 to R43) and the enumerations their
registers hold (30_encoding.md R150 to R154), with the integer codes a READ shows. -/

namespace Sys2Proof.Machine

/-- Waveform kinds of an audio oscillator (R150). -/
inductive Wave where
  | sine | triangle | sawtooth | square | noise | custom
  deriving DecidableEq, Repr, Inhabited

/-- Waveform kinds of an LFO: the same codes without Custom (R150, 44_lfo.md R430). -/
inductive LfoWave where
  | sine | triangle | sawtooth | square | noise
  deriving DecidableEq, Repr, Inhabited

/-- Filter types (R151). -/
inductive FilterType where
  | lowPass | highPass | bandPass | notch | allPass | peaking | lowShelf | highShelf
  deriving DecidableEq, Repr, Inhabited

/-- Envelope stages (R152). -/
inductive Stage where
  | idle | attack | decay | sustain | release | shutdown
  deriving DecidableEq, Repr, Inhabited

/-- LFO sync modes (R152). -/
inductive LfoMode where
  | free | tempoSync | keySync
  deriving DecidableEq, Repr, Inhabited

/-- Event kinds (60_exceptions.md R601). -/
inductive Event where
  | illegalOpcode | reservedNonzero | badIndex | badOperand | nonfiniteOperand
  | filterInstability | outputSanitized | badAddress
  deriving DecidableEq, Repr

/-- R601's codes. -/
def eventCode : Event → Nat
  | .illegalOpcode => 1
  | .reservedNonzero => 2
  | .badIndex => 3
  | .badOperand => 4
  | .nonfiniteOperand => 5
  | .filterInstability => 6
  | .outputSanitized => 7
  | .badAddress => 8

def waveCode : Wave → Nat
  | .sine => 0 | .triangle => 1 | .sawtooth => 2 | .square => 3 | .noise => 4 | .custom => 5

/-- The kind a code names; codes 6 to 255 name none (R150). -/
def waveOf (y : Byte) : Option Wave :=
  match y.toNat with
  | 0 => some .sine | 1 => some .triangle | 2 => some .sawtooth | 3 => some .square | 4 => some .noise
  | 5 => some .custom | _ => none

def lfoWaveCode : LfoWave → Nat
  | .sine => 0 | .triangle => 1 | .sawtooth => 2 | .square => 3 | .noise => 4

/-- The kind a code names; Custom is refused (44_lfo.md R430). -/
def lfoWaveOf (y : Byte) : Option LfoWave :=
  match y.toNat with
  | 0 => some .sine | 1 => some .triangle | 2 => some .sawtooth | 3 => some .square | 4 => some .noise | _ => none

def filterTypeCode : FilterType → Nat
  | .lowPass => 0 | .highPass => 1 | .bandPass => 2 | .notch => 3 | .allPass => 4 | .peaking => 5
  | .lowShelf => 6 | .highShelf => 7

/-- The type a code names; codes 8 to 255 name none (R151). -/
def filterTypeOf (y : Byte) : Option FilterType :=
  match y.toNat with
  | 0 => some .lowPass | 1 => some .highPass | 2 => some .bandPass | 3 => some .notch | 4 => some .allPass
  | 5 => some .peaking | 6 => some .lowShelf | 7 => some .highShelf | _ => none

def stageCode : Stage → Nat
  | .idle => 0 | .attack => 1 | .decay => 2 | .sustain => 3 | .release => 4 | .shutdown => 5

def lfoModeCode : LfoMode → Nat
  | .free => 0 | .tempoSync => 1 | .keySync => 2

/-- The mode a code names; codes 3 to 255 name none (R152). -/
def lfoModeOf (y : Byte) : Option LfoMode :=
  match y.toNat with
  | 0 => some .free | 1 => some .tempoSync | 2 => some .keySync | _ => none

/-- A one-bit operand: 0 or 1 (42_filter.md R344, 44_lfo.md R435, R436). -/
def bitOf (y : Byte) : Option Bool :=
  match y.toNat with
  | 0 => some false | 1 => some true | _ => none

/-- Audio oscillator registers (R37) with the oscillator's two table memories (20_memory.md R104). -/
structure Osc where
  wave : Wave
  freq : F32
  phase : F32
  ph0 : F32
  detune : F32
  dscale : F32
  pw : F32
  mix : F32
  fEff : F32
  inc : F32
  band : Nat
  pwEff : F32
  mixEff : F32
  custLen : Nat
  user : Memory
  ctab : Memory
  deriving DecidableEq, Repr, Inhabited

/-- Filter registers (R38). -/
structure Flt where
  type : FilterType
  cutoff : F32
  res : F32
  gain : F32
  enable : Bool
  b0 : F32
  b1 : F32
  b2 : F32
  a0 : F32
  a1 : F32
  a2 : F32
  x1 : F32
  x2 : F32
  y1 : F32
  y2 : F32
  cutEff : F32
  qEff : F32
  gainEff : F32
  deriving DecidableEq, Repr, Inhabited

/-- Envelope registers (R39). Times are in seconds, lengths in samples. -/
structure Env where
  stage : Stage
  value : F32
  elapsed : Nat
  start : F32
  attack : F32
  decay : F32
  sustain : F32
  release : F32
  curve : Nat
  velsens : F32
  vm : F32
  lenA : Nat
  lenD : Nat
  lenR : Nat
  lenSh : Nat
  slopeA : F32
  slopeD : F32
  slopeR : F32
  slopeSh : F32
  deriving DecidableEq, Repr, Inhabited

/-- LFO registers (R40). -/
structure Lfo where
  wave : LfoWave
  freq : F32
  mode : LfoMode
  div : Nat
  depth : F32
  invert : Bool
  retrig : Bool
  pw : F32
  phase : F32
  value : F32
  fEff : F32
  inc : F32
  deriving DecidableEq, Repr, Inhabited

/-- A routing slot (R41): source and destination packed as {type[7:4], index[3:0]}. -/
structure Route where
  src : Byte
  dst : Byte
  amount : F32
  deriving DecidableEq, Repr, Inhabited

/-- The accumulators ACC[t][n] (R43), one list per destination type of R154. -/
structure Acc where
  oscFreq : List F32
  oscPw : List F32
  oscMix : List F32
  fltCutoff : List F32
  fltRes : List F32
  fltGain : List F32
  amp : F32
  deriving DecidableEq, Repr

/-- The six coefficients of a biquad, before or after normalisation (42_filter.md R300). -/
structure Coefs where
  b0 : F32
  b1 : F32
  b2 : F32
  a0 : F32
  a1 : F32
  a2 : F32
  deriving DecidableEq, Repr

/-- One emitted frame (20_memory.md R101). -/
structure Frame where
  l : F32
  r : F32
  deriving DecidableEq, Repr

/-- The registers of a class-1 index in field order (R37). -/
def oscFields (o : Osc) : List Word :=
  [BitVec.ofNat 32 (waveCode o.wave), o.freq, o.phase, o.ph0, o.detune, o.dscale, o.pw, o.mix, o.fEff, o.inc,
   BitVec.ofNat 32 o.band, o.pwEff, o.mixEff, BitVec.ofNat 32 o.custLen]

/-- The registers of a class-2 index in field order (R38). -/
def fltFields (f : Flt) : List Word :=
  [BitVec.ofNat 32 (filterTypeCode f.type), f.cutoff, f.res, f.gain, Word.ofBool f.enable, f.b0, f.b1, f.b2,
   f.a0, f.a1, f.a2, f.x1, f.x2, f.y1, f.y2, f.cutEff, f.qEff, f.gainEff]

/-- The registers of a class-3 index in field order (R39). -/
def envFields (e : Env) : List Word :=
  [BitVec.ofNat 32 (stageCode e.stage), e.value, BitVec.ofNat 32 e.elapsed, e.start, e.attack, e.decay, e.sustain,
   e.release, BitVec.ofNat 32 e.curve, e.velsens, e.vm, BitVec.ofNat 32 e.lenA, BitVec.ofNat 32 e.lenD,
   BitVec.ofNat 32 e.lenR, BitVec.ofNat 32 e.lenSh, e.slopeA, e.slopeD, e.slopeR, e.slopeSh]

/-- The registers of a class-4 index in field order (R40). -/
def lfoFields (l : Lfo) : List Word :=
  [BitVec.ofNat 32 (lfoWaveCode l.wave), l.freq, BitVec.ofNat 32 (lfoModeCode l.mode), BitVec.ofNat 32 l.div,
   l.depth, Word.ofBool l.invert, Word.ofBool l.retrig, l.pw, l.phase, l.value, l.fEff, l.inc]

/-- The registers of a class-5 index in field order (R41). -/
def routeFields (r : Route) : List Word := [r.src.setWidth 32, r.dst.setWidth 32, r.amount]

/-- ACC[t][n]; +0.0 where R43 names none. -/
def accGet (a : Acc) (t n : Nat) : F32 :=
  match t with
  | 1 => a.oscFreq.getD n F32.posZero
  | 2 => a.oscPw.getD n F32.posZero
  | 3 => a.oscMix.getD n F32.posZero
  | 4 => a.fltCutoff.getD n F32.posZero
  | 5 => a.fltRes.getD n F32.posZero
  | 6 => a.fltGain.getD n F32.posZero
  | 7 => a.amp
  | _ => F32.posZero

/-- ACC[t][n] <- ACC[t][n] ⊕ v; nothing where R43 names none. -/
def accAdd (a : Acc) (t n : Nat) (v : F32) : Acc :=
  match t with
  | 1 => { a with oscFreq := a.oscFreq.modify n (F32.add · v) }
  | 2 => { a with oscPw := a.oscPw.modify n (F32.add · v) }
  | 3 => { a with oscMix := a.oscMix.modify n (F32.add · v) }
  | 4 => { a with fltCutoff := a.fltCutoff.modify n (F32.add · v) }
  | 5 => { a with fltRes := a.fltRes.modify n (F32.add · v) }
  | 6 => { a with fltGain := a.fltGain.modify n (F32.add · v) }
  | 7 => { a with amp := F32.add a.amp v }
  | _ => a

end Sys2Proof.Machine
end

