-- ==== Sys2Proof/Machine/EnvUnit.lean ====
section
/-! DEFINITION. One ADSR envelope: lengths, curve, per-sample step, trigger, release, stop (43_envelope.md R350
to R364), and its reset values. -/

namespace Sys2Proof.Machine

/-- LEN = max(1, roundeven(t ⊗ FS)) (R351). -/
def envLen (t fs : F32) : Nat := max 1 (F32.roundeven (F32.mul t fs)).toNat

/-- SLOPE = 1 ⊘ float(LEN) (R351). -/
def envSlope (len : Nat) : F32 := F32.div F32.one (F32.float len)

/-- LEN_A and SLOPE_A recomputed (R351). -/
def envLenA (fs : F32) (e : Env) : Env :=
  { e with lenA := envLen e.attack fs, slopeA := envSlope (envLen e.attack fs) }

/-- LEN_D and SLOPE_D recomputed (R351). -/
def envLenD (fs : F32) (e : Env) : Env :=
  { e with lenD := envLen e.decay fs, slopeD := envSlope (envLen e.decay fs) }

/-- LEN_R and SLOPE_R recomputed (R351). -/
def envLenR (fs : F32) (e : Env) : Env :=
  { e with lenR := envLen e.release fs, slopeR := envSlope (envLen e.release fs) }

/-- LEN_SH and SLOPE_SH recomputed (R351). -/
def envLenSh (fs : F32) (e : Env) : Env :=
  { e with lenSh := envLen Const.tShut fs, slopeSh := envSlope (envLen Const.tShut fs) }

/-- All four stages recomputed: SET_SAMPLE_RATE and RESET (R351). -/
def envLens (fs : F32) (e : Env) : Env := envLenSh fs (envLenR fs (envLenD fs (envLenA fs e)))

/-- `n` more factors q on the product `acc`, left to right (R353). -/
def powBy (q : F32) : Nat → F32 → F32
  | 0, acc => acc
  | n + 1, acc => powBy q n (F32.mul acc q)

/-- The curve g(p) = 1 ⊖ (1 ⊖ p)^c (R353). -/
def envCurve (c : Nat) (p : F32) : F32 :=
  let q := F32.sub F32.one p
  F32.sub F32.one (powBy q (c - 1) q)

/-- The completion of a timed stage: the target is reached and the next stage begins (R352, R358). -/
def envEnter (e : Env) (τ : F32) (next : Stage) : Env :=
  { e with value := τ, start := τ, elapsed := 0, stage := next }

/-- Ramp(s, τ, next) (R352). -/
def envRamp (e : Env) (len : Nat) (slope τ : F32) (next : Stage) : Env :=
  if len ≤ e.elapsed + 1 then envEnter e τ next
  else
    let p := F32.mul (F32.float (e.elapsed + 1)) slope
    { e with
      elapsed := e.elapsed + 1
      value := F32.add e.start (F32.mul (F32.sub τ e.start) (envCurve e.curve p)) }

/-- The linear ramp of Shutdown (R358). -/
def envShutdown (e : Env) : Env :=
  if e.lenSh ≤ e.elapsed + 1 then envEnter e F32.posZero .idle
  else
    let p := F32.mul (F32.float (e.elapsed + 1)) e.slopeSh
    { e with elapsed := e.elapsed + 1, value := F32.mul e.start (F32.sub F32.one p) }

/-- One step per emitted sample (R352 to R359). -/
def envStep (e : Env) : Env :=
  match e.stage with
  | .attack => envRamp e e.lenA e.slopeA e.vm .decay
  | .decay => envRamp e e.lenD e.slopeD (F32.mul e.sustain e.vm) .sustain
  | .sustain => { e with value := F32.mul e.sustain e.vm }
  | .release => envRamp e e.lenR e.slopeR F32.posZero .idle
  | .shutdown => envShutdown e
  | .idle => { e with value := F32.posZero }

/-- Trigger (R360): Attack from any stage, VALUE kept. -/
def envTriggered (e : Env) : Env := { e with start := e.value, elapsed := 0, stage := .attack }

/-- Release (R361): only from Attack, Decay or Sustain. -/
def envReleased (e : Env) : Env :=
  match e.stage with
  | .attack | .decay | .sustain => { e with start := e.value, elapsed := 0, stage := .release }
  | .idle | .release | .shutdown => e

/-- Stop (R362): unless Idle or Shutdown. -/
def envStopped (e : Env) : Env :=
  match e.stage with
  | .attack | .decay | .sustain | .release => { e with start := e.value, elapsed := 0, stage := .shutdown }
  | .idle | .shutdown => e

/-- Forced to Idle at zero: VOICE_KILL, reclaim, dynamic reset (45_voice.md R454, R474; R704). -/
def envZeroed (e : Env) : Env :=
  { e with stage := .idle, value := F32.posZero, elapsed := 0, start := F32.posZero }

/-- VM = (1 ⊖ VELSENS) ⊕ (VELSENS ⊗ (float(vel) ⊘ 127)) (R363). -/
def envVm (velsens : F32) (vel : Byte) : F32 :=
  F32.add (F32.sub F32.one velsens) (F32.mul velsens (F32.div (F32.float vel.toNat) Const.f127))

/-- The reset registers of an envelope before the derived ones (70_reset_and_hazards.md R701). -/
def envReset : Env :=
  { stage := .idle, value := F32.posZero, elapsed := 0, start := F32.posZero, attack := Const.attackReset,
    decay := Const.decayReset, sustain := Const.sustainReset, release := Const.releaseReset, curve := 3,
    velsens := F32.one, vm := F32.one, lenA := 1, lenD := 1, lenR := 1, lenSh := 1,
    slopeA := F32.one, slopeD := F32.one, slopeR := F32.one, slopeSh := F32.one }

end Sys2Proof.Machine
end

