-- ==== Sys2Proof/Machine/FixedPoint.lean ====
section
/-! DEFINITION. RN32 of the real values the rules name (00_scope.md R15, 40_fastmath.md R214): the sine,
the band-limited series, 2^x, 10^x, logarithms and roots, each by exact integer arithmetic.

A real v is approached by integers a P with |v·2^P − a P| < 2^32 (log entry 2 gives the error bound of each
series). `rn32` rounds both ends of that interval; where they agree the result is RN32(v), whatever the
approximation was. Roots need no interval: they are rounded exactly. -/

namespace Sys2Proof.Fix

/-- The whole part of π·2^640. -/
def piBits : Nat := 0x3243f6a8885a308d313198a2e03707344a4093822299f31d0082efa98ec4e6c89452821e638d01377be5466cf34e90c6cc0ac29b7c97c50dd3f84d5b5b54709179216d5d98979fb1bd1310ba698dfb5ac

/-- The whole part of ln 2·2^640. -/
def ln2Bits : Nat := 0xb17217f7d1cf79abc9e3b39803f2f6af40f343267298b62d8a0d175b8baafa2be7b876206debac98559552fb4afa1b10ed2eae35c138214427573b291169b8253e96ca16224ae8c51acbda11317c387e

/-- The whole part of ln 10·2^640. -/
def ln10Bits : Nat := 0x24d763776aaa2b05ba95b58ae0b4c28a38a3fb3e76977e43a0f187a0807c0b5ca58bc0b5ec6a0417331c32f00b17c35a0b1889061042f8b6bee3de2100b945b59e0b3e28a2a324479d96a9b0ec360c7ef

/-- π to P ≤ 640 fraction bits. -/
def pi (P : Nat) : Nat := piBits >>> (640 - P)

/-- ln 2 to P ≤ 640 fraction bits. -/
def ln2 (P : Nat) : Nat := ln2Bits >>> (640 - P)

/-- ln 10 to P ≤ 640 fraction bits. -/
def ln10 (P : Nat) : Nat := ln10Bits >>> (640 - P)

/-- The interval's half width, in units of 2^-P. -/
def slack : Nat := 2 ^ 32

/-- The bits of m·2^(n−P) rounded to binary32. -/
def roundAt (P : Nat) (n : Int) (m : Nat) : Nat :=
  if 0 ≤ n then F32.roundMag (m <<< (149 + n.toNat)) (1 <<< P)
  else F32.roundMag (m <<< 149) (1 <<< (P + (-n).toNat))

/-- RN32 of v·2^n, v given by its approximations: 256 fraction bits, and 512 where the two ends of the
interval round apart. -/
def rn32Scaled (a : Nat → Int) (n : Int) : F32 :=
  let v := a 256
  let lo := roundAt 256 n (v.natAbs - slack)
  if lo = roundAt 256 n (v.natAbs + slack) then F32.ofMag (decide (v < 0)) lo
  else let w := a 512; F32.ofMag (decide (w < 0)) (roundAt 512 n w.natAbs)

/-- RN32 of v. -/
def rn32 (a : Nat → Int) : F32 := rn32Scaled a 0

/-- t − t·x²/(2k(2k+1)) + …: the alternating tail of the sine series from the term t on, `x2` = x². -/
def sinTail (P x2 : Nat) : Nat → Nat → Nat → Nat
  | 0, _, t => t
  | f + 1, k, t =>
    if t = 0 then 0 else t - sinTail P x2 f (k + 1) (((t * x2) >>> P) / (2 * k * (2 * k + 1)))

/-- sin(2π·j/N)·2^P for 0 ≤ j ≤ N/4. -/
def sinQuarter (P N j : Nat) : Nat :=
  let x := 2 * pi P * j / N
  sinTail P ((x * x) >>> P) 64 1 x

/-- sin(2π·i/N)·2^P, N a multiple of 4, by the quarter i lies in. -/
def sinTurn (P N i : Nat) : Int :=
  let i := i % N
  let q := N / 4
  if i ≤ q then (sinQuarter P N i : Int)
  else if i ≤ 2 * q then (sinQuarter P N (2 * q - i) : Int)
  else if i ≤ 3 * q then -(sinQuarter P N (i - 2 * q) : Int)
  else -(sinQuarter P N (4 * q - i) : Int)

/-- cos(2π·i/N)·2^P. -/
def cosTurn (P N i : Nat) : Int := sinTurn P N (i + N / 4)

/-- Σ sin(kθ)/k over the next h harmonics, (c, s) = (cos kθ, sin kθ) turned by (c1, s1) each step. -/
def sawSum (P : Nat) (c1 s1 : Int) : Nat → Nat → Int → Int → Int → Int
  | 0, _, _, _, acc => acc
  | h + 1, k, c, s, acc =>
    sawSum P c1 s1 h (k + 1) ((c * c1 - s * s1) >>> P) ((s * c1 + c * s1) >>> P) (acc + s / (k : Int))

/-- Σ σ·sin(kθ)/k² over the next h odd k, σ alternating; (c2, s2) turns by 2θ. -/
def triSum (P : Nat) (c2 s2 : Int) : Nat → Nat → Int → Int → Int → Int → Int
  | 0, _, _, _, _, acc => acc
  | h + 1, k, sg, c, s, acc =>
    triSum P c2 s2 h (k + 2) (-sg) ((c * c2 - s * s2) >>> P) ((s * c2 + c * s2) >>> P)
      (acc + sg * s / ((k * k : Nat) : Int))

/-- −(2/π)·Σ_(k=1..H) sin(2π·k·i/T)/k, times 2^P (41_oscillator.md R262). -/
def sawAt (T H i P : Nat) : Int :=
  let c := cosTurn P T i
  let s := sinTurn P T i
  let acc := sawSum P c s H 1 c s 0
  Int.neg (acc * (2 ^ (P + 1) : Nat) / (pi P : Int))

/-- (8/π²)·Σ_(k odd, k ≤ H) (−1)^((k−1)/2)·sin(2π·k·i/T)/k², times 2^P (R262). -/
def triAt (T H i P : Nat) : Int :=
  let acc := triSum P (cosTurn P T (2 * i)) (sinTurn P T (2 * i)) ((H + 1) / 2) 1 1 (cosTurn P T i) (sinTurn P T i) 0
  acc * (2 ^ (2 * P + 3) : Nat) / (pi P * pi P : Nat)

/-- t + t·r/k + …: the exponential series from the term t on. -/
def expTail (P r : Nat) : Nat → Nat → Nat → Nat
  | 0, _, t => t
  | f + 1, k, t => if t = 0 then 0 else t + expTail P r f (k + 1) (((t * r) >>> P) / k)

/-- RN32(e^y), y·2^P given by its approximations: e^y = 2^n·e^r with 0 ≤ r < ln 2. -/
def rn32Exp (y : Nat → Int) : F32 :=
  let n := y 256 / (ln2 256 : Int)
  rn32Scaled (fun P => (expTail P (y P - n * ln2 P).toNat 128 1 (1 <<< P) : Int)) n

/-- z + z³/3 + z⁵/5 + …: the series of artanh from the power t on, `z2` = z². -/
def artanhTail (P z2 : Nat) : Nat → Nat → Nat → Nat
  | 0, _, _ => 0
  | f + 1, k, t => if t = 0 then 0 else t / k + artanhTail P z2 f (k + 2) ((t * z2) >>> P)

/-- ln(m·2^-149)·2^P for m > 0: ln m = e·ln 2 + 2·artanh((m − 2^e)/(m + 2^e)), 2^e ≤ m. -/
def lnAt (m P : Nat) : Int :=
  let e := Nat.log2 m
  let z := ((m - 2 ^ e) <<< P) / (m + 2 ^ e)
  ((e : Int) - 149) * ln2 P + 2 * artanhTail P ((z * z) >>> P) 200 1 z

/-- RN32 of the k-th root of num/den, for roots in [1, 2^16): the root is cut at 32 fraction bits with a
sticky bit, so the one rounding is exact. -/
def rn32Root (k num den : Nat) : F32 :=
  let n := num <<< (32 * k)
  let r := F32.rootBits k (n / den) 48 0
  F32.ofMag false (F32.roundMag ((2 * r + (if r ^ k * den = n then 0 else 1)) <<< 149) (1 <<< 33))

/-- The greatest k with 2^k ≤ n/d, for n, d > 0. -/
def floorLog2 (n d : Nat) : Int :=
  let k := (Nat.log2 n : Int) - Nat.log2 d
  if (if 0 ≤ k then d <<< k.toNat ≤ n else d ≤ n <<< (-k).toNat) then k else k - 1

end Sys2Proof.Fix
end

