-- ==== Sys2Proof/Machine/FastMath.lean ====
section
/-! DEFINITION. FastMath (40_fastmath.md): the sine table and the trigonometric primitives, the level, pitch
and ratio functions, the PRNG draw. Tables are functions of the configuration (10_state.md R45). -/

namespace Sys2Proof.FastMath

/-- TWO_PI = RN32(2π) (R205). -/
def twoPi : F32 := 0x40C90FDB#32

/-- HALF_PI = RN32(π/2) (R205). -/
def halfPi : F32 := 0x3FC90FDB#32

/-- KSIN = RN32(TSIN/(2π)) (R205). TSIN is a power of two, so the product of RN32(1/(2π)) is exact. -/
def ksin (tsin : Nat) : F32 := F32.mul 0x3E22F983#32 (F32.float tsin)

/-- SINTAB[i] = RN32(sin(2π·i/TSIN)) (R206). -/
def sinTab (tsin i : Nat) : F32 :=
  if i % (tsin / 2) = 0 then F32.posZero else Fix.rn32 (fun P => Fix.sinTurn P tsin i)

/-- SinPos (R207): the sine table at a fractional position. -/
def sinPos (tsin : Nat) (pos : F32) : F32 :=
  let i := F32.floor pos
  let fr := F32.sub pos (F32.float i)
  F32.lerp (sinTab tsin (i % tsin).toNat) (sinTab tsin ((i + 1) % tsin).toNat) fr

/-- fsin (R208): the angle wrapped into [0, 2π), then the table. -/
def fsin (tsin : Nat) (θ : F32) : F32 :=
  let k := F32.floor (F32.div θ twoPi)
  let tw := F32.sub θ (F32.mul twoPi (F32.float k))
  sinPos tsin (F32.mul tw (ksin tsin))

/-- fcos (R208). -/
def fcos (tsin : Nat) (θ : F32) : F32 := fsin tsin (F32.add θ halfPi)

/-- DB40(g) = RN32(10^(g/40)) (R209), for g in [GAIN_MIN, GAIN_MAX]; a NaN, which no run from reset brings here, stays
one (log entry 11). -/
def db40 (g : F32) : F32 :=
  if F32.isNaN g then F32.nan
  else Fix.rn32Exp (fun P => F32.toInt g * Fix.ln10 P / (40 * 2 ^ 149 : Nat))

/-- DSCALE(d) = RN32(2^(d/12)) (R213), for d in [DET_MIN, DET_MAX]; a NaN, which no command keeps here, stays one (log
entry 11). -/
def dscale (d : F32) : F32 :=
  if F32.isNaN d then F32.nan
  else Fix.rn32Exp (fun P => F32.toInt d * Fix.ln2 P / (12 * 2 ^ 149 : Nat))

/-- N2F[n] = RN32(440·2^((n−69)/12)) (R211): the twelfth root of 440^12·2^n/2^69. -/
def n2f (n : Nat) : F32 := Fix.rn32Root 12 (440 ^ 12 * 2 ^ n) (2 ^ 69)

/-- dbToLinear(g) = RN32(10^(g/20)) (R209), for finite g; not used by the datapath. Beyond ±1000 dB the
result has left binary32 already, so g is cut there first. -/
def dbToLinear (g : F32) : Option F32 :=
  if F32.isFinite g then
    let g := F32.clamp g 0xC47A0000#32 0x447A0000#32
    some (Fix.rn32Exp (fun P => F32.toInt g * Fix.ln10 P / (20 * 2 ^ 149 : Nat)))
  else none

/-- linearToDb(x) = RN32(20·log10 x) (R209), for finite x > 0; not used by the datapath. -/
def linearToDb (x : F32) : Option F32 :=
  if F32.isFinite x && F32.lt F32.posZero x then
    some (if x = F32.one then F32.posZero
      else Fix.rn32 (fun P => 20 * Fix.lnAt (F32.mag x) P * (2 ^ P : Nat) / (Fix.ln10 P : Int)))
  else none

/-- frequencyToNote(f) = roundeven(69 + 12·log2(f/440)) (R212), for finite f > 0; not used by the datapath.
24·log2(f/440) is never an odd whole number, so the nearest note is read from its whole part. -/
def frequencyToNote (f : F32) : Option Int :=
  if F32.isFinite f && F32.lt F32.posZero f then
    some (69 + (Fix.floorLog2 (F32.mag f ^ 24) ((440 * 2 ^ 149) ^ 24) + 1) / 2)
  else none

/-- The PRNG's next state (R210). -/
def prngNext (s : Word) : Word := 1664525#32 * s + 1013904223#32

/-- The value of a draw that left the PRNG at `s` (R210): (float(s >> 8) ⊗ 2^-23) ⊖ 1.0. -/
def prngValue (s : Word) : F32 :=
  F32.sub (F32.mul (F32.float (s.toNat >>> 8 : Nat)) 0x34000000#32) F32.one

/-- Draw() (R210): the new state and the value. -/
def draw (s : Word) : Word × F32 := (prngNext s, prngValue (prngNext s))

end Sys2Proof.FastMath
end

