-- ==== Sys2Proof/Machine/FltUnit.lean ====
section
/-! DEFINITION. One biquad filter: coefficients, recurrence, guard (42_filter.md R300 to R332), and its
reset values. -/

namespace Sys2Proof.Machine

open F32 in
/-- The coefficients before normalisation, from alpha, cos w0 and the amplitude A = DB40(g) that only the
last three types read (R303 to R310). -/
def rawCoefs (ty : FilterType) (alpha cw A : F32) : Coefs :=
  let m2cw := mul negTwo cw
  let poles (b0 b1 b2 : F32) : Coefs :=
    { b0, b1, b2, a0 := add one alpha, a1 := m2cw, a2 := sub one alpha }
  match ty with
  | .lowPass =>
    let t := sub one cw
    poles (mul t Const.half) t (mul t Const.half)
  | .highPass =>
    let t := add one cw
    poles (mul t Const.half) (neg t) (mul t Const.half)
  | .bandPass => poles alpha posZero (neg alpha)
  | .notch => poles one m2cw one
  | .allPass => poles (sub one alpha) m2cw (add one alpha)
  | .peaking =>
    let aA := mul alpha A
    let adA := div alpha A
    { b0 := add one aA, b1 := m2cw, b2 := sub one aA, a0 := add one adA, a1 := m2cw, a2 := sub one adA }
  | .lowShelf =>
    let k := mul (mul two (sqrt A)) alpha
    let Ap1 := add A one
    let Am1 := sub A one
    let Am1c := mul Am1 cw
    let Ap1c := mul Ap1 cw
    { b0 := mul A (add (sub Ap1 Am1c) k)
      b1 := mul (mul two A) (sub Am1 Ap1c)
      b2 := mul A (sub (sub Ap1 Am1c) k)
      a0 := add (add Ap1 Am1c) k
      a1 := mul negTwo (add Am1 Ap1c)
      a2 := sub (add Ap1 Am1c) k }
  | .highShelf =>
    let k := mul (mul two (sqrt A)) alpha
    let Ap1 := add A one
    let Am1 := sub A one
    let Am1c := mul Am1 cw
    let Ap1c := mul Ap1 cw
    { b0 := mul A (add (add Ap1 Am1c) k)
      b1 := mul (mul negTwo A) (add Am1 Ap1c)
      b2 := mul A (sub (add Ap1 Am1c) k)
      a0 := add (sub Ap1 Am1c) k
      a1 := mul two (sub Am1 Ap1c)
      a2 := sub (sub Ap1 Am1c) k }

/-- R311: division by a0; A0 is 1.0. -/
def normCoefs (k : Coefs) : Coefs :=
  { b0 := F32.div k.b0 k.a0, b1 := F32.div k.b1 k.a0, b2 := F32.div k.b2 k.a0, a0 := F32.one,
    a1 := F32.div k.a1 k.a0, a2 := F32.div k.a2 k.a0 }

/-- Coefs(type, fc, Q, g) (R300), by the intermediate quantities of R302. -/
def coefs (tsin : Nat) (fs : F32) (ty : FilterType) (fc q g : F32) : Coefs :=
  let w0 := F32.mul FastMath.twoPi (F32.div fc fs)
  let alpha := F32.div (FastMath.fsin tsin w0) (F32.mul F32.two q)
  normCoefs (rawCoefs ty alpha (FastMath.fcos tsin w0) (FastMath.db40 g))

/-- The coefficient update (R320): the effective parameters of R301, then Coefs. -/
def fltUpdate (c : Config) (fs accCutoff accRes accGain : F32) (f : Flt) : Flt :=
  let fc := F32.clamp (F32.add f.cutoff accCutoff) Const.cutMin (F32.min Const.cutMax (F32.mul Const.nyqFrac fs))
  let q := F32.clamp (F32.add f.res accRes) Const.qMin Const.qMax
  let g := F32.clamp (F32.add f.gain accGain) Const.gainMin Const.gainMax
  let k := coefs c.tsin fs f.type fc q g
  { f with
    cutEff := fc, qEff := q, gainEff := g
    b0 := k.b0, b1 := k.b1, b2 := k.b2, a0 := k.a0, a1 := k.a1, a2 := k.a2 }

/-- The delay line cleared (R332, R344, R345). -/
def fltClear (f : Flt) : Flt :=
  { f with x1 := F32.posZero, x2 := F32.posZero, y1 := F32.posZero, y2 := F32.posZero }

open F32 in
/-- The y of R331, each product rounded before its sum. -/
def biquadOut (f : Flt) (x : F32) : F32 :=
  sub (sub (add (add (mul f.b0 x) (mul f.b1 f.x1)) (mul f.b2 f.x2)) (mul f.a1 f.y1)) (mul f.a2 f.y2)

/-- The guard of R332: y is not finite, or |y| > GUARD. -/
def guardTrips (y : F32) : Bool := !F32.isFinite y || F32.lt Const.guardLimit (F32.abs y)

/-- Biquad(j, x) (R331, R332): the filter after the sample, its output, the events it raises. -/
def biquad (f : Flt) (x : F32) : Flt × F32 × List Event :=
  let y := biquadOut f x
  if guardTrips y then (fltClear f, F32.posZero, [.filterInstability])
  else ({ f with x2 := f.x1, x1 := x, y2 := f.y1, y1 := y }, y, [])

/-- The cascade (R330): enabled filters in increasing index order, a disabled filter passes x through and
keeps its delay line. Events come out in filter order (60_exceptions.md R605). -/
def cascade : List Flt → F32 → List Flt × F32 × List Event
  | [], x => ([], x, [])
  | f :: fs, x =>
    if f.enable then
      let b := biquad f x
      let rest := cascade fs b.2.1
      (b.1 :: rest.1, rest.2.1, b.2.2 ++ rest.2.2)
    else
      let rest := cascade fs x
      (f :: rest.1, rest.2)

/-- The reset registers of a filter before the derived ones (70_reset_and_hazards.md R701). -/
def fltReset : Flt :=
  { type := .lowPass, cutoff := Const.cutMax, res := Const.resReset, gain := F32.posZero, enable := false,
    b0 := F32.posZero, b1 := F32.posZero, b2 := F32.posZero, a0 := F32.one, a1 := F32.posZero, a2 := F32.posZero,
    x1 := F32.posZero, x2 := F32.posZero, y1 := F32.posZero, y2 := F32.posZero,
    cutEff := F32.posZero, qEff := F32.posZero, gainEff := F32.posZero }

end Sys2Proof.Machine
end

