-- ==== Sys2Proof/Machine/Tables.lean ====
section
/-! DEFINITION. The shared read-only tables as functions of FS and the configuration (20_memory.md R104;
10_state.md R45 and 70_reset_and_hazards.md R703 allow it), and the closed-form waveforms. -/

namespace Sys2Proof.Tables

/-- EDGE[b] = RN32(20·10^(3b/NB)) (41_oscillator.md R260): the NB-th root of 20^NB·10^(3b). -/
def edge (nb b : Nat) : F32 := Fix.rn32Root nb (20 ^ nb * 10 ^ (3 * b)) 1

/-- The largest b < n with f ≥ EDGE[b], or 0. -/
def bandBelow (nb : Nat) (f : F32) : Nat → Nat
  | 0 => 0
  | b + 1 => if F32.le (edge nb b) f then b else bandBelow nb f b

/-- SelectBand(f) (R260). -/
def selectBand (nb : Nat) (f : F32) : Nat := bandBelow nb f nb

/-- HARM[b] = max(1, floor((FS/2)/EDGE[b+1])), the division exact (R261). -/
def harm (nb : Nat) (fs : F32) (b : Nat) : Nat := max 1 (F32.mag fs / (2 * F32.mag (edge nb (b + 1))))

/-- SAW[b][i] (R262). An exact zero, at i = 0 and i = T/2, is +0.0. -/
def saw (c : Config) (fs : F32) (b i : Nat) : F32 :=
  if i % (c.tab / 2) = 0 then F32.posZero else Fix.rn32 (Fix.sawAt c.tab (harm c.nb fs b) i)

/-- TRI[b][i] (R262). An exact zero, at i = 0 and i = T/2, is +0.0. -/
def tri (c : Config) (fs : F32) (b i : Nat) : F32 :=
  if i % (c.tab / 2) = 0 then F32.posZero else Fix.rn32 (Fix.triAt c.tab (harm c.nb fs b) i)

/-- BandRead (R263): a T-entry table, given by TableRead, at phase φ in [0, 1). -/
def bandRead (t : Nat) (tableRead : Nat → F32) (φ : F32) : F32 :=
  let pos := F32.mul φ (F32.float t)
  let i := (F32.floor pos).toNat
  F32.lerp (tableRead i) (tableRead ((i + 1) % t)) (F32.sub pos (F32.float i))

/-- TriCF (R265). -/
def triCF (φ : F32) : F32 :=
  if F32.lt φ Const.quarter then F32.mul Const.four φ
  else if F32.lt φ Const.threeQuarters then F32.sub F32.two (F32.mul Const.four φ)
  else F32.sub (F32.mul Const.four φ) Const.four

/-- SawCF (R265). -/
def sawCF (φ : F32) : F32 := F32.sub (F32.mul F32.two φ) F32.one

/-- SquareCF (R265). -/
def squareCF (φ pw : F32) : F32 := if F32.lt φ pw then F32.one else Const.minusOne

/-- The note length of each tempo division in quarter-note beats, as a fraction (44_lfo.md R420). -/
def divBeats : List (Nat × Nat) :=
  [(4, 1), (2, 1), (1, 1), (1, 2), (1, 4), (1, 8), (6, 1), (3, 1), (3, 2), (3, 4), (3, 8),
   (8, 3), (4, 3), (2, 3), (1, 3), (1, 6)]

/-- RDIV[d] = RN32(1/(60·beats_d)) (R420). -/
def rdiv (d : Nat) : F32 :=
  let b := divBeats.getD d (1, 1)
  F32.ofRat false b.2 (60 * b.1)

end Sys2Proof.Tables
end

