-- ==== Sys2Proof/Machine/LfoUnit.lean ====
section
/-! DEFINITION. One LFO: effective frequency, value, phase (44_lfo.md R400 to R406), and its reset values. -/

namespace Sys2Proof.Machine

/-- F_EFF and INC (R401): in TempoSync the rate follows the tempo and FREQ is ignored. -/
def lfoEffective (fs tempo : F32) (l : Lfo) : Lfo :=
  let fe :=
    match l.mode with
    | .tempoSync => F32.clamp (F32.mul tempo (Tables.rdiv l.div)) Const.lfoFMin Const.lfoFMax
    | .free | .keySync => l.freq
  { l with fEff := fe, inc := F32.div fe fs }

/-- LfoWave (R404): the PRNG state after it and the value at the current phase. -/
def lfoWave (tsin : Nat) (l : Lfo) (prng : Word) : Word × F32 :=
  match l.wave with
  | .sine => (prng, FastMath.sinPos tsin (F32.mul l.phase (F32.float tsin)))
  | .triangle => (prng, Tables.triCF l.phase)
  | .sawtooth => (prng, Tables.sawCF l.phase)
  | .square => (prng, Tables.squareCF l.phase l.pw)
  | .noise => FastMath.draw prng

/-- VALUE (R402): depth times the wave, negated if INVERT. -/
def lfoValue (l : Lfo) (w : F32) : Lfo :=
  let v := F32.mul l.depth w
  { l with value := if l.invert then F32.neg v else v }

/-- Step 2 of BlockStart (45_voice.md R471): every LFO's VALUE in increasing index, the PRNG passing on. -/
def lfoBank (tsin : Nat) : List Lfo → Word → Word × List Lfo
  | [], prng => (prng, [])
  | l :: ls, prng =>
    let w := lfoWave tsin l prng
    let rest := lfoBank tsin ls w.1
    (rest.1, lfoValue l w.2 :: rest.2)

/-- The phase advance of one sample (R403); a Noise LFO advances too. -/
def lfoAdvance (l : Lfo) : Lfo := { l with phase := F32.wrap (F32.add l.phase l.inc) }

/-- LfoTrigger (R405). -/
def lfoTriggered (l : Lfo) : Lfo := if l.retrig then { l with phase := F32.posZero } else l

/-- What NOTE_ON does to an LFO (R406). -/
def lfoNoteOn (l : Lfo) : Lfo :=
  if l.retrig || l.mode == .keySync then { l with phase := F32.posZero } else l

/-- The reset registers of an LFO before the derived ones (70_reset_and_hazards.md R701). -/
def lfoReset : Lfo :=
  { wave := .sine, freq := F32.one, mode := .free, div := 2, depth := F32.one, invert := false, retrig := false,
    pw := Const.half, phase := F32.posZero, value := F32.posZero, fEff := F32.posZero, inc := F32.posZero }

end Sys2Proof.Machine
end

