-- ==== Sys2Proof/Machine/OscUnit.lean ====
section
/-! DEFINITION. The datapath of one audio oscillator (41_oscillator.md R250 to R264) and its reset values. -/

namespace Sys2Proof.Machine

/-- The effective parameters of an oscillator, from the accumulators of its three destinations (R251). -/
def oscEffective (c : Config) (fs accFreq accPw accMix : F32) (o : Osc) : Osc :=
  let f := F32.clamp (F32.add (F32.mul o.freq o.dscale) accFreq) Const.fMin Const.fMax
  { o with
    fEff := f
    inc := F32.div f fs
    band := Tables.selectBand c.nb f
    pwEff := F32.clamp (F32.add o.pw accPw) Const.pwMin Const.pwMax
    mixEff := F32.clamp (F32.add o.mix accMix) Const.mixMin Const.mixMax }

/-- Square (R258): two band-limited saws and a DC term. -/
def oscSquare (c : Config) (fs : F32) (o : Osc) : F32 :=
  let tab := Tables.saw c fs o.band
  let s1 := Tables.bandRead c.tab tab (F32.wrap (F32.sub o.phase o.pwEff))
  let s2 := Tables.bandRead c.tab tab o.phase
  F32.add (F32.sub s1 s2) (F32.sub (F32.mul F32.two o.pwEff) F32.one)

/-- OscWave (R254): the PRNG state after it and the value at the current phase. Only Noise draws (R259). -/
def oscWave (c : Config) (fs : F32) (o : Osc) (prng : Word) : Word × F32 :=
  match o.wave with
  | .sine => (prng, FastMath.sinPos c.tsin (F32.mul o.phase (F32.float c.tsin)))
  | .triangle => (prng, Tables.bandRead c.tab (Tables.tri c fs o.band) o.phase)
  | .sawtooth => (prng, Tables.bandRead c.tab (Tables.saw c fs o.band) o.phase)
  | .square => (prng, oscSquare c fs o)
  | .noise => FastMath.draw prng
  | .custom => (prng, Tables.bandRead c.tab o.ctab.read o.phase)

/-- The phase accumulator (R250): a Noise oscillator keeps its phase. -/
def oscAdvance (o : Osc) : Osc :=
  match o.wave with
  | .noise => o
  | _ => { o with phase := F32.wrap (F32.add o.phase o.inc) }

/-- Step 1 of Sample (45_voice.md R472): every oscillator in increasing index takes its wave, then its
advance; the PRNG passes from one to the next. -/
def oscBank (c : Config) (fs : F32) : List Osc → Word → Word × List F32 × List Osc
  | [], prng => (prng, [], [])
  | o :: os, prng =>
    let w := oscWave c fs o prng
    let rest := oscBank c fs os w.1
    (rest.1, w.2 :: rest.2.1, oscAdvance o :: rest.2.2)

/-- Mix (R476) from the sum `m` on, rounded at each step in index order. -/
def oscMix : List Osc → List F32 → F32 → F32
  | o :: os, w :: ws, m => oscMix os ws (F32.add m (F32.mul o.mixEff w))
  | _, _, m => m

/-- Entry m of the custom table resampled from the first `u` user samples, linear and periodic (R277). -/
def custResample (t u : Nat) (user : Memory) (m : Nat) : F32 :=
  let j := m * u / t
  let fr := F32.mul (F32.float (m * u % t : Nat)) (F32.ofRat false 1 t)
  F32.lerp (user.read j) (user.read ((j + 1) % u)) fr

/-- The reset registers of oscillator i before the derived ones (70_reset_and_hazards.md R701). -/
def oscReset (i : Nat) : Osc :=
  { wave := .sine, freq := Const.freqReset, phase := F32.posZero, ph0 := F32.posZero, detune := F32.posZero,
    dscale := F32.one, pw := Const.half, mix := if i = 0 then F32.one else F32.posZero,
    fEff := F32.posZero, inc := F32.posZero, band := 0, pwEff := F32.posZero, mixEff := F32.posZero,
    custLen := 0, user := [], ctab := [] }

end Sys2Proof.Machine
end

