-- ==== Sys2Proof/Machine/ResetValues.lean ====
section
/-! DEFINITION. The register sets FullReset leaves, derived registers included (70_reset_and_hazards.md R701,
R702), with every ACC at +0.0. -/

namespace Sys2Proof.Machine

/-- Every oscillator after FullReset. -/
def oscsAtReset (c : Config) : List Osc :=
  (List.range c.nOsc).map fun i =>
    oscEffective c Const.fsReset F32.posZero F32.posZero F32.posZero (oscReset i)

/-- Every filter after FullReset. -/
def fltsAtReset (c : Config) : List Flt :=
  List.replicate c.nFlt (fltUpdate c Const.fsReset F32.posZero F32.posZero F32.posZero fltReset)

/-- Every envelope after FullReset. -/
def envsAtReset (c : Config) : List Env := List.replicate c.nEnv (envLens Const.fsReset envReset)

/-- Every LFO after FullReset. -/
def lfosAtReset (c : Config) : List Lfo :=
  List.replicate c.nLfo (lfoEffective Const.fsReset Const.tempoReset lfoReset)

/-- An empty routing slot: source NONE, destination NONE (R701, 45_voice.md R464). -/
def routeEmpty : Route := { src := 0#8, dst := 0#8, amount := F32.posZero }

/-- Every ACC at +0.0 (R701). -/
def accZero (c : Config) : Acc :=
  { oscFreq := List.replicate c.nOsc F32.posZero, oscPw := List.replicate c.nOsc F32.posZero,
    oscMix := List.replicate c.nOsc F32.posZero, fltCutoff := List.replicate c.nFlt F32.posZero,
    fltRes := List.replicate c.nFlt F32.posZero, fltGain := List.replicate c.nFlt F32.posZero,
    amp := F32.posZero }

end Sys2Proof.Machine
end

