-- ==== Sys2Proof/Machine/State.lean ====
section
/-! DEFINITION. The state of the block: everything 10_state.md and 20_memory.md give it, its streams, and the
reasons a run can stop. -/

namespace Sys2Proof.Machine

/-- The block's state. Register names are the spec's; STATUS, ACTIVE and CONFIG0 to CONFIG2 are derived when
read (R34, R36, R42), the shared tables when used (R45). -/
structure State where
  /-- the implementation parameters (00_scope.md R7); no command changes them (R31) -/
  cfg : Config
  /-- power-on reset or RESET has run (R46, 60_exceptions.md R625) -/
  resetDone : Bool
  /-- the command stream, next word first (20_memory.md R100) -/
  commands : List Command
  /-- bytes of a command word not yet whole, first received first (R107, R108) -/
  rxBytes : List Byte
  /-- the frames on the audio output stream that the host has not taken, newest first (R101) -/
  audio : List Frame
  /-- the words on the response stream that the host has not taken, newest first (R102) -/
  responses : List Word
  /-- frames the audio stream can hold until the host takes them; none: unbounded (R103, R625; log entry 3). That its room is
  counted by frame, not by the sample words of R103 and R108, is the model's choice (log entry 19) -/
  audioCap : Option Nat
  /-- words the response stream can hold until the host takes them; none: unbounded (R103, R625; log entry 3) -/
  respCap : Option Nat
  /-- FS (R33) -/
  fs : F32
  /-- TEMPO (R33) -/
  tempo : F32
  /-- PRNG_STATE (R33) -/
  prng : Word
  /-- SAMPLE_COUNT (R33) -/
  sampleCount : Word
  /-- EVT_STICKY (R35) -/
  evtSticky : Word
  /-- LAST_EVT (R35) -/
  lastEvt : Word
  /-- REJECT_COUNT (R35) -/
  rejectCount : Word
  /-- INSTAB_COUNT (R35) -/
  instabCount : Word
  /-- SANITIZE_COUNT (R35) -/
  sanitizeCount : Word
  /-- oscillators, N_OSC of them (R37) -/
  osc : List Osc
  /-- filters, N_FLT of them (R38) -/
  flt : List Flt
  /-- envelopes, N_ENV of them (R39) -/
  env : List Env
  /-- LFOs, N_LFO of them (R40) -/
  lfo : List Lfo
  /-- routing slots, N_ROUTE of them (R41) -/
  route : List Route
  /-- NOTE, 0..127 or NOTE_NONE (R42) -/
  note : Byte
  /-- VEL (R42) -/
  vel : Byte
  /-- PRESSURE (R42) -/
  pressure : Byte
  /-- AMP_EFF (R42) -/
  ampEff : F32
  /-- ACC[t][n] (R43) -/
  acc : Acc
  deriving DecidableEq, Repr

/-- Faults: none. "No command or datapath condition is a fault, because every event is defined behaviour with
a defined next state" (60_exceptions.md R625), so the type has no constructor. -/
inductive Fault where
  deriving DecidableEq, Repr

/-- Refusals. -/
inductive Refusal where
  /-- An instruction without a meaning yet, by its mnemonic; raised by exec's arm alone. Safe: the run stops. -/
  | notModelled (mnemonic : String)
  /-- A configuration outside the legal ranges of 00_scope.md R7; raised by step. Safe: the spec asks for this
  refusal by name (60_exceptions.md R625, 93_implementation_defined.md I2). -/
  | illegalConfiguration
  /-- A command before any power-on reset or RESET; raised by step. Safe: the spec asks for this refusal by name
  (60_exceptions.md R625, 93_implementation_defined.md I1). -/
  | runWithoutReset
  deriving DecidableEq, Repr

/-- The state power-on reset leaves under configuration `c`: every register at its reset value, the derived ones
computed, streams empty (70_reset_and_hazards.md R701, R705, R711). Unbounded streams are the model's choice
(log entry 3). -/
def State.resetOf (c : Config) : State :=
  { cfg := c, resetDone := true, commands := [], rxBytes := [], audio := [], responses := [],
    audioCap := none, respCap := none,
    fs := Const.fsReset, tempo := Const.tempoReset, prng := 1#32, sampleCount := 0#32,
    evtSticky := 0#32, lastEvt := 0#32, rejectCount := 0#32, instabCount := 0#32, sanitizeCount := 0#32,
    osc := oscsAtReset c, flt := fltsAtReset c, env := envsAtReset c, lfo := lfosAtReset c,
    route := List.replicate c.nRoute routeEmpty,
    note := Const.noteNone, vel := 0#8, pressure := 0#8, ampEff := F32.one, acc := accZero c }

/-- The machine right after reset, in the reference configuration (R7). -/
def State.reset : State := State.resetOf Config.reference

end Sys2Proof.Machine
end

