-- ==== Sys2Proof/Machine/Flags.lean ====
section
/-! DEFINITION. Flags and derived status words (10_state.md R34 to R36, R44): STATUS, ACTIVE, the configuration
words, the event bits and counters. -/

namespace Sys2Proof.Machine

/-- The amplitude envelope, env[0] (R39). N_ENV ≥ 3, so it exists; log entry 10 covers an empty list. -/
def State.ampEnv (s : State) : Env := s.env.getD 0 envReset

/-- IsActive(k) (43_envelope.md R364). -/
def envActive (e : Env) : Bool := e.stage != .idle

/-- VOICE.ACTIVE = STATUS bit 0 (R34, R42). -/
def State.active (s : State) : Bool := envActive s.ampEnv

/-- STATUS.NOTE_VALID (R34). -/
def State.noteValid (s : State) : Bool := s.note != Const.noteNone

/-- STATUS.ERR (R34). -/
def State.err (s : State) : Bool := s.evtSticky != 0#32

/-- STATUS (R34): ERR, NOTE_VALID, AMP_STAGE, ACTIVE from bit 5 down; bits 31:6 read 0. -/
def State.status (s : State) : Word :=
  0#26 ++ BitVec.ofBool s.err ++ BitVec.ofBool s.noteValid ++ BitVec.ofNat 3 (stageCode s.ampEnv.stage) ++
    BitVec.ofBool s.active

/-- CONFIG0 (R36). -/
def config0 (c : Config) : Word :=
  BitVec.ofNat 8 c.nLfo ++ BitVec.ofNat 8 c.nEnv ++ BitVec.ofNat 8 c.nFlt ++ BitVec.ofNat 8 c.nOsc

/-- CONFIG1 (R36). -/
def config1 (c : Config) : Word :=
  BitVec.ofNat 8 c.nb ++ BitVec.ofNat 8 (Nat.log2 c.tab) ++ BitVec.ofNat 8 (Nat.log2 c.tsin) ++
    BitVec.ofNat 8 c.nRoute

/-- CONFIG2 (R36). -/
def config2 (c : Config) : Word := BitVec.ofNat 32 c.uMax

/-- The bit of EVT_STICKY an event sets (R35). -/
def eventBit (e : Event) : Word := 1#32 <<< eventCode e

/-- What LAST_EVT holds after an event of the command with opcode `op` (R35, 60_exceptions.md R602). -/
def lastEvtWord (op : Byte) (e : Event) : Word := 0#16 ++ op ++ BitVec.ofNat 8 (eventCode e)

/-- A counter that stops at 0xFFFFFFFF (R35). -/
def saturatingInc (w : Word) : Word := if w = 0xFFFFFFFF#32 then w else w + 1#32

end Sys2Proof.Machine
end

