-- ==== Sys2Proof/Machine/Operands.lean ====
section
/-! DEFINITION. The operand forms of a command (30_encoding.md R141) and which of their values are legal (R150 to
R154, R160 steps 3 to 5, R162, R163), and the register addresses that exist (10_state.md R32). -/

namespace Sys2Proof.Machine

/-- A binary32 operand of a command that clamps it: any but a NaN (R162, R163). -/
def acceptsClamped (d : Word) : Bool := !F32.isNaN d

/-- A binary32 operand of a command that does not clamp it: finite (R163). -/
def acceptsFinite (d : Word) : Bool := F32.isFinite d

/-- The frame count of PROCESS, s32(D) (R141). -/
def frameCount (d : Word) : Int := d.toInt

/-- The frames a PROCESS emits: n for n > 0, none for n ≤ 0 (45_voice.md R470). -/
def framesOf (d : Word) : Nat := (frameCount d).toNat

/-- A MIDI value 0..127: note, velocity, pressure (45_voice.md R451, R456). -/
def midiLegal (y : Byte) : Bool := decide (y.toNat ≤ 127)

/-- A curve exponent 2..8 (43_envelope.md R374). -/
def curveLegal (y : Byte) : Bool := decide (2 ≤ y.toNat) && decide (y.toNat ≤ 8)

/-- A tempo division 0..15 (44_lfo.md R433). -/
def divLegal (y : Byte) : Bool := decide (y.toNat ≤ 15)

/-- A user-buffer index n < U_MAX (41_oscillator.md R276). -/
def userIndexLegal (c : Config) (n : BitVec 16) : Bool := decide (n.toNat < c.uMax)

/-- A commit length 1..U_MAX (41_oscillator.md R277). -/
def commitLengthLegal (c : Config) (d : Word) : Bool := decide (1 ≤ d.toNat) && decide (d.toNat ≤ c.uMax)

/-- The type nibble of a packed source or destination (R141). -/
def packedType (b : Byte) : Nat := b.toNat / 16

/-- The index nibble of a packed source or destination (R141). -/
def packedIndex (b : Byte) : Nat := b.toNat % 16

/-- The routing sources of R153 with their index ranges. -/
def sourceLegal (c : Config) (b : Byte) : Bool :=
  match packedType b with
  | 0 | 3 | 4 => packedIndex b == 0
  | 1 => decide (packedIndex b < c.nEnv)
  | 2 => decide (packedIndex b < c.nLfo)
  | _ => false

/-- The routing destinations of R154 with their index ranges. -/
def destLegal (c : Config) (b : Byte) : Bool :=
  match packedType b with
  | 0 | 7 => packedIndex b == 0
  | 1 | 2 | 3 => decide (packedIndex b < c.nOsc)
  | 4 | 5 | 6 => decide (packedIndex b < c.nFlt)
  | _ => false

/-- Whether (C, I, F) names a register of 10_state.md R33 to R43 (R32, 60_exceptions.md R604). -/
def registerExists (c : Config) (cls idx fld : Nat) : Bool :=
  match cls with
  | 0 => idx == 0 && decide (fld < 13)
  | 1 => decide (idx < c.nOsc) && decide (fld < 14)
  | 2 => decide (idx < c.nFlt) && decide (fld < 18)
  | 3 => decide (idx < c.nEnv) && decide (fld < 19)
  | 4 => decide (idx < c.nLfo) && decide (fld < 12)
  | 5 => decide (idx < c.nRoute) && decide (fld < 3)
  | 6 => idx == 0 && decide (fld < 5)
  | 7 =>
    match idx with
    | 1 | 2 | 3 => decide (fld < c.nOsc)
    | 4 | 5 | 6 => decide (fld < c.nFlt)
    | 7 => fld == 0
    | _ => false
  | _ => false

end Sys2Proof.Machine
end

