-- ==== Sys2Proof/Machine/Ops.lean ====
section
/-! DEFINITION. The named operations every meaning is built from: recording an event (the block's whole exception
mechanism, 60_exceptions.md R600, R602, R606), the check phase, the streams, access to one unit's registers, the
register readback, the reset procedures. -/

namespace Sys2Proof.Machine

/-- What a command answers. -/
abbrev Result := Host.Outcome State Fault Refusal

/-! ### Events and the check phase -/

/-- raise Event(code) during the command with opcode `op` (60_exceptions.md R602). -/
def State.raise (s : State) (op : Byte) (e : Event) : State :=
  let s := { s with evtSticky := s.evtSticky ||| eventBit e, lastEvt := lastEvtWord op e }
  match e with
  | .filterInstability => { s with instabCount := saturatingInc s.instabCount }
  | .outputSanitized => { s with sanitizeCount := saturatingInc s.sanitizeCount }
  | _ => { s with rejectCount := saturatingInc s.rejectCount }

/-- Several events of one command, in order. -/
def State.raiseAll (s : State) (op : Byte) : List Event → State
  | [] => s
  | e :: es => (s.raise op e).raiseAll op es

/-- One check of R160: the event it raises if `ok` fails. -/
def need (ok : Bool) (e : Event) : Option Event := if ok then none else some e

/-- The first failing check decides (R160, R605). -/
def firstFailure : List (Option Event) → Option Event
  | [] => none
  | some e :: _ => some e
  | none :: cs => firstFailure cs

/-- A command under its checks: the first failure ends it with its event and no other effect, else the command's
effect is the next state (R160, R602). -/
def State.checked (s : State) (i : Instr) (checks : List (Option Event)) (effect : State) : Result :=
  match firstFailure checks with
  | some e => .next (s.raise i.opcode e)
  | none => .next effect

/-- Step 3 of R160 for the oscillators. -/
def State.needOsc (s : State) (x : Byte) : Option Event := need (decide (x.toNat < s.cfg.nOsc)) .badIndex
/-- Step 3 of R160 for the filters. -/
def State.needFlt (s : State) (x : Byte) : Option Event := need (decide (x.toNat < s.cfg.nFlt)) .badIndex
/-- Step 3 of R160 for the envelopes. -/
def State.needEnv (s : State) (x : Byte) : Option Event := need (decide (x.toNat < s.cfg.nEnv)) .badIndex
/-- Step 3 of R160 for the LFOs. -/
def State.needLfo (s : State) (x : Byte) : Option Event := need (decide (x.toNat < s.cfg.nLfo)) .badIndex
/-- Step 3 of R160 for the routing slots. -/
def State.needRoute (s : State) (x : Byte) : Option Event := need (decide (x.toNat < s.cfg.nRoute)) .badIndex

/-- Step 4 of R160. -/
def needOperand (ok : Bool) : Option Event := need ok .badOperand
/-- Step 5 of R160, for an operand the command clamps (R163). -/
def needNumber (d : Word) : Option Event := need (acceptsClamped d) .nonfiniteOperand
/-- Step 5 of R160, for an operand the command does not clamp (R163). -/
def needFinite (d : Word) : Option Event := need (acceptsFinite d) .nonfiniteOperand

/-! ### Streams -/

/-- Whether a stream of capacity `cap` that holds `held` words lets a command run that emits `n` words on it. A full stream
lets none run, whatever it emits (20_memory.md R103, decision D44, 93_implementation_defined.md I3). One that is not full
must have room for all `n`, or be empty and take them one by one as the host takes each: these two are the model's choice
(log entry 3). -/
def roomFor (cap : Option Nat) (held n : Nat) : Bool :=
  match cap with
  | none => true
  | some k => decide (held < k) && (decide (held + n ≤ k) || held == 0)

/-- Respond(w): one word on the response stream (R102). -/
def State.respond (s : State) (w : Word) : State :=
  { s with responses := w :: s.responses }

/-- Emit(out, out) and the frame counter (45_voice.md R472 step 8, R473). -/
def State.emit (s : State) (out : F32) : State :=
  { s with
    audio := { l := out, r := out } :: s.audio
    sampleCount := s.sampleCount + 1#32 }

/-- The audio stream in time order (R101). -/
def State.audioStream (s : State) : List Frame := s.audio.reverse

/-- The response stream in the order of the READs (R102). -/
def State.responseStream (s : State) : List Word := s.responses.reverse

/-! ### One unit's registers -/

/-- Write registers of oscillator x. -/
def State.modOsc (s : State) (x : Byte) (f : Osc → Osc) : State := { s with osc := s.osc.modify x.toNat f }
/-- Write registers of filter x. -/
def State.modFlt (s : State) (x : Byte) (f : Flt → Flt) : State := { s with flt := s.flt.modify x.toNat f }
/-- Write registers of envelope x. -/
def State.modEnv (s : State) (x : Byte) (f : Env → Env) : State := { s with env := s.env.modify x.toNat f }
/-- Write registers of LFO x. -/
def State.modLfo (s : State) (x : Byte) (f : Lfo → Lfo) : State := { s with lfo := s.lfo.modify x.toNat f }
/-- Write registers of routing slot x. -/
def State.modRoute (s : State) (x : Byte) (f : Route → Route) : State := { s with route := s.route.modify x.toNat f }

/-! ### Derived registers -/

/-- Oscillator i's effective parameters from the accumulators held (41_oscillator.md R251). -/
def State.oscDerive (s : State) (i : Nat) (o : Osc) : Osc :=
  oscEffective s.cfg s.fs (accGet s.acc 1 i) (accGet s.acc 2 i) (accGet s.acc 3 i) o

/-- Filter j's coefficient update from the accumulators held (42_filter.md R320). -/
def State.fltDerive (s : State) (j : Nat) (f : Flt) : Flt :=
  fltUpdate s.cfg s.fs (accGet s.acc 4 j) (accGet s.acc 5 j) (accGet s.acc 6 j) f

/-- A filter setter: the register, then the coefficient update with the held ACC (R320 (b)). -/
def State.setFlt (s : State) (x : Byte) (f : Flt → Flt) : State :=
  s.modFlt x fun g => s.fltDerive x.toNat (f g)

/-! ### Register readback -/

/-- The class-0 registers in field order (10_state.md R33). -/
def State.globalFields (s : State) : List Word :=
  [s.fs, s.tempo, s.prng, s.sampleCount, s.status, s.evtSticky, s.lastEvt, s.rejectCount, s.instabCount,
   s.sanitizeCount, config0 s.cfg, config1 s.cfg, config2 s.cfg]

/-- The class-6 registers in field order (R42). -/
def State.voiceFields (s : State) : List Word :=
  [s.note.setWidth 32, s.vel.setWidth 32, s.pressure.setWidth 32, Word.ofBool s.active, s.ampEff]

/-- The register list of a unit, empty where there is no unit. -/
def fieldsOf {α : Type} (fields : α → List Word) (us : List α) (i : Nat) : List Word :=
  match us[i]? with
  | some u => fields u
  | none => []

/-- The value of register (C, I, F) (R32), for an address that names one. -/
def State.registerValue (s : State) (cls idx fld : Nat) : Word :=
  match cls with
  | 0 => s.globalFields.getD fld 0#32
  | 1 => (fieldsOf oscFields s.osc idx).getD fld 0#32
  | 2 => (fieldsOf fltFields s.flt idx).getD fld 0#32
  | 3 => (fieldsOf envFields s.env idx).getD fld 0#32
  | 4 => (fieldsOf lfoFields s.lfo idx).getD fld 0#32
  | 5 => (fieldsOf routeFields s.route idx).getD fld 0#32
  | 6 => s.voiceFields.getD fld 0#32
  | 7 => accGet s.acc idx fld
  | _ => 0#32

/-- The register at (C, I, F), none for a bad address (R32, 60_exceptions.md R604). -/
def State.readRegister (s : State) (cls idx fld : Nat) : Option Word :=
  if registerExists s.cfg cls idx fld then some (s.registerValue cls idx fld) else none

/-! ### Reset procedures -/

/-- RecomputeDerived() (70_reset_and_hazards.md R702). -/
def State.recomputeDerived (s : State) : State :=
  { s with
    env := s.env.map (envLens s.fs)
    flt := s.flt.mapIdx s.fltDerive
    osc := s.osc.mapIdx s.oscDerive
    lfo := s.lfo.map (lfoEffective s.fs s.tempo) }

/-- DynamicReset() (R704). -/
def State.dynamicReset (s : State) : State :=
  { s with
    osc := s.osc.map fun o => { o with phase := o.ph0 }
    flt := s.flt.map fltClear
    env := s.env.map envZeroed
    lfo := s.lfo.map fun l => { l with phase := F32.posZero, value := F32.posZero }
    note := Const.noteNone, vel := 0#8, pressure := 0#8
    acc := accZero s.cfg, ampEff := F32.one }

/-- FullReset() (R701): every register and writable table at its reset value, the derived ones included; the
streams, and what the host has already sent, are not touched. The shared tables are functions of FS (R703). -/
def State.fullReset (s : State) : State :=
  { State.resetOf s.cfg with
    commands := s.commands, rxBytes := s.rxBytes, audio := s.audio, responses := s.responses,
    audioCap := s.audioCap, respCap := s.respCap }

end Sys2Proof.Machine
end

