-- ==== Sys2Proof/Machine/Control.lean ====
section
/-! DEFINITION. Family 0x0: NOP, RESET, SET_SAMPLE_RATE, SET_TEMPO, SEED_PRNG, READ, CLEAR_STATUS (46_control.md
R500 to R507, 40_fastmath.md R220). -/

namespace Sys2Proof.Machine

/-- NOP (R500, 30_encoding.md R165): no check phase, no effect. -/
def execNop (s : State) : Result := .next s

/-- RESET (R501): FullReset. -/
def execReset (s : State) : Result := .next s.fullReset

/-- The state SET_SAMPLE_RATE leaves: the new FS first, then DynamicReset and RecomputeDerived (R502). -/
def State.withSampleRate (s : State) (d : Word) : State :=
  { s with fs := F32.clamp d Const.fsMin Const.fsMax }.dynamicReset.recomputeDerived

/-- SET_SAMPLE_RATE (R502). The shared tables follow FS by themselves (70_reset_and_hazards.md R703). -/
def execSetSampleRate (d : Word) (s : State) : Result :=
  s.checked (.setSampleRate d) [needNumber d] (s.withSampleRate d)

/-- SET_TEMPO (R503). -/
def execSetTempo (d : Word) (s : State) : Result :=
  s.checked (.setTempo d) [needNumber d] { s with tempo := F32.clamp d Const.tempoMin Const.tempoMax }

/-- SEED_PRNG (40_fastmath.md R220). -/
def execSeedPrng (d : Word) (s : State) : Result := .next { s with prng := d }

/-- READ (R506): one response word in every case; a bad address answers 0, then records its event. -/
def execRead (cls idx fld : Byte) (s : State) : Result :=
  match s.readRegister cls.toNat idx.toNat fld.toNat with
  | some v => .next (s.respond v)
  | none => .next ((s.respond 0#32).raise (Instr.read cls idx fld).opcode .badAddress)

/-- CLEAR_STATUS (R507). -/
def execClearStatus (s : State) : Result :=
  .next { s with evtSticky := 0#32, lastEvt := 0#32, rejectCount := 0#32, instabCount := 0#32, sanitizeCount := 0#32 }

end Sys2Proof.Machine
end

