-- ==== Sys2Proof/Machine/Envelope.lean ====
section
/-! DEFINITION. Family 0x4: the envelope setters, trigger, release, stop (43_envelope.md R370 to R378). -/

namespace Sys2Proof.Machine

/-- ENV_SET_ATTACK (R370). -/
def execEnvSetAttack (x : Byte) (d : Word) (s : State) : Result :=
  s.checked (.envSetAttack x d) [s.needEnv x, needNumber d]
    (s.modEnv x fun e => envLenA s.fs { e with attack := F32.clamp d Const.timeMin Const.timeMax })

/-- ENV_SET_DECAY (R371). -/
def execEnvSetDecay (x : Byte) (d : Word) (s : State) : Result :=
  s.checked (.envSetDecay x d) [s.needEnv x, needNumber d]
    (s.modEnv x fun e => envLenD s.fs { e with decay := F32.clamp d Const.timeMin Const.timeMax })

/-- ENV_SET_SUSTAIN (R372). -/
def execEnvSetSustain (x : Byte) (d : Word) (s : State) : Result :=
  s.checked (.envSetSustain x d) [s.needEnv x, needNumber d]
    (s.modEnv x fun e => { e with sustain := F32.clamp d Const.levelMin Const.levelMax })

/-- ENV_SET_RELEASE (R373). -/
def execEnvSetRelease (x : Byte) (d : Word) (s : State) : Result :=
  s.checked (.envSetRelease x d) [s.needEnv x, needNumber d]
    (s.modEnv x fun e => envLenR s.fs { e with release := F32.clamp d Const.timeMin Const.timeMax })

/-- ENV_SET_CURVE (R374). -/
def execEnvSetCurve (x y : Byte) (s : State) : Result :=
  s.checked (.envSetCurve x y) [s.needEnv x, needOperand (curveLegal y)]
    (s.modEnv x fun e => { e with curve := y.toNat })

/-- ENV_SET_VELSENS (R375). -/
def execEnvSetVelsens (x : Byte) (d : Word) (s : State) : Result :=
  s.checked (.envSetVelsens x d) [s.needEnv x, needNumber d]
    (s.modEnv x fun e => { e with velsens := F32.clamp d Const.levelMin Const.levelMax })

/-- ENV_TRIGGER (R376). Repeated at once it leaves the same state, as its pseudocode does, though R376 and 20_memory.md R109
call it not idempotent (log entry 17). -/
def execEnvTrigger (x : Byte) (s : State) : Result :=
  s.checked (.envTrigger x) [s.needEnv x] (s.modEnv x envTriggered)

/-- ENV_RELEASE (R377). -/
def execEnvRelease (x : Byte) (s : State) : Result :=
  s.checked (.envRelease x) [s.needEnv x] (s.modEnv x envReleased)

/-- ENV_STOP (R378). -/
def execEnvStop (x : Byte) (s : State) : Result :=
  s.checked (.envStop x) [s.needEnv x] (s.modEnv x envStopped)

end Sys2Proof.Machine
end

