-- ==== Sys2Proof/Machine/Filter.lean ====
section
/-! DEFINITION. Family 0x3: the filter setters, enable and reset (42_filter.md R340 to R345). -/

namespace Sys2Proof.Machine

/-- FLT_SET_TYPE (R340). -/
def execFltSetType (x y : Byte) (s : State) : Result :=
  s.checked (.fltSetType x y) [s.needFlt x, needOperand (filterTypeOf y).isSome]
    (s.setFlt x fun f => { f with type := (filterTypeOf y).getD f.type })

/-- FLT_SET_CUTOFF (R341). -/
def execFltSetCutoff (x : Byte) (d : Word) (s : State) : Result :=
  s.checked (.fltSetCutoff x d) [s.needFlt x, needNumber d]
    (s.setFlt x fun f => { f with cutoff := F32.clamp d Const.cutMin Const.cutMax })

/-- FLT_SET_RES (R342). -/
def execFltSetRes (x : Byte) (d : Word) (s : State) : Result :=
  s.checked (.fltSetRes x d) [s.needFlt x, needNumber d]
    (s.setFlt x fun f => { f with res := F32.clamp d Const.qMin Const.qMax })

/-- FLT_SET_GAIN (R343). -/
def execFltSetGain (x : Byte) (d : Word) (s : State) : Result :=
  s.checked (.fltSetGain x d) [s.needFlt x, needNumber d]
    (s.setFlt x fun f => { f with gain := F32.clamp d Const.gainMin Const.gainMax })

/-- What FLT_SET_ENABLE does to a filter (R344): a change of the bit clears the delay line. -/
def fltEnable (b : Bool) (f : Flt) : Flt := { (if b = f.enable then f else fltClear f) with enable := b }

/-- FLT_SET_ENABLE (R344). -/
def execFltSetEnable (x y : Byte) (s : State) : Result :=
  s.checked (.fltSetEnable x y) [s.needFlt x, needOperand (bitOf y).isSome]
    (s.modFlt x fun f => fltEnable ((bitOf y).getD f.enable) f)

/-- FLT_RESET (R345). -/
def execFltReset (x : Byte) (s : State) : Result :=
  s.checked (.fltReset x) [s.needFlt x] (s.modFlt x fltClear)

end Sys2Proof.Machine
end

