-- ==== Sys2Proof/Machine/LfoCommands.lean ====
section
/-! DEFINITION. Family 0x5: the LFO setters and trigger (44_lfo.md R430 to R439). -/

namespace Sys2Proof.Machine

/-- LFO_SET_WAVE (R430). -/
def execLfoSetWave (x y : Byte) (s : State) : Result :=
  s.checked (.lfoSetWave x y) [s.needLfo x, needOperand (lfoWaveOf y).isSome]
    (s.modLfo x fun l => { l with wave := (lfoWaveOf y).getD l.wave })

/-- LFO_SET_FREQ (R431). -/
def execLfoSetFreq (x : Byte) (d : Word) (s : State) : Result :=
  s.checked (.lfoSetFreq x d) [s.needLfo x, needNumber d]
    (s.modLfo x fun l => { l with freq := F32.clamp d Const.lfoFMin Const.lfoFMax })

/-- LFO_SET_MODE (R432). -/
def execLfoSetMode (x y : Byte) (s : State) : Result :=
  s.checked (.lfoSetMode x y) [s.needLfo x, needOperand (lfoModeOf y).isSome]
    (s.modLfo x fun l => { l with mode := (lfoModeOf y).getD l.mode })

/-- LFO_SET_DIV (R433). -/
def execLfoSetDiv (x y : Byte) (s : State) : Result :=
  s.checked (.lfoSetDiv x y) [s.needLfo x, needOperand (divLegal y)]
    (s.modLfo x fun l => { l with div := y.toNat })

/-- LFO_SET_DEPTH (R434). -/
def execLfoSetDepth (x : Byte) (d : Word) (s : State) : Result :=
  s.checked (.lfoSetDepth x d) [s.needLfo x, needNumber d]
    (s.modLfo x fun l => { l with depth := F32.clamp d Const.levelMin Const.levelMax })

/-- LFO_SET_INVERT (R435). -/
def execLfoSetInvert (x y : Byte) (s : State) : Result :=
  s.checked (.lfoSetInvert x y) [s.needLfo x, needOperand (bitOf y).isSome]
    (s.modLfo x fun l => { l with invert := (bitOf y).getD l.invert })

/-- LFO_SET_RETRIG (R436). -/
def execLfoSetRetrig (x y : Byte) (s : State) : Result :=
  s.checked (.lfoSetRetrig x y) [s.needLfo x, needOperand (bitOf y).isSome]
    (s.modLfo x fun l => { l with retrig := (bitOf y).getD l.retrig })

/-- LFO_SET_PW (R437). -/
def execLfoSetPw (x : Byte) (d : Word) (s : State) : Result :=
  s.checked (.lfoSetPw x d) [s.needLfo x, needNumber d]
    (s.modLfo x fun l => { l with pw := F32.clamp d Const.pwMin Const.pwMax })

/-- LFO_SET_PHASE (R438). -/
def execLfoSetPhase (x : Byte) (d : Word) (s : State) : Result :=
  s.checked (.lfoSetPhase x d) [s.needLfo x, needFinite d]
    (s.modLfo x fun l => { l with phase := F32.wrap d })

/-- LFO_TRIGGER (R439). Repeated at once it leaves the same state, as its pseudocode does, though 20_memory.md R109 calls it
not idempotent (log entry 17). -/
def execLfoTrigger (x : Byte) (s : State) : Result :=
  s.checked (.lfoTrigger x) [s.needLfo x] (s.modLfo x lfoTriggered)

end Sys2Proof.Machine
end

