-- ==== Sys2Proof/Machine/Oscillator.lean ====
section
/-! DEFINITION. Family 0x2: the oscillator setters and the custom table (41_oscillator.md R270 to R277). -/

namespace Sys2Proof.Machine

/-- OSC_SET_WAVE (R270). -/
def execOscSetWave (x y : Byte) (s : State) : Result :=
  s.checked (.oscSetWave x y) [s.needOsc x, needOperand (waveOf y).isSome]
    (s.modOsc x fun o => { o with wave := (waveOf y).getD o.wave })

/-- OSC_SET_FREQ (R271). -/
def execOscSetFreq (x : Byte) (d : Word) (s : State) : Result :=
  s.checked (.oscSetFreq x d) [s.needOsc x, needNumber d]
    (s.modOsc x fun o => { o with freq := F32.clamp d Const.fMin Const.fMax })

/-- OSC_SET_PHASE (R272): the phase and the note-start phase. Repeated at once it leaves the same state, as its pseudocode
does, though 20_memory.md R109 calls it not idempotent (log entry 17). -/
def execOscSetPhase (x : Byte) (d : Word) (s : State) : Result :=
  s.checked (.oscSetPhase x d) [s.needOsc x, needFinite d]
    (s.modOsc x fun o => { o with phase := F32.wrap d, ph0 := F32.wrap d })

/-- OSC_SET_DETUNE (R273): the held detune and the scale derived from it. -/
def execOscSetDetune (x : Byte) (d : Word) (s : State) : Result :=
  s.checked (.oscSetDetune x d) [s.needOsc x, needNumber d]
    (s.modOsc x fun o =>
      { o with
        detune := F32.clamp d Const.detMin Const.detMax
        dscale := FastMath.dscale (F32.clamp d Const.detMin Const.detMax) })

/-- OSC_SET_PW (R274). -/
def execOscSetPw (x : Byte) (d : Word) (s : State) : Result :=
  s.checked (.oscSetPw x d) [s.needOsc x, needNumber d]
    (s.modOsc x fun o => { o with pw := F32.clamp d Const.pwMin Const.pwMax })

/-- OSC_SET_MIX (R275). -/
def execOscSetMix (x : Byte) (d : Word) (s : State) : Result :=
  s.checked (.oscSetMix x d) [s.needOsc x, needNumber d]
    (s.modOsc x fun o => { o with mix := F32.clamp d Const.mixMin Const.mixMax })

/-- OSC_CUST_WRITE (R276): one user sample, unclamped. -/
def execOscCustWrite (x : Byte) (n : BitVec 16) (d : Word) (s : State) : Result :=
  s.checked (.oscCustWrite x n d) [s.needOsc x, needOperand (userIndexLegal s.cfg n), needFinite d]
    (s.modOsc x fun o => { o with user := o.user.write n.toNat d })

/-- OSC_CUST_COMMIT (R277): every entry of the custom table from the first U user samples. -/
def execOscCustCommit (x : Byte) (d : Word) (s : State) : Result :=
  s.checked (.oscCustCommit x d) [s.needOsc x, needOperand (commitLengthLegal s.cfg d)]
    (s.modOsc x fun o =>
      { o with
        ctab := Memory.tabulate (custResample s.cfg.tab d.toNat o.user) s.cfg.tab 0
        custLen := d.toNat })

end Sys2Proof.Machine
end

