-- ==== Sys2Proof/Machine/Voice.lean ====
section
/-! DEFINITION. Family 0x1 but PROCESS: NOTE_ON, NOTE_OFF, VOICE_STOP, VOICE_KILL, SET_PRESSURE (45_voice.md R451 to
R456). -/

namespace Sys2Proof.Machine

/-- NoteFreq(n, D) (R452): the note table, unclamped, for the pattern of +0.0; else the clamped frequency. -/
def noteFreq (note : Byte) (d : Word) : F32 :=
  if d = 0#32 then FastMath.n2f note.toNat else F32.clamp d Const.fMin Const.fMax

/-- What NOTE_ON does to an oscillator (R451): the frequency, and on a voice that was free the note-start phase. -/
def oscNoteOn (f : F32) (reuse : Bool) (o : Osc) : Osc :=
  { o with freq := f, phase := if reuse then o.ph0 else o.phase }

/-- What NOTE_ON does to an envelope (R451): the velocity multiplier, then Trigger. -/
def envNoteOn (vel : Byte) (e : Env) : Env := envTriggered { e with vm := envVm e.velsens vel }

/-- The state NOTE_ON leaves (R451). -/
def State.noteOn (s : State) (note vel : Byte) (d : Word) : State :=
  { s with
    note := note, vel := vel, pressure := 0#8
    osc := s.osc.map (oscNoteOn (noteFreq note d) (!s.active))
    env := s.env.map (envNoteOn vel)
    lfo := s.lfo.map lfoNoteOn }

/-- NOTE_ON (R451). Repeated at once it leaves the same state, as its pseudocode does, though 20_memory.md R109 calls it not
idempotent (log entry 17). -/
def execNoteOn (note vel : Byte) (d : Word) (s : State) : Result :=
  s.checked (.noteOn note vel d) [needOperand (midiLegal note && midiLegal vel), needNumber d] (s.noteOn note vel d)

/-- NOTE_OFF (R455): every envelope is released; the note is kept. -/
def execNoteOff (s : State) : Result := .next { s with env := s.env.map envReleased }

/-- VOICE_STOP (R453): every envelope into Shutdown; the note is kept. -/
def execVoiceStop (s : State) : Result := .next { s with env := s.env.map envStopped }

/-- Every envelope forced to Idle at zero and the note cleared (R454, R474). -/
def State.silence (s : State) : State := { s with env := s.env.map envZeroed, note := Const.noteNone }

/-- VOICE_KILL (R454). -/
def execVoiceKill (s : State) : Result := .next s.silence

/-- SET_PRESSURE (R456). -/
def execSetPressure (y : Byte) (s : State) : Result :=
  s.checked (.setPressure y) [needOperand (midiLegal y)] { s with pressure := y }

end Sys2Proof.Machine
end

