-- ==== Sys2Proof/Machine/Process.lean ====
section
/-! DEFINITION. PROCESS: block start, the sample loop, reclaim (45_voice.md R460 to R462, R470 to R476). -/

namespace Sys2Proof.Machine

/-! ### Block start -/

/-- A 7-bit value as a fraction of 127 (30_encoding.md R153). -/
def midiFraction (v : Byte) : F32 := F32.div (F32.float v.toNat) Const.f127

/-- Source(st, si) (R460). NONE is skipped before this is asked. -/
def State.sourceValue (s : State) (st si : Nat) : F32 :=
  match st with
  | 1 => (s.env[si]?.map Env.value).getD F32.posZero
  | 2 => (s.lfo[si]?.map Lfo.value).getD F32.posZero
  | 3 => midiFraction s.vel
  | 4 => midiFraction s.pressure
  | _ => F32.posZero

/-- One slot's term on the accumulators (R462); a slot with source or destination NONE is skipped. -/
def State.accumulate (s : State) (a : Acc) (r : Route) : Acc :=
  if packedType r.src = 0 || packedType r.dst = 0 then a
  else accAdd a (packedType r.dst) (packedIndex r.dst)
    (F32.mul r.amount (s.sourceValue (packedType r.src) (packedIndex r.src)))

/-- Steps 1 and 2 of BlockStart: LFO rates, then values, the PRNG passing through them (R471). -/
def State.startLfos (s : State) : State :=
  let b := lfoBank s.cfg.tsin (s.lfo.map (lfoEffective s.fs s.tempo)) s.prng
  { s with prng := b.1, lfo := b.2 }

/-- Step 3: every ACC, slots in increasing index (R462, R471). -/
def State.startRoutes (s : State) : State := { s with acc := s.route.foldl s.accumulate (accZero s.cfg) }

/-- Steps 4 to 6: oscillators, coefficient updates, AMP_EFF (R471). -/
def State.startEffective (s : State) : State :=
  { s with
    osc := s.osc.mapIdx s.oscDerive
    flt := s.flt.mapIdx s.fltDerive
    ampEff := F32.clamp (F32.add F32.one s.acc.amp) Const.ampMin Const.ampMax }

/-- BlockStart() (R471). -/
def State.blockStart (s : State) : State := s.startLfos.startRoutes.startEffective

/-! ### One sample -/

/-- The opcode datapath events are recorded with (60_exceptions.md R603). -/
def processOp : Byte := (Instr.process 0#32).opcode

/-- Sanitize(out) (R475): the value sent and the events raised. -/
def sanitize (out : F32) : F32 × List Event :=
  if F32.isFinite out then (out, []) else (F32.posZero, [.outputSanitized])

/-- Steps 1 to 3 of Sample: oscillators, mix, cascade (R472); the cascade's output goes on. -/
def State.render (s : State) : State × F32 :=
  let b := oscBank s.cfg s.fs s.osc s.prng
  let m := oscMix s.osc b.2.1 F32.posZero
  let c := cascade s.flt m
  ({ s with prng := b.1, osc := b.2.2, flt := c.1 }.raiseAll processOp c.2.2, c.2.1)

/-- Steps 4 to 8 of Sample on the cascade's output x (R472): envelopes, amplitude, sanitise, LFO phases, emit. -/
def State.finish (s : State) (x : F32) : State :=
  let s := { s with env := s.env.map envStep }
  let o := sanitize (F32.mul (F32.mul x s.ampEff) s.ampEnv.value)
  let s := s.raiseAll processOp o.2
  { s with lfo := s.lfo.map lfoAdvance }.emit o.1

/-- Sample() (R472). -/
def State.sample (s : State) : State := s.render.1.finish s.render.2

/-- Sample() n times. -/
def State.samples : Nat → State → State
  | 0, s => s
  | n + 1, s => State.samples n s.sample

/-! ### The command -/

/-- Reclaim() (R474). -/
def State.reclaim (s : State) : State :=
  if s.note ≠ Const.noteNone ∧ s.ampEnv.stage = .idle then s.silence else s

/-- The state a PROCESS of n frames leaves (R470). -/
def State.processed (s : State) (n : Nat) : State :=
  if n = 0 then s else (State.samples n s.blockStart).reclaim

/-- PROCESS (R470): for n ≤ 0 nothing at all. -/
def execProcess (d : Word) (s : State) : Result := .next (s.processed (framesOf d))

end Sys2Proof.Machine
end

