-- ==== Sys2Proof/Machine/Routing.lean ====
section
/-! DEFINITION. Family 0x6: ROUTE_SET, ROUTE_CLEAR (45_voice.md R463, R464). The table is evaluated at block start
(Machine/Process.lean). -/

namespace Sys2Proof.Machine

/-- ROUTE_SET (R463). -/
def execRouteSet (x src dst : Byte) (d : Word) (s : State) : Result :=
  s.checked (.routeSet x src dst d)
    [s.needRoute x, needOperand (sourceLegal s.cfg src && destLegal s.cfg dst), needNumber d]
    (s.modRoute x fun _ => { src := src, dst := dst, amount := F32.clamp d Const.amtMin Const.amtMax })

/-- ROUTE_CLEAR (R464). -/
def execRouteClear (x : Byte) (s : State) : Result :=
  s.checked (.routeClear x) [s.needRoute x] (s.modRoute x fun _ => routeEmpty)

end Sys2Proof.Machine
end

