-- ==== Sys2Proof/Machine/Dispatch.lean ====
section
/-! DEFINITION. The one dispatch: each command's meaning (30_encoding.md R143). -/

namespace Sys2Proof.Machine

def exec (i : Instr) (s : State) : Host.Outcome State Fault Refusal :=
  match i with
  | .nop => Sys2Proof.Machine.execNop s
  | .reset => Sys2Proof.Machine.execReset s
  | .setSampleRate d => Sys2Proof.Machine.execSetSampleRate d s
  | .setTempo d => Sys2Proof.Machine.execSetTempo d s
  | .seedPrng d => Sys2Proof.Machine.execSeedPrng d s
  | .read cls idx fld => Sys2Proof.Machine.execRead cls idx fld s
  | .clearStatus => Sys2Proof.Machine.execClearStatus s
  | .noteOn note vel d => Sys2Proof.Machine.execNoteOn note vel d s
  | .noteOff => Sys2Proof.Machine.execNoteOff s
  | .voiceStop => Sys2Proof.Machine.execVoiceStop s
  | .voiceKill => Sys2Proof.Machine.execVoiceKill s
  | .setPressure y => Sys2Proof.Machine.execSetPressure y s
  | .process d => Sys2Proof.Machine.execProcess d s
  | .oscSetWave x y => Sys2Proof.Machine.execOscSetWave x y s
  | .oscSetFreq x d => Sys2Proof.Machine.execOscSetFreq x d s
  | .oscSetPhase x d => Sys2Proof.Machine.execOscSetPhase x d s
  | .oscSetDetune x d => Sys2Proof.Machine.execOscSetDetune x d s
  | .oscSetPw x d => Sys2Proof.Machine.execOscSetPw x d s
  | .oscSetMix x d => Sys2Proof.Machine.execOscSetMix x d s
  | .oscCustWrite x n d => Sys2Proof.Machine.execOscCustWrite x n d s
  | .oscCustCommit x d => Sys2Proof.Machine.execOscCustCommit x d s
  | .fltSetType x y => Sys2Proof.Machine.execFltSetType x y s
  | .fltSetCutoff x d => Sys2Proof.Machine.execFltSetCutoff x d s
  | .fltSetRes x d => Sys2Proof.Machine.execFltSetRes x d s
  | .fltSetGain x d => Sys2Proof.Machine.execFltSetGain x d s
  | .fltSetEnable x y => Sys2Proof.Machine.execFltSetEnable x y s
  | .fltReset x => Sys2Proof.Machine.execFltReset x s
  | .envSetAttack x d => Sys2Proof.Machine.execEnvSetAttack x d s
  | .envSetDecay x d => Sys2Proof.Machine.execEnvSetDecay x d s
  | .envSetSustain x d => Sys2Proof.Machine.execEnvSetSustain x d s
  | .envSetRelease x d => Sys2Proof.Machine.execEnvSetRelease x d s
  | .envSetCurve x y => Sys2Proof.Machine.execEnvSetCurve x y s
  | .envSetVelsens x d => Sys2Proof.Machine.execEnvSetVelsens x d s
  | .envTrigger x => Sys2Proof.Machine.execEnvTrigger x s
  | .envRelease x => Sys2Proof.Machine.execEnvRelease x s
  | .envStop x => Sys2Proof.Machine.execEnvStop x s
  | .lfoSetWave x y => Sys2Proof.Machine.execLfoSetWave x y s
  | .lfoSetFreq x d => Sys2Proof.Machine.execLfoSetFreq x d s
  | .lfoSetMode x y => Sys2Proof.Machine.execLfoSetMode x y s
  | .lfoSetDiv x y => Sys2Proof.Machine.execLfoSetDiv x y s
  | .lfoSetDepth x d => Sys2Proof.Machine.execLfoSetDepth x d s
  | .lfoSetInvert x y => Sys2Proof.Machine.execLfoSetInvert x y s
  | .lfoSetRetrig x y => Sys2Proof.Machine.execLfoSetRetrig x y s
  | .lfoSetPw x d => Sys2Proof.Machine.execLfoSetPw x d s
  | .lfoSetPhase x d => Sys2Proof.Machine.execLfoSetPhase x d s
  | .lfoTrigger x => Sys2Proof.Machine.execLfoTrigger x s
  | .routeSet x src dst d => Sys2Proof.Machine.execRouteSet x src dst d s
  | .routeClear x => Sys2Proof.Machine.execRouteClear x s

end Sys2Proof.Machine
end

