-- ==== Sys2Proof/Machine/Fetch.lean ====
section
/-! DEFINITION. Taking the next command word: flow control, the launch condition, and the words that decode to no
command (20_memory.md R100, R103; 30_encoding.md R160, R164; 60_exceptions.md R625). -/

namespace Sys2Proof.Machine

/-- Frames the command emits (45_voice.md R470). -/
def framesOfDecoded : Decoded → Nat
  | .instr (.process d) => framesOf d
  | _ => 0

/-- Whether this opcode is READ's, which answers one word even when refused (46_control.md R506). -/
def isReadOp (op : Byte) : Bool := op == (Instr.read 0 0 0).opcode

/-- Response words the command emits (20_memory.md R102). -/
def responsesOfDecoded : Decoded → Nat
  | .instr (.read _ _ _) => 1
  | .reservedNonzero op => if isReadOp op then 1 else 0
  | _ => 0

/-- Whether neither output stream is full and both can accept all the command emits; if not, the block stalls (R103). -/
def State.hasRoom (s : State) (c : Decoded) : Bool :=
  roomFor s.audioCap s.audio.length (framesOfDecoded c) && roomFor s.respCap s.responses.length (responsesOfDecoded c)

/-- A run begins with power-on reset or RESET (10_state.md R46, 60_exceptions.md R625). -/
def State.mayRun (s : State) (c : Decoded) : Bool := s.resetDone || c == .instr .reset

/-- An unassigned opcode (30_encoding.md R164). -/
def execIllegalOpcode (op : Byte) (s : State) : Result := .next (s.raise op .illegalOpcode)

/-- A non-zero reserved field (R160 step 2); a READ still answers one word, 0, first (46_control.md R506). -/
def execReservedNonzero (op : Byte) (s : State) : Result :=
  .next ((if isReadOp op then s.respond 0#32 else s).raise op .reservedNonzero)

/-- A decoded word's effect. -/
def execDecoded (c : Decoded) (s : State) : Result :=
  match c with
  | .instr i => exec i s
  | .illegalOpcode op => execIllegalOpcode op s
  | .reservedNonzero op => execReservedNonzero op s

/-- The command stream after its first word is taken (R100). -/
def State.popCommand (s : State) : State := { s with commands := s.commands.tail }

/-- The next word's effect, or a stall with the state unchanged (R103), or the refusal of a run that does not begin
with a reset. -/
def State.take (s : State) (w : Command) : Result :=
  let c := decodeCommand w
  if !s.mayRun c then .refused .runWithoutReset
  else if !s.hasRoom c then .next s
  else execDecoded c s.popCommand

/-- The state in which the very next step runs `w`: the host has sent it ahead of everything else and gives the output
streams unbounded capacity (log entry 8). -/
def State.withCommand (s : State) (w : Command) : State :=
  { s with commands := w :: s.commands, audioCap := none, respCap := none }

end Sys2Proof.Machine
end

