-- ==== Sys2Proof/Machine/Step.lean ====
section
/-! DEFINITION. One step of the block: it takes the next command word and carries it out whole (20_memory.md R100,
R109). -/

namespace Sys2Proof.Machine

/-- One step. With no command waiting the block is idle and keeps all its state (60_exceptions.md R624); a
configuration outside 00_scope.md R7 is refused by name (R625). -/
def step (s : State) : Host.Outcome State Fault Refusal :=
  if s.cfg.legal then
    match s.commands with
    | [] => .next s
    | w :: _ => s.take w
  else .refused .illegalConfiguration

/-- `s` with the instruction whose table bits are `w` next on the command stream, so that the very next step runs
it. The streams are unbounded so that no stall comes first. -/
def State.withFetchWord (s : State) (nbits w : Nat) : State := s.withCommand (tableWord nbits w)

end Sys2Proof.Machine
end

