-- ==== Sys2Proof/Machine/Asm.lean ====
section
/-! DEFINITION. The assembler of 30_encoding.md R170 and the pseudo-commands of R171: one line of text to command
words. The block never sees text; this is the host's tool. -/

namespace Sys2Proof.Asm

/-- The pseudo-commands (R171). -/
inductive Pseudo where
  | note (n v : Byte)
  | run (n : Word)
  | silence
  | fltBypass (j : Byte)
  | lfoSync (l d : Byte)
  | routeOff (r : Byte)
  deriving DecidableEq, Repr

/-- What a pseudo-command expands to (R171). -/
def expand : Pseudo → List Instr
  | .note n v => [.noteOn n v 0#32]
  | .run n => [.process n]
  | .silence => [.voiceKill]
  | .fltBypass j => [.fltSetEnable j 0#8]
  | .lfoSync l d => [.lfoSetMode l 1#8, .lfoSetDiv l d]
  | .routeOff r => [.routeClear r]

/-- The forms of an operand: the fields X, Y, Z as integers, the 16-bit {Y, Z}, the named enumerations of Y, the packed
source and destination, and the three readings of D. -/
inductive Form where
  | x | y | z | yz | wave | filterType | lfoMode | source | dest | f32 | u32 | s32
  deriving DecidableEq, Repr

/-- The operands of a mnemonic in the order X, Y, Z, D, only the fields it reads (R143, R170). -/
def forms : String → List Form
  | "SET_SAMPLE_RATE" | "SET_TEMPO" => [.f32]
  | "SEED_PRNG" => [.u32]
  | "READ" => [.x, .y, .z]
  | "NOTE_ON" => [.x, .y, .f32]
  | "SET_PRESSURE" => [.y]
  | "PROCESS" => [.s32]
  | "OSC_SET_WAVE" | "LFO_SET_WAVE" => [.x, .wave]
  | "FLT_SET_TYPE" => [.x, .filterType]
  | "LFO_SET_MODE" => [.x, .lfoMode]
  | "OSC_CUST_WRITE" => [.x, .yz, .f32]
  | "OSC_CUST_COMMIT" => [.x, .u32]
  | "FLT_SET_ENABLE" | "ENV_SET_CURVE" | "LFO_SET_DIV" | "LFO_SET_INVERT" | "LFO_SET_RETRIG" => [.x, .y]
  | "FLT_RESET" | "ENV_TRIGGER" | "ENV_RELEASE" | "ENV_STOP" | "LFO_TRIGGER" | "ROUTE_CLEAR" => [.x]
  | "ROUTE_SET" => [.x, .source, .dest, .f32]
  | "NOP" | "RESET" | "CLEAR_STATUS" | "NOTE_OFF" | "VOICE_STOP" | "VOICE_KILL" => []
  | _ => [.x, .f32]

/-- The operands of a line with `count` of them. NOTE_ON may leave out its D, which is then the pattern of +0.0: R170 lists
every field a command reads, 45_voice.md R451 and 95_test_vectors.md V-VOICE-1 write `NOTE_ON 60, 127` (log entry 15). -/
def lineForms (m : String) (count : Nat) : List Form :=
  if m = "NOTE_ON" ∧ count = 2 then [.x, .y] else forms m

/-- The lowest bit of a form's field in the word (R140). -/
def shiftOf : Form → Nat
  | .x => 48
  | .y | .wave | .filterType | .lfoMode | .source => 40
  | .z | .yz | .dest => 32
  | .f32 | .u32 | .s32 => 0

/-- The width of a form's field (R140). -/
def widthOf : Form → Nat
  | .x | .y | .wave | .filterType | .lfoMode | .source | .z | .dest => 8
  | .yz => 16
  | .f32 | .u32 | .s32 => 32

/-- A digit of base 10 or 16. -/
def digit (base : Nat) (c : Char) : Option Nat :=
  let v :=
    if '0' ≤ c ∧ c ≤ '9' then c.toNat - 48
    else if 'a' ≤ c ∧ c ≤ 'f' then c.toNat - 87
    else if 'A' ≤ c ∧ c ≤ 'F' then c.toNat - 55
    else 99
  if v < base then some v else none

/-- The digits after those already read as `acc`. -/
def digitsFrom (base : Nat) : Nat → List Char → Option Nat
  | acc, [] => some acc
  | acc, c :: cs =>
    match digit base c with
    | some v => digitsFrom base (acc * base + v) cs
    | none => none

/-- A non-empty digit sequence. -/
def digits (base : Nat) (cs : List Char) : Option Nat := if cs.isEmpty then none else digitsFrom base 0 cs

/-- An integer, decimal or 0x hexadecimal (R170). -/
def natural : List Char → Option Nat
  | '0' :: 'x' :: cs => digits 16 cs
  | cs => digits 10 cs

/-- An integer that may carry a minus sign, as the frame count of PROCESS may (R143 s32). -/
def integer : List Char → Option Int
  | '-' :: cs => (natural cs).map fun n => -(n : Int)
  | cs => (natural cs).map fun n => (n : Int)

/-- The text before and after the first `c`, if there is one. -/
def splitAt (c : Char) (cs : List Char) : List Char × Option (List Char) :=
  match cs.dropWhile (· != c) with
  | [] => (cs, none)
  | _ :: rest => (cs.takeWhile (· != c), some rest)

/-- An unsigned decimal literal with an optional fraction and an optional power of ten, rounded by RN32 (R170). With a minus
sign before it, one that rounds to zero is the pattern of -0.0: 00_scope.md R15 names no sign of zero; this is the model's choice
(log entry 15). -/
def decimal (neg : Bool) (cs : List Char) : Option F32 :=
  let e := splitAt 'e' cs
  let m := splitAt '.' e.1
  let fr := m.2.getD []
  match digits 10 (m.1 ++ fr), (match e.2 with | some t => integer t | none => some 0) with
  | some n, some p =>
    let p := p - (fr.length : Int)
    some (if 0 ≤ p then F32.ofRat neg (n * 10 ^ p.toNat) 1 else F32.ofRat neg n (10 ^ (-p).toNat))
  | _, _ => none

/-- A binary32 operand: # and 0x and 8 hexadecimal digits for a bit pattern, else a decimal literal (R170). The texts NaN,
+∞ and -∞, which R170 does not name, are the patterns 95_test_vectors.md gives the lines it writes with them: the model's
choice (log entry 15). -/
def binary32 : List Char → Option F32
  | ['N', 'a', 'N'] => some 0x7FC00000#32
  | ['+', '∞'] => some 0x7F800000#32
  | ['-', '∞'] => some 0xFF800000#32
  | '#' :: '0' :: 'x' :: cs => if cs.length = 8 then (digits 16 cs).map (BitVec.ofNat 32) else none
  | '-' :: cs => decimal true cs
  | cs => decimal false cs

/-- A name out of a list, by its position. -/
def named (names : List String) (cs : List Char) : Option Nat := names.findIdx? (fun n => n.toList == cs)

/-- A name followed by a unit index, as a packed byte of the given type. -/
def indexed (name : String) (ty : Nat) (cs : List Char) : Option Nat :=
  if cs.take name.length == name.toList then
    match natural (cs.drop name.length) with
    | some k => if k < 16 then some (16 * ty + k) else none
    | none => none
  else none

/-- The first of the readings that succeeds. -/
def firstOf : List (Option Nat) → Option Nat
  | [] => none
  | some v :: _ => some v
  | none :: rs => firstOf rs

/-- A routing source by name, or as an integer (R170). -/
def source (cs : List Char) : Option Nat :=
  firstOf [(named ["NONE"] cs), indexed "ENV" 1 cs, indexed "LFO" 2 cs, (named ["VEL"] cs).map fun _ => 0x30,
    (named ["PRESS"] cs).map fun _ => 0x40, natural cs]

/-- A routing destination by name, or as an integer (R170). -/
def dest (cs : List Char) : Option Nat :=
  firstOf [(named ["NONE"] cs), indexed "OSC_FREQ" 1 cs, indexed "OSC_PW" 2 cs, indexed "OSC_MIX" 3 cs,
    indexed "FLT_CUT" 4 cs, indexed "FLT_RES" 5 cs, indexed "FLT_GAIN" 6 cs, (named ["AMP"] cs).map fun _ => 0x70,
    natural cs]

/-- One operand's value, within its field (R170). -/
def operand (f : Form) (cs : List Char) : Option Nat :=
  let v :=
    match f with
    | .x | .y | .z | .yz | .u32 => natural cs
    | .wave => firstOf [named ["SINE", "TRI", "SAW", "SQUARE", "NOISE", "CUSTOM"] cs, natural cs]
    | .filterType => firstOf [named ["LP", "HP", "BP", "NOTCH", "AP", "PEAK", "LSHELF", "HSHELF"] cs, natural cs]
    | .lfoMode => firstOf [named ["FREE", "TEMPO", "KEY"] cs, natural cs]
    | .source => source cs
    | .dest => dest cs
    | .f32 => (binary32 cs).map BitVec.toNat
    | .s32 =>
      match integer cs with
      | some n => if -(2 ^ 31 : Int) ≤ n ∧ n < 2 ^ 31 then some (BitVec.ofInt 32 n).toNat else none
      | none => none
  match v with
  | some n => if n < 2 ^ widthOf f then some n else none
  | none => none

/-- The operand bits of a command, each form from its text. -/
def operands : List Form → List (List Char) → Option Nat
  | [], [] => some 0
  | f :: fs, t :: ts =>
    match operand f t, operands fs ts with
    | some v, some r => some (v <<< shiftOf f + r)
    | _, _ => none
  | _, _ => none

/-- The minus sign of 95_test_vectors.md, U+2212, read as the one on a keyboard (log entry 15). -/
def plainMinus (c : Char) : Char := if c = '−' then '-' else c

/-- White space taken off both ends. -/
def trim (cs : List Char) : List Char :=
  ((cs.dropWhile Char.isWhitespace).reverse.dropWhile Char.isWhitespace).reverse

/-- The texts between commas. -/
def commaSeparated : List Char → List (List Char)
  | [] => [[]]
  | c :: cs =>
    if c = ',' then [] :: commaSeparated cs
    else
      match commaSeparated cs with
      | [] => [[c]]
      | t :: ts => (c :: t) :: ts

/-- A pseudo-command by name with its integer operands (R171). -/
def pseudo (m : List Char) (ts : List (List Char)) : Option Pseudo :=
  match String.ofList m, ts with
  | "NOTE", [n, v] =>
    match operand .x n, operand .y v with
    | some n, some v => some (.note (BitVec.ofNat 8 n) (BitVec.ofNat 8 v))
    | _, _ => none
  | "RUN", [n] => (operand .s32 n).map fun n => .run (BitVec.ofNat 32 n)
  | "SILENCE", [] => some .silence
  | "FLT_BYPASS", [j] => (operand .x j).map fun j => .fltBypass (BitVec.ofNat 8 j)
  | "LFO_SYNC", [l, d] =>
    match operand .x l, operand .y d with
    | some l, some d => some (.lfoSync (BitVec.ofNat 8 l) (BitVec.ofNat 8 d))
    | _, _ => none
  | "ROUTE_OFF", [r] => (operand .x r).map fun r => .routeOff (BitVec.ofNat 8 r)
  | _, _ => none

/-- One line of assembler text to command words: a comment is dropped, an empty line gives no word; none where the text
is no command (R170, R171). -/
def assembleLine (line : String) : Option (List Command) :=
  let cs := (trim (line.toList.takeWhile (· != ';'))).map plainMinus
  let m := cs.takeWhile (fun c => !c.isWhitespace)
  let rest := trim (cs.drop m.length)
  let ts := if rest.isEmpty then [] else (commaSeparated rest).map trim
  if cs.isEmpty then some []
  else
    match opcodeRows.find? (fun r => r.mnemonic.toList == m) with
    | some r => (operands (lineForms r.mnemonic ts.length) ts).map fun v => [r.pattern + BitVec.ofNat 64 v]
    | none => (pseudo m ts).map fun p => (expand p).map Instr.encode

end Sys2Proof.Asm
end

