-- ==== Sys2Proof/Machine/HostPort.lean ====
section
/-! DEFINITION. What the host can do to the block between two steps (70_reset_and_hazards.md R720): send command words
on any transport, take frames and response words, set what the output streams can hold, power the block on. Byte order is
20_memory.md R107, assembly of whole words R108. -/

namespace Sys2Proof.Machine

/-- The bytes of a 32-bit word, least significant first (R107). -/
def wordBytes (w : Word) : List Byte :=
  [w.extractLsb' 0 8, w.extractLsb' 8 8, w.extractLsb' 16 8, w.extractLsb' 24 8]

/-- A frame on a byte transport: L then R (R107). -/
def frameBytes (f : Frame) : List Byte := wordBytes f.l ++ wordBytes f.r

/-- The whole command words at the front of a byte sequence, and the bytes of the one that is not whole yet (R107,
R108). -/
def assembleBytes : List Byte → List Command × List Byte
  | b0 :: b1 :: b2 :: b3 :: b4 :: b5 :: b6 :: b7 :: rest =>
    let r := assembleBytes rest
    ((b7 ++ b6 ++ b5 ++ b4 ++ b3 ++ b2 ++ b1 ++ b0 : Command) :: r.1, r.2)
  | rest => ([], rest)

/-- Bytes arriving on the command port. A partial command waits for the rest (R108). -/
def State.receive (s : State) (bs : List Byte) : State :=
  let r := assembleBytes (s.rxBytes ++ bs)
  { s with commands := s.commands ++ r.1, rxBytes := r.2 }

/-- The host's actions. -/
inductive HostAction where
  /-- one byte of a byte transport -/
  | sendByte (b : Byte)
  /-- one half of a 32-bit transport, W[31:0] before W[63:32] -/
  | sendHalf (h : Word)
  /-- one word of a 64-bit transport -/
  | sendWord (w : Command)
  /-- the audio stream is one that holds so many frames; none: unbounded (R103, 60_exceptions.md R625; log entry 19) -/
  | frameCapacity (cap : Option Nat)
  /-- the response stream is one that holds so many words; none: unbounded (R103, R625) -/
  | wordCapacity (cap : Option Nat)
  /-- the oldest frame is taken, its L and R together, which frees its place and so ends a stall on it (60_exceptions.md R624) -/
  | takeFrame
  /-- the oldest response word is taken, which frees its place (R624) -/
  | takeResponse
  /-- power-on reset (70_reset_and_hazards.md R705) -/
  | powerOn
  deriving DecidableEq, Repr

/-- A host action's effect, between two steps (R100).

The host takes a whole frame, and its room is freed as one: R101 speaks of frames, R103, R108 and R624 of words, and this is the
model's choice (log entry 19).

Power-on during a run is the model's choice (log entry 18): R705 empties the output streams and is silent on what the host
has already sent; here the command words not yet taken and the bytes of a partial word are discarded, and the two
capacities, which are the host's, are kept. -/
def State.host (s : State) : HostAction → State
  | .sendByte b => s.receive [b]
  | .sendHalf h => s.receive (wordBytes h)
  | .sendWord w => s.receive (Command.toBytes w)
  | .frameCapacity cap => { s with audioCap := cap }
  | .wordCapacity cap => { s with respCap := cap }
  | .takeFrame => { s with audio := s.audio.dropLast }
  | .takeResponse => { s with responses := s.responses.dropLast }
  | .powerOn => { State.resetOf s.cfg with audioCap := s.audioCap, respCap := s.respCap }

end Sys2Proof.Machine
end

