-- ==== Sys2Proof/WellFormed.lean ====
section
/-! DEFINITION. Well-formed commands under a configuration: those that pass steps 3 to 5 of the check phase
(30_encoding.md R160) and, for READ, name a register (60_exceptions.md R604). -/

namespace Sys2Proof

open Machine in
/-- Whether the block carries the command out. A command that is not well-formed is refused with an event. -/
def Instr.wellFormed (c : Config) : Instr → Bool
  | .nop | .reset | .seedPrng _ | .clearStatus | .noteOff | .voiceStop | .voiceKill | .process _ => true
  | .setSampleRate d | .setTempo d => acceptsClamped d
  | .read cls idx fld => registerExists c cls.toNat idx.toNat fld.toNat
  | .noteOn note vel d => midiLegal note && midiLegal vel && acceptsClamped d
  | .setPressure y => midiLegal y
  | .oscSetWave x y => decide (x.toNat < c.nOsc) && (waveOf y).isSome
  | .oscSetFreq x d | .oscSetDetune x d | .oscSetPw x d | .oscSetMix x d =>
    decide (x.toNat < c.nOsc) && acceptsClamped d
  | .oscSetPhase x d => decide (x.toNat < c.nOsc) && acceptsFinite d
  | .oscCustWrite x n d => decide (x.toNat < c.nOsc) && userIndexLegal c n && acceptsFinite d
  | .oscCustCommit x d => decide (x.toNat < c.nOsc) && commitLengthLegal c d
  | .fltSetType x y => decide (x.toNat < c.nFlt) && (filterTypeOf y).isSome
  | .fltSetCutoff x d | .fltSetRes x d | .fltSetGain x d => decide (x.toNat < c.nFlt) && acceptsClamped d
  | .fltSetEnable x y => decide (x.toNat < c.nFlt) && (bitOf y).isSome
  | .fltReset x => decide (x.toNat < c.nFlt)
  | .envSetAttack x d | .envSetDecay x d | .envSetSustain x d | .envSetRelease x d | .envSetVelsens x d =>
    decide (x.toNat < c.nEnv) && acceptsClamped d
  | .envSetCurve x y => decide (x.toNat < c.nEnv) && curveLegal y
  | .envTrigger x | .envRelease x | .envStop x => decide (x.toNat < c.nEnv)
  | .lfoSetWave x y => decide (x.toNat < c.nLfo) && (lfoWaveOf y).isSome
  | .lfoSetFreq x d | .lfoSetDepth x d | .lfoSetPw x d => decide (x.toNat < c.nLfo) && acceptsClamped d
  | .lfoSetMode x y => decide (x.toNat < c.nLfo) && (lfoModeOf y).isSome
  | .lfoSetDiv x y => decide (x.toNat < c.nLfo) && divLegal y
  | .lfoSetInvert x y | .lfoSetRetrig x y => decide (x.toNat < c.nLfo) && (bitOf y).isSome
  | .lfoSetPhase x d => decide (x.toNat < c.nLfo) && acceptsFinite d
  | .lfoTrigger x => decide (x.toNat < c.nLfo)
  | .routeSet x src dst d =>
    decide (x.toNat < c.nRoute) && (sourceLegal c src && destLegal c dst) && acceptsClamped d
  | .routeClear x => decide (x.toNat < c.nRoute)

end Sys2Proof
end

