-- ==== Sys2Proof/Safety.lean ====
section
/-! DEFINITION. What a safe run is and the terms the statements use: the invariant of the block's state, what a command
leaves unchanged, the steps of the check phase as facts about the syntax. -/

namespace Sys2Proof.Machine

/-! ### The invariant -/

/-- lo ≤ x ≤ hi; so x is no NaN. -/
def inRange (lo hi x : F32) : Bool := F32.le lo x && F32.le x hi

/-- x is neither below lo nor above hi. -/
def notOutside (lo hi x : F32) : Bool := !F32.lt x lo && !F32.lt hi x

/-- The legal values of an oscillator's registers and tables (10_state.md R37, 20_memory.md R104). -/
def oscOk (c : Config) (o : Osc) : Bool :=
  inRange Const.detMin Const.detMax o.detune && inRange Const.pwMin Const.pwMax o.pw &&
  inRange Const.mixMin Const.mixMax o.mix && notOutside Const.fMin Const.fMax o.fEff &&
  notOutside Const.pwMin Const.pwMax o.pwEff && notOutside Const.mixMin Const.mixMax o.mixEff &&
  decide (o.band < c.nb) && decide (o.custLen ≤ c.uMax) && o.user.wf && o.user.below c.uMax &&
  o.ctab.wf && o.ctab.below c.tab

/-- The legal values of a filter's registers (R38): A0 reads 1.0 (42_filter.md R311), the delay line is finite (R332). -/
def fltOk (f : Flt) : Bool :=
  inRange Const.cutMin Const.cutMax f.cutoff && inRange Const.qMin Const.qMax f.res &&
  inRange Const.gainMin Const.gainMax f.gain && notOutside Const.qMin Const.qMax f.qEff &&
  notOutside Const.gainMin Const.gainMax f.gainEff && f.a0 == F32.one &&
  F32.isFinite f.x1 && F32.isFinite f.x2 && F32.isFinite f.y1 && F32.isFinite f.y2

/-- The legal values of an envelope's registers (R39); ELAPSED is 0 in Idle and Sustain (43_envelope.md R356). -/
def envOk (e : Env) : Bool :=
  inRange Const.timeMin Const.timeMax e.attack && inRange Const.timeMin Const.timeMax e.decay &&
  inRange Const.timeMin Const.timeMax e.release && inRange Const.levelMin Const.levelMax e.sustain &&
  inRange Const.levelMin Const.levelMax e.velsens && decide (2 ≤ e.curve) && decide (e.curve ≤ 8) &&
  decide (1 ≤ e.lenA) && decide (1 ≤ e.lenD) && decide (1 ≤ e.lenR) && decide (1 ≤ e.lenSh) &&
  ((e.stage != .idle && e.stage != .sustain) || e.elapsed == 0)

/-- The legal values of an LFO's registers (R40). -/
def lfoOk (l : Lfo) : Bool :=
  inRange Const.lfoFMin Const.lfoFMax l.freq && inRange Const.levelMin Const.levelMax l.depth &&
  inRange Const.pwMin Const.pwMax l.pw && decide (l.div ≤ 15) && notOutside Const.lfoFMin Const.lfoFMax l.fEff

/-- The legal values of a routing slot (R41, 30_encoding.md R153, R154). -/
def routeOk (c : Config) (r : Route) : Bool :=
  sourceLegal c r.src && destLegal c r.dst && inRange Const.amtMin Const.amtMax r.amount

/-- One accumulator for every valid destination (R43). -/
def accOk (c : Config) (a : Acc) : Bool :=
  a.oscFreq.length == c.nOsc && a.oscPw.length == c.nOsc && a.oscMix.length == c.nOsc &&
  a.fltCutoff.length == c.nFlt && a.fltRes.length == c.nFlt && a.fltGain.length == c.nFlt

/-- An emitted frame: L = R, and never an infinity or a NaN (45_voice.md R473, R475). -/
def frameOk (f : Frame) : Bool := f.l == f.r && F32.isFinite f.l

/-- The invariant of the block: every unit the configuration has; the registers a setter writes, but FREQ and the phases,
within their ranges; F_EFF, PW_EFF, MIX_EFF, Q_EFF and GAIN_EFF neither below nor above their bounds, while CUT_EFF and
AMP_EFF are `State.Legal`'s; A0 = 1.0, finite delay lines, the table memories in canonical form, only the event bits R35
names, only finite mono frames. -/
structure State.Inv (s : State) : Prop where
  cfg : s.cfg.legal = true
  oscCount : s.osc.length = s.cfg.nOsc
  fltCount : s.flt.length = s.cfg.nFlt
  envCount : s.env.length = s.cfg.nEnv
  lfoCount : s.lfo.length = s.cfg.nLfo
  routeCount : s.route.length = s.cfg.nRoute
  osc : ∀ o ∈ s.osc, oscOk s.cfg o = true
  flt : ∀ f ∈ s.flt, fltOk f = true
  env : ∀ e ∈ s.env, envOk e = true
  lfo : ∀ l ∈ s.lfo, lfoOk l = true
  route : ∀ r ∈ s.route, routeOk s.cfg r = true
  acc : accOk s.cfg s.acc = true
  fs : inRange Const.fsMin Const.fsMax s.fs = true
  tempo : inRange Const.tempoMin Const.tempoMax s.tempo = true
  note : midiLegal s.note = true ∨ s.note = Const.noteNone
  vel : midiLegal s.vel = true
  pressure : midiLegal s.pressure = true
  sticky : s.evtSticky &&& 0xFFFFFE01#32 = 0#32
  lastEvt : s.lastEvt &&& 0xFFFF0000#32 = 0#32
  frames : ∀ f ∈ s.audio, frameOk f = true

/-- x in [0, 1), the range of a phase. -/
def unitPhase (x : F32) : Bool := F32.le F32.posZero x && F32.lt x F32.one

/-- The ranges R37 gives an oscillator's registers, at the sample rate held: FREQ down to N2F[0], which NOTE_ON loads
unclamped (40_fastmath.md R211); DSCALE, INC and BAND by their formulas; with finite user samples (41_oscillator.md R276). -/
def oscLegal (c : Config) (fs : F32) (o : Osc) : Bool :=
  inRange 0x4102D013#32 Const.fMax o.freq && unitPhase o.phase && unitPhase o.ph0 &&
  o.dscale == FastMath.dscale o.detune && F32.isFinite o.dscale && inRange Const.fMin Const.fMax o.fEff &&
  o.inc == F32.div o.fEff fs && F32.isFinite o.inc && o.band == Tables.selectBand c.nb o.fEff &&
  inRange Const.pwMin Const.pwMax o.pwEff && inRange Const.mixMin Const.mixMax o.mixEff &&
  o.user.all (fun e => F32.isFinite e.2)

/-- The ranges R38 gives a filter's effective parameters, at the sample rate held, and its coefficients: any finite value
(42_filter.md R313). -/
def fltLegal (fs : F32) (f : Flt) : Bool :=
  inRange Const.cutMin (F32.min Const.cutMax (F32.mul Const.nyqFrac fs)) f.cutEff &&
  inRange Const.qMin Const.qMax f.qEff && inRange Const.gainMin Const.gainMax f.gainEff &&
  F32.isFinite f.b0 && F32.isFinite f.b1 && F32.isFinite f.b2 && F32.isFinite f.a1 && F32.isFinite f.a2

/-- The ranges R39 gives an envelope's running and derived registers. -/
def envLegal (e : Env) : Bool :=
  inRange F32.posZero F32.one e.value && inRange F32.posZero F32.one e.start && inRange F32.posZero F32.one e.vm &&
  decide (e.elapsed ≤ 5760000) &&
  [(e.lenA, e.slopeA), (e.lenD, e.slopeD), (e.lenR, e.slopeR), (e.lenSh, e.slopeSh)].all fun p =>
    decide (p.1 ≤ 5760000) && p.2 == F32.div F32.one (F32.float p.1)

/-- The ranges R40 gives an LFO's running and derived registers, at the sample rate held. -/
def lfoLegal (fs : F32) (l : Lfo) : Bool :=
  unitPhase l.phase && inRange Const.minusOne F32.one l.value && inRange Const.lfoFMin Const.lfoFMax l.fEff &&
  l.inc == F32.div l.fEff fs && F32.isFinite l.inc

/-- Every register of R33 and R37 to R43 at a value its table gives: the invariant, with the running and the derived
registers in their ranges. -/
structure State.Legal (s : State) : Prop where
  inv : s.Inv
  osc : ∀ o ∈ s.osc, oscLegal s.cfg s.fs o = true
  flt : ∀ f ∈ s.flt, fltLegal s.fs f = true
  env : ∀ e ∈ s.env, envLegal e = true
  lfo : ∀ l ∈ s.lfo, lfoLegal s.fs l = true
  ampEff : inRange Const.ampMin Const.ampMax s.ampEff = true
  acc : ∀ t n, F32.isFinite (accGet s.acc t n) = true

/-- A state from which the block takes its next command: the launch premises of 70_reset_and_hazards.md R711 kept up. -/
structure State.Ready (s : State) : Prop where
  inv : s.Inv
  resetDone : s.resetDone = true

/-- A safe run of `k` steps: it is never refused (60_exceptions.md R625). -/
def SafeRun (k : Nat) (s : State) : Prop := ∃ t, core.run k s = .next t

/-! ### What a command leaves unchanged -/

/-- USER[i][n] (20_memory.md R104). -/
def State.userEntry (s : State) (i n : Nat) : F32 := (s.osc[i]?.map fun o => o.user.read n).getD Memory.unlisted

/-- CTAB[i][n] (R104). -/
def State.custEntry (s : State) (i n : Nat) : F32 := (s.osc[i]?.map fun o => o.ctab.read n).getD Memory.unlisted

/-- A register address (C, I, F) (10_state.md R32). -/
abbrev Address := Nat × Nat × Nat

/-- The register at the address exists and reads `w`. -/
def Reads (t : State) (a : Address) (w : Word) : Prop := t.readRegister a.1 a.2.1 a.2.2 = some w

/-- Every register outside `changed` reads as before. -/
def SameRegisters (changed : Address → Bool) (s t : State) : Prop :=
  ∀ c i f, changed (c, i, f) = false → t.readRegister c i f = s.readRegister c i f

/-- Every entry of every user buffer and custom table reads as before. -/
def SameTables (s t : State) : Prop :=
  ∀ i n, t.userEntry i n = s.userEntry i n ∧ t.custEntry i n = s.custEntry i n

/-- Both output streams and their capacities are as before. -/
def SameOutputs (s t : State) : Prop :=
  t.audio = s.audio ∧ t.responses = s.responses ∧ t.audioCap = s.audioCap ∧ t.respCap = s.respCap

/-- A stream of capacity `cap` that holds `held` words accepts `n` more now: it is unbounded, or it is not full and can hold
them all, or is empty, the host taking each as it comes (20_memory.md R103; the last is the model's choice, log entry 3). -/
def Accepts (cap : Option Nat) (held n : Nat) : Prop :=
  ∀ k, cap = some k → held < k ∧ (held + n ≤ k ∨ held = 0)

/-- Neither output stream is full (20_memory.md R103). -/
def State.NotFull (s : State) : Prop :=
  (∀ k, s.audioCap = some k → s.audio.length < k) ∧ ∀ k, s.respCap = some k → s.responses.length < k

/-- The state after the host has taken every frame and every response word. -/
def State.drained (s : State) : State :=
  (fun t => t.host .takeResponse)^[s.responses.length] ((fun t => t.host .takeFrame)^[s.audio.length] s)

/-- The configuration, the launch condition and what the host has sent are as before. -/
def SameInputs (s t : State) : Prop :=
  t.cfg = s.cfg ∧ t.resetDone = s.resetDone ∧ t.commands = s.commands ∧ t.rxBytes = s.rxBytes

/-- Everything but the registers is as before. -/
def SameElse (s t : State) : Prop := SameTables s t ∧ SameOutputs s t ∧ SameInputs s t

/-- The registers that follow env[0].STAGE by definition: STATUS and VOICE.ACTIVE (10_state.md R34, R42). -/
def derivedFrom (k : Nat) : List Address := if k = 0 then [(0, 0, 4), (6, 0, 3)] else []

/-- The command answers a next state in which the listed registers read the listed values, and every register outside
them and outside `also`, every table entry and every stream is as before. -/
def Writes (i : Instr) (s : State) (writes : List (Address × Word)) (also : List Address) : Prop :=
  ∃ t, exec i s = .next t ∧ (∀ w ∈ writes, Reads t w.1 w.2) ∧
    SameRegisters (fun a => (writes.map Prod.fst ++ also).contains a) s t ∧ SameElse s t

/-- What recording the event `code` during the command with opcode `op` does, and nothing else (60_exceptions.md R602). -/
def recorded (op : Byte) (code : Nat) (s : State) : State :=
  let count (w : Word) : Word := BitVec.ofNat 32 (min (w.toNat + 1) 0xFFFFFFFF)
  { s with
    evtSticky := s.evtSticky ||| BitVec.ofNat 32 (2 ^ code)
    lastEvt := BitVec.ofNat 32 (256 * op.toNat + code)
    instabCount := if code = 6 then count s.instabCount else s.instabCount
    sanitizeCount := if code = 7 then count s.sanitizeCount else s.sanitizeCount
    rejectCount := if code = 6 ∨ code = 7 then s.rejectCount else count s.rejectCount }

/-! ### The datapath in the statements' own words -/

open F32 in
/-- SinPos (40_fastmath.md R207): the sine table between entries i and i + 1 modulo TSIN. -/
def sineAt (tsin : Nat) (pos : F32) : F32 :=
  let i := floor pos
  let a := FastMath.sinTab tsin (i % tsin).toNat
  let b := FastMath.sinTab tsin ((i + 1) % tsin).toNat
  add a (mul (sub pos (float i)) (sub b a))

open F32 in
/-- BandRead (41_oscillator.md R263): a T-entry table at phase φ, its last entry followed by its first. -/
def tableAt (T : Nat) (table : Nat → F32) (φ : F32) : F32 :=
  let pos := mul φ (float T)
  let i := (floor pos).toNat
  add (table i) (mul (sub pos (float i)) (sub (table ((i + 1) % T)) (table i)))

open F32 in
/-- Coefs(type, fc, Q, g) (42_filter.md R302 to R311), each operation rounded in the order the rules write. -/
def filterCoefficients (tsin : Nat) (fs : F32) (ty : FilterType) (fc q g : F32) : Coefs :=
  let sine (θ : F32) : F32 :=
    sineAt tsin (mul (sub θ (mul 0x40C90FDB#32 (float (floor (div θ 0x40C90FDB#32))))) (FastMath.ksin tsin))
  let w0 := mul 0x40C90FDB#32 (div fc fs)
  let sw := sine w0
  let cw := sine (add w0 0x3FC90FDB#32)
  let alpha := div sw (mul two q)
  let m2cw := mul negTwo cw
  let A := FastMath.db40 g
  let k := mul (mul two (sqrt A)) alpha
  let Ap1 := add A one
  let Am1 := sub A one
  let Am1c := mul Am1 cw
  let Ap1c := mul Ap1 cw
  let raw : F32 × F32 × F32 × F32 × F32 × F32 :=
    match ty with
    | .lowPass =>
      (mul (sub one cw) Const.half, sub one cw, mul (sub one cw) Const.half, add one alpha, m2cw, sub one alpha)
    | .highPass =>
      (mul (add one cw) Const.half, neg (add one cw), mul (add one cw) Const.half, add one alpha, m2cw, sub one alpha)
    | .bandPass => (alpha, posZero, neg alpha, add one alpha, m2cw, sub one alpha)
    | .notch => (one, m2cw, one, add one alpha, m2cw, sub one alpha)
    | .allPass => (sub one alpha, m2cw, add one alpha, add one alpha, m2cw, sub one alpha)
    | .peaking =>
      (add one (mul alpha A), m2cw, sub one (mul alpha A), add one (div alpha A), m2cw, sub one (div alpha A))
    | .lowShelf =>
      (mul A (add (sub Ap1 Am1c) k), mul (mul two A) (sub Am1 Ap1c), mul A (sub (sub Ap1 Am1c) k),
       add (add Ap1 Am1c) k, mul negTwo (add Am1 Ap1c), sub (add Ap1 Am1c) k)
    | .highShelf =>
      (mul A (add (add Ap1 Am1c) k), mul (mul negTwo A) (add Am1 Ap1c), mul A (sub (add Ap1 Am1c) k),
       add (sub Ap1 Am1c) k, mul two (sub Am1 Ap1c), sub (sub Ap1 Am1c) k)
  let (b0, b1, b2, a0, a1, a2) := raw
  { b0 := div b0 a0, b1 := div b1 a0, b2 := div b2 a0, a0 := one, a1 := div a1 a0, a2 := div a2 a0 }

/-- What enters filter j of the cascade on a mix m: the output of the enabled filters before it, one into the next, a
disabled one passing it on (42_filter.md R330); for j the number of filters, what leaves the cascade. -/
def filterInput (fs : List Flt) (m : F32) (j : Nat) : F32 :=
  (fs.take j).foldl (fun x f => if f.enable then (biquad f x).2.1 else x) m

/-- The filters after a mix m has gone through the cascade: an enabled one takes its step, a disabled one stays (R330). -/
def filtersAfter (fs : List Flt) (m : F32) : List Flt :=
  fs.mapIdx fun j f => if f.enable then (biquad f (filterInput fs m j)).1 else f

/-- The events of the enabled filters, in filter order (R332, 60_exceptions.md R605). -/
def filterEvents (fs : List Flt) (m : F32) : List Event :=
  (fs.mapIdx fun j f => if f.enable then (biquad f (filterInput fs m j)).2.2 else []).flatten

/-- The registers a coefficient update of filter j writes, from filter `f` (42_filter.md R301, R320). -/
def coefficientUpdate (s : State) (j : Nat) (f : Flt) : List (Address × Word) :=
  let fc := F32.clamp (F32.add f.cutoff (accGet s.acc 4 j)) Const.cutMin
    (F32.min Const.cutMax (F32.mul Const.nyqFrac s.fs))
  let q := F32.clamp (F32.add f.res (accGet s.acc 5 j)) Const.qMin Const.qMax
  let g := F32.clamp (F32.add f.gain (accGet s.acc 6 j)) Const.gainMin Const.gainMax
  let k := filterCoefficients s.cfg.tsin s.fs f.type fc q g
  [((2, j, 5), k.b0), ((2, j, 6), k.b1), ((2, j, 7), k.b2), ((2, j, 8), F32.one), ((2, j, 9), k.a1),
   ((2, j, 10), k.a2), ((2, j, 15), fc), ((2, j, 16), q), ((2, j, 17), g)]

/-- The four delay registers of filter j at +0.0. -/
def delayCleared (j : Nat) : List (Address × Word) :=
  [((2, j, 11), F32.posZero), ((2, j, 12), F32.posZero), ((2, j, 13), F32.posZero), ((2, j, 14), F32.posZero)]

/-- How many of the first `i` oscillators are Noise: the draws of a sample before oscillator i's (41_oscillator.md R259). -/
def oscDrawsBefore (os : List Osc) (i : Nat) : Nat := (os.take i).countP (fun o => o.wave == .noise)

/-- How many of the first `l` LFOs are Noise: the draws of a block start before LFO l's (44_lfo.md R402). -/
def lfoDrawsBefore (ls : List Lfo) (l : Nat) : Nat := (ls.take l).countP (fun o => o.wave == .noise)

open F32 in
/-- The value of oscillator i in the next sample (41_oscillator.md R254 to R259, R264), its draw placed in index order
(45_voice.md R472 step 1). -/
def waveOfOsc (s : State) (i : Nat) (o : Osc) : F32 :=
  let saw := tableAt s.cfg.tab (Tables.saw s.cfg s.fs o.band)
  match o.wave with
  | .sine => sineAt s.cfg.tsin (mul o.phase (float s.cfg.tsin))
  | .triangle => tableAt s.cfg.tab (Tables.tri s.cfg s.fs o.band) o.phase
  | .sawtooth => saw o.phase
  | .square => add (sub (saw (wrap (sub o.phase o.pwEff))) (saw o.phase)) (sub (mul two o.pwEff) one)
  | .noise => (FastMath.draw (FastMath.prngNext^[oscDrawsBefore s.osc i] s.prng)).2
  | .custom => tableAt s.cfg.tab (s.custEntry i) o.phase

open F32 in
/-- The waveform of LFO l at the next block start (44_lfo.md R404, the closed forms of 41_oscillator.md R265), its draw
placed in index order (45_voice.md R471 step 2). -/
def waveOfLfo (s : State) (l : Nat) (o : Lfo) : F32 :=
  let φ := o.phase
  match o.wave with
  | .sine => sineAt s.cfg.tsin (mul φ (float s.cfg.tsin))
  | .triangle =>
    if lt φ 0x3E800000#32 then mul 0x40800000#32 φ
    else if lt φ 0x3F400000#32 then sub two (mul 0x40800000#32 φ)
    else sub (mul 0x40800000#32 φ) 0x40800000#32
  | .sawtooth => sub (mul two φ) one
  | .square => if lt φ o.pw then one else 0xBF800000#32
  | .noise => (FastMath.draw (FastMath.prngNext^[lfoDrawsBefore s.lfo l] s.prng)).2

/-- A routing slot that adds to destination (t, n): its source and destination are not NONE (45_voice.md R462). -/
def feeds (t n : Nat) (r : Route) : Bool :=
  packedType r.src != 0 && packedType r.dst == t && packedIndex r.dst == n

/-- A routing slot with source or destination NONE (45_voice.md R462). -/
def slotDisabled (r : Route) : Bool := packedType r.src == 0 || packedType r.dst == 0

/-- The parameter registers: those a setter writes, the routing slots, and VM, VEL, PRESSURE, which only note commands
and SET_PRESSURE write (10_state.md R33, R37 to R42), with the derived lengths and DSCALE that follow setters alone. -/
def isParameter : Address → Bool
  | (0, _, f) => f == 0 || f == 1 || decide (10 ≤ f)
  | (1, _, f) => f == 0 || f == 1 || (decide (3 ≤ f) && decide (f ≤ 7)) || f == 13
  | (2, _, f) => decide (f ≤ 4)
  | (3, _, f) => decide (4 ≤ f)
  | (4, _, f) => decide (f ≤ 7)
  | (5, _, _) => true
  | (6, _, f) => f == 1 || f == 2
  | _ => false

/-- The stage changes a timed stage may make by running on (43_envelope.md R350). -/
def stageForward : Stage → Stage → Bool
  | .attack, b => b == .attack || b == .decay || b == .sustain
  | .decay, b => b == .decay || b == .sustain
  | .sustain, b => b == .sustain
  | .release, b => b == .release || b == .idle
  | .shutdown, b => b == .shutdown || b == .idle
  | .idle, b => b == .idle

/-- The stages envelope `k` may be in after a command, from stage `a` (43_envelope.md R350; RESET and SET_SAMPLE_RATE
set Idle by 70_reset_and_hazards.md R701, R704). -/
def stageAfter (i : Instr) (k : Nat) (a b : Stage) : Bool :=
  let released := (a == .attack || a == .decay || a == .sustain) && b == .release
  let stopped := (a == .attack || a == .decay || a == .sustain || a == .release) && b == .shutdown
  match i with
  | .process _ => stageForward a b || b == .idle
  | .noteOn _ _ _ => b == a || b == .attack
  | .noteOff => (b == a && !(a == .attack || a == .decay || a == .sustain)) || released
  | .voiceStop => (b == a && (a == .idle || a == .shutdown)) || stopped
  | .voiceKill | .reset => b == .idle
  | .setSampleRate _ => b == a || b == .idle
  | .envTrigger x => b == a || (x.toNat == k && b == .attack)
  | .envRelease x => b == a || (x.toNat == k && released)
  | .envStop x => b == a || (x.toNat == k && stopped)
  | _ => b == a

/-- The setters of 41_oscillator.md to 44_lfo.md that 20_memory.md R109 calls idempotent. -/
def isSetter : Instr → Bool
  | .oscSetWave _ _ | .oscSetFreq _ _ | .oscSetDetune _ _ | .oscSetPw _ _ | .oscSetMix _ _ | .oscCustWrite _ _ _
  | .oscCustCommit _ _ | .fltSetType _ _ | .fltSetCutoff _ _ | .fltSetRes _ _ | .fltSetGain _ _ | .fltSetEnable _ _
  | .envSetAttack _ _ | .envSetDecay _ _ | .envSetSustain _ _ | .envSetRelease _ _ | .envSetCurve _ _
  | .envSetVelsens _ _ | .lfoSetWave _ _ | .lfoSetFreq _ _ | .lfoSetMode _ _ | .lfoSetDiv _ _ | .lfoSetDepth _ _
  | .lfoSetInvert _ _ | .lfoSetRetrig _ _ | .lfoSetPw _ _ | .lfoSetPhase _ _ => true
  | _ => false

/-- The registers SET_SAMPLE_RATE keeps (70_reset_and_hazards.md R706 rows marked K): every parameter but FS, and
PRNG_STATE, SAMPLE_COUNT and the event registers. -/
def keptBySampleRate : Address → Bool
  | (0, _, f) => (decide (1 ≤ f) && f != 4)
  | (1, _, f) => f == 0 || f == 1 || (decide (3 ≤ f) && decide (f ≤ 7)) || f == 13
  | (2, _, f) => decide (f ≤ 4)
  | (3, _, f) => decide (4 ≤ f) && decide (f ≤ 10)
  | (4, _, f) => decide (f ≤ 7)
  | (5, _, _) => true
  | _ => false

/-! ### The check phase as facts about the syntax -/

/-- Step 3 of 30_encoding.md R160: the unit index is below the unit count, or the command has none. -/
def unitIndexLegal (c : Config) : Instr → Bool
  | .oscSetWave x _ | .oscSetFreq x _ | .oscSetPhase x _ | .oscSetDetune x _ | .oscSetPw x _ | .oscSetMix x _
  | .oscCustWrite x _ _ | .oscCustCommit x _ => decide (x.toNat < c.nOsc)
  | .fltSetType x _ | .fltSetCutoff x _ | .fltSetRes x _ | .fltSetGain x _ | .fltSetEnable x _ | .fltReset x =>
    decide (x.toNat < c.nFlt)
  | .envSetAttack x _ | .envSetDecay x _ | .envSetSustain x _ | .envSetRelease x _ | .envSetCurve x _
  | .envSetVelsens x _ | .envTrigger x | .envRelease x | .envStop x => decide (x.toNat < c.nEnv)
  | .lfoSetWave x _ | .lfoSetFreq x _ | .lfoSetMode x _ | .lfoSetDiv x _ | .lfoSetDepth x _ | .lfoSetInvert x _
  | .lfoSetRetrig x _ | .lfoSetPw x _ | .lfoSetPhase x _ | .lfoTrigger x => decide (x.toNat < c.nLfo)
  | .routeSet x _ _ _ | .routeClear x => decide (x.toNat < c.nRoute)
  | .nop | .reset | .setSampleRate _ | .setTempo _ | .seedPrng _ | .read _ _ _ | .clearStatus | .noteOn _ _ _ | .noteOff
  | .voiceStop | .voiceKill | .setPressure _ | .process _ => true

/-- Step 4 of R160: every enumeration and integer operand is legal, or the command has none. -/
def operandsLegal (c : Config) : Instr → Bool
  | .noteOn note vel _ => decide (note.toNat ≤ 127) && decide (vel.toNat ≤ 127)
  | .setPressure y => decide (y.toNat ≤ 127)
  | .oscSetWave _ y => decide (y.toNat ≤ 5)
  | .oscCustWrite _ n _ => decide (n.toNat < c.uMax)
  | .oscCustCommit _ d => decide (1 ≤ d.toNat) && decide (d.toNat ≤ c.uMax)
  | .fltSetType _ y => decide (y.toNat ≤ 7)
  | .fltSetEnable _ y | .lfoSetInvert _ y | .lfoSetRetrig _ y => decide (y.toNat ≤ 1)
  | .envSetCurve _ y => decide (2 ≤ y.toNat) && decide (y.toNat ≤ 8)
  | .lfoSetWave _ y => decide (y.toNat ≤ 4)
  | .lfoSetMode _ y => decide (y.toNat ≤ 2)
  | .lfoSetDiv _ y => decide (y.toNat ≤ 15)
  | .routeSet _ src dst _ => sourceLegal c src && destLegal c dst
  | _ => true

/-- Step 5 of R160: the binary32 operand is no NaN, and finite where the command does not clamp it (R162, R163), or the
command has none. -/
def numberLegal : Instr → Bool
  | .oscSetPhase _ d | .lfoSetPhase _ d | .oscCustWrite _ _ d => F32.isFinite d
  | .setSampleRate d | .setTempo d | .noteOn _ _ d | .oscSetFreq _ d | .oscSetDetune _ d | .oscSetPw _ d
  | .oscSetMix _ d | .fltSetCutoff _ d | .fltSetRes _ d | .fltSetGain _ d | .envSetAttack _ d | .envSetDecay _ d
  | .envSetSustain _ d | .envSetRelease _ d | .envSetVelsens _ d | .lfoSetFreq _ d | .lfoSetDepth _ d | .lfoSetPw _ d
  | .routeSet _ _ _ d => !F32.isNaN d
  | _ => true

/-! ### Values of binary32 patterns -/

/-- The magnitude, as a multiple of 2^-149, of the non-negative pattern `m` ≤ 0x7F800000, which stands for 2^128. -/
def magOfPattern (m : Nat) : Nat := F32.mag (BitVec.ofNat 32 m)

/-- `r` is the pattern nearest the exact value n/d·2^-149, and of two equally near the one with an even significand: no
other pattern `m` is nearer, and one is as near only if `r` is even. So `r` is a pattern itself, its sign bit clear. -/
def NearestEven (r n d : Nat) : Prop :=
  r ≤ 0x7F800000 ∧ ∀ m, m ≤ 0x7F800000 → m ≠ r →
    (magOfPattern r * d - n : Int).natAbs < (magOfPattern m * d - n : Int).natAbs ∨
    ((magOfPattern r * d - n : Int).natAbs = (magOfPattern m * d - n : Int).natAbs ∧ r % 2 = 0)

/-- `r` is the pattern nearest the k-th root of n/d, in multiples of 2^-149, ties to even: the midpoint between it and
any pattern above is not below the root, nor above it for one below, and the root is a midpoint only if `r` is even. So `r` is a pattern itself, its sign bit clear. -/
def NearestRoot (r k n d : Nat) : Prop :=
  r ≤ 0x7F800000 ∧ ∀ m, m ≤ 0x7F800000 → m ≠ r →
    (magOfPattern r < magOfPattern m → 2 ^ k * n ≤ (magOfPattern r + magOfPattern m) ^ k * d) ∧
    (magOfPattern m < magOfPattern r → (magOfPattern r + magOfPattern m) ^ k * d ≤ 2 ^ k * n) ∧
    (2 ^ k * n = (magOfPattern r + magOfPattern m) ^ k * d → r % 2 = 0)

end Sys2Proof.Machine
end

