-- ==== Sys2Proof/Certificates/Slice0/Obligations.lean ====
section
/-! DEFINITION. The statements for the provers: what the rules R<n> of spec/ say the block does. -/

open Sys2Proof Sys2Proof.Machine

/-! ### Encoding -/

/-- Decode and encode agree: every command, with every operand at every value its fields admit, decodes from its own
word to itself (30_encoding.md R140, R141, R143), also through the eight bytes of a byte transport (20_memory.md R107)
and through the opcode table's numbering. -/
def Obligations.DecodeEncode : Prop :=
  ∀ i : Instr, decodeCommand i.encode = .instr i ∧ decodeBytes (Command.toBytes i.encode) = some (.instr i, []) ∧
    decodeTableWord 64 i.encode.toNat = some i

/-- The decoder follows the opcode map of R143 on every word: where the fixed bits of a row match, the command is the
row's; where the opcode is a row's and a reserved-zero bit is not zero, RESERVED_NONZERO; where it is no row's, ILLEGAL_OPCODE.
And no word is two commands: the encoder gives back every word it can, NOP's ignored fields apart. -/
def Obligations.DecodeFollowsOpcodeMap : Prop :=
  ∀ w : Command,
    (∀ r ∈ opcodeRows, w &&& r.mask = r.pattern → ∃ i, decodeCommand w = .instr i ∧ i.mnemonic = r.mnemonic) ∧
    (∀ r ∈ opcodeRows, Command.op w = Command.op r.pattern → w &&& r.mask ≠ r.pattern →
      decodeCommand w = .reservedNonzero (Command.op w)) ∧
    ((∀ r ∈ opcodeRows, Command.op w ≠ Command.op r.pattern) → decodeCommand w = .illegalOpcode (Command.op w)) ∧
    (∀ i, decodeCommand w = .instr i → i ≠ .nop → i.encode = w)

/-- Words the spec writes out, one per family, decode to the commands it writes beside them (R170, R220, R277, R340, R374, R433,
R451, R463). -/
def Obligations.SpecWordsDecode : Prop :=
  decodeCommand 0x0400000000003039#64 = .instr (.seedPrng 12345#32) ∧
  decodeCommand 0x10457F0000000000#64 = .instr (.noteOn 69#8 127#8 0#32) ∧
  decodeCommand 0x1500000000000004#64 = .instr (.process 4#32) ∧
  decodeCommand 0x2100000043DC0000#64 = .instr (.oscSetFreq 0#8 0x43DC0000#32) ∧
  decodeCommand 0x26000003BF000000#64 = .instr (.oscCustWrite 0#8 3#16 0xBF000000#32) ∧
  decodeCommand 0x3000010000000000#64 = .instr (.fltSetType 0#8 1#8) ∧
  decodeCommand 0x4400020000000000#64 = .instr (.envSetCurve 0#8 2#8) ∧
  decodeCommand 0x5300030000000000#64 = .instr (.lfoSetDiv 0#8 3#8) ∧
  decodeCommand 0x6000204044FA0000#64 = .instr (.routeSet 0#8 0x20#8 0x40#8 0x44FA0000#32)

/-- The unassigned opcodes of R164, and only they, are illegal; the word's whole effect is its event. A step takes the word while
neither output stream is full (20_memory.md R103). -/
def Obligations.UnassignedOpcodesRefused : Prop :=
  ∀ (s : State) (w : Command) (rest : List Command), s.Ready → s.commands = w :: rest →
    ((∃ op, decodeCommand w = .illegalOpcode op) ↔
      (7 ≤ (Command.op w).toNat ∧ (Command.op w).toNat ≤ 0x0F) ∨ (0x16 ≤ (Command.op w).toNat ∧ (Command.op w).toNat ≤ 0x1F) ∨
      (0x28 ≤ (Command.op w).toNat ∧ (Command.op w).toNat ≤ 0x2F) ∨ (0x36 ≤ (Command.op w).toNat ∧ (Command.op w).toNat ≤ 0x3F) ∨
      (0x49 ≤ (Command.op w).toNat ∧ (Command.op w).toNat ≤ 0x4F) ∨ (0x5A ≤ (Command.op w).toNat ∧ (Command.op w).toNat ≤ 0x5F) ∨
      0x62 ≤ (Command.op w).toNat) ∧
    (s.NotFull → (∃ op, decodeCommand w = .illegalOpcode op) →
      step s = .next (recorded (Command.op w) 1 { s with commands := rest }))

/-- A word with a known opcode and a non-zero reserved field records RESERVED_NONZERO and has no other effect, but that a
READ first answers one response word, 0 (R160 step 2, R161; 46_control.md R506). A step takes the word while neither output
stream is full (20_memory.md R103). -/
def Obligations.ReservedFieldsRefused : Prop :=
  ∀ (s : State) (r : OpcodeRow) (w : Command) (rest : List Command), s.Ready → s.NotFull → s.commands = w :: rest →
    r ∈ opcodeRows → Command.op w = Command.op r.pattern → w &&& r.mask ≠ r.pattern →
    (r.mnemonic ≠ "READ" → step s = .next (recorded (Command.op w) 2 { s with commands := rest })) ∧
    (r.mnemonic = "READ" →
      step s = .next (recorded 5#8 2 { s with commands := rest, responses := 0#32 :: s.responses }))

/-- Every word whose bits 63:56 are zero is taken from the stream and changes nothing else, whatever its other bits (R165), while
neither output stream is full (20_memory.md R103). -/
def Obligations.HintSpaceIsNop : Prop :=
  ∀ (s : State) (w : Command) (rest : List Command), s.Ready → s.commands = w :: rest → Command.op w = 0#8 →
    exec .nop s = .next s ∧ (s.NotFull → step s = .next { s with commands := rest })

/-- Transports (20_memory.md R107, R108): a word's bytes go least significant first; a 32-bit transport sends the low half
first; however the bytes of a stream are cut up the same words arrive in the same order; less than a whole word only waits;
a frame leaves L then R, each sample least significant byte first. -/
def Obligations.TransportAssembly : Prop :=
  (∀ (w : Command) (k : Nat), k < 8 → (Command.toBytes w)[k]? = some (w.extractLsb' (8 * k) 8)) ∧
  (∀ (s : State) (w : Command), s.rxBytes = [] →
    s.receive (Command.toBytes w) = { s with commands := s.commands ++ [w] } ∧
    (s.host (.sendHalf (w.extractLsb' 0 32))).host (.sendHalf (w.extractLsb' 32 32)) =
      { s with commands := s.commands ++ [w] } ∧
    (Command.toBytes w).foldl (fun t b => t.host (.sendByte b)) s = { s with commands := s.commands ++ [w] }) ∧
  (∀ (s : State) (a b : List Byte), (s.receive a).receive b = s.receive (a ++ b)) ∧
  (∀ (s : State) (a : List Byte), s.rxBytes.length + a.length < 8 →
    s.receive a = { s with rxBytes := s.rxBytes ++ a }) ∧
  (∀ (f : Frame) (k : Nat), k < 4 →
    (frameBytes f)[k]? = some (f.l.extractLsb' (8 * k) 8) ∧ (frameBytes f)[k + 4]? = some (f.r.extractLsb' (8 * k) 8))

/-- The assembler's examples of R170, and every pseudo-command of R171 with its expansion. -/
def Obligations.AssemblerExamples : Prop :=
  Asm.assembleLine "OSC_SET_FREQ 0, 440.0" = some [0x2100000043DC0000#64] ∧
  Asm.assembleLine "ROUTE_SET 0, LFO0, FLT_CUT0, 2000.0" = some [0x6000204044FA0000#64] ∧
  Asm.assembleLine "NOTE 60, 100" = Asm.assembleLine "NOTE_ON 60, 100, #0x00000000" ∧
  (Asm.assembleLine "NOTE 60, 100").isSome = true ∧
  ∀ (n v l d j r : Byte) (f : Word),
    Asm.expand (.note n v) = [.noteOn n v 0#32] ∧ Asm.expand (.run f) = [.process f] ∧
    Asm.expand .silence = [.voiceKill] ∧ Asm.expand (.fltBypass j) = [.fltSetEnable j 0#8] ∧
    Asm.expand (.lfoSync l d) = [.lfoSetMode l 1#8, .lfoSetDiv l d] ∧ Asm.expand (.routeOff r) = [.routeClear r]

/-! ### The step -/

/-- A step takes the next word of the command stream and runs the command it decodes to, on the state without that word, when
neither output stream is full and the audio stream accepts all the frames a PROCESS emits (20_memory.md R100, R103). That an empty
stream which can hold anything accepts a PROCESS longer than itself, the step then running the whole command at once, and that the
stall covers the whole command, is the model's choice (log entry 3), as is counting the audio stream's room by frame (log entry
19). -/
def Obligations.StepRunsDecodedCommand : Prop :=
  ∀ (s : State) (w : Command) (rest : List Command) (i : Instr), s.Ready → s.NotFull → s.commands = w :: rest →
    decodeCommand w = .instr i →
    (∀ d, i = .process d → Accepts s.audioCap s.audio.length d.toInt.toNat) →
    step s = exec i { s with commands := rest }

/-- What a step refuses, by name, and what it does not (60_exceptions.md R625): an illegal configuration; a first command that
is not RESET before any reset. RESET itself runs, unless an output stream is full (20_memory.md R103). Every other step is a next
state. -/
def Obligations.StepRefusals : Prop :=
  ∀ s : State,
    (s.cfg.legal = false → step s = .refused .illegalConfiguration) ∧
    (∀ w rest, s.cfg.legal = true → s.resetDone = false → s.commands = w :: rest →
      (decodeCommand w ≠ .instr .reset → step s = .refused .runWithoutReset) ∧
      (decodeCommand w = .instr .reset → s.NotFull → step s = exec .reset { s with commands := rest })) ∧
    (s.cfg.legal = true → s.resetDone = true → ∃ t, step s = .next t)

/-- Waiting changes nothing, and a stall ends when the host takes what the stream holds (20_memory.md R103, 60_exceptions.md R624):
with no command, with a full output stream whatever the next word is, or with an audio stream that cannot accept all the frames of the
next PROCESS, the step's next state is the same state; each taking removes the oldest frame or word and nothing else; once the host has taken all, on streams that can hold anything, the
step runs the command. That the stall covers the whole of a PROCESS is the model's choice (log entry 3), and so is that the
audio stream's room is counted, and freed, by frame and not by sample word (log entry 19). -/
def Obligations.StepWaits : Prop :=
  ∀ s : State, s.Ready →
    (s.commands = [] → step s = .next s) ∧
    (¬ s.NotFull → step s = .next s) ∧
    (∀ w rest d, s.commands = w :: rest → decodeCommand w = .instr (.process d) →
      ¬ Accepts s.audioCap s.audio.length d.toInt.toNat → step s = .next s) ∧
    (s.host .takeFrame).audioStream = s.audioStream.tail ∧
    s.host .takeFrame = { s with audio := (s.host .takeFrame).audio } ∧
    (s.host .takeResponse).responseStream = s.responseStream.tail ∧
    s.host .takeResponse = { s with responses := (s.host .takeResponse).responses } ∧
    (∀ w rest i, s.commands = w :: rest → decodeCommand w = .instr i → s.audioCap ≠ some 0 → s.respCap ≠ some 0 →
      step s.drained = exec i { s with commands := rest, audio := [], responses := [] })

/-- No run that starts from a reset with a legal configuration is ever refused or stopped, whatever words the host sends: the
block keeps running for any number of steps and stays ready (60_exceptions.md R625, 70_reset_and_hazards.md R711, R712). -/
def Obligations.ReadyRunsNeverStop : Prop :=
  ∀ (k : Nat) (s : State), s.Ready → ∃ t, core.run k s = .next t ∧ t.Ready

/-- The invariant, and with it every register in its range, holds after power-on reset, in the reference configuration and in every
legal one. -/
def Obligations.InvariantAtReset : Prop :=
  State.reset.Inv ∧ State.reset.resetDone = true ∧
    ∀ c : Config, c.legal = true → (State.resetOf c).Inv ∧ (State.resetOf c).Legal

/-- Every step keeps the invariant `State.Inv`: every unit the configuration has; the registers a setter writes, but FREQ and the
phases, within their ranges; F_EFF, PW_EFF, MIX_EFF, Q_EFF and GAIN_EFF neither below nor above their bounds; A0 = 1.0, finite delay
lines, ELAPSED 0 in Idle and Sustain, tables in canonical form, only the defined event bits, finite mono frames. It bounds neither
CUT_EFF nor AMP_EFF: these, and the ranges of the running and the derived registers, are LegalRegistersKept's. -/
def Obligations.InvariantKept : Prop := ∀ s t : State, s.Inv → step s = .next t → t.Inv

/-- Every step keeps every register in the range its table gives (10_state.md R33, R37 to R43): beside what InvariantKept says, PHASE
and PH0 stay in [0, 1), FREQ from N2F[0] (40_fastmath.md R211) to F_MAX, every filter coefficient finite (42_filter.md R313), F_EFF, PW_EFF, MIX_EFF, CUT_EFF, Q_EFF, GAIN_EFF
and AMP_EFF within their clamps and so no NaN, DSCALE, INC, BAND and the slopes their formulas' values and finite, VALUE, START and VM of an
envelope in [0, 1], VALUE of an LFO in [−1, 1], lengths and ELAPSED at most 5760000, accumulators and user samples finite. -/
def Obligations.LegalRegistersKept : Prop := ∀ s t : State, s.Legal → step s = .next t → t.Legal

/-! ### Events -/

/-- What recording an event writes, by code (60_exceptions.md R601, R602; 10_state.md R35). -/
def Obligations.EventRecord : Prop :=
  ∀ (s : State) (op : Byte),
    s.raise op .illegalOpcode = recorded op 1 s ∧ s.raise op .reservedNonzero = recorded op 2 s ∧
    s.raise op .badIndex = recorded op 3 s ∧ s.raise op .badOperand = recorded op 4 s ∧
    s.raise op .nonfiniteOperand = recorded op 5 s ∧ s.raise op .filterInstability = recorded op 6 s ∧
    s.raise op .outputSanitized = recorded op 7 s ∧ s.raise op .badAddress = recorded op 8 s ∧
    (∀ code, 1 ≤ code → code ≤ 8 → Reads (recorded op code s) (0, 0, 6) (0#16 ++ op ++ BitVec.ofNat 8 code) ∧
      ∀ b, (recorded op code s).evtSticky.getLsbD b = (s.evtSticky.getLsbD b || b == code))

/-- The check phase (30_encoding.md R160 steps 3 to 5, 60_exceptions.md R605): for every command, the first check that fails
decides the one event, and the event is all that happens; with none failing, no event is recorded, unless the command is PROCESS,
whose datapath records its own, or a READ of a bad address. -/
def Obligations.CheckPhase : Prop :=
  ∀ (i : Instr) (s : State),
    (unitIndexLegal s.cfg i = false → exec i s = .next (recorded i.opcode 3 s)) ∧
    (unitIndexLegal s.cfg i = true → operandsLegal s.cfg i = false → exec i s = .next (recorded i.opcode 4 s)) ∧
    (unitIndexLegal s.cfg i = true → operandsLegal s.cfg i = true → numberLegal i = false →
      exec i s = .next (recorded i.opcode 5 s)) ∧
    (i.wellFormed s.cfg = true → (∀ d, i ≠ .process d) → i ≠ .reset → i ≠ .clearStatus →
      ∃ t, exec i s = .next t ∧ t.evtSticky = s.evtSticky ∧ t.lastEvt = s.lastEvt ∧ t.rejectCount = s.rejectCount ∧
        t.instabCount = s.instabCount ∧ t.sanitizeCount = s.sanitizeCount)

/-- Only CLEAR_STATUS and RESET clear the event registers (10_state.md R35): after any other command every sticky bit that was set
is set, no counter is smaller, and a recorded LAST_EVT is not cleared. -/
def Obligations.EventRegistersPersist : Prop :=
  ∀ (i : Instr) (s t : State), i ≠ .clearStatus → i ≠ .reset → exec i s = .next t →
    s.evtSticky &&& t.evtSticky = s.evtSticky ∧ s.rejectCount ≤ t.rejectCount ∧ s.instabCount ≤ t.instabCount ∧
    s.sanitizeCount ≤ t.sanitizeCount ∧ (s.lastEvt ≠ 0#32 → t.lastEvt ≠ 0#32)

/-! ### Rules over all commands -/

/-- Only PROCESS emits frames (20_memory.md R101): exactly n for a count n > 0 and none for n ≤ 0, after those already emitted and in
time order, the k-th of them the one the k-th sample after block start emits. -/
def Obligations.OnlyProcessEmits : Prop :=
  (∀ (i : Instr) (s t : State), exec i s = .next t →
    (∀ d, i = .process d → ∃ new, t.audioStream = s.audioStream ++ new ∧ (new.length : Int) = max d.toInt 0 ∧
      ∀ k, k < new.length → new[k]? = (State.samples (k + 1) s.blockStart).audio.head?) ∧
    ((∀ d, i ≠ .process d) → t.audio = s.audio)) ∧
  (∀ (op : Byte) (s t : State), execReservedNonzero op s = .next t → t.audio = s.audio) ∧
  (∀ (op : Byte) (s t : State), execIllegalOpcode op s = .next t → t.audio = s.audio)

/-- Only READ pushes response words, exactly one per READ, a rejected READ included (20_memory.md R102). -/
def Obligations.OnlyReadResponds : Prop :=
  (∀ (i : Instr) (s t : State), exec i s = .next t →
    (∀ c x f, i = .read c x f → ∃ w, t.responseStream = s.responseStream ++ [w]) ∧
    ((∀ c x f, i ≠ .read c x f) → t.responses = s.responses)) ∧
  (∀ (op : Byte) (s t : State), execReservedNonzero op s = .next t →
    (op = 5#8 → t.responseStream = s.responseStream ++ [0#32]) ∧ (op ≠ 5#8 → t.responses = s.responses)) ∧
  (∀ (op : Byte) (s t : State), execIllegalOpcode op s = .next t → t.responses = s.responses)

/-- No command changes the configuration (10_state.md R31), what the host has sent, or a table memory but by the two table commands
and RESET; the PRNG moves only by SEED_PRNG, RESET and PROCESS (R33). -/
def Obligations.WhoWritesWhat : Prop :=
  ∀ (i : Instr) (s t : State), exec i s = .next t →
    t.cfg = s.cfg ∧ t.commands = s.commands ∧ t.rxBytes = s.rxBytes ∧
    ((∀ x n d, i ≠ .oscCustWrite x n d) → (∀ x d, i ≠ .oscCustCommit x d) → i ≠ .reset → SameTables s t) ∧
    ((∀ d, i ≠ .process d) → (∀ d, i ≠ .seedPrng d) → i ≠ .reset → t.prng = s.prng) ∧
    ((∀ d, i ≠ .process d) → i ≠ .reset → t.sampleCount = s.sampleCount)

/-- Every setter of the oscillators, filters, envelopes and LFOs is idempotent: repeated with the same operand it leaves the same state
(20_memory.md R109). -/
def Obligations.SettersAreIdempotent : Prop :=
  ∀ (i : Instr) (s : State), s.Inv → isSetter i = true → i.wellFormed s.cfg = true →
    ∃ t, exec i s = .next t ∧ exec i t = .next t

/-! ### Control commands and reset -/

/-- RESET (46_control.md R501): every register and table as after power-on, the streams and what the host has sent untouched. -/
def Obligations.ResetCommand : Prop :=
  ∀ s : State, ∃ t, exec .reset s = .next t ∧ t.cfg = s.cfg ∧ t.resetDone = true ∧
    (∀ c i f, t.readRegister c i f = (State.resetOf s.cfg).readRegister c i f) ∧
    (∀ i n, t.userEntry i n = F32.posZero ∧ t.custEntry i n = F32.posZero) ∧
    t.commands = s.commands ∧ t.rxBytes = s.rxBytes ∧ SameOutputs s t

/-- The reset column of 10_state.md R33 to R43 with the derived values of 70_reset_and_hazards.md R701 and R702, in every legal
configuration, the filter coefficients by the formulas of 42_filter.md R302 to R311. -/
def Obligations.ResetValues : Prop :=
  ∀ c : Config, c.legal = true →
    let s := State.resetOf c
    (∀ f, f < 10 → s.readRegister 0 0 f =
      [0x473B8000#32, 0x42F00000#32, 1#32, 0#32, 0#32, 0#32, 0#32, 0#32, 0#32, 0#32][f]?) ∧
    (∀ i, i < c.nOsc → ∀ f, f ≠ 10 → s.readRegister 1 i f =
      [0#32, 0x43DC0000#32, 0#32, 0#32, 0#32, 0x3F800000#32, 0x3F000000#32, if i = 0 then 0x3F800000#32 else 0#32,
       0x43DC0000#32, 0x3C162FC9#32, 0#32, 0x3F000000#32, if i = 0 then 0x3F800000#32 else 0#32, 0#32][f]?) ∧
    (∀ i, i < c.nOsc → Reads s (1, i, 10) (BitVec.ofNat 32 (Tables.selectBand c.nb 0x43DC0000#32))) ∧
    (∀ j, j < c.nFlt →
      (∀ f, f < 5 ∨ f = 8 ∨ 11 ≤ f → s.readRegister 2 j f =
        [0#32, 0x469C4000#32, 0x3F3504F3#32, 0#32, 0#32, 0#32, 0#32, 0#32, 0x3F800000#32, 0#32, 0#32, 0#32, 0#32, 0#32,
         0#32, 0x469C4000#32, 0x3F3504F3#32, 0#32][f]?) ∧
      let k := filterCoefficients c.tsin 0x473B8000#32 .lowPass 0x469C4000#32 0x3F3504F3#32 0#32
      Reads s (2, j, 5) k.b0 ∧ Reads s (2, j, 6) k.b1 ∧ Reads s (2, j, 7) k.b2 ∧ Reads s (2, j, 9) k.a1 ∧
      Reads s (2, j, 10) k.a2) ∧
    (∀ k, k < c.nEnv → ∀ f, s.readRegister 3 k f =
      [0#32, 0#32, 0#32, 0#32, 0x3C23D70A#32, 0x3DCCCCCD#32, 0x3F4CCCCD#32, 0x3E4CCCCD#32, 3#32, 0x3F800000#32,
       0x3F800000#32, 480#32, 4800#32, 9600#32, 144#32, 0x3B088889#32, 0x395A740E#32, 0x38DA740E#32, 0x3BE38E39#32][f]?) ∧
    (∀ l, l < c.nLfo → ∀ f, s.readRegister 4 l f =
      [0#32, 0x3F800000#32, 0#32, 2#32, 0x3F800000#32, 0#32, 0#32, 0x3F000000#32, 0#32, 0#32, 0x3F800000#32,
       0x37AEC33E#32][f]?) ∧
    (∀ r, r < c.nRoute → ∀ f, s.readRegister 5 r f = [0#32, 0#32, 0#32][f]?) ∧
    (∀ f, s.readRegister 6 0 f = [255#32, 0#32, 0#32, 0#32, 0x3F800000#32][f]?) ∧
    (∀ t n w, s.readRegister 7 t n = some w → w = 0#32) ∧
    (∀ i n, s.userEntry i n = F32.posZero ∧ s.custEntry i n = F32.posZero)

/-- SET_SAMPLE_RATE (46_control.md R502; 70_reset_and_hazards.md R702, R704, R706): the clamped rate; what R706 keeps; running state at
its initial value; derived registers from the new rate with no modulation. -/
def Obligations.SampleRateCommand : Prop :=
  ∀ (s : State) (d : Word), s.Inv → F32.isNaN d = false →
    let fs := F32.clamp d Const.fsMin Const.fsMax
    ∃ t, exec (.setSampleRate d) s = .next t ∧ SameElse s t ∧ Reads t (0, 0, 0) fs ∧
      (∀ c i f, keptBySampleRate (c, i, f) = true → t.readRegister c i f = s.readRegister c i f) ∧
      (∀ i o, s.osc[i]? = some o →
        Reads t (1, i, 2) o.ph0 ∧
        let f := F32.clamp (F32.add (F32.mul o.freq o.dscale) F32.posZero) Const.fMin Const.fMax
        Reads t (1, i, 8) f ∧ Reads t (1, i, 9) (F32.div f fs) ∧
        Reads t (1, i, 10) (BitVec.ofNat 32 (Tables.selectBand s.cfg.nb f)) ∧
        Reads t (1, i, 11) (F32.clamp (F32.add o.pw F32.posZero) Const.pwMin Const.pwMax) ∧
        Reads t (1, i, 12) (F32.clamp (F32.add o.mix F32.posZero) Const.mixMin Const.mixMax)) ∧
      (∀ j f, s.flt[j]? = some f → ∀ w ∈ delayCleared j ++ coefficientUpdate t j f, Reads t w.1 w.2) ∧
      (∀ k e, s.env[k]? = some e →
        Reads t (3, k, 0) 0#32 ∧ Reads t (3, k, 1) F32.posZero ∧ Reads t (3, k, 2) 0#32 ∧ Reads t (3, k, 3) F32.posZero ∧
        ∀ f time, (f, time) ∈ [(11, e.attack), (12, e.decay), (13, e.release), (14, 0x3B449BA6#32)] →
          let len := max 1 (F32.roundeven (F32.mul time fs)).toNat
          Reads t (3, k, f) (BitVec.ofNat 32 len) ∧ Reads t (3, k, f + 4) (F32.div F32.one (F32.float len))) ∧
      (∀ l o, s.lfo[l]? = some o →
        Reads t (4, l, 8) F32.posZero ∧ Reads t (4, l, 9) F32.posZero ∧
        ∀ fe, fe = (if o.mode = .tempoSync then
            F32.clamp (F32.mul s.tempo (Tables.rdiv o.div)) Const.lfoFMin Const.lfoFMax else o.freq) →
          Reads t (4, l, 10) fe ∧ Reads t (4, l, 11) (F32.div fe fs)) ∧
      Reads t (6, 0, 0) 255#32 ∧ Reads t (6, 0, 1) 0#32 ∧ Reads t (6, 0, 2) 0#32 ∧ Reads t (6, 0, 3) 0#32 ∧
      Reads t (6, 0, 4) F32.one ∧ (∀ a n w, t.readRegister 7 a n = some w → w = F32.posZero)

/-- SET_TEMPO, SEED_PRNG and CLEAR_STATUS write their registers and change nothing else (46_control.md R503, R507; 40_fastmath.md
R220); after CLEAR_STATUS, STATUS.ERR reads 0. -/
def Obligations.GlobalRegisterCommands : Prop :=
  ∀ (s : State) (d : Word),
    (F32.isNaN d = false → Writes (.setTempo d) s [((0, 0, 1), F32.clamp d Const.tempoMin Const.tempoMax)] []) ∧
    Writes (.seedPrng d) s [((0, 0, 2), d)] [] ∧
    Writes .clearStatus s [((0, 0, 5), 0#32), ((0, 0, 6), 0#32), ((0, 0, 7), 0#32), ((0, 0, 8), 0#32), ((0, 0, 9), 0#32)]
      [(0, 0, 4)] ∧
    ∃ t w, exec .clearStatus s = .next t ∧ Reads t (0, 0, 4) w ∧ w.getLsbD 5 = false

/-- READ (46_control.md R506, 60_exceptions.md R604): one response word, the register's value, and no other effect; a bad address answers
0 and then records BAD_ADDRESS. -/
def Obligations.ReadAnswersRegister : Prop :=
  ∀ (s : State) (c x f : Byte),
    (∀ w, s.readRegister c.toNat x.toNat f.toNat = some w →
      exec (.read c x f) s =
        .next { s with responses := w :: s.responses }) ∧
    (s.readRegister c.toNat x.toNat f.toNat = none →
      exec (.read c x f) s =
        .next (recorded 5#8 8 { s with responses := 0#32 :: s.responses }))

/-- The register map: which addresses name a register and which register each names, integers zero-extended, one-bit registers 0 or 1
(10_state.md R32, R33, R37 to R43). -/
def Obligations.RegisterMap : Prop :=
  ∀ s : State, s.Inv →
    (∀ f, f ≠ 4 → f < 10 → s.readRegister 0 0 f =
      [s.fs, s.tempo, s.prng, s.sampleCount, 0, s.evtSticky, s.lastEvt, s.rejectCount, s.instabCount, s.sanitizeCount][f]?) ∧
    (∀ f, 13 ≤ f → s.readRegister 0 0 f = none) ∧
    (∀ i o, s.osc[i]? = some o → ∀ f, s.readRegister 1 i f =
      [BitVec.ofNat 32 (match o.wave with
         | .sine => 0 | .triangle => 1 | .sawtooth => 2 | .square => 3 | .noise => 4 | .custom => 5),
       o.freq, o.phase, o.ph0, o.detune, o.dscale, o.pw, o.mix, o.fEff, o.inc, BitVec.ofNat 32 o.band, o.pwEff, o.mixEff,
       BitVec.ofNat 32 o.custLen][f]?) ∧
    (∀ j f, s.flt[j]? = some f → ∀ n, s.readRegister 2 j n =
      [BitVec.ofNat 32 (match f.type with
         | .lowPass => 0 | .highPass => 1 | .bandPass => 2 | .notch => 3 | .allPass => 4 | .peaking => 5 | .lowShelf => 6
         | .highShelf => 7),
       f.cutoff, f.res, f.gain, if f.enable then 1#32 else 0#32, f.b0, f.b1, f.b2, f.a0, f.a1, f.a2, f.x1, f.x2, f.y1, f.y2,
       f.cutEff, f.qEff, f.gainEff][n]?) ∧
    (∀ k e, s.env[k]? = some e → ∀ n, s.readRegister 3 k n =
      [BitVec.ofNat 32 (match e.stage with
         | .idle => 0 | .attack => 1 | .decay => 2 | .sustain => 3 | .release => 4 | .shutdown => 5),
       e.value, BitVec.ofNat 32 e.elapsed, e.start, e.attack, e.decay, e.sustain, e.release, BitVec.ofNat 32 e.curve,
       e.velsens, e.vm, BitVec.ofNat 32 e.lenA, BitVec.ofNat 32 e.lenD, BitVec.ofNat 32 e.lenR, BitVec.ofNat 32 e.lenSh,
       e.slopeA, e.slopeD, e.slopeR, e.slopeSh][n]?) ∧
    (∀ l o, s.lfo[l]? = some o → ∀ n, s.readRegister 4 l n =
      [BitVec.ofNat 32 (match o.wave with | .sine => 0 | .triangle => 1 | .sawtooth => 2 | .square => 3 | .noise => 4),
       o.freq, BitVec.ofNat 32 (match o.mode with | .free => 0 | .tempoSync => 1 | .keySync => 2), BitVec.ofNat 32 o.div,
       o.depth, if o.invert then 1#32 else 0#32, if o.retrig then 1#32 else 0#32, o.pw, o.phase, o.value, o.fEff,
       o.inc][n]?) ∧
    (∀ r o, s.route[r]? = some o → ∀ n, s.readRegister 5 r n = [o.src.setWidth 32, o.dst.setWidth 32, o.amount][n]?) ∧
    (∀ f, f ≠ 3 → s.readRegister 6 0 f =
      [s.note.setWidth 32, s.vel.setWidth 32, s.pressure.setWidth 32, 0, s.ampEff][f]?) ∧
    (∀ n, s.readRegister 7 1 n = s.acc.oscFreq[n]? ∧ s.readRegister 7 2 n = s.acc.oscPw[n]? ∧
      s.readRegister 7 3 n = s.acc.oscMix[n]? ∧ s.readRegister 7 4 n = s.acc.fltCutoff[n]? ∧
      s.readRegister 7 5 n = s.acc.fltRes[n]? ∧ s.readRegister 7 6 n = s.acc.fltGain[n]? ∧
      s.readRegister 7 7 n = [s.acc.amp][n]?) ∧
    (∀ i n, s.readRegister 7 0 n = none ∧
      (s.cfg.nOsc ≤ i → s.readRegister 1 i n = none) ∧ (s.cfg.nFlt ≤ i → s.readRegister 2 i n = none) ∧
      (s.cfg.nEnv ≤ i → s.readRegister 3 i n = none) ∧ (s.cfg.nLfo ≤ i → s.readRegister 4 i n = none) ∧
      (s.cfg.nRoute ≤ i → s.readRegister 5 i n = none) ∧
      (1 ≤ i → s.readRegister 0 i n = none ∧ s.readRegister 6 i n = none) ∧ (8 ≤ i → s.readRegister 7 i n = none)) ∧
    (∀ c i n, 8 ≤ c → s.readRegister c i n = none)

/-- STATUS bit by bit, VOICE.ACTIVE, and the configuration words (10_state.md R34, R36, R42; 43_envelope.md R364). -/
def Obligations.StatusAndConfigWords : Prop :=
  (∀ (s : State) (e : Env), s.env[0]? = some e → ∃ w, Reads s (0, 0, 4) w ∧
    w.getLsbD 0 = (e.stage != .idle) ∧ w.extractLsb' 1 3 = BitVec.ofNat 3 (stageCode e.stage) ∧
    w.getLsbD 4 = (s.note != 255#8) ∧ w.getLsbD 5 = (s.evtSticky != 0#32) ∧ w.extractLsb' 6 26 = 0#26 ∧
    Reads s (6, 0, 3) (w &&& 1#32)) ∧
  (∀ s : State, s.cfg.legal = true → ∃ w0 w1, Reads s (0, 0, 10) w0 ∧ Reads s (0, 0, 11) w1 ∧
    Reads s (0, 0, 12) (BitVec.ofNat 32 s.cfg.uMax) ∧
    (w0.extractLsb' 0 8).toNat = s.cfg.nOsc ∧ (w0.extractLsb' 8 8).toNat = s.cfg.nFlt ∧
    (w0.extractLsb' 16 8).toNat = s.cfg.nEnv ∧ (w0.extractLsb' 24 8).toNat = s.cfg.nLfo ∧
    (w1.extractLsb' 0 8).toNat = s.cfg.nRoute ∧ 2 ^ (w1.extractLsb' 8 8).toNat = s.cfg.tsin ∧
    2 ^ (w1.extractLsb' 16 8).toNat = s.cfg.tab ∧ (w1.extractLsb' 24 8).toNat = s.cfg.nb) ∧
  Reads State.reset (0, 0, 10) 0x02030203#32 ∧ Reads State.reset (0, 0, 11) 0x080B0A08#32 ∧
  Reads State.reset (0, 0, 12) 0x00001000#32

/-! ### Voice commands -/

/-- NOTE_ON (45_voice.md R451, R452; 43_envelope.md R360, R363; 44_lfo.md R406). -/
def Obligations.NoteOn : Prop :=
  ∀ (s : State) (note vel : Byte) (d : Word), s.Inv → note.toNat ≤ 127 → vel.toNat ≤ 127 → F32.isNaN d = false →
    ∃ t, exec (.noteOn note vel d) s = .next t ∧ SameElse s t ∧
      Reads t (6, 0, 0) (note.setWidth 32) ∧ Reads t (6, 0, 1) (vel.setWidth 32) ∧ Reads t (6, 0, 2) 0#32 ∧
      (∀ i o, s.osc[i]? = some o →
        Reads t (1, i, 1) (if d = 0#32 then FastMath.n2f note.toNat else F32.clamp d Const.fMin Const.fMax) ∧
        Reads t (1, i, 2) (if (s.env[0]?).map Env.stage = some .idle then o.ph0 else o.phase)) ∧
      (∀ k e, s.env[k]? = some e →
        Reads t (3, k, 10) (F32.add (F32.sub F32.one e.velsens)
          (F32.mul e.velsens (F32.div (F32.float vel.toNat) 0x42FE0000#32))) ∧
        Reads t (3, k, 0) 1#32 ∧ Reads t (3, k, 2) 0#32 ∧ Reads t (3, k, 3) e.value) ∧
      (∀ l o, s.lfo[l]? = some o →
        Reads t (4, l, 8) (if o.retrig = true ∨ o.mode = .keySync then F32.posZero else o.phase)) ∧
      SameRegisters (fun a =>
        (a.1 == 1 && (a.2.2 == 1 || a.2.2 == 2)) || (a.1 == 3 && (a.2.2 == 0 || a.2.2 == 2 || a.2.2 == 3 || a.2.2 == 10)) ||
        (a.1 == 4 && a.2.2 == 8) || a == (0, 0, 4) || (a.1 == 6 && decide (a.2.2 ≤ 3))) s t

/-- NOTE_OFF releases and VOICE_STOP stops every envelope, keep everything else, and are no-ops the second time (45_voice.md R455, R453;
43_envelope.md R361, R362). -/
def Obligations.NoteOffAndVoiceStop : Prop :=
  ∀ s : State, s.Inv →
    (∃ t, exec .noteOff s = .next t ∧ exec .noteOff t = .next t ∧ SameElse s t ∧
      (∀ k e, s.env[k]? = some e →
        if e.stage = .attack ∨ e.stage = .decay ∨ e.stage = .sustain then
          Reads t (3, k, 0) 4#32 ∧ Reads t (3, k, 2) 0#32 ∧ Reads t (3, k, 3) e.value
        else t.env[k]? = some e) ∧
      SameRegisters (fun a => (a.1 == 3 && (a.2.2 == 0 || a.2.2 == 2 || a.2.2 == 3)) || a == (0, 0, 4)) s t) ∧
    (∃ t, exec .voiceStop s = .next t ∧ exec .voiceStop t = .next t ∧ SameElse s t ∧
      (∀ k e, s.env[k]? = some e →
        if e.stage = .idle ∨ e.stage = .shutdown then t.env[k]? = some e
        else Reads t (3, k, 0) 5#32 ∧ Reads t (3, k, 2) 0#32 ∧ Reads t (3, k, 3) e.value) ∧
      SameRegisters (fun a => (a.1 == 3 && (a.2.2 == 0 || a.2.2 == 2 || a.2.2 == 3)) || a == (0, 0, 4)) s t)

/-- VOICE_KILL forces every envelope to Idle at zero and clears the note; SET_PRESSURE writes PRESSURE alone (45_voice.md R454, R456). -/
def Obligations.VoiceKillAndPressure : Prop :=
  ∀ s : State, s.Inv →
    (∃ t, exec .voiceKill s = .next t ∧ SameElse s t ∧ Reads t (6, 0, 0) 255#32 ∧ Reads t (6, 0, 3) 0#32 ∧
      (∀ k, k < s.cfg.nEnv → ∀ f, f < 4 → Reads t (3, k, f) 0#32) ∧
      SameRegisters (fun a => (a.1 == 3 && decide (a.2.2 < 4)) || a == (0, 0, 4) || a == (6, 0, 0) || a == (6, 0, 3)) s t) ∧
    (∀ y : Byte, y.toNat ≤ 127 → Writes (.setPressure y) s [((6, 0, 2), y.setWidth 32)] [])

/-! ### PROCESS -/

/-- PROCESS (45_voice.md R470, R473): a count n ≤ 0 does nothing at all; a count n > 0 answers a next state with n more frames and SAMPLE_COUNT
advanced by n modulo 2^32. -/
def Obligations.ProcessRendersFrames : Prop :=
  ∀ (s : State) (d : Word),
    (d.toInt ≤ 0 → exec (.process d) s = .next s) ∧
    (0 < d.toInt → ∃ t new, exec (.process d) s = .next t ∧ t.audioStream = s.audioStream ++ new ∧
      (new.length : Int) = d.toInt ∧ Reads t (0, 0, 3) (s.sampleCount + d) ∧ t.responses = s.responses ∧
      t.audioCap = s.audioCap ∧ t.respCap = s.respCap ∧ SameInputs s t ∧ SameTables s t)

/-- The base registers are never changed by routing or by rendering (45_voice.md R461, R470): PROCESS keeps every parameter register, and a
PROCESS that does not reclaim keeps NOTE. -/
def Obligations.ProcessKeepsParameters : Prop :=
  ∀ (s t : State) (d : Word), exec (.process d) s = .next t →
    (∀ c i f, isParameter (c, i, f) = true → t.readRegister c i f = s.readRegister c i f) ∧
    (t.note = s.note ∨ t.note = 255#8)

/-- BlockStart (45_voice.md R471; 44_lfo.md R401, R402; 41_oscillator.md R251; 42_filter.md R320 (a)): every LFO's rate and value, the Noise
LFOs drawing in index order; every effective parameter and coefficient from the accumulators of this block; AMP_EFF; nothing else changes. -/
def Obligations.BlockStart : Prop :=
  ∀ s : State, s.Inv →
    let t := s.blockStart
    SameElse s t ∧
    t.prng = FastMath.prngNext^[lfoDrawsBefore s.lfo s.lfo.length] s.prng ∧
    (∀ l o, s.lfo[l]? = some o → ∀ fe, fe = (if o.mode = .tempoSync then
        F32.clamp (F32.mul s.tempo (Tables.rdiv o.div)) Const.lfoFMin Const.lfoFMax else o.freq) →
      Reads t (4, l, 10) fe ∧ Reads t (4, l, 11) (F32.div fe s.fs) ∧
      Reads t (4, l, 9) (if o.invert then F32.neg (F32.mul o.depth (waveOfLfo s l o)) else F32.mul o.depth (waveOfLfo s l o))) ∧
    (∀ i o, s.osc[i]? = some o → ∀ a1 a2 a3, Reads t (7, 1, i) a1 → Reads t (7, 2, i) a2 → Reads t (7, 3, i) a3 →
      let f := F32.clamp (F32.add (F32.mul o.freq o.dscale) a1) Const.fMin Const.fMax
      Reads t (1, i, 8) f ∧ Reads t (1, i, 9) (F32.div f s.fs) ∧
      Reads t (1, i, 10) (BitVec.ofNat 32 (Tables.selectBand s.cfg.nb f)) ∧
      Reads t (1, i, 11) (F32.clamp (F32.add o.pw a2) Const.pwMin Const.pwMax) ∧
      Reads t (1, i, 12) (F32.clamp (F32.add o.mix a3) Const.mixMin Const.mixMax)) ∧
    (∀ j f, s.flt[j]? = some f → ∀ w ∈ coefficientUpdate t j f, Reads t w.1 w.2) ∧
    (∀ a, Reads t (7, 7, 0) a → Reads t (6, 0, 4) (F32.clamp (F32.add F32.one a) Const.ampMin Const.ampMax)) ∧
    SameRegisters (fun a =>
      a == (0, 0, 2) || (a.1 == 1 && decide (8 ≤ a.2.2) && decide (a.2.2 ≤ 12)) ||
      (a.1 == 2 && ((decide (5 ≤ a.2.2) && decide (a.2.2 ≤ 10)) || decide (15 ≤ a.2.2))) ||
      (a.1 == 4 && decide (9 ≤ a.2.2)) || a == (6, 0, 4) || a.1 == 7) s t

/-- Routing accumulation (45_voice.md R460, R462): after block start the accumulator of every valid destination is the sum, from +0.0, of AMOUNT ⊗
Source over the enabled slots that name it, in increasing slot index, LFO sources at their new values and ENV sources before the block's first
envelope step. -/
def Obligations.RoutingAccumulates : Prop :=
  ∀ s : State, s.Inv →
    let t := s.blockStart
    let source (st si : Nat) : F32 :=
      if st = 1 then ((s.env[si]?).map Env.value).getD F32.posZero
      else if st = 2 then ((t.lfo[si]?).map Lfo.value).getD F32.posZero
      else if st = 3 then F32.div (F32.float s.vel.toNat) 0x42FE0000#32
      else F32.div (F32.float s.pressure.toNat) 0x42FE0000#32
    ∀ a n w, t.readRegister 7 a n = some w →
      w = (s.route.filter (feeds a n)).foldl
        (fun sum r => F32.add sum (F32.mul r.amount (source (packedType r.src) (packedIndex r.src)))) F32.posZero

/-- Sample (45_voice.md R472, R473, R475, R476; 41_oscillator.md R250, R259; 44_lfo.md R403): the waves at the phases before the advance, Noise
oscillators drawing in index order; the mix summed in index order; the enabled filters in series; the envelope step; the frame scaled by AMP_EFF and by the amplitude
envelope after its step, a non-finite value sent as +0.0; the phases advanced; one mono frame emitted and counted. -/
def Obligations.SampleFrame : Prop :=
  ∀ (s : State) (e : Env), s.Inv → s.env[0]? = some e →
    let t := s.sample
    let m := (s.osc.mapIdx fun i o => F32.mul o.mixEff (waveOfOsc s i o)).foldl F32.add F32.posZero
    let x := filterInput s.flt m s.flt.length
    let trips := filterEvents s.flt m
    let out := F32.mul (F32.mul x s.ampEff) (envStep e).value
    let sent := if F32.isFinite out then out else F32.posZero
    t.audio = { l := sent, r := sent } :: s.audio ∧ t.sampleCount = s.sampleCount + 1#32 ∧
    t.prng = FastMath.prngNext^[oscDrawsBefore s.osc s.osc.length] s.prng ∧
    t.flt = filtersAfter s.flt m ∧ t.env = s.env.map envStep ∧
    (∀ (i : Nat) (o : Osc), s.osc[i]? = some o → t.osc[i]? = some
      { o with phase := if o.wave = .noise then o.phase else F32.wrap (F32.add o.phase o.inc) }) ∧
    (∀ (l : Nat) (o : Lfo), s.lfo[l]? = some o → t.lfo[l]? = some { o with phase := F32.wrap (F32.add o.phase o.inc) }) ∧
    t.sanitizeCount = (if F32.isFinite out then s.sanitizeCount else (recorded 0x15#8 7 s).sanitizeCount) ∧
    t.instabCount.toNat = min (s.instabCount.toNat + trips.length) 0xFFFFFFFF ∧
    (F32.isFinite out = false → t.lastEvt = 0x00001507#32) ∧
    (F32.isFinite out = true → trips ≠ [] → t.lastEvt = 0x00001506#32) ∧
    (F32.isFinite out = true → trips = [] → t.lastEvt = s.lastEvt) ∧
    t.evtSticky = s.evtSticky ||| (if trips = [] then 0#32 else 0x40#32) |||
      (if F32.isFinite out then 0#32 else 0x80#32) ∧
    t.acc = s.acc ∧ t.ampEff = s.ampEff ∧ t.note = s.note ∧ t.vel = s.vel ∧ t.pressure = s.pressure ∧
    t.route = s.route ∧ t.fs = s.fs ∧ t.tempo = s.tempo ∧ t.rejectCount = s.rejectCount ∧
    t.responses = s.responses ∧ t.respCap = s.respCap ∧ t.audioCap = s.audioCap ∧ SameInputs s t

/-- Reclaim (45_voice.md R474, C3): after a PROCESS of n > 0 frames a held note has an amplitude envelope that is not Idle; where the note is given
up, every envelope is Idle at zero, and the oscillators, filters, LFOs, VEL and PRESSURE are those the last frame left; otherwise the whole state is. -/
def Obligations.ReclaimAfterProcess : Prop :=
  ∀ (s : State) (d : Word) (e : Env), s.Inv → 0 < d.toInt →
    let u := State.samples d.toNat s.blockStart
    u.env[0]? = some e → ∃ t, exec (.process d) s = .next t ∧
      (t.note ≠ 255#8 → t.active = true) ∧
      (if u.note ≠ 255#8 ∧ e.stage = .idle then
        t = { u with
          note := 255#8
          env := u.env.map fun v => { v with stage := .idle, value := F32.posZero, elapsed := 0, start := F32.posZero } }
       else t = u)

/-- Splitting one PROCESS into two changes nothing in the frames when no routing slot is enabled and no LFO is Noise (45_voice.md R470). -/
def Obligations.SplitProcessSameFrames : Prop :=
  ∀ (s : State) (d d1 d2 : Word), s.Inv → (∀ r ∈ s.route, slotDisabled r = true) → (∀ l ∈ s.lfo, l.wave ≠ .noise) →
    0 < d1.toInt → 0 < d2.toInt → d.toInt = d1.toInt + d2.toInt →
    ∃ t u v, exec (.process d) s = .next t ∧ exec (.process d1) s = .next u ∧ exec (.process d2) u = .next v ∧
      v.audioStream = t.audioStream ∧ v.sampleCount = t.sampleCount

/-! ### Oscillators -/

/-- The oscillator setters write their registers and change nothing else: no phase, no effective register, no table (41_oscillator.md R270, R271, R272,
R273, R274, R275). -/
def Obligations.OscillatorSetters : Prop :=
  ∀ (s : State) (x y : Byte) (d : Word), s.Inv → x.toNat < s.cfg.nOsc →
    (y.toNat ≤ 5 → Writes (.oscSetWave x y) s [((1, x.toNat, 0), y.setWidth 32)] []) ∧
    (F32.isNaN d = false →
      Writes (.oscSetFreq x d) s [((1, x.toNat, 1), F32.clamp d Const.fMin Const.fMax)] [] ∧
      Writes (.oscSetDetune x d) s [((1, x.toNat, 4), F32.clamp d Const.detMin Const.detMax),
        ((1, x.toNat, 5), FastMath.dscale (F32.clamp d Const.detMin Const.detMax))] [] ∧
      Writes (.oscSetPw x d) s [((1, x.toNat, 6), F32.clamp d Const.pwMin Const.pwMax)] [] ∧
      Writes (.oscSetMix x d) s [((1, x.toNat, 7), F32.clamp d Const.mixMin Const.mixMax)] []) ∧
    (F32.isFinite d = true →
      Writes (.oscSetPhase x d) s [((1, x.toNat, 2), F32.wrap d), ((1, x.toNat, 3), F32.wrap d)] [])

/-- OSC_CUST_WRITE stores one sample of the user buffer, unclamped; every other entry, the custom tables and every register are as before
(41_oscillator.md R276, 20_memory.md R122). -/
def Obligations.CustomWrite : Prop :=
  ∀ (s : State) (x : Byte) (n : BitVec 16) (d : Word), s.Inv → x.toNat < s.cfg.nOsc → n.toNat < s.cfg.uMax →
    F32.isFinite d = true →
    ∃ t, exec (.oscCustWrite x n d) s = .next t ∧ t.userEntry x.toNat n.toNat = d ∧
      (∀ i m, (i, m) ≠ (x.toNat, n.toNat) → t.userEntry i m = s.userEntry i m) ∧
      (∀ i m, t.custEntry i m = s.custEntry i m) ∧ SameRegisters (fun _ => false) s t ∧ SameOutputs s t ∧ SameInputs s t

/-- OSC_CUST_COMMIT resamples the first U user samples into all T entries of the custom table, linearly and periodically, and sets CUST_LEN; the user
buffer, the other tables and every other register are as before (41_oscillator.md R277). At a whole index, U = T included, the value is the
pseudocode's interpolation with fraction +0.0, not a copy, which for −0.0 and an overflowing difference is the model's choice (log entry 14). -/
def Obligations.CustomCommit : Prop :=
  ∀ (s : State) (x : Byte) (d : Word), s.Inv → x.toNat < s.cfg.nOsc → 1 ≤ d.toNat → d.toNat ≤ s.cfg.uMax →
    ∃ t, exec (.oscCustCommit x d) s = .next t ∧
      (∀ m, m < s.cfg.tab →
        let j := m * d.toNat / s.cfg.tab
        let fr := F32.mul (F32.float (m * d.toNat % s.cfg.tab : Nat)) (F32.ofRat false 1 s.cfg.tab)
        t.custEntry x.toNat m =
          F32.lerp (s.userEntry x.toNat j) (s.userEntry x.toNat ((j + 1) % d.toNat)) fr) ∧
      (∀ i m, i ≠ x.toNat ∨ s.cfg.tab ≤ m → t.custEntry i m = s.custEntry i m) ∧
      (∀ i m, t.userEntry i m = s.userEntry i m) ∧ Reads t (1, x.toNat, 13) d ∧
      SameRegisters (fun a => a == (1, x.toNat, 13)) s t ∧ SameOutputs s t ∧ SameInputs s t

/-- SelectBand is the largest band whose lower edge is not above f (41_oscillator.md R260). -/
def Obligations.BandIsLargest : Prop :=
  ∀ (nb : Nat) (f : F32), 1 ≤ nb → F32.le (Tables.edge nb 0) f = true →
    Tables.selectBand nb f < nb ∧ F32.le (Tables.edge nb (Tables.selectBand nb f)) f = true ∧
    ∀ b, Tables.selectBand nb f < b → b < nb → F32.le (Tables.edge nb b) f = false

/-! ### Filters -/

/-- The filter setters write their register, then the coefficient update with the accumulators held, and nothing else: the delay line is kept
(42_filter.md R320 (b), R340 to R343). -/
def Obligations.FilterSetters : Prop :=
  ∀ (s : State) (x y : Byte) (d : Word) (f : Flt), s.Inv → s.flt[x.toNat]? = some f →
    (∀ k, filterTypeOf y = some k → Writes (.fltSetType x y) s
      (((2, x.toNat, 0), y.setWidth 32) :: coefficientUpdate s x.toNat { f with type := k }) []) ∧
    (F32.isNaN d = false →
      Writes (.fltSetCutoff x d) s (((2, x.toNat, 1), F32.clamp d Const.cutMin Const.cutMax) ::
        coefficientUpdate s x.toNat { f with cutoff := F32.clamp d Const.cutMin Const.cutMax }) [] ∧
      Writes (.fltSetRes x d) s (((2, x.toNat, 2), F32.clamp d Const.qMin Const.qMax) ::
        coefficientUpdate s x.toNat { f with res := F32.clamp d Const.qMin Const.qMax }) [] ∧
      Writes (.fltSetGain x d) s (((2, x.toNat, 3), F32.clamp d Const.gainMin Const.gainMax) ::
        coefficientUpdate s x.toNat { f with gain := F32.clamp d Const.gainMin Const.gainMax }) [])

/-- FLT_SET_ENABLE writes the bit and clears the delay line only on a change of it; FLT_RESET clears the delay line; neither touches a coefficient
(42_filter.md R344, R345). -/
def Obligations.FilterEnableAndReset : Prop :=
  ∀ (s : State) (x y : Byte) (f : Flt), s.Inv → s.flt[x.toNat]? = some f →
    (y.toNat ≤ 1 → Writes (.fltSetEnable x y) s
      (((2, x.toNat, 4), y.setWidth 32) ::
        (if y.setWidth 32 = (if f.enable then 1#32 else 0#32) then [] else delayCleared x.toNat)) []) ∧
    Writes (.fltReset x) s (delayCleared x.toNat) []

/-- The biquad recurrence and its guard (42_filter.md R331, R332), each product rounded before its sum: a y that is not finite or exceeds 4096 in
magnitude clears the delay line, outputs +0.0 and raises FILTER_INSTABILITY; any other y shifts the delay line. Coefficients and parameters are kept. -/
def Obligations.BiquadWithGuard : Prop :=
  ∀ (f : Flt) (x : F32),
    let y := F32.sub (F32.sub (F32.add (F32.add (F32.mul f.b0 x) (F32.mul f.b1 f.x1)) (F32.mul f.b2 f.x2))
      (F32.mul f.a1 f.y1)) (F32.mul f.a2 f.y2)
    ((F32.isFinite y = false ∨ F32.lt 0x45800000#32 (F32.abs y) = true) →
      biquad f x = ({ f with x1 := F32.posZero, x2 := F32.posZero, y1 := F32.posZero, y2 := F32.posZero }, F32.posZero,
        [.filterInstability])) ∧
    (F32.isFinite y = true → F32.lt 0x45800000#32 (F32.abs y) = false →
      biquad f x = ({ f with x2 := f.x1, x1 := x, y2 := f.y1, y1 := y }, y, []))

/-- The cascade (42_filter.md R330, R332): the enabled filters run in series in increasing index order, each one's output the next one's input,
each taking its biquad step and its events coming in filter order; with every filter disabled the mix passes unchanged and no filter is touched; with any enabled, what leaves
it is finite and at most GUARD in magnitude, whatever entered; a disabled filter keeps its delay line; no coefficient changes; only FILTER_INSTABILITY is raised,
at most once per filter. -/
def Obligations.CascadeOutput : Prop :=
  ∀ (fs : List Flt) (m : F32),
    cascade fs m = (filtersAfter fs m, filterInput fs m fs.length, filterEvents fs m) ∧
    ((∀ f ∈ fs, f.enable = false) → cascade fs m = (fs, m, [])) ∧
    ((∃ f ∈ fs, f.enable = true) → F32.isFinite (cascade fs m).2.1 = true ∧
      F32.lt 0x45800000#32 (F32.abs (cascade fs m).2.1) = false) ∧
    (∀ (j : Nat) (f : Flt), fs[j]? = some f → ∃ g, (cascade fs m).1[j]? = some g ∧
      g = { f with x1 := g.x1, x2 := g.x2, y1 := g.y1, y2 := g.y2 } ∧ (f.enable = false → g = f)) ∧
    (∀ e ∈ (cascade fs m).2.2, e = .filterInstability) ∧ (cascade fs m).2.2.length ≤ fs.countP (fun f => f.enable)

/-! ### Envelopes -/

/-- The envelope setters (43_envelope.md R351, R370 to R375): the register, and for a time the length and slope it gives at the held FS; nothing else. -/
def Obligations.EnvelopeSetters : Prop :=
  ∀ (s : State) (x y : Byte) (d : Word), s.Inv → x.toNat < s.cfg.nEnv →
    (2 ≤ y.toNat → y.toNat ≤ 8 → Writes (.envSetCurve x y) s [((3, x.toNat, 8), y.setWidth 32)] []) ∧
    (F32.isNaN d = false →
      let time := F32.clamp d Const.timeMin Const.timeMax
      let level := F32.clamp d 0x00000000#32 0x3F800000#32
      let len := max 1 (F32.roundeven (F32.mul time s.fs)).toNat
      let slope := F32.div F32.one (F32.float len)
      Writes (.envSetAttack x d) s
        [((3, x.toNat, 4), time), ((3, x.toNat, 11), BitVec.ofNat 32 len), ((3, x.toNat, 15), slope)] [] ∧
      Writes (.envSetDecay x d) s
        [((3, x.toNat, 5), time), ((3, x.toNat, 12), BitVec.ofNat 32 len), ((3, x.toNat, 16), slope)] [] ∧
      Writes (.envSetRelease x d) s
        [((3, x.toNat, 7), time), ((3, x.toNat, 13), BitVec.ofNat 32 len), ((3, x.toNat, 17), slope)] [] ∧
      Writes (.envSetSustain x d) s [((3, x.toNat, 6), level)] [] ∧
      Writes (.envSetVelsens x d) s [((3, x.toNat, 9), level)] [])

/-- ENV_TRIGGER enters Attack from any stage with VALUE kept; ENV_RELEASE acts only from Attack, Decay and Sustain; ENV_STOP only outside Idle and Shutdown
(43_envelope.md R360, R361, R362, R376, R377, R378). -/
def Obligations.EnvelopeStageCommands : Prop :=
  ∀ (s : State) (x : Byte) (e : Env), s.Inv → s.env[x.toNat]? = some e →
    Writes (.envTrigger x) s [((3, x.toNat, 0), 1#32), ((3, x.toNat, 2), 0#32), ((3, x.toNat, 3), e.value)]
      (derivedFrom x.toNat) ∧
    (if e.stage = .attack ∨ e.stage = .decay ∨ e.stage = .sustain then
      Writes (.envRelease x) s [((3, x.toNat, 0), 4#32), ((3, x.toNat, 2), 0#32), ((3, x.toNat, 3), e.value)]
        (derivedFrom x.toNat)
     else exec (.envRelease x) s = .next s) ∧
    (if e.stage = .idle ∨ e.stage = .shutdown then exec (.envStop x) s = .next s
     else Writes (.envStop x) s [((3, x.toNat, 0), 5#32), ((3, x.toNat, 2), 0#32), ((3, x.toNat, 3), e.value)]
        (derivedFrom x.toNat))

/-- One envelope step, stage by stage (43_envelope.md R352 to R359): the curve is 1 ⊖ q^c by repeated multiplication, left to right. -/
def Obligations.EnvelopeStep : Prop :=
  ∀ e : Env,
    let n := e.elapsed + 1
    let ramp (slope τ : F32) : F32 :=
      let q := F32.sub F32.one (F32.mul (F32.float n) slope)
      F32.add e.start (F32.mul (F32.sub τ e.start)
        (F32.sub F32.one ((List.replicate (e.curve - 1) q).foldl F32.mul q)))
    let timed (len : Nat) (slope τ : F32) (next : Stage) : Env :=
      if len ≤ n then { e with value := τ, start := τ, elapsed := 0, stage := next }
      else { e with elapsed := n, value := ramp slope τ }
    (e.stage = .attack → envStep e = timed e.lenA e.slopeA e.vm .decay) ∧
    (e.stage = .decay → envStep e = timed e.lenD e.slopeD (F32.mul e.sustain e.vm) .sustain) ∧
    (e.stage = .sustain → envStep e = { e with value := F32.mul e.sustain e.vm }) ∧
    (e.stage = .release → envStep e = timed e.lenR e.slopeR F32.posZero .idle) ∧
    (e.stage = .shutdown → e.lenSh ≤ n →
      envStep e = { e with value := F32.posZero, start := F32.posZero, elapsed := 0, stage := .idle }) ∧
    (e.stage = .shutdown → n < e.lenSh → envStep e =
      { e with elapsed := n, value := F32.mul e.start (F32.sub F32.one (F32.mul (F32.float n) e.slopeSh)) }) ∧
    (e.stage = .idle → envStep e = { e with value := F32.posZero })

/-- A stage of length L lasts exactly L samples from its entry, and on the L-th VALUE is the target exactly and the next stage begins (43_envelope.md
R352, R354, R355, R357, R358). -/
def Obligations.EnvelopeStageLength : Prop :=
  ∀ (e : Env) (len : Nat) (τ : F32) (next : Stage), e.elapsed = 0 → 1 ≤ len →
    ((e.stage = .attack ∧ len = e.lenA ∧ τ = e.vm ∧ next = .decay) ∨
     (e.stage = .decay ∧ len = e.lenD ∧ τ = F32.mul e.sustain e.vm ∧ next = .sustain) ∨
     (e.stage = .release ∧ len = e.lenR ∧ τ = F32.posZero ∧ next = .idle) ∨
     (e.stage = .shutdown ∧ len = e.lenSh ∧ τ = F32.posZero ∧ next = .idle)) →
    (∀ n, n < len → (envStep^[n] e).stage = e.stage ∧ (envStep^[n] e).elapsed = n) ∧
    envStep^[len] e = { e with stage := next, value := τ, start := τ, elapsed := 0 }

/-- The envelope stage machine (43_envelope.md R350): after any command but RESET and SET_SAMPLE_RATE each envelope is in a stage the transition
table allows from the stage it was in; those two take any stage to Idle, which R350 does not list and the reset rules do (70_reset_and_hazards.md
R701, R704), the model's choice (log entry 17). -/
def Obligations.StageTransitions : Prop :=
  ∀ (i : Instr) (s t : State), exec i s = .next t → ∀ (k : Nat) (e e' : Env), s.env[k]? = some e → t.env[k]? = some e' →
    stageAfter i k e.stage e'.stage = true

/-- At full velocity, and with VELSENS 0 at any velocity, the velocity multiplier is exactly 1.0 (43_envelope.md R354, R363). -/
def Obligations.FullVelocityIsOne : Prop :=
  ∀ (v : F32) (vel : Byte), inRange 0x00000000#32 0x3F800000#32 v = true → vel.toNat ≤ 127 →
    (vel = 127#8 → envVm v vel = 0x3F800000#32) ∧ (F32.toInt v = 0 → envVm v vel = 0x3F800000#32)

/-! ### LFOs and routing -/

/-- The LFO setters and LFO_TRIGGER write their registers and nothing else; F_EFF, INC and VALUE stay (44_lfo.md R405, R430 to R439). -/
def Obligations.LfoCommands : Prop :=
  ∀ (s : State) (x y : Byte) (d : Word) (l : Lfo), s.Inv → s.lfo[x.toNat]? = some l →
    (y.toNat ≤ 4 → Writes (.lfoSetWave x y) s [((4, x.toNat, 0), y.setWidth 32)] []) ∧
    (y.toNat ≤ 2 → Writes (.lfoSetMode x y) s [((4, x.toNat, 2), y.setWidth 32)] []) ∧
    (y.toNat ≤ 15 → Writes (.lfoSetDiv x y) s [((4, x.toNat, 3), y.setWidth 32)] []) ∧
    (y.toNat ≤ 1 → Writes (.lfoSetInvert x y) s [((4, x.toNat, 5), y.setWidth 32)] [] ∧
      Writes (.lfoSetRetrig x y) s [((4, x.toNat, 6), y.setWidth 32)] []) ∧
    (F32.isNaN d = false →
      Writes (.lfoSetFreq x d) s [((4, x.toNat, 1), F32.clamp d 0x3C23D70A#32 0x42C80000#32)] [] ∧
      Writes (.lfoSetDepth x d) s [((4, x.toNat, 4), F32.clamp d 0x00000000#32 0x3F800000#32)] [] ∧
      Writes (.lfoSetPw x d) s [((4, x.toNat, 7), F32.clamp d Const.pwMin Const.pwMax)] []) ∧
    (F32.isFinite d = true → Writes (.lfoSetPhase x d) s [((4, x.toNat, 8), F32.wrap d)] []) ∧
    Writes (.lfoTrigger x) s [((4, x.toNat, 8), if l.retrig then F32.posZero else l.phase)] []

/-- ROUTE_SET and ROUTE_CLEAR write their slot and nothing else; ACC and AMP_EFF stay until block start (45_voice.md R463, R464). -/
def Obligations.RouteCommands : Prop :=
  ∀ (s : State) (x y z : Byte) (d : Word), s.Inv → x.toNat < s.cfg.nRoute →
    (F32.isNaN d = false →
      (y.toNat / 16 = 0 ∨ y.toNat / 16 = 3 ∨ y.toNat / 16 = 4) ∧ y.toNat % 16 = 0 ∨
        y.toNat / 16 = 1 ∧ y.toNat % 16 < s.cfg.nEnv ∨ y.toNat / 16 = 2 ∧ y.toNat % 16 < s.cfg.nLfo →
      (z.toNat / 16 = 0 ∨ z.toNat / 16 = 7) ∧ z.toNat % 16 = 0 ∨
        (z.toNat / 16 = 1 ∨ z.toNat / 16 = 2 ∨ z.toNat / 16 = 3) ∧ z.toNat % 16 < s.cfg.nOsc ∨
        (z.toNat / 16 = 4 ∨ z.toNat / 16 = 5 ∨ z.toNat / 16 = 6) ∧ z.toNat % 16 < s.cfg.nFlt →
      Writes (.routeSet x y z d) s [((5, x.toNat, 0), y.setWidth 32), ((5, x.toNat, 1), z.setWidth 32),
        ((5, x.toNat, 2), F32.clamp d 0xC9742400#32 0x49742400#32)] []) ∧
    Writes (.routeClear x) s [((5, x.toNat, 0), 0#32), ((5, x.toNat, 1), 0#32), ((5, x.toNat, 2), 0#32)] []

/-! ### Numerics -/

/-- The one rounding of the datapath is to the nearest binary32, ties to even, through the subnormals and up to infinity (00_scope.md R12, R15), and
each of ⊕, ⊖, ⊗, ⊘ on finite operands rounds its exact result once to such a pattern, under the exact result's sign: in multiples of 2^-149 the exact results are a + b, a − b, a·b·2^-149 and
a/b·2^149. -/
def Obligations.ArithmeticRoundsOnce : Prop :=
  (∀ n d : Nat, 0 < d → NearestEven (F32.roundMag n d) n d) ∧
  ∀ a b : F32, F32.isFinite a = true → F32.isFinite b = true →
    (F32.toInt a + F32.toInt b ≠ 0 → ∃ r, F32.add a b = F32.ofMag (decide (F32.toInt a + F32.toInt b < 0)) r ∧
      NearestEven r (F32.toInt a + F32.toInt b).natAbs 1) ∧
    (F32.toInt a + F32.toInt b = 0 → F32.toInt (F32.add a b) = 0) ∧
    (F32.toInt a - F32.toInt b ≠ 0 → ∃ r, F32.sub a b = F32.ofMag (decide (F32.toInt a - F32.toInt b < 0)) r ∧
      NearestEven r (F32.toInt a - F32.toInt b).natAbs 1) ∧
    (F32.toInt a - F32.toInt b = 0 → F32.toInt (F32.sub a b) = 0) ∧
    (∃ r, F32.mul a b = F32.ofMag (F32.neg? a != F32.neg? b) r ∧ NearestEven r (F32.mag a * F32.mag b) (2 ^ 149)) ∧
    (F32.mag b ≠ 0 → ∃ r, F32.div a b = F32.ofMag (F32.neg? a != F32.neg? b) r ∧
      NearestEven r (F32.mag a * 2 ^ 149) (F32.mag b))

/-- The roots are correctly rounded: sqrt32 of every positive finite binary32, positive and finite itself (00_scope.md R12), and the note table N2F[n] = RN32(440·2^((n − 69)/12)) for
every note (40_fastmath.md R211). -/
def Obligations.RootsRoundOnce : Prop :=
  (∀ x : F32, F32.isFinite x = true → F32.neg? x = false → F32.mag x ≠ 0 →
    ∃ r, F32.sqrt x = F32.ofMag false r ∧ r < 0x7F800000 ∧ NearestRoot r 2 (F32.mag x * 2 ^ 149) 1) ∧
  (∀ n, n < 128 → ∃ r, FastMath.n2f n = F32.ofMag false r ∧ r < 0x7F800000 ∧
    NearestRoot r 12 (440 ^ 12 * 2 ^ n * 2 ^ (12 * 149)) (2 ^ 69))

/-- wrap and clamp (00_scope.md R13, 30_encoding.md R163): the wrap of every finite value is in [0, 1) and no −0.0, and a value already there is kept; the
clamp of every value but a NaN is within its bounds, keeps a value within them, and sends an infinity to the nearer bound. -/
def Obligations.WrapAndClamp : Prop :=
  (∀ x : F32, F32.isFinite x = true →
    F32.le F32.posZero (F32.wrap x) = true ∧ F32.lt (F32.wrap x) F32.one = true ∧ F32.wrap x ≠ F32.negZero ∧
    (F32.le F32.posZero x = true → F32.lt x F32.one = true → x ≠ F32.negZero → F32.wrap x = x)) ∧
  (∀ x lo hi : F32, F32.isNaN x = false → F32.isFinite lo = true → F32.isFinite hi = true → F32.le lo hi = true →
    inRange lo hi (F32.clamp x lo hi) = true ∧ (inRange lo hi x = true → F32.clamp x lo hi = x) ∧
    (x = 0x7F800000#32 → F32.clamp x lo hi = hi) ∧ (x = 0xFF800000#32 → F32.clamp x lo hi = lo))

/-- The draw is exact (40_fastmath.md R210): the state moves by the linear congruence modulo 2^32, and the value is exactly (m − 2^23)·2^-23 with m the state's upper
24 bits, so it lies in [−1, 1). -/
def Obligations.DrawIsExact : Prop :=
  ∀ p : Word,
    (FastMath.draw p).1.toNat = (1664525 * p.toNat + 1013904223) % 2 ^ 32 ∧
    F32.isFinite (FastMath.draw p).2 = true ∧
    F32.toInt (FastMath.draw p).2 = (((FastMath.draw p).1.toNat / 256 : Nat) - 2 ^ 23) * 2 ^ 126 ∧
    F32.le 0xBF800000#32 (FastMath.draw p).2 = true ∧ F32.lt (FastMath.draw p).2 0x3F800000#32 = true

/-- Values the rules write out: note frequencies and their inverse, detune scales, levels, sine-table entries, tempo ratios, coefficients, the harmonic
counts of every sample rate listed, entries of the band-limited tables, and sawtooth, triangle and square values in band 3 (40_fastmath.md R206, R209, R211,
R212, R213; 41_oscillator.md R258, R260 to R263; 44_lfo.md R420; 42_filter.md R312). -/
def Obligations.WrittenOutValues : Prop :=
  let fs48 : F32 := 0x473B8000#32
  let saw := Tables.saw Config.reference fs48
  let tri := Tables.tri Config.reference fs48
  let wave (w : Wave) (φ pw : F32) : F32 :=
    (oscWave Config.reference fs48 { oscReset 0 with wave := w, phase := φ, pwEff := pw, band := 3 } 1#32).2
  FastMath.n2f 0 = 0x4102D013#32 ∧ FastMath.n2f 69 = 0x43DC0000#32 ∧ FastMath.n2f 127 = 0x4643FF6A#32 ∧
  FastMath.dscale 0x3F800000#32 = 0x3F879C7D#32 ∧ FastMath.dscale 0xBF800000#32 = 0x3F71A1BF#32 ∧
  FastMath.db40 0x40C00000#32 = 0x3FB4CE08#32 ∧ FastMath.db40 0xC1C00000#32 = 0x3E809BCC#32 ∧
  FastMath.sinTab 1024 1 = 0x3BC90F88#32 ∧ FastMath.sinTab 1024 768 = 0xBF800000#32 ∧
  FastMath.sinTab 1024 1023 = 0xBBC90F88#32 ∧
  Tables.rdiv 0 = 0x3B888889#32 ∧ Tables.rdiv 8 = 0x3C360B61#32 ∧ Tables.rdiv 15 = 0x3DCCCCCD#32 ∧
  Tables.edge 8 1 = 0x423DB5BC#32 ∧ Tables.edge 8 8 = 0x469C4000#32 ∧
  (∀ row ∈ ([(.lowPass, [0x3B806290#32, 0x3C006290#32, 0x3B806290#32, 0x3F800000#32, 0xBFE85CE0#32, 0x3F54BCD3#32]),
      (.highPass, [0x3F695DA5#32, 0xBFE95DA5#32, 0x3F695DA5#32, 0x3F800000#32, 0xBFE85CE0#32, 0x3F54BCD3#32]),
      (.bandPass, [0x3DAD0CB4#32, 0x00000000#32, 0xBDAD0CB4#32, 0x3F800000#32, 0xBFE85CE0#32, 0x3F54BCD3#32]),
      (.notch, [0x3F6A5E6A#32, 0xBFE85CE0#32, 0x3F6A5E6A#32, 0x3F800000#32, 0xBFE85CE0#32, 0x3F54BCD3#32]),
      (.allPass, [0x3F54BCD3#32, 0xBFE85CE0#32, 0x3F800000#32, 0x3F800000#32, 0xBFE85CE0#32, 0x3F54BCD3#32]),
      (.peaking, [0x3F87D03B#32, 0xBFEE3DF6#32, 0x3F50F888#32, 0x3F800000#32, 0xBFEE3DF6#32, 0x3F6098FD#32]),
      (.lowShelf, [0x3F842B0C#32, 0xBFEB5F69#32, 0x3F5428EF#32, 0x3F800000#32, 0xBFEC1700#32, 0x3F5B0FDA#32]),
      (.highShelf, [0x3FF756DD#32, 0xC0641A4C#32, 0x3FD3A69F#32, 0x3F800000#32, 0xBFE3F327#32, 0x3F4D7814#32])] :
      List (FilterType × List Word)),
    let k := coefs 1024 fs48 row.1 0x447A0000#32 0x3F3504F3#32 0x40C00000#32
    [k.b0, k.b1, k.b2, k.a0, k.a1, k.a2] = row.2) ∧
  (List.range 8).map (Tables.harm 8 0x45FA0000#32) = [84, 35, 14, 6, 2, 1, 1, 1] ∧
  (List.range 8).map (Tables.harm 8 0x472C4400#32) = [464, 196, 82, 34, 14, 6, 2, 1] ∧
  (List.range 8).map (Tables.harm 8 fs48) = [506, 213, 89, 37, 16, 6, 2, 1] ∧
  (List.range 8).map (Tables.harm 8 0x47BB8000#32) = [1012, 426, 179, 75, 32, 13, 5, 2] ∧
  (List.range 8).map (Tables.harm 8 0x483B8000#32) = [2024, 853, 359, 151, 64, 26, 11, 4] ∧
  [1, 256, 512].map (saw 0) = [0xBF5D63B2#32, 0xBF4028F3#32, 0xBF00293A#32] ∧
  [1, 256, 512].map (saw 3) = [0xBD93E3C7#32, 0xBF4255FB#32, 0xBF022497#32] ∧
  [1, 256, 512].map (saw 7) = [0xBAFFFFE6#32, 0xBEE67B21#32, 0xBF22F983#32] ∧
  [1, 256, 512].map (tri 0) = [0x3B001A8D#32, 0x3F000026#32, 0x3F7FCB82#32] ∧
  [1, 256, 512].map (tri 3) = [0x3B022359#32, 0x3EFFCC4B#32, 0x3F7D4532#32] ∧
  [1, 256, 512].map (tri 7) = [0x3B22F973#32, 0x3F12BA8F#32, 0x3F4F817B#32] ∧
  [2047, 1792, 0, 1024].map (saw 3) = [0x3D93E3C7#32, 0x3F4255FB#32, 0x00000000#32, 0x00000000#32] ∧
  [2047, 1792, 0, 1024].map (tri 3) = [0xBB022359#32, 0xBEFFCC4B#32, 0x00000000#32, 0x00000000#32] ∧
  wave .sawtooth 0x3E800000#32 Const.half = 0xBF022497#32 ∧ wave .sawtooth 0x3DCCCCCD#32 Const.half = 0xBF4D15EB#32 ∧
  wave .triangle 0x3E800000#32 Const.half = 0x3F7D4532#32 ∧ wave .triangle 0x3DCCCCCD#32 Const.half = 0x3ECCA250#32 ∧
  wave .square 0x3DCCCCCD#32 Const.half = 0x3F7E00F4#32 ∧ wave .square 0x3E800000#32 Const.half = 0x3F822497#32 ∧
  wave .square 0x3F400000#32 Const.half = 0xBF822497#32 ∧ wave .square Const.half 0x3E800000#32 = 0xBF81124C#32 ∧
  ∀ n, n < 128 → FastMath.frequencyToNote (FastMath.n2f n) = some (n : Int)
end

