-- ==== Sys2Proof/Laws/Float.lean ====
section
/-! SUPPORT. The NaN of the datapath is one whatever its free bits are. -/

namespace Sys2Proof.F32

/-- A sign, nine bits set and a payload, as a number. -/
theorem append_toNat (s : BitVec 1) (p : BitVec 22) :
    (s ++ 0x1FF#9 ++ p : BitVec 32).toNat = s.toNat * 2 ^ 31 + 511 * 2 ^ 22 + p.toNat := by
  have hs := s.isLt
  have hp := p.isLt
  rw [BitVec.toNat_append, BitVec.toNat_append, ← Nat.shiftLeft_add_eq_or_of_lt hp,
    ← Nat.shiftLeft_add_eq_or_of_lt (BitVec.isLt _), Nat.shiftLeft_eq, Nat.shiftLeft_eq]
  simp only [BitVec.toNat_ofNat]
  omega

theorem nan_toNat : ∃ s p, nan.toNat = s * 2 ^ 31 + 511 * 2 ^ 22 + p ∧ s < 2 ∧ p < 2 ^ 22 :=
  ⟨_, _, append_toNat _ _, BitVec.isLt _, BitVec.isLt _⟩

@[simp] theorem expo_nan : expo nan = 255 := by
  obtain ⟨s, p, h, hs, hp⟩ := nan_toNat
  unfold expo
  omega

@[simp] theorem isNaN_nan : isNaN nan = true := by
  obtain ⟨s, p, h, hs, hp⟩ := nan_toNat
  have : frac nan ≠ 0 := by unfold frac; omega
  simp [isNaN, this]

@[simp] theorem isFinite_nan : isFinite nan = false := by simp [isFinite]

end Sys2Proof.F32
end

