-- ==== Sys2Proof/Laws/Rounding.lean ====
section
/-! SUPPORT. Rounding keeps order, and so keeps a result between representable bounds: the lemmas by which a range of the
datapath's registers is shown, over whole multiples of 2^-149. -/

namespace Sys2Proof.F32

/-! ### The rounding of a magnitude -/

theorem roundHalfEven_ge (n d : Nat) : n / d ≤ roundHalfEven n d := by unfold roundHalfEven; simp only; split <;> omega

theorem roundHalfEven_le (n d : Nat) : roundHalfEven n d ≤ n / d + 1 := by unfold roundHalfEven; simp only; split <;> omega

/-- The nearest whole number does not decrease. -/
theorem roundHalfEven_mono {n d n' d' : Nat} (hd : 0 < d) (hd' : 0 < d') (h : n * d' ≤ n' * d) :
    roundHalfEven n d ≤ roundHalfEven n' d' := by
  have e := Nat.div_add_mod n d
  have e' := Nat.div_add_mod n' d'
  have hr := Nat.mod_lt n hd
  have hr' := Nat.mod_lt n' hd'
  have hq : n / d ≤ n' / d' := by
    rw [Nat.le_div_iff_mul_le hd']
    refine Nat.le_of_mul_le_mul_right ?_ hd
    calc n / d * d' * d = n / d * d * d' := by ring
      _ ≤ n * d' := Nat.mul_le_mul_right _ (Nat.div_mul_le_self n d)
      _ ≤ n' * d := h
  rcases Nat.lt_or_eq_of_le hq with hlt | heq
  · exact (roundHalfEven_le n d).trans ((Nat.succ_le_of_lt hlt).trans (roundHalfEven_ge n' d'))
  · have hrr : n % d * d' ≤ n' % d' * d := by
      rw [← e, ← e', ← heq] at h
      nlinarith
    unfold roundHalfEven
    simp only [← heq]
    split
    · next hup =>
      rw [if_pos]
      simp only [Bool.or_eq_true, decide_eq_true_eq, Bool.and_eq_true, beq_iff_eq] at hup ⊢
      rcases hup with hgt | ⟨htie, hodd⟩
      · left
        by_contra hn
        nlinarith
      · rcases Nat.lt_trichotomy (2 * (n' % d')) d' with hl | hl | hl
        · nlinarith
        · exact .inr ⟨hl, hodd⟩
        · exact .inl hl
    · split <;> omega

/-- The doublings beyond 24 bits, and the significand they leave: 24 bits, or fewer where there are none. -/
theorem significand (n d : Nat) :
    (Nat.log2 (n / d) - 23 = 0 ∨ 2 ^ 23 ≤ roundHalfEven n (d <<< (Nat.log2 (n / d) - 23))) ∧
    roundHalfEven n (d <<< (Nat.log2 (n / d) - 23)) ≤ 2 ^ 24 := by
  set k := Nat.log2 (n / d) - 23 with hk
  have hdiv : n / (d <<< k) = n / d / 2 ^ k := by rw [Nat.shiftLeft_eq, Nat.div_div_eq_div_mul]
  have hlt : n / d < 2 ^ (Nat.log2 (n / d) + 1) := Nat.lt_log2_self
  constructor
  · rcases Nat.eq_zero_or_pos k with h0 | hp
    · exact .inl h0
    · right
      have h0 : n / d ≠ 0 := by intro h; simp [h] at hk; omega
      refine le_trans ?_ (roundHalfEven_ge n (d <<< k))
      rw [hdiv, Nat.le_div_iff_mul_le (by positivity), ← pow_add]
      exact (Nat.pow_le_pow_right (by norm_num) (by omega)).trans (Nat.log2_self_le h0)
  · have : n / (d <<< k) < 2 ^ 24 := by
      rw [hdiv, Nat.div_lt_iff_lt_mul (by positivity), ← pow_add]
      exact hlt.trans_le (Nat.pow_le_pow_right (by norm_num) (by omega))
    exact (roundHalfEven_le _ _).trans this

/-- Rounding a magnitude keeps order. -/
theorem roundMag_mono {n d n' d' : Nat} (hd : 0 < d) (hd' : 0 < d') (h : n * d' ≤ n' * d) :
    roundMag n d ≤ roundMag n' d' := by
  have hq : n / d ≤ n' / d' := by
    rw [Nat.le_div_iff_mul_le hd']
    refine Nat.le_of_mul_le_mul_right ?_ hd
    calc n / d * d' * d = n / d * d * d' := by ring
      _ ≤ n * d' := Nat.mul_le_mul_right _ (Nat.div_mul_le_self n d)
      _ ≤ n' * d := h
  have hk : Nat.log2 (n / d) - 23 ≤ Nat.log2 (n' / d') - 23 := by
    have := Nat.log_mono_right (b := 2) hq
    rw [Nat.log2_eq_log_two, Nat.log2_eq_log_two]
    omega
  obtain ⟨-, hs⟩ := significand n d
  obtain ⟨hs', -⟩ := significand n' d'
  unfold roundMag
  simp only [Nat.shiftLeft_eq] at hs hs' ⊢
  refine min_le_min_right _ ?_
  rcases Nat.lt_or_eq_of_le hk with hlt | heq
  · rcases hs' with h0 | hs'
    · omega
    · have : (Nat.log2 (n / d) - 23 + 1) * 2 ^ 23 ≤ (Nat.log2 (n' / d') - 23) * 2 ^ 23 := Nat.mul_le_mul_right _ hlt
      omega
  · rw [← heq] at hs' ⊢
    refine Nat.add_le_add_left (roundHalfEven_mono (by positivity) (by positivity) ?_) _
    calc n * (d' * 2 ^ (Nat.log2 (n / d) - 23)) = n * d' * 2 ^ (Nat.log2 (n / d) - 23) := by ring
      _ ≤ n' * d * 2 ^ (Nat.log2 (n / d) - 23) := Nat.mul_le_mul_right _ h
      _ = n' * (d * 2 ^ (Nat.log2 (n / d) - 23)) := by ring

/-! ### Patterns and their magnitudes -/

/-- A pattern is its 31 low bits. -/
theorem expo_frac (x : F32) : expo x * 2 ^ 23 + frac x = x.toNat % 2 ^ 31 := by
  have := x.isLt
  unfold expo frac
  omega

theorem frac_lt (x : F32) : frac x < 2 ^ 23 := Nat.mod_lt _ (by norm_num)

theorem expo_lt (x : F32) : expo x < 256 := Nat.mod_lt _ (by norm_num)

/-- Rounding gives back the pattern of a magnitude that is one. -/
theorem roundMag_mag {x : F32} (h : isNaN x = false) : roundMag (mag x) 1 = x.toNat % 2 ^ 31 := by
  have hf := frac_lt x
  have he := expo_lt x
  have hx := expo_frac x
  have hcap : expo x * 2 ^ 23 + frac x ≤ 0x7F800000 := by
    unfold isNaN at h
    simp only [Bool.and_eq_false_iff, beq_eq_false_iff_ne, bne_eq_false_iff_eq] at h
    rcases h with h | h <;> omega
  unfold roundMag mag
  simp only [Nat.div_one]
  split
  · next h0 =>
    have hk : Nat.log2 (frac x) - 23 = 0 := by
      have : Nat.log2 (frac x) < 23 ∨ frac x = 0 := by
        rcases Nat.eq_zero_or_pos (frac x) with hz | hz
        · exact .inr hz
        · exact .inl ((Nat.log2_lt (by omega)).2 hf)
      rcases this with hl | hz
      · omega
      · simp [hz]
    simp [hk, roundHalfEven, Nat.mod_one]
    omega
  · next h0 =>
    obtain ⟨e, he'⟩ : ∃ e, expo x = e + 1 := ⟨expo x - 1, by omega⟩
    have hk : Nat.log2 ((frac x + 2 ^ 23) <<< (expo x - 1)) - 23 = e := by
      have : Nat.log2 ((frac x + 2 ^ 23) <<< (expo x - 1)) = 23 + e := by
        rw [he', Nat.add_sub_cancel, Nat.shiftLeft_eq, Nat.log2_eq_iff (by positivity)]
        constructor
        · rw [pow_add]; exact Nat.mul_le_mul_right _ (by omega)
        · rw [show 23 + e + 1 = 24 + e by omega, pow_add]
          exact Nat.mul_lt_mul_of_pos_right (by omega) (by positivity)
      omega
    rw [hk, he', Nat.add_sub_cancel]
    have : roundHalfEven ((frac x + 2 ^ 23) <<< e) (1 <<< e) = frac x + 2 ^ 23 := by
      have : 0 < 2 ^ e := by positivity
      simp [roundHalfEven, Nat.shiftLeft_eq, this.ne]
    rw [this, Nat.shiftLeft_eq]
    omega

/-- A magnitude below a pattern's rounds to no pattern above it. -/
theorem roundMag_le {x : F32} (hx : isNaN x = false) {n d : Nat} (hd : 0 < d) (h : n ≤ mag x * d) :
    roundMag n d ≤ x.toNat % 2 ^ 31 := by
  rw [← roundMag_mag hx]
  exact roundMag_mono hd Nat.one_pos (by simpa using h)

/-- A magnitude above a pattern's rounds to no pattern below it. -/
theorem le_roundMag {x : F32} (hx : isNaN x = false) {n d : Nat} (hd : 0 < d) (h : mag x * d ≤ n) :
    x.toNat % 2 ^ 31 ≤ roundMag n d := by
  rw [← roundMag_mag hx]
  exact roundMag_mono Nat.one_pos hd (by simpa using h)

theorem roundMag_cap (n d : Nat) : roundMag n d ≤ 0x7F800000 := Nat.min_le_right _ _

/-- The magnitudes of patterns are ordered as the patterns. -/
theorem mag_le_of_pattern {x y : F32} (h : x.toNat % 2 ^ 31 ≤ y.toNat % 2 ^ 31) : mag x ≤ mag y := by
  have hx := frac_lt x
  have hy := frac_lt y
  rw [← expo_frac, ← expo_frac] at h
  unfold mag
  simp only [Nat.shiftLeft_eq]
  rcases Nat.lt_trichotomy (expo x) (expo y) with hlt | heq | hgt
  · rw [if_neg (by omega : expo y ≠ 0)]
    split
    · calc frac x ≤ (frac y + 2 ^ 23) * 1 := by omega
        _ ≤ _ := Nat.mul_le_mul_left _ (Nat.one_le_two_pow)
    · obtain ⟨k, hk⟩ : ∃ k, expo y - 1 = expo x - 1 + 1 + k := ⟨expo y - 1 - expo x, by omega⟩
      rw [hk, pow_add, pow_succ]
      calc (frac x + 2 ^ 23) * 2 ^ (expo x - 1) ≤ 2 ^ 24 * 2 ^ (expo x - 1) := Nat.mul_le_mul_right _ (by omega)
        _ = 2 ^ 23 * (2 ^ (expo x - 1) * 2 * 1) := by ring
        _ ≤ (frac y + 2 ^ 23) * (2 ^ (expo x - 1) * 2 * 2 ^ k) :=
          Nat.mul_le_mul (by omega) (Nat.mul_le_mul_left _ Nat.one_le_two_pow)
  · rw [heq]
    split
    · omega
    · exact Nat.mul_le_mul_right _ (by omega)
  · omega

/-! ### A rounded result between representable bounds -/

open Machine

theorem inRange_iff {lo hi x : F32} (hl : isNaN lo = false) (hh : isNaN hi = false) :
    inRange lo hi x = true ↔ isNaN x = false ∧ toInt lo ≤ toInt x ∧ toInt x ≤ toInt hi := by
  simp only [inRange, le, hl, hh, Bool.not_false, Bool.true_and, Bool.and_true, Bool.and_eq_true, Bool.not_eq_true',
    decide_eq_true_eq]
  tauto

theorem ofMag_toNat (s : Bool) {m : Nat} (h : m ≤ 0x7F800000) :
    (ofMag s m).toNat = m + if s then 2 ^ 31 else 0 := by
  unfold ofMag
  rw [BitVec.toNat_ofNat]
  cases s <;> simp <;> omega

theorem ofMag_mod (s : Bool) {m : Nat} (h : m ≤ 0x7F800000) : (ofMag s m).toNat % 2 ^ 31 = m := by
  rw [ofMag_toNat s h]
  cases s <;> simp <;> omega

@[simp] theorem neg?_ofMag (s : Bool) {m : Nat} (h : m ≤ 0x7F800000) : neg? (ofMag s m) = s := by
  unfold neg?
  rw [BitVec.msb_eq_decide, ofMag_toNat s h]
  cases s <;> simp
  omega

theorem isNaN_ofMag (s : Bool) {m : Nat} (h : m ≤ 0x7F800000) : isNaN (ofMag s m) = false := by
  have hm := ofMag_mod s h
  have hx := expo_frac (ofMag s m)
  have hf := frac_lt (ofMag s m)
  have he := expo_lt (ofMag s m)
  unfold isNaN
  simp only [Bool.and_eq_false_iff, beq_eq_false_iff_ne, bne_eq_false_iff_eq]
  omega

/-- An exact z/d, in multiples of 2^-149, between two values rounds to a value between them. -/
theorem ofMag_between {s : Bool} {z : Int} {d : Nat} {lo hi : F32} (hd : 0 < d)
    (hs : (s = true → z ≤ 0) ∧ (s = false → 0 ≤ z)) (hl : isNaN lo = false) (hh : isNaN hi = false)
    (h1 : toInt lo * d ≤ z) (h2 : z ≤ toInt hi * d) : inRange lo hi (ofMag s (roundMag z.natAbs d)) = true := by
  have hc := roundMag_cap z.natAbs d
  have hm := ofMag_mod s hc
  rw [inRange_iff hl hh]
  refine ⟨isNaN_ofMag s hc, ?_⟩
  have up (x : F32) (hx : isNaN x = false) (h : z.natAbs ≤ mag x * d) :
      mag (ofMag s (roundMag z.natAbs d)) ≤ mag x :=
    mag_le_of_pattern (by rw [hm]; exact roundMag_le hx hd h)
  have down (x : F32) (hx : isNaN x = false) (h : mag x * d ≤ z.natAbs) :
      mag x ≤ mag (ofMag s (roundMag z.natAbs d)) :=
    mag_le_of_pattern (by rw [hm]; exact le_roundMag hx hd h)
  have hdz : (0 : Int) < d := by exact_mod_cast hd
  unfold toInt at h1 h2 ⊢
  rw [neg?_ofMag s hc]
  cases s
  · have hz := hs.2 rfl
    simp only [Bool.false_eq_true, if_false]
    constructor
    · split
      · omega
      · next hn =>
        rw [if_neg hn] at h1
        exact_mod_cast down lo hl (by zify; rw [abs_of_nonneg hz]; exact h1)
    · split
      · next hn =>
        rw [if_pos hn] at h2
        have : z = 0 := by nlinarith [(Nat.cast_nonneg (mag hi) : (0 : Int) ≤ mag hi)]
        subst this
        have := up posZero (by decide) (by simp)
        have h0 : mag posZero = 0 := by decide
        have : (mag hi : Int) = 0 := by nlinarith [(Nat.cast_nonneg (mag hi) : (0 : Int) ≤ mag hi)]
        omega
      · next hn =>
        rw [if_neg hn] at h2
        exact_mod_cast up hi hh (by zify; rw [abs_of_nonneg hz]; exact h2)
  · have hz := hs.1 rfl
    simp only [if_true]
    constructor
    · split
      · next hn =>
        rw [if_pos hn] at h1
        have := up lo hl (by zify; rw [abs_of_nonpos hz]; linarith)
        omega
      · next hn =>
        rw [if_neg hn] at h1
        have : z = 0 := by nlinarith [(Nat.cast_nonneg (mag lo) : (0 : Int) ≤ mag lo)]
        subst this
        have := up posZero (by decide) (by simp)
        have h0 : mag posZero = 0 := by decide
        have : (mag lo : Int) = 0 := by nlinarith [(Nat.cast_nonneg (mag lo) : (0 : Int) ≤ mag lo)]
        omega
    · split
      · next hn =>
        rw [if_pos hn] at h2
        have := down hi hh (by zify; rw [abs_of_nonpos hz]; linarith)
        omega
      · omega

theorem isFinite_iff (x : F32) : isFinite x = true ↔ isNaN x = false ∧ isInf x = false := by
  unfold isFinite isNaN isInf
  cases h : expo x == 255 <;> cases h2 : frac x == 0 <;> simp_all

/-- The operands of an addition between two bounds that are themselves values: the sum is between them. -/
theorem add_between {a b lo hi : F32} (ha : isFinite a = true) (hb : isFinite b = true) (hl : isNaN lo = false)
    (hh : isNaN hi = false) (h1 : toInt lo ≤ toInt a + toInt b) (h2 : toInt a + toInt b ≤ toInt hi) :
    inRange lo hi (add a b) = true := by
  obtain ⟨an, ai⟩ := (isFinite_iff a).1 ha
  obtain ⟨bn, bi⟩ := (isFinite_iff b).1 hb
  unfold add
  simp only [an, ai, bn, bi, Bool.or_self, Bool.false_eq_true, if_false]
  have zero (x : F32) (hx : x = negZero ∨ x = posZero) (hz : toInt a + toInt b = 0) : inRange lo hi x = true := by
    rw [inRange_iff hl hh]
    have hi0 : toInt x = 0 := by rcases hx with rfl | rfl <;> decide
    exact ⟨by rcases hx with rfl | rfl <;> decide, by omega, by omega⟩
  split
  · next hz => split <;> [exact zero _ (.inl rfl) hz; exact zero _ (.inr rfl) hz]
  · unfold roundInt
    exact ofMag_between Nat.one_pos (by simp; omega) hl hh (by simpa using h1) (by simpa using h2)

theorem toInt_neg (x : F32) : toInt (neg x) = -toInt x := by
  have hs : neg? (neg x) = !neg? x := by
    unfold neg? neg
    rw [BitVec.msb_xor]
    rw [show (0x80000000#32).msb = true by decide, Bool.xor_true]
  have hm : (neg x).toNat % 2 ^ 31 = x.toNat % 2 ^ 31 := by
    unfold neg
    rw [BitVec.toNat_xor, Nat.xor_mod_two_pow]
    simp
  have hmag : mag (neg x) = mag x := le_antisymm (mag_le_of_pattern hm.le) (mag_le_of_pattern hm.ge)
  unfold toInt
  rw [hs, hmag]
  cases neg? x <;> simp

theorem isFinite_neg (x : F32) : isFinite (neg x) = isFinite x := by
  have hm : (neg x).toNat % 2 ^ 31 = x.toNat % 2 ^ 31 := by
    unfold neg
    rw [BitVec.toNat_xor, Nat.xor_mod_two_pow]
    simp
  have h1 := expo_frac (neg x)
  have h2 := expo_frac x
  have h3 := frac_lt (neg x)
  have h4 := frac_lt x
  unfold isFinite
  rw [show expo (neg x) = expo x by omega]

/-- The difference of two values between two bounds is between them. -/
theorem sub_between {a b lo hi : F32} (ha : isFinite a = true) (hb : isFinite b = true) (hl : isNaN lo = false)
    (hh : isNaN hi = false) (h1 : toInt lo ≤ toInt a - toInt b) (h2 : toInt a - toInt b ≤ toInt hi) :
    inRange lo hi (sub a b) = true := by
  refine add_between ha (by rw [isFinite_neg]; exact hb) hl hh ?_ ?_ <;> rw [toInt_neg] <;> omega

theorem toInt_sign (x : F32) : (neg? x = true → toInt x ≤ 0) ∧ (neg? x = false → 0 ≤ toInt x) := by
  unfold toInt
  cases neg? x <;> simp

theorem natAbs_toInt (x : F32) : (toInt x).natAbs = mag x := by
  unfold toInt
  split <;> simp

/-- The sign of a product, or of a quotient, is the exact result's. -/
theorem sign_mul (a b : F32) :
    ((neg? a != neg? b) = true → toInt a * toInt b ≤ 0) ∧ ((neg? a != neg? b) = false → 0 ≤ toInt a * toInt b) := by
  have ha := toInt_sign a
  have hb := toInt_sign b
  cases hna : neg? a <;> cases hnb : neg? b <;> simp only [hna, hnb] at ha hb ⊢ <;> simp at ha hb ⊢ <;> nlinarith

/-- The product of two values between two bounds is between them. -/
theorem mul_between {a b lo hi : F32} (ha : isFinite a = true) (hb : isFinite b = true) (hl : isNaN lo = false)
    (hh : isNaN hi = false) (h1 : toInt lo * (2 ^ 149 : Nat) ≤ toInt a * toInt b)
    (h2 : toInt a * toInt b ≤ toInt hi * (2 ^ 149 : Nat)) : inRange lo hi (mul a b) = true := by
  obtain ⟨an, ai⟩ := (isFinite_iff a).1 ha
  obtain ⟨bn, bi⟩ := (isFinite_iff b).1 hb
  unfold mul
  simp only [an, ai, bn, bi, Bool.or_self, Bool.false_eq_true, if_false]
  have := ofMag_between (d := 2 ^ 149) (by norm_num) (sign_mul a b) hl hh h1 h2
  rwa [Int.natAbs_mul, natAbs_toInt, natAbs_toInt] at this

/-- The quotient by a positive value, between two bounds, is between them. -/
theorem div_between {a b lo hi : F32} (ha : isFinite a = true) (hb : isFinite b = true) (hp : 0 < toInt b)
    (hl : isNaN lo = false) (hh : isNaN hi = false) (h1 : toInt lo * toInt b ≤ toInt a * 2 ^ 149)
    (h2 : toInt a * 2 ^ 149 ≤ toInt hi * toInt b) : inRange lo hi (div a b) = true := by
  obtain ⟨an, ai⟩ := (isFinite_iff a).1 ha
  obtain ⟨bn, bi⟩ := (isFinite_iff b).1 hb
  have hnb : neg? b = false := by
    by_contra h
    have := (toInt_sign b).1 (by simpa using h)
    omega
  have hmb : (mag b : Int) = toInt b := by simp [toInt, hnb]
  have hm0 : mag b ≠ 0 := by omega
  unfold div
  simp only [an, ai, bn, bi, hm0, hnb, Bool.or_self, Bool.false_eq_true, if_false]
  rw [show (neg? a != false) = neg? a by cases neg? a <;> rfl]
  have hs := toInt_sign a
  have := ofMag_between (s := neg? a) (z := toInt a * 2 ^ 149) (d := mag b) (by omega)
    ⟨fun h => by have := hs.1 h; nlinarith, fun h => by have := hs.2 h; positivity⟩ hl hh (by rw [hmb]; exact h1)
    (by rw [hmb]; exact h2)
  rwa [Int.natAbs_mul, natAbs_toInt, show ((2 : Int) ^ 149).natAbs = 2 ^ 149 by rfl] at this

/-- An integer between two bounds goes to a value between them. -/
theorem float_between {n : Int} {lo hi : F32} (hl : isNaN lo = false) (hh : isNaN hi = false)
    (h1 : toInt lo ≤ n * 2 ^ 149) (h2 : n * 2 ^ 149 ≤ toInt hi) : inRange lo hi (float n) = true := by
  unfold float
  split
  · next hn =>
    subst hn
    rw [inRange_iff hl hh]
    have : toInt posZero = 0 := by decide
    exact ⟨by decide, by omega, by omega⟩
  · have := ofMag_between (s := decide (n < 0)) (z := n * 2 ^ 149) (d := 1) Nat.one_pos
      ⟨fun h => by have := of_decide_eq_true h; nlinarith, fun h => by have := of_decide_eq_false h; nlinarith⟩ hl hh
      (by simpa using h1) (by simpa using h2)
    rwa [Int.natAbs_mul] at this

/-- What is between two finite bounds is finite. -/
theorem finite_of_inRange {lo hi x : F32} (hl : isFinite lo = true) (hh : isFinite hi = true)
    (h : inRange lo hi x = true) : isFinite x = true := by
  have hl' := ((isFinite_iff lo).1 hl).1
  have hh' := ((isFinite_iff hi).1 hh).1
  obtain ⟨hn, h1, h2⟩ := (inRange_iff hl' hh').1 h
  have small (y : F32) (hy : isFinite y = true) : mag y < 2 ^ 149 * 2 ^ 128 := by
    have hf := frac_lt y
    have he := expo_lt y
    have hne : expo y ≠ 255 := by simpa [isFinite] using hy
    unfold mag
    split
    · exact hf.trans (by norm_num)
    · rw [Nat.shiftLeft_eq]
      calc (frac y + 2 ^ 23) * 2 ^ (expo y - 1) < 2 ^ 24 * 2 ^ (expo y - 1) :=
            Nat.mul_lt_mul_of_pos_right (by omega) (by positivity)
        _ ≤ 2 ^ 24 * 2 ^ 253 := Nat.mul_le_mul_left _ (Nat.pow_le_pow_right (by norm_num) (by omega))
        _ = 2 ^ 149 * 2 ^ 128 := by norm_num
  by_contra hx
  have hex : expo x = 255 := by simpa [isFinite] using hx
  have hfx : frac x = 0 := by
    simpa [isNaN, hex] using hn
  have hmx : mag x = 2 ^ 149 * 2 ^ 128 := by
    unfold mag
    rw [hex, hfx]
    rfl
  have hlo := small lo hl
  have hhi := small hi hh
  have e1 := natAbs_toInt lo
  have e2 := natAbs_toInt hi
  have e3 := natAbs_toInt x
  omega

end Sys2Proof.F32
end

