-- ==== Sys2Proof/Laws/Ranges.lean ====
section
/-! SUPPORT. Values in [0, 1] and [−1, 1] stay there: differences, products, the linear interpolation of a table and of an
envelope's ramp, the curve, the velocity multiplier. -/

namespace Sys2Proof.F32

open Machine

/-! ### How near a rounded result is -/

/-- The nearest whole number is within a half. -/
theorem roundHalfEven_near {n d : Nat} (hd : 0 < d) :
    2 * (roundHalfEven n d * d) ≤ 2 * n + d ∧ 2 * n ≤ 2 * (roundHalfEven n d * d) + d := by
  have e := Nat.div_add_mod n d
  have hr := Nat.mod_lt n hd
  have hmul : (n / d + 1) * d = d * (n / d) + d := by ring
  have hmul' : n / d * d = d * (n / d) := by ring
  unfold roundHalfEven
  simp only
  split
  · next h =>
    rw [hmul]
    simp only [Bool.or_eq_true, decide_eq_true_eq, Bool.and_eq_true, beq_iff_eq] at h
    omega
  · next h =>
    rw [hmul']
    simp only [Bool.or_eq_true, decide_eq_true_eq, Bool.and_eq_true, beq_iff_eq, not_or, not_lt] at h
    omega

/-- The magnitude of a pattern written as doublings and a significand. -/
theorem mag_of_significand {x : F32} {k s : Nat} (hs : s ≤ 2 ^ 24) (hk : k = 0 ∨ 2 ^ 23 ≤ s)
    (hx : x.toNat % 2 ^ 31 = k * 2 ^ 23 + s) : mag x = s * 2 ^ k := by
  have h := expo_frac x
  have hf := frac_lt x
  rw [hx] at h
  unfold mag
  rcases Nat.lt_or_ge s (2 ^ 23) with h1 | h1
  · have hk0 : k = 0 := by omega
    have he : expo x = 0 := by omega
    rw [if_pos he, hk0]
    omega
  · rcases Nat.lt_or_ge s (2 ^ 24) with h2 | h2
    · have he : expo x = k + 1 := by omega
      rw [if_neg (by omega), he, Nat.add_sub_cancel, Nat.shiftLeft_eq, show frac x + 2 ^ 23 = s by omega]
    · have he : expo x = k + 2 := by omega
      rw [if_neg (by omega), he, show k + 2 - 1 = k + 1 by omega, Nat.shiftLeft_eq, show frac x = 0 by omega,
        show s = 2 ^ 24 by omega, pow_succ]
      ring

/-- Short of infinity, a rounded magnitude is its significand times its doublings. -/
theorem mag_roundMag (s : Bool) {n d : Nat} (h : n / d < 2 ^ 200) :
    mag (ofMag s (roundMag n d)) =
      roundHalfEven n (d <<< (Nat.log2 (n / d) - 23)) * 2 ^ (Nat.log2 (n / d) - 23) := by
  obtain ⟨hs', hs⟩ := significand n d
  have hlog : Nat.log2 (n / d) < 200 := by
    rcases Nat.eq_zero_or_pos (n / d) with hz | hz
    · simp [hz]
    · exact (Nat.log2_lt (by omega)).2 h
  refine mag_of_significand hs hs' ?_
  rw [ofMag_mod s (roundMag_cap _ _)]
  unfold roundMag
  simp only [Nat.shiftLeft_eq] at hs ⊢
  exact Nat.min_eq_left (by omega)

/-- Below 2, in multiples of 2^-149 below 2^150, a magnitude is rounded by at most 2^125. -/
theorem roundMag_near (s : Bool) {z : Nat} (h : z < 2 ^ 150) :
    mag (ofMag s (roundMag z 1)) ≤ z + 2 ^ 125 ∧ z ≤ mag (ofMag s (roundMag z 1)) + 2 ^ 125 := by
  have hlog : Nat.log2 z ≤ 149 := by
    rcases Nat.eq_zero_or_pos z with rfl | hz
    · simp
    · have := (Nat.log2_lt (by omega)).2 h
      omega
  have hn := roundHalfEven_near (n := z) (d := 1 <<< (Nat.log2 (z / 1) - 23)) (by rw [Nat.shiftLeft_eq]; positivity)
  rw [mag_roundMag s (by rw [Nat.div_one]; exact h.trans (by norm_num))]
  simp only [Nat.shiftLeft_eq, one_mul, Nat.div_one] at hn ⊢
  have : 2 ^ (Nat.log2 z - 23) ≤ 2 ^ 126 := Nat.pow_le_pow_right Nat.two_pos (by omega)
  omega

/-- Above the subnormals a magnitude is rounded up by at most one part in 2^24. -/
theorem roundMag_relative (s : Bool) {n d : Nat} (hd : 0 < d) (h : n / d < 2 ^ 200) (hn : 2 ^ 23 * d ≤ n) :
    mag (ofMag s (roundMag n d)) * d * 2 ^ 24 ≤ n * (2 ^ 24 + 1) := by
  rw [mag_roundMag s h]
  have hq : 2 ^ 23 ≤ n / d := (Nat.le_div_iff_mul_le hd).2 hn
  have hlog : 23 ≤ Nat.log2 (n / d) := (Nat.le_log2 (by omega)).2 hq
  set k := Nat.log2 (n / d) - 23 with hk
  have hpow : 2 ^ k * 2 ^ 23 * d ≤ n := by
    rw [← pow_add, show k + 23 = Nat.log2 (n / d) by omega]
    exact (Nat.mul_le_mul_right d (Nat.log2_self_le (by omega))).trans (Nat.div_mul_le_self n d)
  have hnear := (roundHalfEven_near (n := n) (d := d <<< k) (by rw [Nat.shiftLeft_eq]; positivity)).1
  rw [Nat.shiftLeft_eq] at hnear ⊢
  nlinarith

/-- A whole quotient is its own nearest. -/
theorem roundHalfEven_exact (s : Nat) {d : Nat} (hd : 0 < d) : roundHalfEven (s * d) d = s := by
  unfold roundHalfEven
  simp [hd, hd.ne]

/-- Whole numbers below 2^24 go to binary32 exactly (00_scope.md R13). -/
theorem toInt_float {n : Nat} (h : n < 2 ^ 24) : toInt (float n) = n * 2 ^ 149 := by
  unfold float
  rcases Nat.eq_zero_or_pos n with rfl | hp
  · decide
  · rw [if_neg (by omega)]
    have hneg : decide ((n : Int) < 0) = false := by simp
    rw [hneg, Int.natAbs_natCast, toInt, neg?_ofMag _ (roundMag_cap _ _)]
    have hlog : Nat.log2 (n * 2 ^ 149) = Nat.log2 n + 149 := by
      rw [Nat.log2_eq_iff (by positivity), pow_add, show Nat.log2 n + 149 + 1 = Nat.log2 n + 1 + 149 by omega, pow_add]
      exact ⟨Nat.mul_le_mul_right _ (Nat.log2_self_le (by omega)), Nat.mul_lt_mul_of_pos_right Nat.lt_log2_self (by positivity)⟩
    have hl : Nat.log2 n ≤ 23 := by
      have := (Nat.log2_lt (by omega)).2 h
      omega
    rw [mag_roundMag false (by
      rw [Nat.div_one]
      calc n * 2 ^ 149 < 2 ^ 24 * 2 ^ 149 := Nat.mul_lt_mul_of_pos_right h (by positivity)
        _ ≤ 2 ^ 200 := by norm_num), Nat.div_one, hlog, Nat.shiftLeft_eq, one_mul]
    have hs : n * 2 ^ 149 = n * 2 ^ (23 - Nat.log2 n) * 2 ^ (Nat.log2 n + 149 - 23) := by
      rw [mul_assoc, ← pow_add, show 23 - Nat.log2 n + (Nat.log2 n + 149 - 23) = 149 by omega]
    rw [hs, roundHalfEven_exact _ (by positivity), ← hs]
    simp

/-! ### Unit ranges -/

theorem toInt_one : toInt one = 2 ^ 149 := by decide
theorem toInt_minusOne : toInt Const.minusOne = -2 ^ 149 := by decide
theorem toInt_posZero : toInt posZero = 0 := by decide

/-- x is in [0, 1]. -/
theorem unit_iff (x : F32) : inRange posZero one x = true ↔ isNaN x = false ∧ 0 ≤ toInt x ∧ toInt x ≤ 2 ^ 149 := by
  rw [inRange_iff (by decide) (by decide), toInt_posZero, toInt_one]

/-- x is in [−1, 1]. -/
theorem bipolar_iff (x : F32) :
    inRange Const.minusOne one x = true ↔ isNaN x = false ∧ -2 ^ 149 ≤ toInt x ∧ toInt x ≤ 2 ^ 149 := by
  rw [inRange_iff (by decide) (by decide), toInt_minusOne, toInt_one]

theorem unit_finite {x : F32} (h : inRange posZero one x = true) : isFinite x = true :=
  finite_of_inRange (by decide) (by decide) h

theorem bipolar_finite {x : F32} (h : inRange Const.minusOne one x = true) : isFinite x = true :=
  finite_of_inRange (by decide) (by decide) h

theorem bipolar_of_unit {x : F32} (h : inRange posZero one x = true) : inRange Const.minusOne one x = true := by
  obtain ⟨hn, h0, h1⟩ := (unit_iff x).1 h
  exact (bipolar_iff x).2 ⟨hn, by omega, h1⟩

/-- 1 ⊖ q stays in [0, 1]. -/
theorem one_sub_unit {q : F32} (h : inRange posZero one q = true) : inRange posZero one (sub one q) = true := by
  have := (unit_iff q).1 h
  refine sub_between (by decide) (unit_finite h) (by decide) (by decide) ?_ ?_
  · rw [toInt_posZero, toInt_one]; omega
  · rw [toInt_one]; omega

/-- A product in [0, 1] is in [0, 1]. -/
theorem mul_unit {a b : F32} (ha : inRange posZero one a = true) (hb : inRange posZero one b = true) :
    inRange posZero one (mul a b) = true := by
  obtain ⟨-, a0, a1⟩ := (unit_iff a).1 ha
  obtain ⟨-, b0, b1⟩ := (unit_iff b).1 hb
  refine mul_between (unit_finite ha) (unit_finite hb) (by decide) (by decide) ?_ ?_
  · rw [toInt_posZero]; simp; positivity
  · rw [toInt_one]; push_cast; exact mul_le_mul a1 b1 b0 (by positivity)

/-- A sum in [−1, 1] but for a rounding error is in [−1, 1]. -/
theorem add_bipolar {a m : F32} (ha : isFinite a = true) (hm : isFinite m = true)
    (h1 : -(2 ^ 149 + 2 ^ 125) ≤ toInt a + toInt m) (h2 : toInt a + toInt m ≤ 2 ^ 149 + 2 ^ 125) :
    inRange Const.minusOne one (add a m) = true := by
  obtain ⟨an, ai⟩ := (isFinite_iff a).1 ha
  obtain ⟨mn, mi⟩ := (isFinite_iff m).1 hm
  unfold add
  simp only [an, ai, mn, mi, Bool.or_self, Bool.false_eq_true, if_false]
  split
  · split <;> decide
  · next hz =>
    have hc := roundMag_cap (toInt a + toInt m).natAbs 1
    have hr : roundMag (toInt a + toInt m).natAbs 1 ≤ 0x3F800000 := by
      have hmono : roundMag (toInt a + toInt m).natAbs 1 ≤ roundMag (2 ^ 149 + 2 ^ 125) 1 :=
        roundMag_mono Nat.one_pos Nat.one_pos (by omega)
      have hone : roundMag (2 ^ 149 + 2 ^ 125) 1 = 0x3F800000 := by decide +kernel
      omega
    have hmag : mag (roundInt (toInt a + toInt m)) ≤ mag one := by
      refine mag_le_of_pattern ?_
      unfold roundInt
      rw [ofMag_mod _ hc]
      exact hr
    have h1 : mag one = 2 ^ 149 := by decide
    have hn := natAbs_toInt (roundInt (toInt a + toInt m))
    rw [bipolar_iff]
    refine ⟨isNaN_ofMag _ hc, ?_, ?_⟩ <;> omega

theorem toInt_roundInt (z : Int) : toInt (roundInt z) =
    if z < 0 then -(mag (ofMag (decide (z < 0)) (roundMag z.natAbs 1)) : Int)
    else (mag (ofMag (decide (z < 0)) (roundMag z.natAbs 1)) : Int) := by
  unfold roundInt toInt
  rw [neg?_ofMag _ (roundMag_cap _ _)]
  simp

/-- The difference of two values in [−1, 1], and how near it is. -/
theorem sub_near {a b : F32} (ha : inRange Const.minusOne one a = true) (hb : inRange Const.minusOne one b = true) :
    isFinite (sub b a) = true ∧ toInt (sub b a) ≤ toInt b - toInt a + 2 ^ 125 ∧
      toInt b - toInt a - 2 ^ 125 ≤ toInt (sub b a) := by
  obtain ⟨-, a0, a1⟩ := (bipolar_iff a).1 ha
  obtain ⟨-, b0, b1⟩ := (bipolar_iff b).1 hb
  have htwo : toInt two = 2 ^ 150 := by decide
  have hmtwo : toInt negTwo = -2 ^ 150 := by decide
  have hin : inRange negTwo two (sub b a) = true :=
    sub_between (bipolar_finite hb) (bipolar_finite ha) (by decide) (by decide) (by omega) (by omega)
  have hfin := finite_of_inRange (by decide) (by decide) hin
  obtain ⟨-, r0, r1⟩ := (inRange_iff (by decide) (by decide)).1 hin
  refine ⟨hfin, ?_⟩
  rcases Nat.lt_or_ge (toInt b - toInt a).natAbs (2 ^ 150) with hlt | hge
  · obtain ⟨bn, bi⟩ := (isFinite_iff b).1 (bipolar_finite hb)
    obtain ⟨an, ai⟩ := (isFinite_iff (neg a)).1 (by rw [isFinite_neg]; exact bipolar_finite ha)
    have hz : toInt b + toInt (neg a) = toInt b - toInt a := by rw [toInt_neg]; ring
    have hadd : toInt (sub b a) = 0 ∧ toInt b - toInt a = 0 ∨
        sub b a = roundInt (toInt b - toInt a) := by
      unfold sub add
      simp only [an, ai, bn, bi, Bool.or_self, Bool.false_eq_true, if_false, hz]
      split
      · left
        next h0 => exact ⟨by split <;> decide, h0⟩
      · exact .inr rfl
    rcases hadd with ⟨h0, h1⟩ | hr
    · omega
    · obtain ⟨n1, n2⟩ := roundMag_near (decide (toInt b - toInt a < 0)) hlt
      have hv := toInt_roundInt (toInt b - toInt a)
      rw [← hr] at hv
      split at hv <;> omega
  · have exact (c : F32) (hc : isNaN c = false) (h : toInt b - toInt a = toInt c) : toInt (sub b a) = toInt c := by
      obtain ⟨-, e1, e2⟩ := (inRange_iff hc hc).1
        (sub_between (bipolar_finite hb) (bipolar_finite ha) hc hc h.ge h.le)
      omega
    rcases (by omega : toInt b - toInt a = 2 ^ 150 ∨ toInt b - toInt a = -2 ^ 150) with h | h
    · have := exact two (by decide) (by omega); omega
    · have := exact negTwo (by decide) (by omega); omega

/-- The interpolation a ⊕ (d ⊗ t), d = b ⊖ a, of two values in [−1, 1] by t in [0, 1]. -/
theorem interpolate_bipolar {a b t : F32} (ha : inRange Const.minusOne one a = true)
    (hb : inRange Const.minusOne one b = true) (ht : inRange posZero one t = true) :
    inRange Const.minusOne one (add a (mul (sub b a) t)) = true := by
  obtain ⟨-, a0, a1⟩ := (bipolar_iff a).1 ha
  obtain ⟨-, b0, b1⟩ := (bipolar_iff b).1 hb
  obtain ⟨-, t0, t1⟩ := (unit_iff t).1 ht
  obtain ⟨df, d1, d2⟩ := sub_near ha hb
  have dn := ((isFinite_iff _).1 df).1
  rcases le_total 0 (toInt (sub b a)) with h | h
  · have hm : inRange posZero (sub b a) (mul (sub b a) t) = true := by
      refine mul_between df (unit_finite ht) (by decide) dn ?_ ?_
      · rw [toInt_posZero]; simp; positivity
      · push_cast; exact mul_le_mul_of_nonneg_left t1 h
    obtain ⟨-, m0, m1⟩ := (inRange_iff (by decide) dn).1 hm
    rw [toInt_posZero] at m0
    exact add_bipolar (bipolar_finite ha) (finite_of_inRange (by decide) df hm) (by omega) (by omega)
  · have hm : inRange (sub b a) posZero (mul (sub b a) t) = true := by
      refine mul_between df (unit_finite ht) dn (by decide) ?_ ?_
      · push_cast; nlinarith
      · rw [toInt_posZero]; simp; exact mul_nonpos_of_nonpos_of_nonneg h t0
    obtain ⟨-, m0, m1⟩ := (inRange_iff dn (by decide)).1 hm
    rw [toInt_posZero] at m1
    exact add_bipolar (bipolar_finite ha) (finite_of_inRange df (by decide) hm) (by omega) (by omega)

/-- A sum in [0, 1] but for a rounding error at the top is in [0, 1]. -/
theorem add_unit {a m : F32} (ha : isFinite a = true) (hm : isFinite m = true) (h1 : 0 ≤ toInt a + toInt m)
    (h2 : toInt a + toInt m ≤ 2 ^ 149 + 2 ^ 125) : inRange posZero one (add a m) = true := by
  obtain ⟨hn, -, hle⟩ := (bipolar_iff _).1 (add_bipolar ha hm (by omega) h2)
  have hfour : toInt Const.four = 2 ^ 151 := by decide
  obtain ⟨-, r0, -⟩ := (inRange_iff (by decide) (by decide)).1
    (add_between ha hm (lo := posZero) (hi := Const.four) (by decide) (by decide) (by rw [toInt_posZero]; exact h1)
      (by omega))
  exact (unit_iff _).2 ⟨hn, by rw [toInt_posZero] at r0; exact r0, hle⟩

/-- The same on values in [0, 1]: an envelope's ramp from `a` to `b`. -/
theorem interpolate_unit {a b t : F32} (ha : inRange posZero one a = true) (hb : inRange posZero one b = true)
    (ht : inRange posZero one t = true) : inRange posZero one (add a (mul (sub b a) t)) = true := by
  obtain ⟨an, a0, a1⟩ := (unit_iff a).1 ha
  obtain ⟨-, b0, b1⟩ := (unit_iff b).1 hb
  obtain ⟨-, t0, t1⟩ := (unit_iff t).1 ht
  obtain ⟨df, dn, -⟩ := sub_near (bipolar_of_unit ha) (bipolar_of_unit hb)
  have hnan : isNaN (neg a) = false := ((isFinite_iff _).1 (by rw [isFinite_neg]; exact unit_finite ha)).1
  have hd : inRange (neg a) two (sub b a) = true := by
    have htwo : toInt two = 2 ^ 150 := by decide
    exact sub_between (unit_finite hb) (unit_finite ha) hnan (by decide) (by rw [toInt_neg]; omega) (by omega)
  obtain ⟨-, d0, d1⟩ := (inRange_iff hnan (by decide)).1 hd
  rw [toInt_neg] at d0
  have hsub : isNaN (sub b a) = false := ((isFinite_iff _).1 df).1
  have hfa : isFinite (neg a) = true := by rw [isFinite_neg]; exact unit_finite ha
  rcases le_total 0 (toInt (sub b a)) with h | h
  · have hm : inRange posZero (sub b a) (mul (sub b a) t) = true := by
      refine mul_between df (unit_finite ht) (by decide) hsub ?_ ?_
      · rw [toInt_posZero]; simp; positivity
      · push_cast; exact mul_le_mul_of_nonneg_left t1 h
    obtain ⟨-, m0, m1⟩ := (inRange_iff (by decide) hsub).1 hm
    rw [toInt_posZero] at m0
    exact add_unit (unit_finite ha) (finite_of_inRange (by decide) df hm) (by omega) (by omega)
  · have hm : inRange (neg a) posZero (mul (sub b a) t) = true := by
      refine mul_between df (unit_finite ht) hnan (by decide) ?_ ?_
      · rw [toInt_neg]; push_cast; nlinarith
      · rw [toInt_posZero]; simp; exact mul_nonpos_of_nonpos_of_nonneg h t0
    obtain ⟨-, m0, m1⟩ := (inRange_iff hnan (by decide)).1 hm
    rw [toInt_neg] at m0
    rw [toInt_posZero] at m1
    exact add_unit (unit_finite ha) (finite_of_inRange hfa (by decide) hm) (by omega) (by omega)

end Sys2Proof.F32

namespace Sys2Proof.Machine

open F32

/-! ### The envelope -/

/-- The stage position p = float(n) ⊗ SLOPE of a sample inside a stage is in [0, 1] (43_envelope.md R352). -/
theorem position_unit {n len : Nat} (h : n < len) (hl : len ≤ 5760000) :
    inRange posZero one (mul (float n) (envSlope len)) = true := by
  have hpos : 0 < len := by omega
  have hf := toInt_float (n := len) (by omega)
  have hn := toInt_float (n := n) (by omega)
  have ffin (m : Nat) (hm : m ≤ 5760000) : isFinite (float m) = true := by
    refine finite_of_inRange (lo := posZero) (hi := 0x4B000000#32) (by decide) (by decide) (float_between (by decide) (by decide) ?_ ?_)
    · rw [toInt_posZero]; omega
    · have : toInt 0x4B000000#32 = 2 ^ 23 * 2 ^ 149 := by decide
      omega
  have hdiv : envSlope len = ofMag false (roundMag (2 ^ 149 * 2 ^ 149) (len * 2 ^ 149)) := by
    have hff := ffin len hl
    obtain ⟨fn, fi⟩ := (isFinite_iff _).1 hff
    have hneg : neg? (float (len : Int)) = false := by
      by_contra hc
      have := (toInt_sign (float (len : Int))).1 (by simpa using hc)
      omega
    have hmag : mag (float (len : Int)) = len * 2 ^ 149 := by
      have := natAbs_toInt (float (len : Int))
      omega
    have hlen : len * 2 ^ 149 ≠ 0 := by positivity
    unfold envSlope div
    simp only [fn, fi, hneg, hmag, hlen, show isNaN one = false by decide, show isInf one = false by decide,
      show neg? one = false by decide, show mag one = 2 ^ 149 by decide, Bool.or_self, Bool.false_eq_true, if_false,
      bne_self_eq_false]
  have hq : 2 ^ 149 * 2 ^ 149 / (len * 2 ^ 149) < 2 ^ 200 := by
    rw [Nat.mul_div_mul_right _ _ (by positivity)]
    exact (Nat.div_le_self _ _).trans_lt (by norm_num)
  have hrel := roundMag_relative false (n := 2 ^ 149 * 2 ^ 149) (d := len * 2 ^ 149) (by positivity) hq
    (by nlinarith)
  rw [← hdiv] at hrel
  have hsn : neg? (envSlope len) = false := by rw [hdiv]; exact neg?_ofMag _ (roundMag_cap _ _)
  have hs : toInt (envSlope len) = mag (envSlope len) := by simp [toInt, hsn]
  have hbound : n * mag (envSlope len) ≤ 2 ^ 149 := by
    have : mag (envSlope len) * len * 2 ^ 24 ≤ 2 ^ 149 * (2 ^ 24 + 1) := by nlinarith
    nlinarith
  have hfin : isFinite (envSlope len) = true := by
    refine finite_of_inRange (lo := posZero) (hi := one) (by decide) (by decide) ?_
    exact div_between (by decide) (ffin len hl) (by omega) (by decide) (by decide)
      (by rw [toInt_posZero, toInt_one, zero_mul]; norm_num) (by rw [toInt_one, hf]; omega)
  refine mul_between (ffin n (by omega)) hfin (by decide) (by decide) ?_ ?_
  · rw [toInt_posZero, hn, hs, zero_mul]
    exact mul_nonneg (by omega) (by omega)
  · rw [toInt_one, hn, hs]
    push_cast
    have : (n : Int) * mag (envSlope len) ≤ 2 ^ 149 := by exact_mod_cast hbound
    nlinarith

theorem powBy_unit {q : F32} (hq : inRange posZero one q = true) (n : Nat) :
    ∀ {a : F32}, inRange posZero one a = true → inRange posZero one (powBy q n a) = true := by
  induction n with
  | zero => exact fun h => h
  | succ n ih => exact fun h => ih (mul_unit h hq)

/-- The curve keeps [0, 1] (R353). -/
theorem envCurve_unit {p : F32} (c : Nat) (h : inRange posZero one p = true) :
    inRange posZero one (envCurve c p) = true :=
  one_sub_unit (powBy_unit (one_sub_unit h) _ (one_sub_unit h))

/-- An envelope step keeps the running registers in their ranges (R352 to R359). -/
theorem envStep_legal {e : Env} (ok : envOk e = true) (h : envLegal e = true) : envLegal (envStep e) = true := by
  unfold envLegal at h
  simp only [Bool.and_eq_true, decide_eq_true_eq, List.all_cons, List.all_nil, Bool.and_true, beq_iff_eq] at h
  obtain ⟨⟨⟨⟨hv, hst⟩, hvm⟩, hel⟩, ⟨hA, sA⟩, ⟨hD, sD⟩, ⟨hR, sR⟩, hSh, sSh⟩ := h
  have hsus : inRange posZero one e.sustain = true := by
    unfold envOk at ok
    simp only [Bool.and_eq_true] at ok
    exact ok.1.1.1.1.1.1.1.1.2
  have zero : inRange posZero one posZero = true := by decide
  have legal {g : Env} (h1 : inRange posZero one g.value = true) (h2 : inRange posZero one g.start = true)
      (h3 : g.vm = e.vm) (h4 : g.elapsed ≤ 5760000) (h5 : g.lenA = e.lenA) (h6 : g.lenD = e.lenD) (h7 : g.lenR = e.lenR)
      (h8 : g.lenSh = e.lenSh) (h9 : g.slopeA = e.slopeA) (h10 : g.slopeD = e.slopeD) (h11 : g.slopeR = e.slopeR)
      (h12 : g.slopeSh = e.slopeSh) : envLegal g = true := by
    unfold envLegal
    simp [h1, h2, h3, h4, h5, h6, h7, h8, h9, h10, h11, h12, hvm, hA, hD, hR, hSh, ← sA, ← sD, ← sR, ← sSh]
  have ramp {len : Nat} {slope τ : F32} {next : Stage} (hl : len ≤ 5760000) (hs : slope = envSlope len)
      (hτ : inRange posZero one τ = true) : envLegal (envRamp e len slope τ next) = true := by
    unfold envRamp
    split
    · exact legal hτ hτ rfl (by simp [envEnter]) rfl rfl rfl rfl rfl rfl rfl rfl
    · refine legal ?_ hst rfl (by simp only; omega) rfl rfl rfl rfl rfl rfl rfl rfl
      have hp := position_unit (n := e.elapsed + 1) (len := len) (by omega) hl
      push_cast at hp
      simp only [hs]
      exact interpolate_unit hst hτ (envCurve_unit _ hp)
  unfold envStep
  split
  · exact ramp hA sA hvm
  · exact ramp hD sD (mul_unit hsus hvm)
  · exact legal (mul_unit hsus hvm) hst rfl hel rfl rfl rfl rfl rfl rfl rfl rfl
  · exact ramp hR sR zero
  · unfold envShutdown
    split
    · exact legal zero zero rfl (by simp [envEnter]) rfl rfl rfl rfl rfl rfl rfl rfl
    · have hp := position_unit (n := e.elapsed + 1) (len := e.lenSh) (by omega) hSh
      push_cast at hp
      refine legal ?_ hst rfl (by simp only; omega) rfl rfl rfl rfl rfl rfl rfl rfl
      simp only [sSh]
      exact mul_unit hst (one_sub_unit hp)
  · exact legal zero hst rfl hel rfl rfl rfl rfl rfl rfl rfl rfl

/-- The velocity multiplier is in [0, 1] (R363). -/
theorem envVm_unit {v : F32} (hv : inRange posZero one v = true) {vel : Byte} (h : vel.toNat ≤ 127) :
    inRange posZero one (envVm v vel) = true := by
  obtain ⟨-, v0, v1⟩ := (unit_iff v).1 hv
  have hf := toInt_float (n := vel.toNat) (by omega)
  have h127 : toInt Const.f127 = 127 * 2 ^ 149 := by decide
  have hr : inRange posZero one (div (float vel.toNat) Const.f127) = true := by
    have hfin : inRange posZero Const.f127 (float vel.toNat) = true :=
      float_between (by decide) (by decide) (by rw [toInt_posZero]; omega) (by rw [h127]; omega)
    refine div_between (finite_of_inRange (by decide) (by decide) hfin) (by decide) (by omega) (by decide) (by decide) ?_ ?_
    · rw [toInt_posZero, hf]; omega
    · rw [toInt_one, hf, h127]; omega
  obtain ⟨-, r0, r1⟩ := (unit_iff _).1 hr
  have hm : inRange posZero v (mul v (div (float vel.toNat) Const.f127)) = true := by
    have hvn := ((isFinite_iff v).1 (unit_finite hv)).1
    refine mul_between (unit_finite hv) (unit_finite hr) (by decide) hvn ?_ ?_
    · rw [toInt_posZero]; simp; positivity
    · push_cast; exact mul_le_mul_of_nonneg_left r1 v0
  obtain ⟨-, m0, m1⟩ := (inRange_iff (by decide) ((isFinite_iff v).1 (unit_finite hv)).1).1 hm
  have hone : inRange posZero one one = true := by decide
  obtain ⟨sf, s1, -⟩ := sub_near (bipolar_of_unit hv) (bipolar_of_unit hone)
  obtain ⟨-, s0, -⟩ := (unit_iff _).1 (one_sub_unit hv)
  rw [toInt_posZero] at m0
  rw [toInt_one] at s1
  exact add_unit sf (finite_of_inRange (by decide) (unit_finite hv) hm) (by omega) (by omega)

end Sys2Proof.Machine
end

