-- ==== Sys2Proof/Laws/Bounds.lean ====
section
/-! SUPPORT. Bounds on values as rationals: a rounded sum, difference, product or quotient keeps representable bounds of its
exact result. The form in which a long formula of the datapath is bounded step by step. -/

namespace Sys2Proof.F32

open Machine

/-- The value of a pattern. -/
def val (x : F32) : ℚ := toInt x / 2 ^ 149

/-- x is finite and its value between l and h. -/
structure Bounded (l h : ℚ) (x : F32) : Prop where
  finite : isFinite x = true
  lower : l ≤ val x
  upper : val x ≤ h

/-- q is the value of a finite pattern. -/
def Representable (q : ℚ) : Prop := ∃ c : F32, isFinite c = true ∧ val c = q

theorem toInt_eq (x : F32) : (toInt x : ℚ) = val x * 2 ^ 149 := by unfold val; field_simp

theorem Bounded.mono {l h l' h' : ℚ} {x : F32} (b : Bounded l h x) (hl : l' ≤ l) (hh : h ≤ h') : Bounded l' h' x :=
  ⟨b.finite, hl.trans b.lower, b.upper.trans hh⟩

theorem Representable.neg {q : ℚ} : Representable q → Representable (-q) := by
  rintro ⟨c, hf, rfl⟩
  exact ⟨F32.neg c, by rw [isFinite_neg]; exact hf, by unfold val; rw [toInt_neg]; push_cast; ring⟩

/-- Whole numbers below 2^24 are representable. -/
theorem representable_nat {n : Nat} (h : n < 2 ^ 24) : Representable n := by
  refine ⟨float n, ?_, by unfold val; rw [toInt_float h]; push_cast; norm_num⟩
  refine finite_of_inRange (lo := posZero) (hi := 0x4B800000#32) (by decide) (by decide)
    (float_between (by decide) (by decide) ?_ ?_)
  · rw [toInt_posZero]; positivity
  · have : toInt 0x4B800000#32 = 2 ^ 24 * 2 ^ 149 := by decide
    rw [this]
    exact Int.mul_le_mul_of_nonneg_right (by exact_mod_cast h.le) (by norm_num)

/-- Whole numbers within ±2^24 are representable. -/
theorem representable_int {q : ℚ} (n : Int) (h : n.natAbs < 2 ^ 24) (hq : q = n) : Representable q := by
  obtain ⟨m, rfl | rfl⟩ := Int.eq_nat_or_neg n
  · rw [hq]; exact representable_nat (by simpa using h)
  · rw [hq]; push_cast; exact (representable_nat (by simpa using h)).neg

theorem bounded_of_inRange {lo hi x : F32} {l h : ℚ} (fl : isFinite lo = true) (fh : isFinite hi = true)
    (hr : inRange lo hi x = true) (hl : l ≤ val lo) (hh : val hi ≤ h) : Bounded l h x := by
  obtain ⟨-, h0, h1⟩ := (inRange_iff ((isFinite_iff lo).1 fl).1 ((isFinite_iff hi).1 fh).1).1 hr
  have e (a b : F32) (hab : toInt a ≤ toInt b) : val a ≤ val b := by
    unfold val
    have : (toInt a : ℚ) ≤ toInt b := by exact_mod_cast hab
    gcongr
  exact ⟨finite_of_inRange fl fh hr, hl.trans (e _ _ h0), (e _ _ h1).trans hh⟩

/-- A result between two representable bounds, from a range lemma on the patterns. -/
theorem bounded_of_patterns {l h : ℚ} {x : F32} (rl : Representable l) (rh : Representable h)
    (key : ∀ lo hi : F32, isFinite lo = true → isFinite hi = true → val lo = l → val hi = h → inRange lo hi x = true) :
    Bounded l h x := by
  obtain ⟨lo, fl, el⟩ := rl
  obtain ⟨hi, fh, eh⟩ := rh
  exact bounded_of_inRange fl fh (key lo hi fl fh el eh) el.ge eh.le

theorem add_bounded {a b : F32} {l h : ℚ} (ha : isFinite a = true) (hb : isFinite b = true) (rl : Representable l)
    (rh : Representable h) (h1 : l ≤ val a + val b) (h2 : val a + val b ≤ h) : Bounded l h (add a b) := by
  refine bounded_of_patterns rl rh fun lo hi fl fh el eh =>
    add_between ha hb ((isFinite_iff lo).1 fl).1 ((isFinite_iff hi).1 fh).1 ?_ ?_
  · have : (toInt lo : ℚ) ≤ toInt a + toInt b := by rw [toInt_eq, toInt_eq a, toInt_eq b, el]; nlinarith
    exact_mod_cast this
  · have : (toInt a + toInt b : ℚ) ≤ toInt hi := by rw [toInt_eq, toInt_eq b, toInt_eq hi, eh]; nlinarith
    exact_mod_cast this

theorem sub_bounded {a b : F32} {l h : ℚ} (ha : isFinite a = true) (hb : isFinite b = true) (rl : Representable l)
    (rh : Representable h) (h1 : l ≤ val a - val b) (h2 : val a - val b ≤ h) : Bounded l h (sub a b) := by
  refine bounded_of_patterns rl rh fun lo hi fl fh el eh =>
    sub_between ha hb ((isFinite_iff lo).1 fl).1 ((isFinite_iff hi).1 fh).1 ?_ ?_
  · have : (toInt lo : ℚ) ≤ toInt a - toInt b := by rw [toInt_eq, toInt_eq a, toInt_eq b, el]; nlinarith
    exact_mod_cast this
  · have : (toInt a - toInt b : ℚ) ≤ toInt hi := by rw [toInt_eq, toInt_eq b, toInt_eq hi, eh]; nlinarith
    exact_mod_cast this

theorem mul_bounded {a b : F32} {l h : ℚ} (ha : isFinite a = true) (hb : isFinite b = true) (rl : Representable l)
    (rh : Representable h) (h1 : l ≤ val a * val b) (h2 : val a * val b ≤ h) : Bounded l h (mul a b) := by
  refine bounded_of_patterns rl rh fun lo hi fl fh el eh =>
    mul_between ha hb ((isFinite_iff lo).1 fl).1 ((isFinite_iff hi).1 fh).1 ?_ ?_
  · have : (toInt lo : ℚ) * 2 ^ 149 ≤ toInt a * toInt b := by rw [toInt_eq, toInt_eq a, toInt_eq b, el]; nlinarith
    exact_mod_cast this
  · have : (toInt a * toInt b : ℚ) ≤ toInt hi * 2 ^ 149 := by rw [toInt_eq, toInt_eq b, toInt_eq hi, eh]; nlinarith
    exact_mod_cast this

theorem div_bounded {a b : F32} {l h : ℚ} (ha : isFinite a = true) (hb : isFinite b = true) (hp : 0 < val b)
    (rl : Representable l) (rh : Representable h) (h1 : l * val b ≤ val a) (h2 : val a ≤ h * val b) :
    Bounded l h (div a b) := by
  have hpos : 0 < toInt b := by
    have : (0 : ℚ) < toInt b := by rw [toInt_eq]; positivity
    exact_mod_cast this
  refine bounded_of_patterns rl rh fun lo hi fl fh el eh =>
    div_between ha hb hpos ((isFinite_iff lo).1 fl).1 ((isFinite_iff hi).1 fh).1 ?_ ?_
  · have : (toInt lo : ℚ) * toInt b ≤ toInt a * 2 ^ 149 := by rw [toInt_eq, toInt_eq a, toInt_eq b, el]; nlinarith
    exact_mod_cast this
  · have : (toInt a : ℚ) * 2 ^ 149 ≤ toInt hi * toInt b := by rw [toInt_eq, toInt_eq b, toInt_eq hi, eh]; nlinarith
    exact_mod_cast this

theorem neg_bounded {a : F32} {l h : ℚ} (b : Bounded l h a) : Bounded (-h) (-l) (neg a) := by
  have e : val (neg a) = -val a := by unfold val; rw [toInt_neg]; push_cast; ring
  exact ⟨by rw [isFinite_neg]; exact b.finite, by rw [e]; linarith [b.upper], by rw [e]; linarith [b.lower]⟩

theorem val_one : val one = 1 := by unfold val; rw [toInt_one]; norm_num
theorem val_two : val two = 2 := by
  have : toInt two = 2 ^ 150 := by decide
  unfold val; rw [this]; norm_num
theorem val_negTwo : val negTwo = -2 := by
  have : toInt negTwo = -2 ^ 150 := by decide
  unfold val; rw [this]; norm_num
theorem val_half : val Const.half = 1 / 2 := by
  have : toInt Const.half = 2 ^ 148 := by decide
  unfold val; rw [this]; norm_num

end Sys2Proof.F32
end

