-- ==== Sys2Proof/Laws/Exponential.lean ====
section
/-! SUPPORT. The exponential and the root on the ranges the datapath uses: DB40 and DSCALE lie between 0.2499 and 4.125, and
the square root of such a value below 2.5 (40_fastmath.md R209, R213; 42_filter.md R309). -/

namespace Sys2Proof.Fix

open F32 Machine

theorem expTail_succ (P r f k t : Nat) : expTail P r (f + 1) k t = t + expTail P r f (k + 1) (((t * r) >>> P) / k) := by
  have zero (f k : Nat) : expTail P r f k 0 = 0 := by cases f <;> simp [expTail]
  conv_lhs => unfold expTail
  split
  · next h => subst h; simp [zero]
  · rfl

/-- From its third term on the series is at most 4/3 of that term. -/
theorem expTail_le {P r : Nat} (hr : 10 * r ≤ 7 * 2 ^ P) (f : Nat) :
    ∀ k t : Nat, 3 ≤ k → 3 * expTail P r f k t ≤ 4 * t := by
  induction f with
  | zero => intro k t _; simp only [expTail]; omega
  | succ f ih =>
    intro k t hk
    rw [expTail_succ]
    have h := ih (k + 1) (((t * r) >>> P) / k) (by omega)
    have ht : 30 * (((t * r) >>> P) / k) ≤ 7 * t := by
      rw [Nat.shiftRight_eq_div_pow]
      have a := Nat.div_mul_le_self (t * r) (2 ^ P)
      have b := Nat.div_mul_le_self (t * r / 2 ^ P) k
      have c : t * r / 2 ^ P / k * 3 ≤ t * r / 2 ^ P := (Nat.mul_le_mul_left _ hk).trans b
      have d : 10 * (t * r / 2 ^ P) ≤ 7 * t := by
        refine Nat.le_of_mul_le_mul_right ?_ (show 0 < 2 ^ P by positivity)
        nlinarith [Nat.mul_le_mul_left t hr]
      omega
    omega

/-- e^r in units of 2^-P for 0 ≤ r ≤ 0.6932: between 1 and 2.02. -/
theorem expTail_between {P r : Nat} (hr : 10000 * r ≤ 6932 * 2 ^ P) :
    2 ^ P ≤ expTail P r 128 1 (1 <<< P) ∧ 100 * expTail P r 128 1 (1 <<< P) ≤ 202 * 2 ^ P := by
  have hM : 0 < 2 ^ P := by positivity
  have h1 : (2 ^ P * r) >>> P / 1 = r := by
    rw [Nat.shiftRight_eq_div_pow, Nat.div_one, Nat.mul_div_cancel_left _ hM]
  have e1 := expTail_succ P r 127 1 (2 ^ P)
  have e2 := expTail_succ P r 126 2 r
  rw [h1] at e1
  have e3 := expTail_le (by omega : 10 * r ≤ 7 * 2 ^ P) 126 3 ((r * r) >>> P / 2) le_rfl
  have h2 : 10000 * ((r * r) >>> P / 2) ≤ 2403 * 2 ^ P := by
    rw [Nat.shiftRight_eq_div_pow]
    have a := Nat.div_mul_le_self (r * r) (2 ^ P)
    have b : 10000 * (r * r / 2 ^ P) ≤ 4806 * 2 ^ P := by
      refine Nat.le_of_mul_le_mul_right ?_ hM
      nlinarith [Nat.mul_le_mul hr hr]
    omega
  norm_num only at e1 e2
  rw [Nat.shiftLeft_eq, one_mul]
  omega

/-- A value between 1 and 2.02, times 2^n for −2 ≤ n ≤ 1, rounds to a value between 0.2499 and 4.125. -/
theorem roundAt_between {P m : Nat} {n : Int} (hn : -2 ≤ n ∧ n ≤ 1) (h0 : 4095 * 2 ^ P ≤ 4096 * m)
    (h1 : 100 * m ≤ 203 * 2 ^ P) :
    inRange 0x3E7FE000#32 0x40840000#32 (ofMag false (roundAt P n m)) = true := by
  have t0 : toInt 0x3E7FE000#32 = 2047 * 2 ^ 136 := by decide
  have t1 : toInt 0x40840000#32 = 33 * 2 ^ 146 := by decide
  have go (z d : Nat) (hd : 0 < d) (hl : 2047 * 2 ^ 136 * d ≤ z) (hh : z ≤ 33 * 2 ^ 146 * d) :
      inRange 0x3E7FE000#32 0x40840000#32 (ofMag false (roundMag z d)) = true := by
    have := ofMag_between (s := false) (z := (z : Int)) hd (by simp) (lo := 0x3E7FE000#32) (hi := 0x40840000#32)
      (by decide) (by decide) (by rw [t0]; exact_mod_cast hl) (by rw [t1]; exact_mod_cast hh)
    simpa using this
  unfold roundAt
  obtain rfl | rfl | rfl | rfl : n = -2 ∨ n = -1 ∨ n = 0 ∨ n = 1 := by omega
  · simp only [show ¬(0 ≤ (-2 : Int)) by decide, if_false, show (-(-2 : Int)).toNat = 2 by decide, Nat.shiftLeft_eq, one_mul, pow_add]
    exact go _ _ (by positivity) (by omega) (by omega)
  · simp only [show ¬(0 ≤ (-1 : Int)) by decide, if_false, show (-(-1 : Int)).toNat = 1 by decide, Nat.shiftLeft_eq, one_mul, pow_add]
    exact go _ _ (by positivity) (by omega) (by omega)
  · simp only [le_refl, if_true, Int.toNat_zero, Nat.add_zero, Nat.shiftLeft_eq, one_mul]
    exact go _ _ (by positivity) (by omega) (by omega)
  · simp only [show 0 ≤ (1 : Int) by decide, if_true, show (1 : Int).toNat = 1 by decide, Nat.shiftLeft_eq, one_mul, pow_add]
    exact go _ _ (by positivity) (by omega) (by omega)

/-- RN32(e^y) for |y| ≤ 1.385: between 0.2499 and 4.125. -/
theorem rn32Exp_between {y : Nat → Int} (h : 1000 * (y 256).natAbs ≤ 1385 * 2 ^ 256)
    (h2 : -(4 * 2 ^ 256) ≤ y 512 - 2 ^ 256 * y 256 ∧ y 512 - 2 ^ 256 * y 256 ≤ 4 * 2 ^ 256) :
    inRange 0x3E7FE000#32 0x40840000#32 (rn32Exp y) = true := by
  have hL : ((ln2 256 : Nat) : Int) * 10000 ≤ 6932 * 2 ^ 256 - 2 ^ 240 ∧ 6931 * 2 ^ 256 ≤ ((ln2 256 : Nat) : Int) * 10000 := by
    decide +kernel
  have hL2 : ((2 : Int) ^ 256 * (ln2 256 : Nat)) ≤ (ln2 512 : Nat) ∧
      ((ln2 512 : Nat) : Int) ≤ 2 ^ 256 * (ln2 256 : Nat) + 2 ^ 256 := by decide +kernel
  have hr : ∀ n : Int, n = y 256 / (ln2 256 : Int) → (-2 ≤ n ∧ n ≤ 1) ∧
      10000 * (y 256 - n * ln2 256).toNat ≤ 6932 * 2 ^ 256 ∧ 10000 * (y 512 - n * ln2 512).toNat ≤ 6932 * 2 ^ 512 := by
    intro n hn
    have hd := Int.mul_ediv_add_emod (y 256) (ln2 256 : Int)
    have hpos : (0 : Int) < (ln2 256 : Nat) := by omega
    have hm0 := Int.emod_nonneg (y 256) hpos.ne'
    have hm1 := Int.emod_lt_of_pos (y 256) hpos
    rw [← hn] at hd
    generalize ((ln2 256 : Nat) : Int) = L at *
    generalize ((ln2 512 : Nat) : Int) = L' at *
    generalize y 256 % L = e at *
    generalize y 256 = a at *
    generalize y 512 = b at *
    have hn2 : -2 ≤ n ∧ n ≤ 1 := by
      constructor
      · by_contra hc
        have : L * n ≤ L * (-3) := Int.mul_le_mul_of_nonneg_left (by omega) (by omega)
        omega
      · by_contra hc
        have : L * 2 ≤ L * n := Int.mul_le_mul_of_nonneg_left (by omega) (by omega)
        omega
    refine ⟨hn2, ?_⟩
    obtain rfl | rfl | rfl | rfl : n = -2 ∨ n = -1 ∨ n = 0 ∨ n = 1 := by omega
    all_goals constructor <;> omega
  unfold rn32Exp
  simp only
  obtain ⟨hn, r1, r2⟩ := hr _ rfl
  generalize y 256 / (ln2 256 : Int) = n at *
  obtain ⟨l1, u1⟩ := expTail_between r1
  obtain ⟨l2, u2⟩ := expTail_between r2
  have hs : slack = 2 ^ 32 := rfl
  unfold rn32Scaled
  simp only [Int.natAbs_natCast, show ∀ k : Nat, decide ((k : Int) < 0) = false from fun k => by simp]
  split
  · exact roundAt_between hn (by omega) (by omega)
  · exact roundAt_between hn (by omega) (by omega)

/-- The approximations z·c/D and z·c'/D of one value to two precisions, K apart, agree. -/
theorem approximations_agree {z K : Int} {D c c' : Nat} (hD : 0 < D) (hz : z.natAbs ≤ D) (hK : 1 ≤ K) (h0 : K * c ≤ c')
    (h1 : c' ≤ K * c + K) : -(4 * K) ≤ z * c' / D - K * (z * c / D) ∧ z * c' / D - K * (z * c / D) ≤ 4 * K := by
  have hD' : (0 : Int) < D := by exact_mod_cast hD
  have a := Int.mul_ediv_add_emod (z * c) D
  have a0 := Int.emod_nonneg (z * c) hD'.ne'
  have a1 := Int.emod_lt_of_pos (z * c) hD'
  have b := Int.mul_ediv_add_emod (z * c') D
  have b0 := Int.emod_nonneg (z * c') hD'.ne'
  have b1 := Int.emod_lt_of_pos (z * c') hD'
  generalize z * (c : Int) / D = p at *
  generalize z * (c : Int) % D = p' at *
  generalize z * (c' : Int) / D = q at *
  generalize z * (c' : Int) % D = q' at *
  obtain ⟨e, he⟩ : ∃ e : Int, (c' : Int) = K * c + e := ⟨c' - K * c, by ring⟩
  have he0 : 0 ≤ e := by linarith
  have he1 : e ≤ K := by linarith
  have hz1 : z ≤ D := by omega
  have hz2 : -(D : Int) ≤ z := by omega
  have hze : -(D * K : Int) ≤ z * e ∧ z * e ≤ D * K := by constructor <;> nlinarith
  rw [he] at b
  have key : (D : Int) * (q - K * p) = z * e + K * p' - q' := by linear_combination b - K * a
  constructor
  · by_contra hc
    have := Int.mul_le_mul_of_nonneg_left (show q - K * p ≤ -(4 * K) - 1 by omega) hD'.le
    nlinarith
  · by_contra hc
    have := Int.mul_le_mul_of_nonneg_left (show 4 * K + 1 ≤ q - K * p by omega) hD'.le
    nlinarith

/-- z·c/D is at most 1.385 if |z|·c/D is. -/
theorem approximation_small {z : Int} {D c : Nat} (hD : 0 < D) (h : 10000 * (z.natAbs * c) ≤ 13849 * 2 ^ 256 * D) :
    1000 * (z * c / D).natAbs ≤ 1385 * 2 ^ 256 := by
  have hD' : (0 : Int) < D := by exact_mod_cast hD
  have h1 : 10000 * (z * c) ≤ 13849 * 2 ^ 256 * D ∧ -(13849 * 2 ^ 256 * D) ≤ 10000 * (z * c) := by
    have e : (z * (c : Int)).natAbs = z.natAbs * c := by rw [Int.natAbs_mul, Int.natAbs_natCast]
    rw [← e] at h
    generalize z * (c : Int) = w at *
    generalize hd : (13849 * 2 ^ 256 * D : Nat) = d at *
    have : (13849 * 2 ^ 256 * D : Int) = d := by rw [← hd]; push_cast; ring
    omega
  have a := Int.mul_ediv_add_emod (z * c) D
  have a0 := Int.emod_nonneg (z * c) hD'.ne'
  have a1 := Int.emod_lt_of_pos (z * c) hD'
  generalize z * (c : Int) / D = p at *
  generalize z * (c : Int) % D = p' at *
  have up : 1000 * p ≤ 1385 * 2 ^ 256 := by
    by_contra hc
    have := Int.mul_le_mul_of_nonneg_left (show 1385 * 2 ^ 256 + 1 ≤ 1000 * p by omega) hD'.le
    nlinarith
  have down : -(1385 * 2 ^ 256) ≤ 1000 * p := by
    by_contra hc
    have := Int.mul_le_mul_of_nonneg_left (show 1000 * p ≤ -(1385 * 2 ^ 256) - 1 by omega) hD'.le
    nlinarith
  omega

end Sys2Proof.Fix

namespace Sys2Proof.FastMath

open F32 Machine

/-- DB40 on the gain range (R209). -/
theorem db40_between {g : F32} (h : inRange Const.gainMin Const.gainMax g = true) :
    inRange 0x3E7FE000#32 0x40840000#32 (db40 g) = true := by
  obtain ⟨hn, h0, h1⟩ := (inRange_iff (by decide) (by decide)).1 h
  have t0 : toInt Const.gainMin = -(24 * 2 ^ 149) := by decide
  have t1 : toInt Const.gainMax = 24 * 2 ^ 149 := by decide
  have hz : (toInt g).natAbs ≤ 24 * 2 ^ 149 := by omega
  have hc : 10000 * (24 * Fix.ln10 256) ≤ 13849 * 2 ^ 256 * 40 := by decide +kernel
  have hc2 : (2 : Int) ^ 256 * (Fix.ln10 256 : Nat) ≤ (Fix.ln10 512 : Nat) ∧
      ((Fix.ln10 512 : Nat) : Int) ≤ 2 ^ 256 * (Fix.ln10 256 : Nat) + 2 ^ 256 := by decide +kernel
  unfold db40
  rw [if_neg (by simp [hn])]
  refine Fix.rn32Exp_between (Fix.approximation_small (by positivity) ?_)
    (Fix.approximations_agree (by positivity) (hz.trans (Nat.mul_le_mul_right _ (by norm_num))) (by norm_num) hc2.1 hc2.2)
  generalize Fix.ln10 256 = c at *
  calc 10000 * ((toInt g).natAbs * c) ≤ 10000 * (24 * 2 ^ 149 * c) := Nat.mul_le_mul_left _ (Nat.mul_le_mul_right _ hz)
    _ = 10000 * (24 * c) * 2 ^ 149 := by ring
    _ ≤ 13849 * 2 ^ 256 * 40 * 2 ^ 149 := Nat.mul_le_mul_right _ hc
    _ = _ := by ring

/-- DSCALE on the detune range (R213). -/
theorem dscale_between {d : F32} (h : inRange Const.detMin Const.detMax d = true) :
    inRange 0x3E7FE000#32 0x40840000#32 (dscale d) = true := by
  obtain ⟨hn, h0, h1⟩ := (inRange_iff (by decide) (by decide)).1 h
  have t0 : toInt Const.detMin = -(12 * 2 ^ 149) := by decide
  have t1 : toInt Const.detMax = 12 * 2 ^ 149 := by decide
  have hz : (toInt d).natAbs ≤ 12 * 2 ^ 149 := by omega
  have hc : 10000 * (12 * Fix.ln2 256) ≤ 13849 * 2 ^ 256 * 12 := by decide +kernel
  have hc2 : (2 : Int) ^ 256 * (Fix.ln2 256 : Nat) ≤ (Fix.ln2 512 : Nat) ∧
      ((Fix.ln2 512 : Nat) : Int) ≤ 2 ^ 256 * (Fix.ln2 256 : Nat) + 2 ^ 256 := by decide +kernel
  unfold dscale
  rw [if_neg (by simp [hn])]
  refine Fix.rn32Exp_between (Fix.approximation_small (by positivity) ?_)
    (Fix.approximations_agree (by positivity) hz (by norm_num) hc2.1 hc2.2)
  generalize Fix.ln2 256 = c at *
  calc 10000 * ((toInt d).natAbs * c) ≤ 10000 * (12 * 2 ^ 149 * c) := Nat.mul_le_mul_left _ (Nat.mul_le_mul_right _ hz)
    _ = 10000 * (12 * c) * 2 ^ 149 := by ring
    _ ≤ 13849 * 2 ^ 256 * 12 * 2 ^ 149 := Nat.mul_le_mul_right _ hc
    _ = _ := by ring

end Sys2Proof.FastMath

namespace Sys2Proof.F32

open Machine

theorem rootBits_le (k n : Nat) : ∀ b r : Nat, r ^ k ≤ n → rootBits k n b r ^ k ≤ n
  | 0, _, h => h
  | b + 1, r, h => by
    unfold rootBits
    split
    · next h' => exact rootBits_le k n b _ h'
    · exact rootBits_le k n b _ h

/-- The square root of a positive value up to 4.125 lies in [0, 2.5]. -/
theorem sqrt_between {x : F32} (hn : isFinite x = true) (h0 : 0 < toInt x) (h1 : toInt x ≤ 33 * 2 ^ 146) :
    inRange posZero 0x40200000#32 (sqrt x) = true := by
  obtain ⟨xn, xi⟩ := (isFinite_iff x).1 hn
  have hs : neg? x = false := by
    by_contra h
    have := (toInt_sign x).1 (by simpa using h)
    omega
  have hm : (mag x : Int) = toInt x := by simp [toInt, hs]
  have t1 : toInt 0x40200000#32 = 5 * 2 ^ 148 := by decide
  unfold sqrt
  simp only [xn, xi, hs, Bool.false_eq_true, if_false]
  rw [if_neg (by omega)]
  set n := mag x * 2 ^ 149 * 2 ^ 4 with hnn
  have hr := rootBits_le 2 n 216 0 (by simp)
  generalize rootBits 2 n 216 0 = r at *
  have hr9 : r < 9 * 2 ^ 149 := by
    by_contra hc
    have : (9 * 2 ^ 149) ^ 2 ≤ r ^ 2 := Nat.pow_le_pow_left (by omega) 2
    have : n ≤ 33 * 2 ^ 146 * 2 ^ 149 * 2 ^ 4 := by
      rw [hnn]
      have : mag x ≤ 33 * 2 ^ 146 := by omega
      gcongr
    omega
  have hb (e : Nat) (he : e ≤ 1) : inRange posZero 0x40200000#32 (ofMag false (roundMag (2 * r + e) (2 ^ 3))) = true := by
    have hle : 2 * r + e ≤ 20 * 2 ^ 149 := by omega
    have hle' : ((2 * r + e : Nat) : Int) ≤ (20 * 2 ^ 149 : Nat) := by exact_mod_cast hle
    have := ofMag_between (s := false) (z := ((2 * r + e : Nat) : Int)) (d := 2 ^ 3) (by norm_num)
      ⟨by simp, fun _ => Int.natCast_nonneg _⟩
      (lo := posZero) (hi := 0x40200000#32) (by decide) (by decide) (by rw [toInt_posZero, zero_mul]; exact Int.natCast_nonneg _)
      (by rw [t1]; exact hle'.trans (by norm_num))
    rwa [Int.natAbs_natCast] at this
  split
  · exact hb 0 (by omega)
  · exact hb 1 le_rfl

end Sys2Proof.F32
end

