-- ==== Sys2Proof/Laws/Sine.lean ====
section
/-! SUPPORT. The sine table and its interpolation: every entry and every value read lies in [−1, 1], and in [0, 1] over the
first half turn (40_fastmath.md R206 to R208). -/

namespace Sys2Proof.Fix

/-! ### The series -/

theorem sinTail_le (P x2 f k t : Nat) : sinTail P x2 f k t ≤ t := by
  cases f with
  | zero => simp [sinTail]
  | succ f => unfold sinTail; split <;> omega

theorem sinTail_succ (P x2 f k t : Nat) :
    sinTail P x2 (f + 1) k t = t - sinTail P x2 f (k + 1) (((t * x2) >>> P) / (2 * k * (2 * k + 1))) := by
  conv_lhs => unfold sinTail
  split <;> simp_all

/-- The Taylor polynomial of the sine to x^13 is below 1 + 2^-26 up to HALF_PI. -/
theorem sine_poly_le {x : ℝ} (h0 : 0 ≤ x) (h1 : x ≤ 13176795 / 8388608) :
    x - x ^ 3 / 6 + x ^ 5 / 120 - x ^ 7 / 5040 + x ^ 9 / 362880 - x ^ 11 / 39916800 + x ^ 13 / 6227020800 ≤
      1 + 1 / 67108864 := by
  obtain ⟨u, rfl⟩ : ∃ u, x = 13176795 / 8388608 - u := ⟨13176795 / 8388608 - x, by ring⟩
  have hu0 : 0 ≤ u := by linarith
  have hu1 : u ≤ 13176795 / 8388608 := by linarith
  have hv : u ^ 2 ≤ 2.468 := by nlinarith
  have h2 : 0 ≤ u ^ 2 := by positivity
  have h4 : u ^ 4 ≤ 2.468 * u ^ 2 := by nlinarith
  have h8 : u ^ 8 ≤ 20 * u ^ 2 := by
    have : u ^ 8 = u ^ 4 * u ^ 4 := by ring
    have : u ^ 4 ≤ 6.1 := by nlinarith
    nlinarith [show 0 ≤ u ^ 4 by positivity]
  have h12 : u ^ 12 ≤ 200 * u ^ 2 := by
    have : u ^ 12 = u ^ 8 * u ^ 4 := by ring
    have : u ^ 4 ≤ 6.1 := by nlinarith
    nlinarith [show 0 ≤ u ^ 8 by positivity]
  have hq : u ≤ u ^ 2 + 1 / 4 := by nlinarith [sq_nonneg (u - 1 / 2)]
  have h3 : 0 ≤ u ^ 3 := by positivity
  have h5 : 0 ≤ u ^ 5 := by positivity
  have h6 : 0 ≤ u ^ 6 := by positivity
  have h7 : 0 ≤ u ^ 7 := by positivity
  have h9 : 0 ≤ u ^ 9 := by positivity
  have h10 : 0 ≤ u ^ 10 := by positivity
  have h11 : 0 ≤ u ^ 11 := by positivity
  have h13 : 0 ≤ u ^ 13 := by positivity
  ring_nf
  linarith

/-- One term of the series from the one before, in units of 1/M: truncation loses little. -/
theorem sinTerm_step {P t X d : Nat} {τ e : ℝ} (hd : 6 ≤ d) (hτ0 : 0 ≤ τ) (hτ : τ ≤ 1.6) (he0 : 0 ≤ e) (he : e ≤ 2.5)
    (h1 : (t : ℝ) ≤ τ * 2 ^ P) (h2 : τ * 2 ^ P - 3 ≤ t) (h3 : (X : ℝ) ≤ e * 2 ^ P) (h4 : e * 2 ^ P - 1 ≤ X) :
    (((t * X) >>> P / d : Nat) : ℝ) ≤ τ * e / d * 2 ^ P ∧ τ * e / d * 2 ^ P - 3 ≤ ((t * X) >>> P / d : Nat) := by
  set M : ℝ := 2 ^ P with hM
  have hMp : 0 < M := by positivity
  have hd' : (6 : ℝ) ≤ d := by exact_mod_cast hd
  have hdp : (0 : ℝ) < d := by linarith
  have hq : (((t * X) >>> P : Nat) : ℝ) ≤ t * X / M ∧ t * X / M - 1 ≤ ((t * X) >>> P : Nat) := by
    rw [Nat.shiftRight_eq_div_pow]
    have a := Nat.div_mul_le_self (t * X) (2 ^ P)
    have b := Nat.lt_div_mul_add (a := t * X) (b := 2 ^ P) (by positivity)
    have a' : ((t * X / 2 ^ P : Nat) : ℝ) * M ≤ t * X := by rw [hM]; exact_mod_cast a
    have b' : (t : ℝ) * X < (t * X / 2 ^ P : Nat) * M + M := by rw [hM]; exact_mod_cast b
    constructor
    · rw [le_div_iff₀ hMp]; exact a'
    · rw [sub_le_iff_le_add, div_le_iff₀ hMp]; nlinarith
  have hr : (((t * X) >>> P / d : Nat) : ℝ) ≤ ((t * X) >>> P : Nat) / d ∧
      (((t * X) >>> P : Nat) : ℝ) / d - 1 ≤ ((t * X) >>> P / d : Nat) := by
    have a := Nat.div_mul_le_self ((t * X) >>> P) d
    have b := Nat.lt_div_mul_add (a := (t * X) >>> P) (b := d) (by omega)
    have a' : (((t * X) >>> P / d : Nat) : ℝ) * d ≤ ((t * X) >>> P : Nat) := by exact_mod_cast a
    have b' : (((t * X) >>> P : Nat) : ℝ) < ((t * X) >>> P / d : Nat) * d + d := by exact_mod_cast b
    constructor
    · rw [le_div_iff₀ hdp]; exact a'
    · rw [sub_le_iff_le_add, div_le_iff₀ hdp]; nlinarith
  have hX : (0 : ℝ) ≤ X := by positivity
  have ht : (0 : ℝ) ≤ t := by positivity
  have hup : (t : ℝ) * X / M ≤ τ * e * M := by
    rw [div_le_iff₀ hMp]
    calc (t : ℝ) * X ≤ (τ * M) * (e * M) := mul_le_mul h1 h3 hX (by positivity)
      _ = τ * e * M * M := by ring
  have hdown : τ * e * M - 10 ≤ t * X / M := by
    rw [le_div_iff₀ hMp]
    have : (t : ℝ) * X ≥ t * (e * M - 1) := mul_le_mul_of_nonneg_left h4 ht
    nlinarith [mul_nonneg he0 hMp.le, mul_le_mul_of_nonneg_right he hMp.le, mul_le_mul_of_nonneg_right hτ hMp.le,
      mul_le_mul_of_nonneg_right h2 (mul_nonneg he0 hMp.le)]
  refine ⟨hr.1.trans ?_, le_trans ?_ hr.2⟩
  · rw [div_le_iff₀ hdp]
    have : τ * e / d * M * d = τ * e * M := by field_simp
    rw [this]
    exact hq.1.trans hup
  · have h : τ * e / d * M - 11 / d ≤ ((t * X) >>> P : Nat) / d := by
      rw [← sub_nonneg]
      have : (((t * X) >>> P : Nat) : ℝ) / d - (τ * e / d * M - 11 / d) = (((t * X) >>> P : Nat) - τ * e * M + 11) / d := by
        field_simp
        ring
      rw [this]
      exact div_nonneg (by linarith [hq.2]) hdp.le
    have : (11 : ℝ) / d ≤ 11 / 6 := div_le_div_of_nonneg_left (by norm_num) (by norm_num) hd'
    linarith

/-- The first six terms bound the series. -/
theorem sinTail_six {P X x t1 t2 t3 t4 t5 t6 : Nat} (hX : X ≤ 3 * 2 ^ P) (h1 : t1 = (x * X) >>> P / 6)
    (h2 : t2 = (t1 * X) >>> P / 20) (h3 : t3 = (t2 * X) >>> P / 42) (h4 : t4 = (t3 * X) >>> P / 72)
    (h5 : t5 = (t4 * X) >>> P / 110) (h6 : t6 = (t5 * X) >>> P / 156) :
    sinTail P X 64 1 x + t1 + t3 + t5 ≤ x + t2 + t4 + t6 := by
  have dec (t d : Nat) (hd : 3 ≤ d) : (t * X) >>> P / d ≤ t := by
    rw [Nat.shiftRight_eq_div_pow]
    have : t * X / 2 ^ P ≤ t * 3 := Nat.div_le_of_le_mul (by nlinarith [Nat.mul_le_mul_left t hX])
    exact Nat.div_le_of_le_mul (by nlinarith)
  have d1 := dec x 6 (by norm_num)
  have d2 := dec t1 20 (by norm_num)
  have d3 := dec t2 42 (by norm_num)
  have d4 := dec t3 72 (by norm_num)
  have d5 := dec t4 110 (by norm_num)
  have d6 := dec t5 156 (by norm_num)
  rw [← h1] at d1
  rw [← h2] at d2
  rw [← h3] at d3
  rw [← h4] at d4
  rw [← h5] at d5
  rw [← h6] at d6
  have e1 := sinTail_succ P X 63 1 x
  have e2 := sinTail_succ P X 62 2 t1
  have e3 := sinTail_succ P X 61 3 t2
  have e4 := sinTail_succ P X 60 4 t3
  have e5 := sinTail_succ P X 59 5 t4
  have e6 := sinTail_succ P X 58 6 t5
  norm_num only at e1 e2 e3 e4 e5 e6
  rw [← h1] at e1
  rw [← h2] at e2
  rw [← h3] at e3
  rw [← h4] at e4
  rw [← h5] at e5
  rw [← h6] at e6
  have := sinTail_le P X 58 7 t6
  omega

/-- A first-quarter sine is at most 1 + 2^-26, but for the truncations. -/
theorem sinQuarter_le {P N j : Nat} (hpi : pi P * 8388608 ≤ 2 * 13176795 * 2 ^ P) (hj : 4 * j ≤ N) :
    67108864 * sinQuarter P N j ≤ 67108865 * 2 ^ P + 67108864 * 9 := by
  unfold sinQuarter
  simp only
  set x := 2 * pi P * j / N with hx
  set X := (x * x) >>> P with hX
  have hMp : (0 : ℝ) < 2 ^ P := by positivity
  have hxle : x * 8388608 ≤ 13176795 * 2 ^ P := by
    rcases Nat.eq_zero_or_pos N with rfl | hN
    · simp [hx]
    · have h1 : x * N ≤ 2 * pi P * j := Nat.div_mul_le_self _ _
      have h2 : 2 * (x * N) ≤ pi P * N := by nlinarith
      have h3 : 2 * x ≤ pi P := Nat.le_of_mul_le_mul_right (by linarith) hN
      linarith
  obtain ⟨ξ, hξ⟩ : ∃ ξ : ℝ, (x : ℝ) = ξ * 2 ^ P := ⟨x / 2 ^ P, by field_simp⟩
  have hξ0 : 0 ≤ ξ := by
    have : (0 : ℝ) ≤ x := by positivity
    rw [hξ] at this
    exact nonneg_of_mul_nonneg_left this hMp
  have hξ1 : ξ ≤ 13176795 / 8388608 := by
    have : (x : ℝ) * 8388608 ≤ 13176795 * 2 ^ P := by exact_mod_cast hxle
    rw [hξ] at this
    rw [le_div_iff₀ (by norm_num)]
    exact le_of_mul_le_mul_right (by linarith) hMp
  have he : ξ ^ 2 ≤ 2.4675 := by nlinarith
  have hX1 : (X : ℝ) ≤ ξ ^ 2 * 2 ^ P ∧ ξ ^ 2 * 2 ^ P - 1 ≤ X := by
    rw [hX, Nat.shiftRight_eq_div_pow]
    have a := Nat.div_mul_le_self (x * x) (2 ^ P)
    have b := Nat.lt_div_mul_add (a := x * x) (b := 2 ^ P) (by positivity)
    have a' : ((x * x / 2 ^ P : Nat) : ℝ) * 2 ^ P ≤ x * x := by exact_mod_cast a
    have b' : (x : ℝ) * x < (x * x / 2 ^ P : Nat) * 2 ^ P + 2 ^ P := by exact_mod_cast b
    rw [hξ] at a' b'
    constructor
    · exact le_of_mul_le_mul_right (by nlinarith) hMp
    · exact le_of_mul_le_mul_right (by nlinarith) hMp
  have step {t d : Nat} {τ : ℝ} (hd : 6 ≤ d) (hτ0 : 0 ≤ τ) (hτ : τ ≤ 1.6) (h : (t : ℝ) ≤ τ * 2 ^ P ∧ τ * 2 ^ P - 3 ≤ t) :
      (((t * X) >>> P / d : Nat) : ℝ) ≤ τ * ξ ^ 2 / d * 2 ^ P ∧ τ * ξ ^ 2 / d * 2 ^ P - 3 ≤ ((t * X) >>> P / d : Nat) :=
    sinTerm_step hd hτ0 hτ (by positivity) (by linarith) h.1 h.2 hX1.1 hX1.2
  have small (τ : ℝ) (d : ℝ) (h0 : 0 ≤ τ) (h : τ ≤ 1.6) (hd : 6 ≤ d) : τ * ξ ^ 2 / d ≤ 1.6 := by
    rw [div_le_iff₀ (by linarith)]
    nlinarith
  have b0 : ξ ≤ 1.6 := by linarith
  have n0 : 0 ≤ ξ := hξ0
  have poly := sine_poly_le hξ0 hξ1
  obtain ⟨t1, h1⟩ : ∃ t, t = (x * X) >>> P / 6 := ⟨_, rfl⟩
  obtain ⟨t2, h2⟩ : ∃ t, t = (t1 * X) >>> P / 20 := ⟨_, rfl⟩
  obtain ⟨t3, h3⟩ : ∃ t, t = (t2 * X) >>> P / 42 := ⟨_, rfl⟩
  obtain ⟨t4, h4⟩ : ∃ t, t = (t3 * X) >>> P / 72 := ⟨_, rfl⟩
  obtain ⟨t5, h5⟩ : ∃ t, t = (t4 * X) >>> P / 110 := ⟨_, rfl⟩
  obtain ⟨t6, h6⟩ : ∃ t, t = (t5 * X) >>> P / 156 := ⟨_, rfl⟩
  have s1 := step (d := 6) (by norm_num) n0 b0 ⟨hξ.le, by linarith⟩
  have n1 : 0 ≤ ξ * ξ ^ 2 / (6 : Nat) := by positivity
  have b1 := small ξ (6 : Nat) n0 b0 (by norm_num)
  have s2 := step (d := 20) (by norm_num) n1 b1 s1
  have n2 := div_nonneg (mul_nonneg n1 (sq_nonneg ξ)) (Nat.cast_nonneg (α := ℝ) 20)
  have b2 := small _ (20 : Nat) n1 b1 (by norm_num)
  rw [← h1] at s1 s2
  have s3 := step (d := 42) (by norm_num) n2 b2 s2
  have n3 := div_nonneg (mul_nonneg n2 (sq_nonneg ξ)) (Nat.cast_nonneg (α := ℝ) 42)
  have b3 := small _ (42 : Nat) n2 b2 (by norm_num)
  rw [← h2] at s2 s3
  have s4 := step (d := 72) (by norm_num) n3 b3 s3
  have n4 := div_nonneg (mul_nonneg n3 (sq_nonneg ξ)) (Nat.cast_nonneg (α := ℝ) 72)
  have b4 := small _ (72 : Nat) n3 b3 (by norm_num)
  rw [← h3] at s3 s4
  have s5 := step (d := 110) (by norm_num) n4 b4 s4
  have n5 := div_nonneg (mul_nonneg n4 (sq_nonneg ξ)) (Nat.cast_nonneg (α := ℝ) 110)
  have b5 := small _ (110 : Nat) n4 b4 (by norm_num)
  rw [← h4] at s4 s5
  have s6 := step (d := 156) (by norm_num) n5 b5 s5
  rw [← h5] at s5 s6
  rw [← h6] at s6
  have hX3 : X ≤ 3 * 2 ^ P := by
    have : (X : ℝ) ≤ (3 * 2 ^ P : Nat) := by push_cast; nlinarith
    exact_mod_cast this
  have hreal : (sinTail P X 64 1 x : ℝ) + t1 + t3 + t5 ≤ x + t2 + t4 + t6 := by
    exact_mod_cast sinTail_six hX3 h1 h2 h3 h4 h5 h6
  have hfin : (67108864 : ℝ) * sinTail P X 64 1 x ≤ 67108865 * 2 ^ P + 67108864 * 9 := by
    rw [hξ] at hreal
    push_cast at s1 s2 s3 s4 s5 s6
    have := mul_le_mul_of_nonneg_right poly hMp.le
    have q1 := s1.2
    have q2 := s2.1
    have q3 := s3.2
    have q4 := s4.1
    have q5 := s5.2
    have q6 := s6.1
    ring_nf at this q1 q2 q3 q4 q5 q6 hreal ⊢
    linarith
  exact_mod_cast hfin

/-! ### The table -/

theorem pi_le {P : Nat} (h : P = 256 ∨ P = 512) : pi P * 8388608 ≤ 2 * 13176795 * 2 ^ P := by
  rcases h with rfl | rfl <;> decide +kernel

theorem sinTurn_le {P : Nat} (h : P = 256 ∨ P = 512) (N i : Nat) :
    67108864 * (sinTurn P N i).natAbs ≤ 67108865 * 2 ^ P + 67108864 * 9 := by
  unfold sinTurn
  simp only
  split
  · exact sinQuarter_le (pi_le h) (by omega)
  · split
    · exact sinQuarter_le (pi_le h) (by omega)
    · split
      · rw [Int.natAbs_neg]
        exact sinQuarter_le (pi_le h) (by omega)
      · rw [Int.natAbs_neg]
        exact sinQuarter_le (pi_le h) (by omega)

/-- Over the first half turn the sine is not negative. -/
theorem sinTurn_nonneg (P : Nat) {N i : Nat} (h : i % N ≤ 2 * (N / 4)) : 0 ≤ sinTurn P N i := by
  unfold sinTurn
  simp only [h, if_true]
  split <;> positivity

open F32 Machine

/-- A value that is at most 1 + 2^-26, but for the truncations, rounds to at most 1. -/
theorem roundAt_le_one {P m : Nat} (h : m * 2 ^ 24 ≤ (2 ^ 24 + 1) * 2 ^ P) :
    roundAt P 0 m ≤ 0x3F800000 := by
  have hone : roundMag (2 ^ 149 + 2 ^ 125) 1 = 0x3F800000 := by decide +kernel
  unfold roundAt
  simp only [le_refl, if_true, Int.toNat_zero, Nat.add_zero, Nat.shiftLeft_eq, one_mul]
  rw [← hone]
  refine roundMag_mono (by positivity) Nat.one_pos ?_
  have : (2 ^ 149 + 2 ^ 125) * 2 ^ P = (2 ^ 24 + 1) * 2 ^ P * 2 ^ 125 := by ring
  rw [mul_one, this]
  calc m * 2 ^ 149 = m * 2 ^ 24 * 2 ^ 125 := by ring
    _ ≤ _ := Nat.mul_le_mul_right _ h

theorem ofMag_bipolar (s : Bool) {m : Nat} (h : m ≤ 0x3F800000) : inRange Const.minusOne one (ofMag s m) = true := by
  have hc : m ≤ 0x7F800000 := by omega
  have hm : mag (ofMag s m) ≤ mag one := mag_le_of_pattern (by rw [ofMag_mod s hc]; exact h)
  have h1 : mag one = 2 ^ 149 := by decide
  have hn := natAbs_toInt (ofMag s m)
  rw [bipolar_iff]
  refine ⟨isNaN_ofMag s hc, ?_, ?_⟩ <;> omega

/-- RN32 of a value whose approximations are at most 1 + 2^-26 in magnitude lies in [−1, 1], and in [0, 1] if they are not
negative. -/
theorem rn32_bipolar {a : Nat → Int}
    (h : ∀ P, P = 256 ∨ P = 512 → 67108864 * (a P).natAbs ≤ 67108865 * 2 ^ P + 67108864 * 9) :
    inRange Const.minusOne one (rn32 a) = true ∧
      ((∀ P, P = 256 ∨ P = 512 → 0 ≤ a P) → inRange posZero one (rn32 a) = true) := by
  have h1 := h 256 (.inl rfl)
  have h2 := h 512 (.inr rfl)
  have key : ∃ s m, rn32 a = ofMag s m ∧ m ≤ 0x3F800000 ∧ (s = decide (a 256 < 0) ∨ s = decide (a 512 < 0)) := by
    unfold rn32 rn32Scaled
    simp only
    split
    · exact ⟨_, _, rfl, roundAt_le_one (by omega), .inl rfl⟩
    · exact ⟨_, _, rfl, roundAt_le_one (by omega), .inr rfl⟩
  obtain ⟨s, m, hr, hm, hs⟩ := key
  rw [hr]
  have hb := ofMag_bipolar s hm
  refine ⟨hb, fun h0 => ?_⟩
  have hsf : s = false := by
    have p1 := h0 256 (.inl rfl)
    have p2 := h0 512 (.inr rfl)
    rcases hs with rfl | rfl <;> simp <;> assumption
  obtain ⟨hn, -, hle⟩ := (bipolar_iff _).1 hb
  refine (unit_iff _).2 ⟨hn, ?_, hle⟩
  exact (toInt_sign _).2 (by rw [neg?_ofMag s (by omega), hsf])

end Sys2Proof.Fix

namespace Sys2Proof.FastMath

open F32 Machine

/-- Every entry of the sine table lies in [−1, 1]. -/
theorem sinTab_bipolar (tsin i : Nat) : inRange Const.minusOne one (sinTab tsin i) = true := by
  unfold sinTab
  split
  · decide
  · exact (Fix.rn32_bipolar fun P hP => Fix.sinTurn_le hP tsin i).1

/-- Over the first half turn, both ends among it, the entries lie in [0, 1]. -/
theorem sinTab_unit {tsin i : Nat} (h4 : 4 ∣ tsin) (h : i ≤ tsin / 2) : inRange posZero one (sinTab tsin i) = true := by
  unfold sinTab
  split
  · decide
  · refine (Fix.rn32_bipolar fun P hP => Fix.sinTurn_le hP tsin i).2 fun P _ => Fix.sinTurn_nonneg P ?_
    have : i % tsin ≤ i := Nat.mod_le _ _
    omega

/-! ### The interpolated read -/

/-- A position less its whole part is in [0, 1]. -/
theorem fraction_unit {pos : F32} (hf : isFinite pos = true) (h0 : 0 ≤ toInt pos) (h : toInt pos < 2 ^ 24 * 2 ^ 149) :
    inRange posZero one (sub pos (float (floor pos))) = true := by
  have hd := Int.mul_ediv_add_emod (toInt pos) (2 ^ 149)
  have hm0 := Int.emod_nonneg (toInt pos) (show (2 ^ 149 : Int) ≠ 0 by norm_num)
  have hm1 := Int.emod_lt_of_pos (toInt pos) (show (0 : Int) < 2 ^ 149 by norm_num)
  have hq0 : 0 ≤ floor pos := Int.ediv_nonneg h0 (by norm_num)
  have hq1 : floor pos < 2 ^ 24 := Int.ediv_lt_of_lt_mul (by norm_num) h
  obtain ⟨n, hn⟩ := Int.eq_ofNat_of_zero_le hq0
  have hv : toInt (float (floor pos)) = floor pos * 2 ^ 149 := by
    rw [hn]
    exact toInt_float (by omega)
  have hfin : isFinite (float (floor pos)) = true := by
    refine finite_of_inRange (lo := posZero) (hi := 0x4B800000#32) (by decide) (by decide)
      (float_between (by decide) (by decide) ?_ ?_)
    · rw [toInt_posZero]; positivity
    · have : toInt 0x4B800000#32 = 2 ^ 24 * 2 ^ 149 := by decide
      rw [this]
      exact Int.mul_le_mul_of_nonneg_right hq1.le (by norm_num)
  have : floor pos = toInt pos / 2 ^ 149 := rfl
  refine sub_between hf hfin (by decide) (by decide) ?_ ?_
  · rw [toInt_posZero, hv, this]; omega
  · rw [toInt_one, hv, this]; omega

theorem mul_comm' (a b : F32) : mul a b = mul b a := by
  unfold mul
  rw [Nat.mul_comm (mag a), show (neg? a != neg? b) = (neg? b != neg? a) by cases neg? a <;> cases neg? b <;> rfl,
    Bool.or_comm (isNaN a), Bool.or_comm (isInf a), Bool.or_comm (mag a == 0)]

/-- The sine at a position of the table lies in [−1, 1] (R207). -/
theorem sinPos_bipolar {tsin : Nat} {pos : F32} (hf : isFinite pos = true) (h0 : 0 ≤ toInt pos)
    (h : toInt pos < 2 ^ 24 * 2 ^ 149) : inRange Const.minusOne one (sinPos tsin pos) = true := by
  unfold sinPos lerp
  simp only
  rw [mul_comm']
  exact interpolate_bipolar (sinTab_bipolar _ _) (sinTab_bipolar _ _) (fraction_unit hf h0 h)

/-- Over the first half turn it lies in [0, 1]. -/
theorem sinPos_unit {tsin : Nat} {pos : F32} (h4 : 4 ∣ tsin) (hp : tsin ≤ 2 ^ 16) (hf : isFinite pos = true)
    (h0 : 0 ≤ toInt pos) (h : 2 * toInt pos < tsin * 2 ^ 149) : inRange posZero one (sinPos tsin pos) = true := by
  have hlt : toInt pos < 2 ^ 24 * 2 ^ 149 := by
    have : (tsin : Int) ≤ 2 ^ 16 := by exact_mod_cast hp
    nlinarith
  have hq0 : 0 ≤ floor pos := Int.ediv_nonneg h0 (by norm_num)
  have hq1 : 2 * floor pos < tsin := by
    have := Int.mul_ediv_self_le (x := toInt pos) (k := 2 ^ 149) (by norm_num)
    have hd : floor pos = toInt pos / 2 ^ 149 := rfl
    rw [← hd] at this
    nlinarith
  obtain ⟨n, hn⟩ := Int.eq_ofNat_of_zero_le hq0
  have idx (m : Nat) (hm : m ≤ tsin / 2) : ((m : Int) % tsin).toNat ≤ tsin / 2 := by
    have : ((m : Int) % tsin).toNat = m % tsin := by
      rw [← Int.natCast_mod, Int.toNat_natCast]
    rw [this]
    exact (Nat.mod_le _ _).trans hm
  unfold sinPos lerp
  simp only
  rw [mul_comm']
  refine interpolate_unit (sinTab_unit h4 ?_) (sinTab_unit h4 ?_) (fraction_unit hf h0 hlt)
  · rw [hn]
    exact idx n (by omega)
  · rw [hn]
    exact_mod_cast idx (n + 1) (by omega)

end Sys2Proof.FastMath
end

