-- ==== Sys2Proof/Laws/Coefficients.lean ====
section
/-! SUPPORT. Every filter coefficient is finite for every legal parameter set (42_filter.md R313): the angle stays in the first
half turn, so alpha ≥ 0, and the divisor a0 is at least 1/2. -/

namespace Sys2Proof.Machine

open F32

/-! ### From the parameters to the sine and the cosine -/

/-- The legal sizes of the sine table. -/
theorem tsin_cases {c : Config} (h : c.legal = true) : ∃ k, k ≤ 10 ∧ c.tsin = 64 * 2 ^ k := by
  unfold Config.legal isPowerOfTwo at h
  simp only [Bool.and_eq_true, decide_eq_true_eq, beq_iff_eq] at h
  obtain ⟨⟨⟨⟨-, ⟨h1, h2⟩, h3⟩, -⟩, -⟩, -⟩ := h
  have hl : 6 ≤ Nat.log2 c.tsin := (Nat.le_log2 (by omega)).2 (by omega)
  have hu : Nat.log2 c.tsin ≤ 16 := by
    have : c.tsin < 2 ^ 17 := by omega
    have := (Nat.log2_lt (by omega)).2 this
    omega
  refine ⟨Nat.log2 c.tsin - 6, by omega, ?_⟩
  rw [show 64 = 2 ^ 6 by norm_num, ← pow_add, show 6 + (Nat.log2 c.tsin - 6) = Nat.log2 c.tsin by omega, h3]

/-- KSIN is TSIN/(2π) but for its rounding. -/
theorem ksin_value (k : Nat) (hk : k ≤ 10) :
    isFinite (FastMath.ksin (64 * 2 ^ k)) = true ∧ toInt (FastMath.ksin (64 * 2 ^ k)) = 10680707 * 2 ^ (k + 129) := by
  interval_cases k <;> decide +kernel

/-- fc ⊘ fs is between 0 and 0.4951. -/
theorem normalised_between {fs fc : F32} (hfs : inRange Const.fsMin Const.fsMax fs = true)
    (hfc : inRange Const.cutMin (F32.min Const.cutMax (mul Const.nyqFrac fs)) fc = true) :
    inRange posZero 0x3EFD8000#32 (div fc fs) = true := by
  obtain ⟨sn, s0, s1⟩ := (inRange_iff (by decide) (by decide)).1 hfs
  have sf : isFinite fs = true := finite_of_inRange (by decide) (by decide) hfs
  have t0 : toInt Const.fsMin = 8000 * 2 ^ 149 := by decide
  have t1 : toInt Const.fsMax = 192000 * 2 ^ 149 := by decide
  have t2 : toInt Const.cutMin = 20 * 2 ^ 149 := by decide
  have t3 : toInt 0x3EFD8000#32 = 507 * 2 ^ 139 := by decide
  have t4 : mag Const.nyqFrac = 16441672 * 2 ^ 124 := by decide
  have t5 : toInt Const.cutMax = 20000 * 2 ^ 149 := by decide
  have hneg : neg? fs = false := by
    by_contra hc
    have := (toInt_sign fs).1 (by simpa using hc)
    omega
  have hm : (mag fs : Int) = toInt fs := by simp [toInt, hneg]
  have hq : mul Const.nyqFrac fs = ofMag false (roundMag (16441672 * 2 ^ 124 * mag fs) (2 ^ 149)) := by
    obtain ⟨-, si⟩ := (isFinite_iff fs).1 sf
    unfold mul
    simp only [sn, si, hneg, t4, show isNaN Const.nyqFrac = false by decide, show isInf Const.nyqFrac = false by decide,
      show neg? Const.nyqFrac = false by decide, Bool.or_self, Bool.false_eq_true, if_false, bne_self_eq_false]
  have hrel := roundMag_relative false (n := 16441672 * 2 ^ 124 * mag fs) (d := 2 ^ 149) (by positivity)
    (by rw [Nat.div_lt_iff_lt_mul (by positivity)]; omega) (by omega)
  rw [← hq] at hrel
  have hqn : isNaN (mul Const.nyqFrac fs) = false := by rw [hq]; exact isNaN_ofMag _ (roundMag_cap _ _)
  have hqs : toInt (mul Const.nyqFrac fs) = mag (mul Const.nyqFrac fs) := by
    have : neg? (mul Const.nyqFrac fs) = false := by rw [hq]; exact neg?_ofMag _ (roundMag_cap _ _)
    simp [toInt, this]
  have hmin : isNaN (F32.min Const.cutMax (mul Const.nyqFrac fs)) = false ∧
      toInt (F32.min Const.cutMax (mul Const.nyqFrac fs)) ≤ toInt (mul Const.nyqFrac fs) ∧
      toInt (F32.min Const.cutMax (mul Const.nyqFrac fs)) ≤ toInt Const.cutMax := by
    unfold F32.min lt
    simp only [hqn, show isNaN Const.cutMax = false by decide, Bool.not_false, Bool.true_and, decide_eq_true_eq]
    split
    · exact ⟨hqn, le_rfl, by omega⟩
    · exact ⟨by decide, by omega, le_rfl⟩
  obtain ⟨cn, c0, c1⟩ := (inRange_iff (by decide) hmin.1).1 hfc
  have cf : isFinite fc = true :=
    finite_of_inRange (lo := Const.cutMin) (hi := Const.cutMax) (by decide) (by decide)
      ((inRange_iff (by decide) (by decide)).2 ⟨cn, c0, c1.trans hmin.2.2⟩)
  refine div_between cf sf (by omega) (by decide) (by decide) ?_ ?_
  · rw [toInt_posZero, zero_mul]
    omega
  · rw [t3]
    have := c1.trans hmin.2.1
    generalize mag (mul Const.nyqFrac fs) = a at *
    omega

/-- The angle's sine is in [0, 1] and its cosine in [−1, 1] (R302). -/
theorem sine_cosine {c : Config} (hc : c.legal = true) {nf : F32} (h : inRange posZero 0x3EFD8000#32 nf = true) :
    inRange posZero one (FastMath.fsin c.tsin (mul FastMath.twoPi nf)) = true ∧
      inRange Const.minusOne one (FastMath.fcos c.tsin (mul FastMath.twoPi nf)) = true := by
  obtain ⟨k, hk, hts⟩ := tsin_cases hc
  have nff : isFinite nf = true := finite_of_inRange (by decide) (by decide) h
  obtain ⟨-, n0, n1⟩ := (inRange_iff (by decide) (by decide)).1 h
  have t3 : toInt 0x3EFD8000#32 = 507 * 2 ^ 139 := by decide
  have tp : toInt FastMath.twoPi = 13176795 * 2 ^ 128 := by decide
  have th : toInt FastMath.halfPi = 13176795 * 2 ^ 126 := by decide
  have tw : toInt 0x40480000#32 = 25 * 2 ^ 146 := by decide
  have t5 : toInt 0x40A00000#32 = 5 * 2 ^ 149 := by decide
  rw [toInt_posZero] at n0
  rw [t3] at n1
  -- the angle
  have hw : inRange posZero 0x40480000#32 (mul FastMath.twoPi nf) = true := by
    refine mul_between (by decide) nff (by decide) (by decide) ?_ ?_
    · rw [toInt_posZero, tp, zero_mul]; positivity
    · rw [tw, tp]; push_cast; omega
  generalize mul FastMath.twoPi nf = w at *
  have wf : isFinite w = true := finite_of_inRange (by decide) (by decide) hw
  obtain ⟨-, w0, w1⟩ := (inRange_iff (by decide) (by decide)).1 hw
  rw [toInt_posZero] at w0
  rw [tw] at w1
  -- an angle below a turn is its own remainder
  have position (θ : F32) (hi : F32) (hθ : inRange posZero hi θ = true) (hif : isFinite hi = true)
      (hi5 : toInt hi ≤ 5 * 2 ^ 149) (top : F32) (topf : isFinite top = true)
      (htop : toInt hi * (10680707 * 2 ^ (k + 129)) ≤ toInt top * 2 ^ 149) :
      ∃ pos, FastMath.fsin c.tsin θ = FastMath.sinPos c.tsin pos ∧ inRange posZero top pos = true := by
    have hin := ((isFinite_iff hi).1 hif).1
    have htn := ((isFinite_iff top).1 topf).1
    obtain ⟨-, θ0, θ1⟩ := (inRange_iff (by decide) hin).1 hθ
    have θf : isFinite θ = true := finite_of_inRange (by decide) hif hθ
    have θn := ((isFinite_iff θ).1 θf).1
    rw [toInt_posZero] at θ0
    have t4 : toInt 0x3F700000#32 = 15 * 2 ^ 145 := by decide
    have hq : inRange posZero 0x3F700000#32 (div θ FastMath.twoPi) = true := by
      refine div_between θf (by decide) (by decide) (by decide) (by decide) ?_ ?_
      · rw [toInt_posZero, zero_mul]; positivity
      · rw [t4, tp]; omega
    have hfl : floor (div θ FastMath.twoPi) = 0 := by
      obtain ⟨-, q0, q1⟩ := (inRange_iff (by decide) (by decide)).1 hq
      rw [toInt_posZero] at q0
      rw [t4] at q1
      unfold floor
      exact Int.ediv_eq_zero_of_lt q0 (by omega)
    have htw : inRange θ θ (sub θ (mul FastMath.twoPi (float 0))) = true := by
      have z : mul FastMath.twoPi (float 0) = posZero := by decide
      rw [z]
      refine sub_between θf (by decide) θn θn ?_ ?_ <;> rw [toInt_posZero] <;> omega
    obtain ⟨-, e0, e1⟩ := (inRange_iff θn θn).1 htw
    have twf : isFinite (sub θ (mul FastMath.twoPi (float 0))) = true := finite_of_inRange θf θf htw
    obtain ⟨kf, kv⟩ := ksin_value k hk
    refine ⟨_, by unfold FastMath.fsin; rw [hfl], ?_⟩
    rw [hts]
    refine mul_between twf kf (by decide) htn ?_ ?_
    · rw [toInt_posZero, zero_mul, kv]
      exact mul_nonneg (by omega) (by positivity)
    · rw [kv]
      push_cast
      exact le_trans (Int.mul_le_mul_of_nonneg_right (by omega) (by positivity)) htop
  have h4 : 4 ∣ c.tsin := by rw [hts]; exact ⟨16 * 2 ^ k, by ring⟩
  have h16 : c.tsin ≤ 2 ^ 16 := by
    rw [hts]
    calc 64 * 2 ^ k ≤ 64 * 2 ^ 10 := Nat.mul_le_mul_left _ (Nat.pow_le_pow_right (by norm_num) hk)
      _ = 2 ^ 16 := by norm_num
  constructor
  · -- 0.498 of the table
    have top : ∃ top : F32, isFinite top = true ∧ toInt top = 255 * 2 ^ (k + 6 + 140) := by
      refine ⟨mul 0x3EFF0000#32 (float ((64 * 2 ^ k : Nat) : Int)), ?_⟩
      interval_cases k <;> decide +kernel
    obtain ⟨top, topf, topv⟩ := top
    obtain ⟨pos, he, hp⟩ := position w 0x40480000#32 hw (by decide) (by rw [tw]; omega) top topf (by
      rw [tw, topv]
      have : (2 : Int) ^ (k + 129) = 2 ^ k * 2 ^ 129 := pow_add _ _ _
      have e2 : (2 : Int) ^ (k + 6 + 140) = 2 ^ k * 2 ^ 146 := by rw [show k + 6 + 140 = k + 146 by omega, pow_add]
      rw [this, e2]
      have : (0 : Int) < 2 ^ k := by positivity
      generalize (2 : Int) ^ k = m at *
      omega)
    rw [he]
    have hn := ((isFinite_iff top).1 topf).1
    obtain ⟨-, p0, p1⟩ := (inRange_iff (by decide) hn).1 hp
    rw [toInt_posZero] at p0
    refine FastMath.sinPos_unit h4 h16 (finite_of_inRange (by decide) topf hp) p0 ?_
    rw [topv] at p1
    rw [hts]
    push_cast
    have e2 : (2 : Int) ^ (k + 6 + 140) = 2 ^ k * 2 ^ 146 := by rw [show k + 6 + 140 = k + 146 by omega, pow_add]
    rw [e2] at p1
    have : (0 : Int) < 2 ^ k := by positivity
    generalize (2 : Int) ^ k = m at *
    omega
  · unfold FastMath.fcos
    have hs : inRange posZero 0x40A00000#32 (add w FastMath.halfPi) = true := by
      refine add_between wf (by decide) (by decide) (by decide) ?_ ?_
      · rw [toInt_posZero, th]; positivity
      · rw [t5, th]; omega
    obtain ⟨pos, he, hp⟩ := position _ 0x40A00000#32 hs (by decide) (by rw [t5]) 0x4B000000#32 (by decide) (by
      have t6 : toInt 0x4B000000#32 = 2 ^ 23 * 2 ^ 149 := by decide
      rw [t5, t6]
      have : (2 : Int) ^ (k + 129) ≤ 2 ^ 139 := pow_le_pow_right₀ (by norm_num) (by omega)
      generalize (2 : Int) ^ (k + 129) = m at *
      omega)
    rw [he]
    obtain ⟨-, p0, p1⟩ := (inRange_iff (by decide) (by decide)).1 hp
    have t6 : toInt 0x4B000000#32 = 2 ^ 23 * 2 ^ 149 := by decide
    rw [toInt_posZero] at p0
    rw [t6] at p1
    exact FastMath.sinPos_bipolar (finite_of_inRange (by decide) (by decide) hp) p0 (by omega)

/-! ### From the sine and the cosine to the coefficients -/

/-- |x| ≤ h, x finite. -/
abbrev Within (h : ℚ) (x : F32) : Prop := Bounded (-h) h x

theorem mul_within {a b : F32} {h h' : ℚ} (n : Nat) (hn : n < 2 ^ 24) (ha : Within h a) (hb : Within h' b)
    (hle : h * h' ≤ n) : Within n (mul a b) := by
  have h1 : |val a| ≤ h := abs_le.2 ⟨ha.lower, ha.upper⟩
  have h2 : |val b| ≤ h' := abs_le.2 ⟨hb.lower, hb.upper⟩
  have hp := (abs_mul (val a) (val b)).le.trans ((mul_le_mul h1 h2 (abs_nonneg _) ((abs_nonneg _).trans h1)).trans hle)
  exact mul_bounded ha.finite hb.finite (representable_nat hn).neg (representable_nat hn) (abs_le.1 hp).1 (abs_le.1 hp).2

theorem add_within {a b : F32} {h h' : ℚ} (n : Nat) (hn : n < 2 ^ 24) (ha : Within h a) (hb : Within h' b)
    (hle : h + h' ≤ n) : Within n (add a b) :=
  add_bounded ha.finite hb.finite (representable_nat hn).neg (representable_nat hn) (by linarith [ha.lower, hb.lower])
    (by linarith [ha.upper, hb.upper])

theorem sub_within {a b : F32} {h h' : ℚ} (n : Nat) (hn : n < 2 ^ 24) (ha : Within h a) (hb : Within h' b)
    (hle : h + h' ≤ n) : Within n (sub a b) :=
  sub_bounded ha.finite hb.finite (representable_nat hn).neg (representable_nat hn) (by linarith [ha.lower, hb.upper])
    (by linarith [ha.upper, hb.lower])

/-- What the normalisation needs of the six values: a0 at least 1/4, none large. -/
structure RawBounded (k : Coefs) : Prop where
  b0 : Within 256 k.b0
  b1 : Within 256 k.b1
  b2 : Within 256 k.b2
  a0 : Bounded (1 / 4) 256 k.a0
  a1 : Within 256 k.a1
  a2 : Within 256 k.a2

theorem normCoefs_finite {k : Coefs} (h : RawBounded k) :
    isFinite (normCoefs k).b0 = true ∧ isFinite (normCoefs k).b1 = true ∧ isFinite (normCoefs k).b2 = true ∧
      isFinite (normCoefs k).a1 = true ∧ isFinite (normCoefs k).a2 = true := by
  have go {x : F32} (hx : Within 256 x) : isFinite (div x k.a0) = true := by
    have hp : 0 < val k.a0 := by linarith [h.a0.lower]
    exact (div_bounded (l := -1024) (h := 1024) hx.finite h.a0.finite hp
      (representable_int (-1024) (by norm_num) (by norm_num)) (representable_int 1024 (by norm_num) (by norm_num))
      (by linarith [hx.lower, h.a0.lower]) (by linarith [hx.upper, h.a0.lower])).finite
  exact ⟨go h.b0, go h.b1, go h.b2, go h.a1, go h.a2⟩

theorem representable_quarter : Representable (1 / 4) :=
  ⟨0x3E800000#32, by decide, by unfold val; rw [show toInt 0x3E800000#32 = 2 ^ 147 by decide]; norm_num⟩

theorem one_within : Within 1 one := ⟨by decide, by rw [val_one]; norm_num, by rw [val_one]⟩
theorem two_within : Within 2 two := ⟨by decide, by rw [val_two]; norm_num, by rw [val_two]⟩
theorem negTwo_within : Within 2 negTwo := ⟨by decide, by rw [val_negTwo], by rw [val_negTwo]; norm_num⟩
theorem half_within : Within 1 Const.half := ⟨by decide, by rw [val_half]; norm_num, by rw [val_half]; norm_num⟩

/-- 2 ⊗ y, y in [0, h]. -/
theorem two_mul_bounded {y : F32} {h : ℚ} (n : Nat) (hn : n < 2 ^ 24) (hy : Bounded 0 h y) (hle : 2 * h ≤ n) :
    Bounded 0 n (mul two y) :=
  mul_bounded (by decide) hy.finite (representable_int 0 (by norm_num) (by norm_num)) (representable_nat hn)
    (by rw [val_two]; linarith [hy.lower]) (by rw [val_two]; linarith [hy.upper])

/-- A shelf's A ⊕ 1 and A ⊖ 1: bounds p ≤ A ⊕ 1 and |A ⊖ 1| ≤ m with p − m ≥ 1/4. -/
theorem shelf_terms {A : F32} (hA : Bounded (6 / 25) (33 / 8) A) :
    ∃ p m : ℚ, 1 / 4 ≤ p - m ∧ m ≤ 4 ∧ Bounded p 6 (add A one) ∧ Within m (sub A one) := by
  have r (n : Nat) (hn : n < 2 ^ 24 := by norm_num) : Representable n := representable_nat hn
  have hone := val_one
  have f1 : isFinite one = true := by decide
  have go (p P m : ℚ) (l h : ℚ) (h1 : l ≤ val A) (h2 : val A ≤ h) (rp : Representable p) (rP : Representable P)
      (rm : Representable m) (e1 : p ≤ l + 1) (e2 : h + 1 ≤ P) (e3 : -m ≤ l - 1) (e4 : h - 1 ≤ m) (e5 : P ≤ 6) :
      Bounded p 6 (add A one) ∧ Within m (sub A one) :=
    ⟨(add_bounded hA.finite f1 rp rP (by linarith) (by linarith)).mono le_rfl e5,
     sub_bounded hA.finite f1 rm.neg rm (by linarith) (by linarith)⟩
  have r98 : Representable (9 / 8) :=
    ⟨0x3F900000#32, by decide, by unfold val; rw [show toInt 0x3F900000#32 = 9 * 2 ^ 146 by decide]; norm_num⟩
  have r78 : Representable (7 / 8) :=
    ⟨0x3F600000#32, by decide, by unfold val; rw [show toInt 0x3F600000#32 = 7 * 2 ^ 146 by decide]; norm_num⟩
  have r258 : Representable (25 / 8) :=
    ⟨0x40480000#32, by decide, by unfold val; rw [show toInt 0x40480000#32 = 25 * 2 ^ 146 by decide]; norm_num⟩
  have r6 : Representable 6 := by exact_mod_cast r 6
  have r4 : Representable 4 := by exact_mod_cast r 4
  have r3 : Representable 3 := by exact_mod_cast r 3
  have r2 : Representable 2 := by exact_mod_cast r 2
  have r1 : Representable 1 := by exact_mod_cast r 1
  rcases le_total (val A) 1 with h | h
  · exact ⟨9 / 8, 7 / 8, by norm_num, by norm_num,
      go _ 2 _ (6 / 25) 1 hA.lower h r98 r2 r78 (by norm_num) (by norm_num) (by norm_num) (by norm_num) (by norm_num)⟩
  rcases le_total (val A) 2 with h' | h'
  · exact ⟨2, 1, by norm_num, by norm_num,
      go _ 3 _ 1 2 h h' r2 r3 r1 (by norm_num) (by norm_num) (by norm_num) (by norm_num) (by norm_num)⟩
  rcases le_total (val A) 3 with h'' | h''
  · exact ⟨3, 2, by norm_num, by norm_num,
      go _ 4 _ 2 3 h' h'' r3 r4 r2 (by norm_num) (by norm_num) (by norm_num) (by norm_num) (by norm_num)⟩
  · exact ⟨4, 25 / 8, by norm_num, by norm_num,
      go _ 6 _ 3 (33 / 8) h'' hA.upper r4 r6 r258 (by norm_num) (by norm_num) (by norm_num) (by norm_num) (by norm_num)⟩

/-- The six values of every filter type are bounded, on alpha in [0, 8], a cosine in [−1, 1] and A in [0.24, 4.125]. -/
theorem rawCoefs_bounded (ty : FilterType) {alpha cw A : F32} (ha : Bounded 0 8 alpha) (hc : Within 1 cw)
    (hA : Bounded (6 / 25) (33 / 8) A) : RawBounded (rawCoefs ty alpha cw A) := by
  have rz : Representable 0 := representable_int 0 (by norm_num) (by norm_num)
  have r1 : Representable 1 := representable_int 1 (by norm_num) (by norm_num)
  have aw : Within 8 alpha := ha.mono (by norm_num) le_rfl
  have Aw : Within 5 A := hA.mono (by norm_num) (by norm_num)
  have w (h : ℚ) {x : F32} (hx : Within h x) (hh : h ≤ 256 := by norm_num) : Within 256 x := hx.mono (by linarith) hh
  have m2cw : Within 256 (mul negTwo cw) := w _ (mul_within 2 (by norm_num) negTwo_within hc (by norm_num))
  have onePlus (y : F32) (h : ℚ) (hy : Bounded 0 h y) (hh : h ≤ 200) : Bounded (1 / 4) 256 (add one y) :=
    (add_bounded (h := 256) one_within.finite hy.finite r1 (representable_int 256 (by norm_num) (by norm_num))
      (by rw [val_one]; linarith [hy.lower]) (by rw [val_one]; linarith [hy.upper])).mono (by norm_num) le_rfl
  have poles {b0 b1 b2 : F32} (h0 : Within 256 b0) (h1 : Within 256 b1) (h2 : Within 256 b2) :
      RawBounded { b0, b1, b2, a0 := add one alpha, a1 := mul negTwo cw, a2 := sub one alpha } :=
    ⟨h0, h1, h2, onePlus _ 8 ha (by norm_num), m2cw, w _ (sub_within 9 (by norm_num) one_within aw (by norm_num))⟩
  have t1 : Within 2 (sub one cw) := sub_within 2 (by norm_num) one_within hc (by norm_num)
  have t2 : Within 2 (add one cw) := add_within 2 (by norm_num) one_within hc (by norm_num)
  -- the terms of the shelves
  have hsqrt : Bounded 0 (5 / 2) (sqrt A) := by
    have hv0 : (0 : ℚ) < toInt A := by rw [toInt_eq]; nlinarith [hA.lower]
    have hv1 : (toInt A : ℚ) ≤ 33 * 2 ^ 146 := by rw [toInt_eq]; nlinarith [hA.upper]
    refine bounded_of_inRange (by decide) (by decide)
      (sqrt_between hA.finite (by exact_mod_cast hv0) (by exact_mod_cast hv1)) ?_ ?_
    · unfold val; rw [toInt_posZero]; norm_num
    · unfold val; rw [show toInt 0x40200000#32 = 5 * 2 ^ 148 by decide]; norm_num
  have hk : Bounded 0 40 (mul (mul two (sqrt A)) alpha) := by
    have h5 := two_mul_bounded 5 (by norm_num) hsqrt (by norm_num)
    refine mul_bounded h5.finite ha.finite rz (representable_int 40 (by norm_num) (by norm_num))
      (mul_nonneg h5.lower ha.lower) ?_
    have := mul_le_mul h5.upper ha.upper ha.lower (by norm_num)
    norm_num at this
    exact this
  have hkw : Within 40 (mul (mul two (sqrt A)) alpha) := hk.mono (by norm_num) le_rfl
  obtain ⟨p, m, hpm, hm4, hp, hm⟩ := shelf_terms hA
  have hp0 : 0 ≤ p := by
    have := hm.lower.trans hm.upper
    linarith
  have pw : Within 6 (add A one) := hp.mono (by linarith) le_rfl
  have mw : Within 4 (sub A one) := hm.mono (by linarith) hm4
  have hmc : |val (sub A one) * val cw| ≤ m := by
    rw [abs_mul]
    have h1 : |val (sub A one)| ≤ m := abs_le.2 ⟨hm.lower, hm.upper⟩
    have h2 : |val cw| ≤ 1 := abs_le.2 ⟨hc.lower, hc.upper⟩
    calc _ ≤ m * 1 := mul_le_mul h1 h2 (abs_nonneg _) ((abs_nonneg _).trans h1)
      _ = m := mul_one m
  -- Am1c is between the representable ±(A ⊖ 1)
  have ham : Within m (mul (sub A one) cw) := by
    have rep : Representable |val (sub A one)| := by
      rcases abs_choice (val (sub A one)) with h | h
      · rw [h]; exact ⟨_, hm.finite, rfl⟩
      · rw [h]; exact Representable.neg ⟨_, hm.finite, rfl⟩
    have h1 : |val (sub A one)| ≤ m := abs_le.2 ⟨hm.lower, hm.upper⟩
    have h2 : |val (sub A one) * val cw| ≤ |val (sub A one)| := by
      rw [abs_mul]
      exact mul_le_of_le_one_right (abs_nonneg _) (abs_le.2 ⟨hc.lower, hc.upper⟩)
    exact (mul_bounded hm.finite hc.finite rep.neg rep (abs_le.1 h2).1 (abs_le.1 h2).2).mono (by linarith) h1
  have r16 : Representable 16 := representable_int 16 (by norm_num) (by norm_num)
  have plus : Bounded (1 / 4) 16 (add (add A one) (mul (sub A one) cw)) :=
    add_bounded hp.finite ham.finite representable_quarter r16 (by linarith [hp.lower, ham.lower])
      (by linarith [hp.upper, ham.upper])
  have minus : Bounded (1 / 4) 16 (sub (add A one) (mul (sub A one) cw)) :=
    sub_bounded hp.finite ham.finite representable_quarter r16 (by linarith [hp.lower, ham.upper])
      (by linarith [hp.upper, ham.lower])
  have addK {y : F32} (hy : Bounded (1 / 4) 16 y) : Bounded (1 / 4) 56 (add y (mul (mul two (sqrt A)) alpha)) :=
    add_bounded hy.finite hk.finite representable_quarter (representable_int 56 (by norm_num) (by norm_num))
      (by linarith [hy.lower, hk.lower]) (by linarith [hy.upper, hk.upper])
  have subK {y : F32} (hy : Bounded (1 / 4) 16 y) : Within 56 (sub y (mul (mul two (sqrt A)) alpha)) :=
    sub_within 56 (by norm_num) (hy.mono (by norm_num) le_rfl : Within 16 y) hkw (by norm_num)
  have divisor {y : F32} (hy : Bounded (1 / 4) 16 y) :
      Bounded (1 / 4) 256 (add y (mul (mul two (sqrt A)) alpha)) := (addK hy).mono le_rfl (by norm_num)
  have timesA {y : F32} (hy : Within 56 y) : Within 256 (mul A y) := by
    have hA' : Within (33 / 8) A := hA.mono (by norm_num) le_rfl
    exact_mod_cast mul_within 256 (by norm_num) hA' hy (by norm_num)
  have pcw : Within 6 (mul (add A one) cw) := mul_within 6 (by norm_num) pw hc (by norm_num)
  have diff : Within 10 (sub (sub A one) (mul (add A one) cw)) := sub_within 10 (by norm_num) mw pcw (by norm_num)
  have sum : Within 10 (add (sub A one) (mul (add A one) cw)) := add_within 10 (by norm_num) mw pcw (by norm_num)
  have b1 {y c : F32} (hy : Within 10 y) (hc : Within 2 c) : Within 256 (mul (mul c A) y) :=
    w 100 (mul_within 100 (by norm_num) (mul_within 10 (by norm_num) hc Aw (by norm_num)) hy (by norm_num))
  have twice {y c : F32} (hy : Within 10 y) (hc : Within 2 c) : Within 256 (mul c y) :=
    w 20 (mul_within 20 (by norm_num) hc hy (by norm_num))
  have w56 {y : F32} (hy : Bounded (1 / 4) 56 y) : Within 56 y := hy.mono (by norm_num) le_rfl
  cases ty with
  | lowPass =>
    exact poles (w 2 (mul_within 2 (by norm_num) t1 half_within (by norm_num))) (w 2 t1)
      (w 2 (mul_within 2 (by norm_num) t1 half_within (by norm_num)))
  | highPass =>
    exact poles (w 2 (mul_within 2 (by norm_num) t2 half_within (by norm_num)))
      (w 2 (by simpa using neg_bounded t2)) (w 2 (mul_within 2 (by norm_num) t2 half_within (by norm_num)))
  | bandPass =>
    refine poles (w 8 aw) ⟨by decide, ?_, ?_⟩ (w 8 (by simpa using neg_bounded aw)) <;>
    · unfold val; rw [toInt_posZero]; norm_num
  | notch => exact poles (w 1 one_within) m2cw (w 1 one_within)
  | allPass =>
    exact poles (w 9 (sub_within 9 (by norm_num) one_within aw (by norm_num))) m2cw
      (w 9 (add_within 9 (by norm_num) one_within aw (by norm_num)))
  | peaking =>
    have hAa : Within 40 (mul alpha A) := mul_within 40 (by norm_num) aw Aw (by norm_num)
    have hd : Bounded 0 64 (div alpha A) :=
      div_bounded ha.finite hA.finite (by linarith [hA.lower]) rz (representable_int 64 (by norm_num) (by norm_num))
        (by rw [zero_mul]; exact ha.lower) (by linarith [ha.upper, hA.lower])
    have hdw : Within 64 (div alpha A) := hd.mono (by norm_num) le_rfl
    exact ⟨w 41 (add_within 41 (by norm_num) one_within hAa (by norm_num)), m2cw,
      w 41 (sub_within 41 (by norm_num) one_within hAa (by norm_num)), onePlus _ 64 hd (by norm_num), m2cw,
      w 65 (sub_within 65 (by norm_num) one_within hdw (by norm_num))⟩
  | lowShelf =>
    exact ⟨timesA (w56 (addK minus)), b1 diff two_within, timesA (subK minus), divisor plus, twice sum negTwo_within,
      w 56 (subK plus)⟩
  | highShelf =>
    exact ⟨timesA (w56 (addK plus)), b1 sum negTwo_within, timesA (subK plus), divisor minus, twice diff two_within,
      w 56 (subK minus)⟩

/-- Every coefficient is finite for every legal parameter set (42_filter.md R313). -/
theorem coefs_finite {c : Config} (hc : c.legal = true) {fs fc q g : F32} (ty : FilterType)
    (hfs : inRange Const.fsMin Const.fsMax fs = true)
    (hfc : inRange Const.cutMin (F32.min Const.cutMax (mul Const.nyqFrac fs)) fc = true)
    (hq : inRange Const.qMin Const.qMax q = true) (hg : inRange Const.gainMin Const.gainMax g = true) :
    let k := coefs c.tsin fs ty fc q g
    isFinite k.b0 = true ∧ isFinite k.b1 = true ∧ isFinite k.b2 = true ∧ isFinite k.a1 = true ∧ isFinite k.a2 = true := by
  obtain ⟨hs, hcw⟩ := sine_cosine hc (normalised_between hfs hfc)
  have hsb : Bounded 0 1 (FastMath.fsin c.tsin (mul FastMath.twoPi (div fc fs))) :=
    bounded_of_inRange (by decide) (by decide) hs (by unfold val; rw [toInt_posZero]; norm_num) (by rw [val_one])
  have hcb : Within 1 (FastMath.fcos c.tsin (mul FastMath.twoPi (div fc fs))) :=
    bounded_of_inRange (by decide) (by decide) hcw (by unfold val; rw [toInt_minusOne]; norm_num) (by rw [val_one])
  have hA : Bounded (6 / 25) (33 / 8) (FastMath.db40 g) :=
    bounded_of_inRange (by decide) (by decide) (FastMath.db40_between hg)
      (by unfold val; rw [show toInt 0x3E7FE000#32 = 2047 * 2 ^ 136 by decide]; norm_num)
      (by unfold val; rw [show toInt 0x40840000#32 = 33 * 2 ^ 146 by decide]; norm_num)
  have hqb : Bounded (1 / 11) 20 q :=
    bounded_of_inRange (by decide) (by decide) hq
      (by unfold val; rw [show toInt Const.qMin = 13421773 * 2 ^ 122 by decide]; norm_num)
      (by unfold val; rw [show toInt Const.qMax = 20 * 2 ^ 149 by decide]; norm_num)
  have h2q : Bounded (1 / 8) 40 (mul two q) := by
    have r8 : Representable (1 / 8) :=
      ⟨0x3E000000#32, by decide, by unfold val; rw [show toInt 0x3E000000#32 = 2 ^ 146 by decide]; norm_num⟩
    exact mul_bounded (by decide) hqb.finite r8 (representable_int 40 (by norm_num) (by norm_num))
      (by rw [val_two]; linarith [hqb.lower]) (by rw [val_two]; linarith [hqb.upper])
  have ha : Bounded 0 8 (div (FastMath.fsin c.tsin (mul FastMath.twoPi (div fc fs))) (mul two q)) :=
    div_bounded hsb.finite h2q.finite (by linarith [h2q.lower]) (representable_int 0 (by norm_num) (by norm_num))
      (representable_int 8 (by norm_num) (by norm_num)) (by rw [zero_mul]; exact hsb.lower)
      (by linarith [hsb.upper, h2q.lower])
  exact normCoefs_finite (rawCoefs_bounded ty ha hcb hA)

end Sys2Proof.Machine
end

