-- ==== Sys2Proof/Laws/Memory.lean ====
section
/-! SUPPORT. The table memories: reads after writes, and that every operation keeps the canonical form
(Machine/Memory.lean). -/

namespace Sys2Proof.Memory

@[simp] theorem read_nil (i : Nat) : Memory.read [] i = unlisted := rfl

theorem read_cons (j : Nat) (v : F32) (m : Memory) (i : Nat) :
    Memory.read ((j, v) :: m) i = if i = j then v else if i < j then unlisted else Memory.read m i := rfl

/-- A table whose indices all lie at or above `lo` reads the unlisted value below `lo`. -/
theorem read_below {lo : Nat} {m : Memory} (h : wfFrom lo m = true) {i : Nat} (hi : i < lo) :
    Memory.read m i = unlisted := by
  cases m with
  | nil => rfl
  | cons e m =>
    simp only [wfFrom, Bool.and_eq_true, decide_eq_true_eq] at h
    rw [read_cons, if_neg (by omega), if_pos (by omega)]

theorem wfFrom_mono {lo lo' : Nat} {m : Memory} (h : wfFrom lo m = true) (hl : lo' ≤ lo) : wfFrom lo' m = true := by
  cases m with
  | nil => rfl
  | cons e m =>
    simp only [wfFrom, Bool.and_eq_true, decide_eq_true_eq] at h ⊢
    exact ⟨⟨by omega, h.1.2⟩, h.2⟩

theorem entry_wf {lo i : Nat} {v : F32} {m : Memory} (h : wfFrom (i + 1) m = true) (hi : lo ≤ i) :
    wfFrom lo (entry i v m) = true := by
  unfold entry
  split
  · exact wfFrom_mono h (by omega)
  · next hv => simp [wfFrom, hi, h, hv]

theorem read_entry {i : Nat} {v : F32} {m : Memory} (h : wfFrom (i + 1) m = true) (n : Nat) :
    Memory.read (entry i v m) n = if n = i then v else Memory.read m n := by
  unfold entry
  split
  · next hv => split
               · next hn => rw [hn, read_below h (by omega), hv]
               · rfl
  · rw [read_cons]
    split
    · rfl
    · split
      · next hlt => exact (read_below h (by omega)).symm
      · rfl

/-- A write keeps the canonical form. -/
theorem write_wfFrom {lo : Nat} {m : Memory} (h : wfFrom lo m = true) {i : Nat} (hi : lo ≤ i) (v : F32) :
    wfFrom lo (Memory.write m i v) = true := by
  induction m generalizing lo with
  | nil => exact entry_wf rfl hi
  | cons e m ih =>
    obtain ⟨j, w⟩ := e
    simp only [wfFrom, Bool.and_eq_true, decide_eq_true_eq] at h
    unfold Memory.write
    split
    · next hij => exact entry_wf (hij ▸ h.2) hi
    · split
      · next hlt => exact entry_wf (by simp [wfFrom, h.1.2, h.2]; omega) hi
      · simp only [wfFrom, Bool.and_eq_true, decide_eq_true_eq]
        exact ⟨h.1, ih h.2 (by omega)⟩

/-- A read after a write, of the written index and of every other. -/
theorem read_write_from {lo : Nat} {m : Memory} (h : wfFrom lo m = true) {i : Nat} (v : F32) (n : Nat) :
    Memory.read (Memory.write m i v) n = if n = i then v else Memory.read m n := by
  induction m generalizing lo with
  | nil => exact read_entry rfl n
  | cons e m ih =>
    obtain ⟨j, w⟩ := e
    simp only [wfFrom, Bool.and_eq_true, decide_eq_true_eq] at h
    unfold Memory.write
    split
    · next hij =>
      subst hij
      rw [read_entry h.2, read_cons]
      split
      · rfl
      · split
        · exact read_below h.2 (by omega)
        · rfl
    · split
      · next hlt =>
        rw [read_entry (m := (j, w) :: m) (by simp [wfFrom, h.1.2, h.2]; omega)]
      · rw [read_cons, read_cons, ih h.2]
        by_cases hn : n = i
        · rw [if_neg (by omega), if_neg (by omega), if_pos hn, if_pos hn]
        · rw [if_neg hn, if_neg hn]

theorem write_wf {m : Memory} (h : m.wf = true) (i : Nat) (v : F32) : (m.write i v).wf = true :=
  write_wfFrom h (Nat.zero_le i) v

theorem read_write {m : Memory} (h : m.wf = true) (i : Nat) (v : F32) (n : Nat) :
    (m.write i v).read n = if n = i then v else m.read n := read_write_from h v n

theorem tabulate_wfFrom (f : Nat → F32) (n i : Nat) : wfFrom i (tabulate f n i) = true := by
  induction n generalizing i with
  | zero => rfl
  | succ n ih => exact entry_wf (ih (i + 1)) (Nat.le_refl i)

/-- A tabulated table reads as the function on the tabulated indices and as unlisted elsewhere. -/
theorem read_tabulate_from (f : Nat → F32) (n i k : Nat) :
    Memory.read (tabulate f n i) k = if i ≤ k ∧ k < i + n then f k else unlisted := by
  induction n generalizing i with
  | zero => rw [if_neg (by omega)]; rfl
  | succ n ih =>
    unfold tabulate
    rw [read_entry (tabulate_wfFrom f n (i + 1)), ih]
    by_cases hk : k = i
    · rw [if_pos hk, if_pos (by omega), hk]
    · rw [if_neg hk]
      by_cases h : i + 1 ≤ k ∧ k < i + 1 + n
      · rw [if_pos h, if_pos (by omega)]
      · rw [if_neg h, if_neg (by omega)]

theorem tabulate_wf (f : Nat → F32) (n : Nat) : (tabulate f n 0).wf = true := tabulate_wfFrom f n 0

theorem read_tabulate (f : Nat → F32) (n k : Nat) : Memory.read (tabulate f n 0) k = if k < n then f k else unlisted := by
  rw [read_tabulate_from]; simp

theorem entry_below {b i : Nat} {v : F32} {m : Memory} (h : m.below b = true) (hi : i < b) :
    (entry i v m).below b = true := by
  unfold entry
  split
  · exact h
  · simpa [below, hi] using h

/-- A write below the table's size keeps every listed index below it. -/
theorem write_below {b i : Nat} {m : Memory} (h : m.below b = true) (hi : i < b) (v : F32) :
    (m.write i v).below b = true := by
  induction m with
  | nil => exact entry_below rfl hi
  | cons e m ih =>
    obtain ⟨j, w⟩ := e
    have hm : Memory.below b m = true := by simp [below] at h ⊢; exact h.2
    unfold Memory.write
    split
    · exact entry_below hm hi
    · split
      · exact entry_below h hi
      · simp only [below, List.all_cons, Bool.and_eq_true] at h ⊢
        exact ⟨h.1, ih hm⟩

theorem tabulate_below (f : Nat → F32) (n i b : Nat) (h : i + n ≤ b) : (tabulate f n i).below b = true := by
  induction n generalizing i with
  | zero => rfl
  | succ n ih => exact entry_below (ih (i + 1) (by omega)) (by omega)

/-- Reading decides a canonical table: equal reads are equal data. -/
theorem ext_wfFrom {lo : Nat} {m m' : Memory} (h : wfFrom lo m = true) (h' : wfFrom lo m' = true)
    (hr : ∀ i, Memory.read m i = Memory.read m' i) : m = m' := by
  induction m generalizing lo m' with
  | nil =>
    cases m' with
    | nil => rfl
    | cons e m' =>
      obtain ⟨j, w⟩ := e
      simp only [wfFrom, Bool.and_eq_true, bne_iff_ne, ne_eq] at h'
      exact absurd (by simpa [read_cons] using (hr j).symm) h'.1.2
  | cons e m ih =>
    obtain ⟨i, v⟩ := e
    have hc := h
    simp only [wfFrom, Bool.and_eq_true, bne_iff_ne, ne_eq, decide_eq_true_eq] at h
    cases m' with
    | nil => exact absurd (by simpa [read_cons] using hr i) h.1.2
    | cons e' m' =>
      obtain ⟨j, w⟩ := e'
      have hc' := h'
      simp only [wfFrom, Bool.and_eq_true, bne_iff_ne, ne_eq, decide_eq_true_eq] at h'
      have hij : i = j := by
        rcases Nat.lt_trichotomy i j with hlt | heq | hgt
        · have := hr i
          rw [read_cons, if_pos rfl, read_cons, if_neg (by omega), if_pos hlt] at this
          exact absurd this h.1.2
        · exact heq
        · have := hr j
          rw [read_cons, if_neg (by omega), if_pos hgt, read_cons, if_pos rfl] at this
          exact absurd this.symm h'.1.2
      subst hij
      have hvw : v = w := by simpa [read_cons] using hr i
      subst hvw
      congr 1
      refine ih h.2 h'.2 fun n => ?_
      by_cases hn : n ≤ i
      · rw [read_below h.2 (by omega), read_below h'.2 (by omega)]
      · have := hr n
        rwa [read_cons, read_cons, if_neg (by omega), if_neg (by omega), if_neg (by omega), if_neg (by omega)] at this

theorem ext_wf {m m' : Memory} (h : m.wf = true) (h' : m'.wf = true) (hr : ∀ i, m.read i = m'.read i) : m = m' :=
  ext_wfFrom h h' hr

end Sys2Proof.Memory
end

