-- ==== Sys2Proof/Laws/State.lean ====
section
/-! SUPPORT. One lemma per field per update of State, each true by unfolding the update once. -/

namespace Sys2Proof.Machine.State

/-! ### Recording an event -/

@[simp] theorem raise_cfg (s : State) (op : Byte) (e : Event) : (s.raise op e).cfg = s.cfg := by cases e <;> rfl
@[simp] theorem raise_resetDone (s : State) (op : Byte) (e : Event) : (s.raise op e).resetDone = s.resetDone := by cases e <;> rfl
@[simp] theorem raise_commands (s : State) (op : Byte) (e : Event) : (s.raise op e).commands = s.commands := by cases e <;> rfl
@[simp] theorem raise_rxBytes (s : State) (op : Byte) (e : Event) : (s.raise op e).rxBytes = s.rxBytes := by cases e <;> rfl
@[simp] theorem raise_audio (s : State) (op : Byte) (e : Event) : (s.raise op e).audio = s.audio := by cases e <;> rfl
@[simp] theorem raise_responses (s : State) (op : Byte) (e : Event) : (s.raise op e).responses = s.responses := by cases e <;> rfl
@[simp] theorem raise_audioCap (s : State) (op : Byte) (e : Event) : (s.raise op e).audioCap = s.audioCap := by cases e <;> rfl
@[simp] theorem raise_respCap (s : State) (op : Byte) (e : Event) : (s.raise op e).respCap = s.respCap := by cases e <;> rfl
@[simp] theorem raise_fs (s : State) (op : Byte) (e : Event) : (s.raise op e).fs = s.fs := by cases e <;> rfl
@[simp] theorem raise_tempo (s : State) (op : Byte) (e : Event) : (s.raise op e).tempo = s.tempo := by cases e <;> rfl
@[simp] theorem raise_prng (s : State) (op : Byte) (e : Event) : (s.raise op e).prng = s.prng := by cases e <;> rfl
@[simp] theorem raise_sampleCount (s : State) (op : Byte) (e : Event) : (s.raise op e).sampleCount = s.sampleCount := by cases e <;> rfl
@[simp] theorem raise_osc (s : State) (op : Byte) (e : Event) : (s.raise op e).osc = s.osc := by cases e <;> rfl
@[simp] theorem raise_flt (s : State) (op : Byte) (e : Event) : (s.raise op e).flt = s.flt := by cases e <;> rfl
@[simp] theorem raise_env (s : State) (op : Byte) (e : Event) : (s.raise op e).env = s.env := by cases e <;> rfl
@[simp] theorem raise_lfo (s : State) (op : Byte) (e : Event) : (s.raise op e).lfo = s.lfo := by cases e <;> rfl
@[simp] theorem raise_route (s : State) (op : Byte) (e : Event) : (s.raise op e).route = s.route := by cases e <;> rfl
@[simp] theorem raise_note (s : State) (op : Byte) (e : Event) : (s.raise op e).note = s.note := by cases e <;> rfl
@[simp] theorem raise_vel (s : State) (op : Byte) (e : Event) : (s.raise op e).vel = s.vel := by cases e <;> rfl
@[simp] theorem raise_pressure (s : State) (op : Byte) (e : Event) : (s.raise op e).pressure = s.pressure := by cases e <;> rfl
@[simp] theorem raise_ampEff (s : State) (op : Byte) (e : Event) : (s.raise op e).ampEff = s.ampEff := by cases e <;> rfl
@[simp] theorem raise_acc (s : State) (op : Byte) (e : Event) : (s.raise op e).acc = s.acc := by cases e <;> rfl
@[simp] theorem raise_evtSticky (s : State) (op : Byte) (e : Event) : (s.raise op e).evtSticky = s.evtSticky ||| eventBit e := by
  cases e <;> rfl
@[simp] theorem raise_lastEvt (s : State) (op : Byte) (e : Event) : (s.raise op e).lastEvt = lastEvtWord op e := by cases e <;> rfl
@[simp] theorem raiseAll_nil (s : State) (op : Byte) : s.raiseAll op [] = s := rfl
@[simp] theorem raiseAll_cons (s : State) (op : Byte) (e : Event) (es : List Event) :
    s.raiseAll op (e :: es) = (s.raise op e).raiseAll op es := rfl

@[simp] theorem raiseAll_cfg (s : State) (op : Byte) (es : List Event) : (s.raiseAll op es).cfg = s.cfg := by
  induction es generalizing s with
  | nil => rfl
  | cons e es ih => simp [ih]
@[simp] theorem raiseAll_resetDone (s : State) (op : Byte) (es : List Event) : (s.raiseAll op es).resetDone = s.resetDone := by
  induction es generalizing s with
  | nil => rfl
  | cons e es ih => simp [ih]
@[simp] theorem raiseAll_commands (s : State) (op : Byte) (es : List Event) : (s.raiseAll op es).commands = s.commands := by
  induction es generalizing s with
  | nil => rfl
  | cons e es ih => simp [ih]
@[simp] theorem raiseAll_rxBytes (s : State) (op : Byte) (es : List Event) : (s.raiseAll op es).rxBytes = s.rxBytes := by
  induction es generalizing s with
  | nil => rfl
  | cons e es ih => simp [ih]
@[simp] theorem raiseAll_audio (s : State) (op : Byte) (es : List Event) : (s.raiseAll op es).audio = s.audio := by
  induction es generalizing s with
  | nil => rfl
  | cons e es ih => simp [ih]
@[simp] theorem raiseAll_responses (s : State) (op : Byte) (es : List Event) : (s.raiseAll op es).responses = s.responses := by
  induction es generalizing s with
  | nil => rfl
  | cons e es ih => simp [ih]
@[simp] theorem raiseAll_audioCap (s : State) (op : Byte) (es : List Event) : (s.raiseAll op es).audioCap = s.audioCap := by
  induction es generalizing s with
  | nil => rfl
  | cons e es ih => simp [ih]
@[simp] theorem raiseAll_respCap (s : State) (op : Byte) (es : List Event) : (s.raiseAll op es).respCap = s.respCap := by
  induction es generalizing s with
  | nil => rfl
  | cons e es ih => simp [ih]
@[simp] theorem raiseAll_fs (s : State) (op : Byte) (es : List Event) : (s.raiseAll op es).fs = s.fs := by
  induction es generalizing s with
  | nil => rfl
  | cons e es ih => simp [ih]
@[simp] theorem raiseAll_tempo (s : State) (op : Byte) (es : List Event) : (s.raiseAll op es).tempo = s.tempo := by
  induction es generalizing s with
  | nil => rfl
  | cons e es ih => simp [ih]
@[simp] theorem raiseAll_prng (s : State) (op : Byte) (es : List Event) : (s.raiseAll op es).prng = s.prng := by
  induction es generalizing s with
  | nil => rfl
  | cons e es ih => simp [ih]
@[simp] theorem raiseAll_sampleCount (s : State) (op : Byte) (es : List Event) : (s.raiseAll op es).sampleCount = s.sampleCount := by
  induction es generalizing s with
  | nil => rfl
  | cons e es ih => simp [ih]
@[simp] theorem raiseAll_osc (s : State) (op : Byte) (es : List Event) : (s.raiseAll op es).osc = s.osc := by
  induction es generalizing s with
  | nil => rfl
  | cons e es ih => simp [ih]
@[simp] theorem raiseAll_flt (s : State) (op : Byte) (es : List Event) : (s.raiseAll op es).flt = s.flt := by
  induction es generalizing s with
  | nil => rfl
  | cons e es ih => simp [ih]
@[simp] theorem raiseAll_env (s : State) (op : Byte) (es : List Event) : (s.raiseAll op es).env = s.env := by
  induction es generalizing s with
  | nil => rfl
  | cons e es ih => simp [ih]
@[simp] theorem raiseAll_lfo (s : State) (op : Byte) (es : List Event) : (s.raiseAll op es).lfo = s.lfo := by
  induction es generalizing s with
  | nil => rfl
  | cons e es ih => simp [ih]
@[simp] theorem raiseAll_route (s : State) (op : Byte) (es : List Event) : (s.raiseAll op es).route = s.route := by
  induction es generalizing s with
  | nil => rfl
  | cons e es ih => simp [ih]
@[simp] theorem raiseAll_note (s : State) (op : Byte) (es : List Event) : (s.raiseAll op es).note = s.note := by
  induction es generalizing s with
  | nil => rfl
  | cons e es ih => simp [ih]
@[simp] theorem raiseAll_vel (s : State) (op : Byte) (es : List Event) : (s.raiseAll op es).vel = s.vel := by
  induction es generalizing s with
  | nil => rfl
  | cons e es ih => simp [ih]
@[simp] theorem raiseAll_pressure (s : State) (op : Byte) (es : List Event) : (s.raiseAll op es).pressure = s.pressure := by
  induction es generalizing s with
  | nil => rfl
  | cons e es ih => simp [ih]
@[simp] theorem raiseAll_ampEff (s : State) (op : Byte) (es : List Event) : (s.raiseAll op es).ampEff = s.ampEff := by
  induction es generalizing s with
  | nil => rfl
  | cons e es ih => simp [ih]
@[simp] theorem raiseAll_acc (s : State) (op : Byte) (es : List Event) : (s.raiseAll op es).acc = s.acc := by
  induction es generalizing s with
  | nil => rfl
  | cons e es ih => simp [ih]

/-! ### The streams -/

@[simp] theorem respond_cfg (s : State) (w : Word) : (s.respond w).cfg = s.cfg := rfl
@[simp] theorem respond_resetDone (s : State) (w : Word) : (s.respond w).resetDone = s.resetDone := rfl
@[simp] theorem respond_commands (s : State) (w : Word) : (s.respond w).commands = s.commands := rfl
@[simp] theorem respond_rxBytes (s : State) (w : Word) : (s.respond w).rxBytes = s.rxBytes := rfl
@[simp] theorem respond_audio (s : State) (w : Word) : (s.respond w).audio = s.audio := rfl
@[simp] theorem respond_responses (s : State) (w : Word) : (s.respond w).responses = w :: s.responses := rfl
@[simp] theorem respond_audioCap (s : State) (w : Word) : (s.respond w).audioCap = s.audioCap := rfl
@[simp] theorem respond_respCap (s : State) (w : Word) : (s.respond w).respCap = s.respCap := rfl
@[simp] theorem respond_fs (s : State) (w : Word) : (s.respond w).fs = s.fs := rfl
@[simp] theorem respond_tempo (s : State) (w : Word) : (s.respond w).tempo = s.tempo := rfl
@[simp] theorem respond_prng (s : State) (w : Word) : (s.respond w).prng = s.prng := rfl
@[simp] theorem respond_sampleCount (s : State) (w : Word) : (s.respond w).sampleCount = s.sampleCount := rfl
@[simp] theorem respond_evtSticky (s : State) (w : Word) : (s.respond w).evtSticky = s.evtSticky := rfl
@[simp] theorem respond_lastEvt (s : State) (w : Word) : (s.respond w).lastEvt = s.lastEvt := rfl
@[simp] theorem respond_rejectCount (s : State) (w : Word) : (s.respond w).rejectCount = s.rejectCount := rfl
@[simp] theorem respond_instabCount (s : State) (w : Word) : (s.respond w).instabCount = s.instabCount := rfl
@[simp] theorem respond_sanitizeCount (s : State) (w : Word) : (s.respond w).sanitizeCount = s.sanitizeCount := rfl
@[simp] theorem respond_osc (s : State) (w : Word) : (s.respond w).osc = s.osc := rfl
@[simp] theorem respond_flt (s : State) (w : Word) : (s.respond w).flt = s.flt := rfl
@[simp] theorem respond_env (s : State) (w : Word) : (s.respond w).env = s.env := rfl
@[simp] theorem respond_lfo (s : State) (w : Word) : (s.respond w).lfo = s.lfo := rfl
@[simp] theorem respond_route (s : State) (w : Word) : (s.respond w).route = s.route := rfl
@[simp] theorem respond_note (s : State) (w : Word) : (s.respond w).note = s.note := rfl
@[simp] theorem respond_vel (s : State) (w : Word) : (s.respond w).vel = s.vel := rfl
@[simp] theorem respond_pressure (s : State) (w : Word) : (s.respond w).pressure = s.pressure := rfl
@[simp] theorem respond_ampEff (s : State) (w : Word) : (s.respond w).ampEff = s.ampEff := rfl
@[simp] theorem respond_acc (s : State) (w : Word) : (s.respond w).acc = s.acc := rfl

@[simp] theorem emit_cfg (s : State) (x : F32) : (s.emit x).cfg = s.cfg := rfl
@[simp] theorem emit_resetDone (s : State) (x : F32) : (s.emit x).resetDone = s.resetDone := rfl
@[simp] theorem emit_commands (s : State) (x : F32) : (s.emit x).commands = s.commands := rfl
@[simp] theorem emit_rxBytes (s : State) (x : F32) : (s.emit x).rxBytes = s.rxBytes := rfl
@[simp] theorem emit_audio (s : State) (x : F32) : (s.emit x).audio = { l := x, r := x } :: s.audio := rfl
@[simp] theorem emit_responses (s : State) (x : F32) : (s.emit x).responses = s.responses := rfl
@[simp] theorem emit_audioCap (s : State) (x : F32) : (s.emit x).audioCap = s.audioCap := rfl
@[simp] theorem emit_respCap (s : State) (x : F32) : (s.emit x).respCap = s.respCap := rfl
@[simp] theorem emit_fs (s : State) (x : F32) : (s.emit x).fs = s.fs := rfl
@[simp] theorem emit_tempo (s : State) (x : F32) : (s.emit x).tempo = s.tempo := rfl
@[simp] theorem emit_prng (s : State) (x : F32) : (s.emit x).prng = s.prng := rfl
@[simp] theorem emit_sampleCount (s : State) (x : F32) : (s.emit x).sampleCount = s.sampleCount + 1#32 := rfl
@[simp] theorem emit_evtSticky (s : State) (x : F32) : (s.emit x).evtSticky = s.evtSticky := rfl
@[simp] theorem emit_lastEvt (s : State) (x : F32) : (s.emit x).lastEvt = s.lastEvt := rfl
@[simp] theorem emit_rejectCount (s : State) (x : F32) : (s.emit x).rejectCount = s.rejectCount := rfl
@[simp] theorem emit_instabCount (s : State) (x : F32) : (s.emit x).instabCount = s.instabCount := rfl
@[simp] theorem emit_sanitizeCount (s : State) (x : F32) : (s.emit x).sanitizeCount = s.sanitizeCount := rfl
@[simp] theorem emit_osc (s : State) (x : F32) : (s.emit x).osc = s.osc := rfl
@[simp] theorem emit_flt (s : State) (x : F32) : (s.emit x).flt = s.flt := rfl
@[simp] theorem emit_env (s : State) (x : F32) : (s.emit x).env = s.env := rfl
@[simp] theorem emit_lfo (s : State) (x : F32) : (s.emit x).lfo = s.lfo := rfl
@[simp] theorem emit_route (s : State) (x : F32) : (s.emit x).route = s.route := rfl
@[simp] theorem emit_note (s : State) (x : F32) : (s.emit x).note = s.note := rfl
@[simp] theorem emit_vel (s : State) (x : F32) : (s.emit x).vel = s.vel := rfl
@[simp] theorem emit_pressure (s : State) (x : F32) : (s.emit x).pressure = s.pressure := rfl
@[simp] theorem emit_ampEff (s : State) (x : F32) : (s.emit x).ampEff = s.ampEff := rfl
@[simp] theorem emit_acc (s : State) (x : F32) : (s.emit x).acc = s.acc := rfl

@[simp] theorem popCommand_cfg (s : State) : (s.popCommand).cfg = s.cfg := rfl
@[simp] theorem popCommand_resetDone (s : State) : (s.popCommand).resetDone = s.resetDone := rfl
@[simp] theorem popCommand_commands (s : State) : (s.popCommand).commands = s.commands.tail := rfl
@[simp] theorem popCommand_rxBytes (s : State) : (s.popCommand).rxBytes = s.rxBytes := rfl
@[simp] theorem popCommand_audio (s : State) : (s.popCommand).audio = s.audio := rfl
@[simp] theorem popCommand_responses (s : State) : (s.popCommand).responses = s.responses := rfl
@[simp] theorem popCommand_audioCap (s : State) : (s.popCommand).audioCap = s.audioCap := rfl
@[simp] theorem popCommand_respCap (s : State) : (s.popCommand).respCap = s.respCap := rfl
@[simp] theorem popCommand_fs (s : State) : (s.popCommand).fs = s.fs := rfl
@[simp] theorem popCommand_tempo (s : State) : (s.popCommand).tempo = s.tempo := rfl
@[simp] theorem popCommand_prng (s : State) : (s.popCommand).prng = s.prng := rfl
@[simp] theorem popCommand_sampleCount (s : State) : (s.popCommand).sampleCount = s.sampleCount := rfl
@[simp] theorem popCommand_evtSticky (s : State) : (s.popCommand).evtSticky = s.evtSticky := rfl
@[simp] theorem popCommand_lastEvt (s : State) : (s.popCommand).lastEvt = s.lastEvt := rfl
@[simp] theorem popCommand_rejectCount (s : State) : (s.popCommand).rejectCount = s.rejectCount := rfl
@[simp] theorem popCommand_instabCount (s : State) : (s.popCommand).instabCount = s.instabCount := rfl
@[simp] theorem popCommand_sanitizeCount (s : State) : (s.popCommand).sanitizeCount = s.sanitizeCount := rfl
@[simp] theorem popCommand_osc (s : State) : (s.popCommand).osc = s.osc := rfl
@[simp] theorem popCommand_flt (s : State) : (s.popCommand).flt = s.flt := rfl
@[simp] theorem popCommand_env (s : State) : (s.popCommand).env = s.env := rfl
@[simp] theorem popCommand_lfo (s : State) : (s.popCommand).lfo = s.lfo := rfl
@[simp] theorem popCommand_route (s : State) : (s.popCommand).route = s.route := rfl
@[simp] theorem popCommand_note (s : State) : (s.popCommand).note = s.note := rfl
@[simp] theorem popCommand_vel (s : State) : (s.popCommand).vel = s.vel := rfl
@[simp] theorem popCommand_pressure (s : State) : (s.popCommand).pressure = s.pressure := rfl
@[simp] theorem popCommand_ampEff (s : State) : (s.popCommand).ampEff = s.ampEff := rfl
@[simp] theorem popCommand_acc (s : State) : (s.popCommand).acc = s.acc := rfl

/-! ### One unit's registers -/

@[simp] theorem modOsc_cfg (s : State) (x : Byte) (g : Osc → Osc) : (s.modOsc x g).cfg = s.cfg := rfl
@[simp] theorem modOsc_resetDone (s : State) (x : Byte) (g : Osc → Osc) : (s.modOsc x g).resetDone = s.resetDone := rfl
@[simp] theorem modOsc_commands (s : State) (x : Byte) (g : Osc → Osc) : (s.modOsc x g).commands = s.commands := rfl
@[simp] theorem modOsc_rxBytes (s : State) (x : Byte) (g : Osc → Osc) : (s.modOsc x g).rxBytes = s.rxBytes := rfl
@[simp] theorem modOsc_audio (s : State) (x : Byte) (g : Osc → Osc) : (s.modOsc x g).audio = s.audio := rfl
@[simp] theorem modOsc_responses (s : State) (x : Byte) (g : Osc → Osc) : (s.modOsc x g).responses = s.responses := rfl
@[simp] theorem modOsc_audioCap (s : State) (x : Byte) (g : Osc → Osc) : (s.modOsc x g).audioCap = s.audioCap := rfl
@[simp] theorem modOsc_respCap (s : State) (x : Byte) (g : Osc → Osc) : (s.modOsc x g).respCap = s.respCap := rfl
@[simp] theorem modOsc_fs (s : State) (x : Byte) (g : Osc → Osc) : (s.modOsc x g).fs = s.fs := rfl
@[simp] theorem modOsc_tempo (s : State) (x : Byte) (g : Osc → Osc) : (s.modOsc x g).tempo = s.tempo := rfl
@[simp] theorem modOsc_prng (s : State) (x : Byte) (g : Osc → Osc) : (s.modOsc x g).prng = s.prng := rfl
@[simp] theorem modOsc_sampleCount (s : State) (x : Byte) (g : Osc → Osc) : (s.modOsc x g).sampleCount = s.sampleCount :=
  rfl
@[simp] theorem modOsc_evtSticky (s : State) (x : Byte) (g : Osc → Osc) : (s.modOsc x g).evtSticky = s.evtSticky := rfl
@[simp] theorem modOsc_lastEvt (s : State) (x : Byte) (g : Osc → Osc) : (s.modOsc x g).lastEvt = s.lastEvt := rfl
@[simp] theorem modOsc_rejectCount (s : State) (x : Byte) (g : Osc → Osc) : (s.modOsc x g).rejectCount = s.rejectCount :=
  rfl
@[simp] theorem modOsc_instabCount (s : State) (x : Byte) (g : Osc → Osc) : (s.modOsc x g).instabCount = s.instabCount :=
  rfl
@[simp] theorem modOsc_sanitizeCount (s : State) (x : Byte) (g : Osc → Osc) : (s.modOsc x g).sanitizeCount = s.sanitizeCount :=
  rfl
@[simp] theorem modOsc_osc (s : State) (x : Byte) (g : Osc → Osc) : (s.modOsc x g).osc = s.osc.modify x.toNat g := rfl
@[simp] theorem modOsc_flt (s : State) (x : Byte) (g : Osc → Osc) : (s.modOsc x g).flt = s.flt := rfl
@[simp] theorem modOsc_env (s : State) (x : Byte) (g : Osc → Osc) : (s.modOsc x g).env = s.env := rfl
@[simp] theorem modOsc_lfo (s : State) (x : Byte) (g : Osc → Osc) : (s.modOsc x g).lfo = s.lfo := rfl
@[simp] theorem modOsc_route (s : State) (x : Byte) (g : Osc → Osc) : (s.modOsc x g).route = s.route := rfl
@[simp] theorem modOsc_note (s : State) (x : Byte) (g : Osc → Osc) : (s.modOsc x g).note = s.note := rfl
@[simp] theorem modOsc_vel (s : State) (x : Byte) (g : Osc → Osc) : (s.modOsc x g).vel = s.vel := rfl
@[simp] theorem modOsc_pressure (s : State) (x : Byte) (g : Osc → Osc) : (s.modOsc x g).pressure = s.pressure := rfl
@[simp] theorem modOsc_ampEff (s : State) (x : Byte) (g : Osc → Osc) : (s.modOsc x g).ampEff = s.ampEff := rfl
@[simp] theorem modOsc_acc (s : State) (x : Byte) (g : Osc → Osc) : (s.modOsc x g).acc = s.acc := rfl

@[simp] theorem modFlt_cfg (s : State) (x : Byte) (g : Flt → Flt) : (s.modFlt x g).cfg = s.cfg := rfl
@[simp] theorem modFlt_resetDone (s : State) (x : Byte) (g : Flt → Flt) : (s.modFlt x g).resetDone = s.resetDone := rfl
@[simp] theorem modFlt_commands (s : State) (x : Byte) (g : Flt → Flt) : (s.modFlt x g).commands = s.commands := rfl
@[simp] theorem modFlt_rxBytes (s : State) (x : Byte) (g : Flt → Flt) : (s.modFlt x g).rxBytes = s.rxBytes := rfl
@[simp] theorem modFlt_audio (s : State) (x : Byte) (g : Flt → Flt) : (s.modFlt x g).audio = s.audio := rfl
@[simp] theorem modFlt_responses (s : State) (x : Byte) (g : Flt → Flt) : (s.modFlt x g).responses = s.responses := rfl
@[simp] theorem modFlt_audioCap (s : State) (x : Byte) (g : Flt → Flt) : (s.modFlt x g).audioCap = s.audioCap := rfl
@[simp] theorem modFlt_respCap (s : State) (x : Byte) (g : Flt → Flt) : (s.modFlt x g).respCap = s.respCap := rfl
@[simp] theorem modFlt_fs (s : State) (x : Byte) (g : Flt → Flt) : (s.modFlt x g).fs = s.fs := rfl
@[simp] theorem modFlt_tempo (s : State) (x : Byte) (g : Flt → Flt) : (s.modFlt x g).tempo = s.tempo := rfl
@[simp] theorem modFlt_prng (s : State) (x : Byte) (g : Flt → Flt) : (s.modFlt x g).prng = s.prng := rfl
@[simp] theorem modFlt_sampleCount (s : State) (x : Byte) (g : Flt → Flt) : (s.modFlt x g).sampleCount = s.sampleCount :=
  rfl
@[simp] theorem modFlt_evtSticky (s : State) (x : Byte) (g : Flt → Flt) : (s.modFlt x g).evtSticky = s.evtSticky := rfl
@[simp] theorem modFlt_lastEvt (s : State) (x : Byte) (g : Flt → Flt) : (s.modFlt x g).lastEvt = s.lastEvt := rfl
@[simp] theorem modFlt_rejectCount (s : State) (x : Byte) (g : Flt → Flt) : (s.modFlt x g).rejectCount = s.rejectCount :=
  rfl
@[simp] theorem modFlt_instabCount (s : State) (x : Byte) (g : Flt → Flt) : (s.modFlt x g).instabCount = s.instabCount :=
  rfl
@[simp] theorem modFlt_sanitizeCount (s : State) (x : Byte) (g : Flt → Flt) : (s.modFlt x g).sanitizeCount = s.sanitizeCount :=
  rfl
@[simp] theorem modFlt_osc (s : State) (x : Byte) (g : Flt → Flt) : (s.modFlt x g).osc = s.osc := rfl
@[simp] theorem modFlt_flt (s : State) (x : Byte) (g : Flt → Flt) : (s.modFlt x g).flt = s.flt.modify x.toNat g := rfl
@[simp] theorem modFlt_env (s : State) (x : Byte) (g : Flt → Flt) : (s.modFlt x g).env = s.env := rfl
@[simp] theorem modFlt_lfo (s : State) (x : Byte) (g : Flt → Flt) : (s.modFlt x g).lfo = s.lfo := rfl
@[simp] theorem modFlt_route (s : State) (x : Byte) (g : Flt → Flt) : (s.modFlt x g).route = s.route := rfl
@[simp] theorem modFlt_note (s : State) (x : Byte) (g : Flt → Flt) : (s.modFlt x g).note = s.note := rfl
@[simp] theorem modFlt_vel (s : State) (x : Byte) (g : Flt → Flt) : (s.modFlt x g).vel = s.vel := rfl
@[simp] theorem modFlt_pressure (s : State) (x : Byte) (g : Flt → Flt) : (s.modFlt x g).pressure = s.pressure := rfl
@[simp] theorem modFlt_ampEff (s : State) (x : Byte) (g : Flt → Flt) : (s.modFlt x g).ampEff = s.ampEff := rfl
@[simp] theorem modFlt_acc (s : State) (x : Byte) (g : Flt → Flt) : (s.modFlt x g).acc = s.acc := rfl

@[simp] theorem modEnv_cfg (s : State) (x : Byte) (g : Env → Env) : (s.modEnv x g).cfg = s.cfg := rfl
@[simp] theorem modEnv_resetDone (s : State) (x : Byte) (g : Env → Env) : (s.modEnv x g).resetDone = s.resetDone := rfl
@[simp] theorem modEnv_commands (s : State) (x : Byte) (g : Env → Env) : (s.modEnv x g).commands = s.commands := rfl
@[simp] theorem modEnv_rxBytes (s : State) (x : Byte) (g : Env → Env) : (s.modEnv x g).rxBytes = s.rxBytes := rfl
@[simp] theorem modEnv_audio (s : State) (x : Byte) (g : Env → Env) : (s.modEnv x g).audio = s.audio := rfl
@[simp] theorem modEnv_responses (s : State) (x : Byte) (g : Env → Env) : (s.modEnv x g).responses = s.responses := rfl
@[simp] theorem modEnv_audioCap (s : State) (x : Byte) (g : Env → Env) : (s.modEnv x g).audioCap = s.audioCap := rfl
@[simp] theorem modEnv_respCap (s : State) (x : Byte) (g : Env → Env) : (s.modEnv x g).respCap = s.respCap := rfl
@[simp] theorem modEnv_fs (s : State) (x : Byte) (g : Env → Env) : (s.modEnv x g).fs = s.fs := rfl
@[simp] theorem modEnv_tempo (s : State) (x : Byte) (g : Env → Env) : (s.modEnv x g).tempo = s.tempo := rfl
@[simp] theorem modEnv_prng (s : State) (x : Byte) (g : Env → Env) : (s.modEnv x g).prng = s.prng := rfl
@[simp] theorem modEnv_sampleCount (s : State) (x : Byte) (g : Env → Env) : (s.modEnv x g).sampleCount = s.sampleCount :=
  rfl
@[simp] theorem modEnv_evtSticky (s : State) (x : Byte) (g : Env → Env) : (s.modEnv x g).evtSticky = s.evtSticky := rfl
@[simp] theorem modEnv_lastEvt (s : State) (x : Byte) (g : Env → Env) : (s.modEnv x g).lastEvt = s.lastEvt := rfl
@[simp] theorem modEnv_rejectCount (s : State) (x : Byte) (g : Env → Env) : (s.modEnv x g).rejectCount = s.rejectCount :=
  rfl
@[simp] theorem modEnv_instabCount (s : State) (x : Byte) (g : Env → Env) : (s.modEnv x g).instabCount = s.instabCount :=
  rfl
@[simp] theorem modEnv_sanitizeCount (s : State) (x : Byte) (g : Env → Env) : (s.modEnv x g).sanitizeCount = s.sanitizeCount :=
  rfl
@[simp] theorem modEnv_osc (s : State) (x : Byte) (g : Env → Env) : (s.modEnv x g).osc = s.osc := rfl
@[simp] theorem modEnv_flt (s : State) (x : Byte) (g : Env → Env) : (s.modEnv x g).flt = s.flt := rfl
@[simp] theorem modEnv_env (s : State) (x : Byte) (g : Env → Env) : (s.modEnv x g).env = s.env.modify x.toNat g := rfl
@[simp] theorem modEnv_lfo (s : State) (x : Byte) (g : Env → Env) : (s.modEnv x g).lfo = s.lfo := rfl
@[simp] theorem modEnv_route (s : State) (x : Byte) (g : Env → Env) : (s.modEnv x g).route = s.route := rfl
@[simp] theorem modEnv_note (s : State) (x : Byte) (g : Env → Env) : (s.modEnv x g).note = s.note := rfl
@[simp] theorem modEnv_vel (s : State) (x : Byte) (g : Env → Env) : (s.modEnv x g).vel = s.vel := rfl
@[simp] theorem modEnv_pressure (s : State) (x : Byte) (g : Env → Env) : (s.modEnv x g).pressure = s.pressure := rfl
@[simp] theorem modEnv_ampEff (s : State) (x : Byte) (g : Env → Env) : (s.modEnv x g).ampEff = s.ampEff := rfl
@[simp] theorem modEnv_acc (s : State) (x : Byte) (g : Env → Env) : (s.modEnv x g).acc = s.acc := rfl

@[simp] theorem modLfo_cfg (s : State) (x : Byte) (g : Lfo → Lfo) : (s.modLfo x g).cfg = s.cfg := rfl
@[simp] theorem modLfo_resetDone (s : State) (x : Byte) (g : Lfo → Lfo) : (s.modLfo x g).resetDone = s.resetDone := rfl
@[simp] theorem modLfo_commands (s : State) (x : Byte) (g : Lfo → Lfo) : (s.modLfo x g).commands = s.commands := rfl
@[simp] theorem modLfo_rxBytes (s : State) (x : Byte) (g : Lfo → Lfo) : (s.modLfo x g).rxBytes = s.rxBytes := rfl
@[simp] theorem modLfo_audio (s : State) (x : Byte) (g : Lfo → Lfo) : (s.modLfo x g).audio = s.audio := rfl
@[simp] theorem modLfo_responses (s : State) (x : Byte) (g : Lfo → Lfo) : (s.modLfo x g).responses = s.responses := rfl
@[simp] theorem modLfo_audioCap (s : State) (x : Byte) (g : Lfo → Lfo) : (s.modLfo x g).audioCap = s.audioCap := rfl
@[simp] theorem modLfo_respCap (s : State) (x : Byte) (g : Lfo → Lfo) : (s.modLfo x g).respCap = s.respCap := rfl
@[simp] theorem modLfo_fs (s : State) (x : Byte) (g : Lfo → Lfo) : (s.modLfo x g).fs = s.fs := rfl
@[simp] theorem modLfo_tempo (s : State) (x : Byte) (g : Lfo → Lfo) : (s.modLfo x g).tempo = s.tempo := rfl
@[simp] theorem modLfo_prng (s : State) (x : Byte) (g : Lfo → Lfo) : (s.modLfo x g).prng = s.prng := rfl
@[simp] theorem modLfo_sampleCount (s : State) (x : Byte) (g : Lfo → Lfo) : (s.modLfo x g).sampleCount = s.sampleCount :=
  rfl
@[simp] theorem modLfo_evtSticky (s : State) (x : Byte) (g : Lfo → Lfo) : (s.modLfo x g).evtSticky = s.evtSticky := rfl
@[simp] theorem modLfo_lastEvt (s : State) (x : Byte) (g : Lfo → Lfo) : (s.modLfo x g).lastEvt = s.lastEvt := rfl
@[simp] theorem modLfo_rejectCount (s : State) (x : Byte) (g : Lfo → Lfo) : (s.modLfo x g).rejectCount = s.rejectCount :=
  rfl
@[simp] theorem modLfo_instabCount (s : State) (x : Byte) (g : Lfo → Lfo) : (s.modLfo x g).instabCount = s.instabCount :=
  rfl
@[simp] theorem modLfo_sanitizeCount (s : State) (x : Byte) (g : Lfo → Lfo) : (s.modLfo x g).sanitizeCount = s.sanitizeCount :=
  rfl
@[simp] theorem modLfo_osc (s : State) (x : Byte) (g : Lfo → Lfo) : (s.modLfo x g).osc = s.osc := rfl
@[simp] theorem modLfo_flt (s : State) (x : Byte) (g : Lfo → Lfo) : (s.modLfo x g).flt = s.flt := rfl
@[simp] theorem modLfo_env (s : State) (x : Byte) (g : Lfo → Lfo) : (s.modLfo x g).env = s.env := rfl
@[simp] theorem modLfo_lfo (s : State) (x : Byte) (g : Lfo → Lfo) : (s.modLfo x g).lfo = s.lfo.modify x.toNat g := rfl
@[simp] theorem modLfo_route (s : State) (x : Byte) (g : Lfo → Lfo) : (s.modLfo x g).route = s.route := rfl
@[simp] theorem modLfo_note (s : State) (x : Byte) (g : Lfo → Lfo) : (s.modLfo x g).note = s.note := rfl
@[simp] theorem modLfo_vel (s : State) (x : Byte) (g : Lfo → Lfo) : (s.modLfo x g).vel = s.vel := rfl
@[simp] theorem modLfo_pressure (s : State) (x : Byte) (g : Lfo → Lfo) : (s.modLfo x g).pressure = s.pressure := rfl
@[simp] theorem modLfo_ampEff (s : State) (x : Byte) (g : Lfo → Lfo) : (s.modLfo x g).ampEff = s.ampEff := rfl
@[simp] theorem modLfo_acc (s : State) (x : Byte) (g : Lfo → Lfo) : (s.modLfo x g).acc = s.acc := rfl

@[simp] theorem modRoute_cfg (s : State) (x : Byte) (g : Route → Route) : (s.modRoute x g).cfg = s.cfg := rfl
@[simp] theorem modRoute_resetDone (s : State) (x : Byte) (g : Route → Route) : (s.modRoute x g).resetDone = s.resetDone :=
  rfl
@[simp] theorem modRoute_commands (s : State) (x : Byte) (g : Route → Route) : (s.modRoute x g).commands = s.commands :=
  rfl
@[simp] theorem modRoute_rxBytes (s : State) (x : Byte) (g : Route → Route) : (s.modRoute x g).rxBytes = s.rxBytes :=
  rfl
@[simp] theorem modRoute_audio (s : State) (x : Byte) (g : Route → Route) : (s.modRoute x g).audio = s.audio := rfl
@[simp] theorem modRoute_responses (s : State) (x : Byte) (g : Route → Route) : (s.modRoute x g).responses = s.responses :=
  rfl
@[simp] theorem modRoute_audioCap (s : State) (x : Byte) (g : Route → Route) : (s.modRoute x g).audioCap = s.audioCap :=
  rfl
@[simp] theorem modRoute_respCap (s : State) (x : Byte) (g : Route → Route) : (s.modRoute x g).respCap = s.respCap :=
  rfl
@[simp] theorem modRoute_fs (s : State) (x : Byte) (g : Route → Route) : (s.modRoute x g).fs = s.fs := rfl
@[simp] theorem modRoute_tempo (s : State) (x : Byte) (g : Route → Route) : (s.modRoute x g).tempo = s.tempo := rfl
@[simp] theorem modRoute_prng (s : State) (x : Byte) (g : Route → Route) : (s.modRoute x g).prng = s.prng := rfl
@[simp] theorem modRoute_sampleCount (s : State) (x : Byte) (g : Route → Route) : (s.modRoute x g).sampleCount = s.sampleCount :=
  rfl
@[simp] theorem modRoute_evtSticky (s : State) (x : Byte) (g : Route → Route) : (s.modRoute x g).evtSticky = s.evtSticky :=
  rfl
@[simp] theorem modRoute_lastEvt (s : State) (x : Byte) (g : Route → Route) : (s.modRoute x g).lastEvt = s.lastEvt :=
  rfl
@[simp] theorem modRoute_rejectCount (s : State) (x : Byte) (g : Route → Route) : (s.modRoute x g).rejectCount = s.rejectCount :=
  rfl
@[simp] theorem modRoute_instabCount (s : State) (x : Byte) (g : Route → Route) : (s.modRoute x g).instabCount = s.instabCount :=
  rfl
@[simp] theorem modRoute_sanitizeCount (s : State) (x : Byte) (g : Route → Route) : (s.modRoute x g).sanitizeCount = s.sanitizeCount :=
  rfl
@[simp] theorem modRoute_osc (s : State) (x : Byte) (g : Route → Route) : (s.modRoute x g).osc = s.osc := rfl
@[simp] theorem modRoute_flt (s : State) (x : Byte) (g : Route → Route) : (s.modRoute x g).flt = s.flt := rfl
@[simp] theorem modRoute_env (s : State) (x : Byte) (g : Route → Route) : (s.modRoute x g).env = s.env := rfl
@[simp] theorem modRoute_lfo (s : State) (x : Byte) (g : Route → Route) : (s.modRoute x g).lfo = s.lfo := rfl
@[simp] theorem modRoute_route (s : State) (x : Byte) (g : Route → Route) : (s.modRoute x g).route = s.route.modify x.toNat g :=
  rfl
@[simp] theorem modRoute_note (s : State) (x : Byte) (g : Route → Route) : (s.modRoute x g).note = s.note := rfl
@[simp] theorem modRoute_vel (s : State) (x : Byte) (g : Route → Route) : (s.modRoute x g).vel = s.vel := rfl
@[simp] theorem modRoute_pressure (s : State) (x : Byte) (g : Route → Route) : (s.modRoute x g).pressure = s.pressure :=
  rfl
@[simp] theorem modRoute_ampEff (s : State) (x : Byte) (g : Route → Route) : (s.modRoute x g).ampEff = s.ampEff := rfl
@[simp] theorem modRoute_acc (s : State) (x : Byte) (g : Route → Route) : (s.modRoute x g).acc = s.acc := rfl

/-! ### The whole voice -/

@[simp] theorem silence_cfg (s : State) : (s.silence).cfg = s.cfg := rfl
@[simp] theorem silence_resetDone (s : State) : (s.silence).resetDone = s.resetDone := rfl
@[simp] theorem silence_commands (s : State) : (s.silence).commands = s.commands := rfl
@[simp] theorem silence_rxBytes (s : State) : (s.silence).rxBytes = s.rxBytes := rfl
@[simp] theorem silence_audio (s : State) : (s.silence).audio = s.audio := rfl
@[simp] theorem silence_responses (s : State) : (s.silence).responses = s.responses := rfl
@[simp] theorem silence_audioCap (s : State) : (s.silence).audioCap = s.audioCap := rfl
@[simp] theorem silence_respCap (s : State) : (s.silence).respCap = s.respCap := rfl
@[simp] theorem silence_fs (s : State) : (s.silence).fs = s.fs := rfl
@[simp] theorem silence_tempo (s : State) : (s.silence).tempo = s.tempo := rfl
@[simp] theorem silence_prng (s : State) : (s.silence).prng = s.prng := rfl
@[simp] theorem silence_sampleCount (s : State) : (s.silence).sampleCount = s.sampleCount := rfl
@[simp] theorem silence_evtSticky (s : State) : (s.silence).evtSticky = s.evtSticky := rfl
@[simp] theorem silence_lastEvt (s : State) : (s.silence).lastEvt = s.lastEvt := rfl
@[simp] theorem silence_rejectCount (s : State) : (s.silence).rejectCount = s.rejectCount := rfl
@[simp] theorem silence_instabCount (s : State) : (s.silence).instabCount = s.instabCount := rfl
@[simp] theorem silence_sanitizeCount (s : State) : (s.silence).sanitizeCount = s.sanitizeCount := rfl
@[simp] theorem silence_osc (s : State) : (s.silence).osc = s.osc := rfl
@[simp] theorem silence_flt (s : State) : (s.silence).flt = s.flt := rfl
@[simp] theorem silence_env (s : State) : (s.silence).env = s.env.map envZeroed := rfl
@[simp] theorem silence_lfo (s : State) : (s.silence).lfo = s.lfo := rfl
@[simp] theorem silence_route (s : State) : (s.silence).route = s.route := rfl
@[simp] theorem silence_note (s : State) : (s.silence).note = Const.noteNone := rfl
@[simp] theorem silence_vel (s : State) : (s.silence).vel = s.vel := rfl
@[simp] theorem silence_pressure (s : State) : (s.silence).pressure = s.pressure := rfl
@[simp] theorem silence_ampEff (s : State) : (s.silence).ampEff = s.ampEff := rfl
@[simp] theorem silence_acc (s : State) : (s.silence).acc = s.acc := rfl

@[simp] theorem startLfos_cfg (s : State) : (s.startLfos).cfg = s.cfg := rfl
@[simp] theorem startLfos_resetDone (s : State) : (s.startLfos).resetDone = s.resetDone := rfl
@[simp] theorem startLfos_commands (s : State) : (s.startLfos).commands = s.commands := rfl
@[simp] theorem startLfos_rxBytes (s : State) : (s.startLfos).rxBytes = s.rxBytes := rfl
@[simp] theorem startLfos_audio (s : State) : (s.startLfos).audio = s.audio := rfl
@[simp] theorem startLfos_responses (s : State) : (s.startLfos).responses = s.responses := rfl
@[simp] theorem startLfos_audioCap (s : State) : (s.startLfos).audioCap = s.audioCap := rfl
@[simp] theorem startLfos_respCap (s : State) : (s.startLfos).respCap = s.respCap := rfl
@[simp] theorem startLfos_fs (s : State) : (s.startLfos).fs = s.fs := rfl
@[simp] theorem startLfos_tempo (s : State) : (s.startLfos).tempo = s.tempo := rfl
@[simp] theorem startLfos_prng (s : State) : (s.startLfos).prng = (lfoBank s.cfg.tsin (s.lfo.map (lfoEffective s.fs s.tempo)) s.prng).1 :=
  rfl
@[simp] theorem startLfos_sampleCount (s : State) : (s.startLfos).sampleCount = s.sampleCount := rfl
@[simp] theorem startLfos_evtSticky (s : State) : (s.startLfos).evtSticky = s.evtSticky := rfl
@[simp] theorem startLfos_lastEvt (s : State) : (s.startLfos).lastEvt = s.lastEvt := rfl
@[simp] theorem startLfos_rejectCount (s : State) : (s.startLfos).rejectCount = s.rejectCount := rfl
@[simp] theorem startLfos_instabCount (s : State) : (s.startLfos).instabCount = s.instabCount := rfl
@[simp] theorem startLfos_sanitizeCount (s : State) : (s.startLfos).sanitizeCount = s.sanitizeCount := rfl
@[simp] theorem startLfos_osc (s : State) : (s.startLfos).osc = s.osc := rfl
@[simp] theorem startLfos_flt (s : State) : (s.startLfos).flt = s.flt := rfl
@[simp] theorem startLfos_env (s : State) : (s.startLfos).env = s.env := rfl
@[simp] theorem startLfos_lfo (s : State) : (s.startLfos).lfo = (lfoBank s.cfg.tsin (s.lfo.map (lfoEffective s.fs s.tempo)) s.prng).2 :=
  rfl
@[simp] theorem startLfos_route (s : State) : (s.startLfos).route = s.route := rfl
@[simp] theorem startLfos_note (s : State) : (s.startLfos).note = s.note := rfl
@[simp] theorem startLfos_vel (s : State) : (s.startLfos).vel = s.vel := rfl
@[simp] theorem startLfos_pressure (s : State) : (s.startLfos).pressure = s.pressure := rfl
@[simp] theorem startLfos_ampEff (s : State) : (s.startLfos).ampEff = s.ampEff := rfl
@[simp] theorem startLfos_acc (s : State) : (s.startLfos).acc = s.acc := rfl

@[simp] theorem startRoutes_cfg (s : State) : (s.startRoutes).cfg = s.cfg := rfl
@[simp] theorem startRoutes_resetDone (s : State) : (s.startRoutes).resetDone = s.resetDone := rfl
@[simp] theorem startRoutes_commands (s : State) : (s.startRoutes).commands = s.commands := rfl
@[simp] theorem startRoutes_rxBytes (s : State) : (s.startRoutes).rxBytes = s.rxBytes := rfl
@[simp] theorem startRoutes_audio (s : State) : (s.startRoutes).audio = s.audio := rfl
@[simp] theorem startRoutes_responses (s : State) : (s.startRoutes).responses = s.responses := rfl
@[simp] theorem startRoutes_audioCap (s : State) : (s.startRoutes).audioCap = s.audioCap := rfl
@[simp] theorem startRoutes_respCap (s : State) : (s.startRoutes).respCap = s.respCap := rfl
@[simp] theorem startRoutes_fs (s : State) : (s.startRoutes).fs = s.fs := rfl
@[simp] theorem startRoutes_tempo (s : State) : (s.startRoutes).tempo = s.tempo := rfl
@[simp] theorem startRoutes_prng (s : State) : (s.startRoutes).prng = s.prng := rfl
@[simp] theorem startRoutes_sampleCount (s : State) : (s.startRoutes).sampleCount = s.sampleCount := rfl
@[simp] theorem startRoutes_evtSticky (s : State) : (s.startRoutes).evtSticky = s.evtSticky := rfl
@[simp] theorem startRoutes_lastEvt (s : State) : (s.startRoutes).lastEvt = s.lastEvt := rfl
@[simp] theorem startRoutes_rejectCount (s : State) : (s.startRoutes).rejectCount = s.rejectCount := rfl
@[simp] theorem startRoutes_instabCount (s : State) : (s.startRoutes).instabCount = s.instabCount := rfl
@[simp] theorem startRoutes_sanitizeCount (s : State) : (s.startRoutes).sanitizeCount = s.sanitizeCount := rfl
@[simp] theorem startRoutes_osc (s : State) : (s.startRoutes).osc = s.osc := rfl
@[simp] theorem startRoutes_flt (s : State) : (s.startRoutes).flt = s.flt := rfl
@[simp] theorem startRoutes_env (s : State) : (s.startRoutes).env = s.env := rfl
@[simp] theorem startRoutes_lfo (s : State) : (s.startRoutes).lfo = s.lfo := rfl
@[simp] theorem startRoutes_route (s : State) : (s.startRoutes).route = s.route := rfl
@[simp] theorem startRoutes_note (s : State) : (s.startRoutes).note = s.note := rfl
@[simp] theorem startRoutes_vel (s : State) : (s.startRoutes).vel = s.vel := rfl
@[simp] theorem startRoutes_pressure (s : State) : (s.startRoutes).pressure = s.pressure := rfl
@[simp] theorem startRoutes_ampEff (s : State) : (s.startRoutes).ampEff = s.ampEff := rfl
@[simp] theorem startRoutes_acc (s : State) : (s.startRoutes).acc = s.route.foldl s.accumulate (accZero s.cfg) := rfl

@[simp] theorem startEffective_cfg (s : State) : (s.startEffective).cfg = s.cfg := rfl
@[simp] theorem startEffective_resetDone (s : State) : (s.startEffective).resetDone = s.resetDone := rfl
@[simp] theorem startEffective_commands (s : State) : (s.startEffective).commands = s.commands := rfl
@[simp] theorem startEffective_rxBytes (s : State) : (s.startEffective).rxBytes = s.rxBytes := rfl
@[simp] theorem startEffective_audio (s : State) : (s.startEffective).audio = s.audio := rfl
@[simp] theorem startEffective_responses (s : State) : (s.startEffective).responses = s.responses := rfl
@[simp] theorem startEffective_audioCap (s : State) : (s.startEffective).audioCap = s.audioCap := rfl
@[simp] theorem startEffective_respCap (s : State) : (s.startEffective).respCap = s.respCap := rfl
@[simp] theorem startEffective_fs (s : State) : (s.startEffective).fs = s.fs := rfl
@[simp] theorem startEffective_tempo (s : State) : (s.startEffective).tempo = s.tempo := rfl
@[simp] theorem startEffective_prng (s : State) : (s.startEffective).prng = s.prng := rfl
@[simp] theorem startEffective_sampleCount (s : State) : (s.startEffective).sampleCount = s.sampleCount := rfl
@[simp] theorem startEffective_evtSticky (s : State) : (s.startEffective).evtSticky = s.evtSticky := rfl
@[simp] theorem startEffective_lastEvt (s : State) : (s.startEffective).lastEvt = s.lastEvt := rfl
@[simp] theorem startEffective_rejectCount (s : State) : (s.startEffective).rejectCount = s.rejectCount := rfl
@[simp] theorem startEffective_instabCount (s : State) : (s.startEffective).instabCount = s.instabCount := rfl
@[simp] theorem startEffective_sanitizeCount (s : State) : (s.startEffective).sanitizeCount = s.sanitizeCount := rfl
@[simp] theorem startEffective_osc (s : State) : (s.startEffective).osc = s.osc.mapIdx s.oscDerive := rfl
@[simp] theorem startEffective_flt (s : State) : (s.startEffective).flt = s.flt.mapIdx s.fltDerive := rfl
@[simp] theorem startEffective_env (s : State) : (s.startEffective).env = s.env := rfl
@[simp] theorem startEffective_lfo (s : State) : (s.startEffective).lfo = s.lfo := rfl
@[simp] theorem startEffective_route (s : State) : (s.startEffective).route = s.route := rfl
@[simp] theorem startEffective_note (s : State) : (s.startEffective).note = s.note := rfl
@[simp] theorem startEffective_vel (s : State) : (s.startEffective).vel = s.vel := rfl
@[simp] theorem startEffective_pressure (s : State) : (s.startEffective).pressure = s.pressure := rfl
@[simp] theorem startEffective_ampEff (s : State) : (s.startEffective).ampEff = F32.clamp (F32.add F32.one s.acc.amp) Const.ampMin Const.ampMax :=
  rfl
@[simp] theorem startEffective_acc (s : State) : (s.startEffective).acc = s.acc := rfl

/-! ### Reset procedures -/

@[simp] theorem recomputeDerived_cfg (s : State) : (s.recomputeDerived).cfg = s.cfg := rfl
@[simp] theorem recomputeDerived_resetDone (s : State) : (s.recomputeDerived).resetDone = s.resetDone := rfl
@[simp] theorem recomputeDerived_commands (s : State) : (s.recomputeDerived).commands = s.commands := rfl
@[simp] theorem recomputeDerived_rxBytes (s : State) : (s.recomputeDerived).rxBytes = s.rxBytes := rfl
@[simp] theorem recomputeDerived_audio (s : State) : (s.recomputeDerived).audio = s.audio := rfl
@[simp] theorem recomputeDerived_responses (s : State) : (s.recomputeDerived).responses = s.responses := rfl
@[simp] theorem recomputeDerived_audioCap (s : State) : (s.recomputeDerived).audioCap = s.audioCap := rfl
@[simp] theorem recomputeDerived_respCap (s : State) : (s.recomputeDerived).respCap = s.respCap := rfl
@[simp] theorem recomputeDerived_fs (s : State) : (s.recomputeDerived).fs = s.fs := rfl
@[simp] theorem recomputeDerived_tempo (s : State) : (s.recomputeDerived).tempo = s.tempo := rfl
@[simp] theorem recomputeDerived_prng (s : State) : (s.recomputeDerived).prng = s.prng := rfl
@[simp] theorem recomputeDerived_sampleCount (s : State) : (s.recomputeDerived).sampleCount = s.sampleCount := rfl
@[simp] theorem recomputeDerived_evtSticky (s : State) : (s.recomputeDerived).evtSticky = s.evtSticky := rfl
@[simp] theorem recomputeDerived_lastEvt (s : State) : (s.recomputeDerived).lastEvt = s.lastEvt := rfl
@[simp] theorem recomputeDerived_rejectCount (s : State) : (s.recomputeDerived).rejectCount = s.rejectCount := rfl
@[simp] theorem recomputeDerived_instabCount (s : State) : (s.recomputeDerived).instabCount = s.instabCount := rfl
@[simp] theorem recomputeDerived_sanitizeCount (s : State) : (s.recomputeDerived).sanitizeCount = s.sanitizeCount := rfl
@[simp] theorem recomputeDerived_osc (s : State) : (s.recomputeDerived).osc = s.osc.mapIdx s.oscDerive := rfl
@[simp] theorem recomputeDerived_flt (s : State) : (s.recomputeDerived).flt = s.flt.mapIdx s.fltDerive := rfl
@[simp] theorem recomputeDerived_env (s : State) : (s.recomputeDerived).env = s.env.map (envLens s.fs) := rfl
@[simp] theorem recomputeDerived_lfo (s : State) : (s.recomputeDerived).lfo = s.lfo.map (lfoEffective s.fs s.tempo) :=
  rfl
@[simp] theorem recomputeDerived_route (s : State) : (s.recomputeDerived).route = s.route := rfl
@[simp] theorem recomputeDerived_note (s : State) : (s.recomputeDerived).note = s.note := rfl
@[simp] theorem recomputeDerived_vel (s : State) : (s.recomputeDerived).vel = s.vel := rfl
@[simp] theorem recomputeDerived_pressure (s : State) : (s.recomputeDerived).pressure = s.pressure := rfl
@[simp] theorem recomputeDerived_ampEff (s : State) : (s.recomputeDerived).ampEff = s.ampEff := rfl
@[simp] theorem recomputeDerived_acc (s : State) : (s.recomputeDerived).acc = s.acc := rfl

@[simp] theorem dynamicReset_cfg (s : State) : (s.dynamicReset).cfg = s.cfg := rfl
@[simp] theorem dynamicReset_resetDone (s : State) : (s.dynamicReset).resetDone = s.resetDone := rfl
@[simp] theorem dynamicReset_commands (s : State) : (s.dynamicReset).commands = s.commands := rfl
@[simp] theorem dynamicReset_rxBytes (s : State) : (s.dynamicReset).rxBytes = s.rxBytes := rfl
@[simp] theorem dynamicReset_audio (s : State) : (s.dynamicReset).audio = s.audio := rfl
@[simp] theorem dynamicReset_responses (s : State) : (s.dynamicReset).responses = s.responses := rfl
@[simp] theorem dynamicReset_audioCap (s : State) : (s.dynamicReset).audioCap = s.audioCap := rfl
@[simp] theorem dynamicReset_respCap (s : State) : (s.dynamicReset).respCap = s.respCap := rfl
@[simp] theorem dynamicReset_fs (s : State) : (s.dynamicReset).fs = s.fs := rfl
@[simp] theorem dynamicReset_tempo (s : State) : (s.dynamicReset).tempo = s.tempo := rfl
@[simp] theorem dynamicReset_prng (s : State) : (s.dynamicReset).prng = s.prng := rfl
@[simp] theorem dynamicReset_sampleCount (s : State) : (s.dynamicReset).sampleCount = s.sampleCount := rfl
@[simp] theorem dynamicReset_evtSticky (s : State) : (s.dynamicReset).evtSticky = s.evtSticky := rfl
@[simp] theorem dynamicReset_lastEvt (s : State) : (s.dynamicReset).lastEvt = s.lastEvt := rfl
@[simp] theorem dynamicReset_rejectCount (s : State) : (s.dynamicReset).rejectCount = s.rejectCount := rfl
@[simp] theorem dynamicReset_instabCount (s : State) : (s.dynamicReset).instabCount = s.instabCount := rfl
@[simp] theorem dynamicReset_sanitizeCount (s : State) : (s.dynamicReset).sanitizeCount = s.sanitizeCount := rfl
@[simp] theorem dynamicReset_osc (s : State) : (s.dynamicReset).osc = s.osc.map fun o => { o with phase := o.ph0 } :=
  rfl
@[simp] theorem dynamicReset_flt (s : State) : (s.dynamicReset).flt = s.flt.map fltClear := rfl
@[simp] theorem dynamicReset_env (s : State) : (s.dynamicReset).env = s.env.map envZeroed := rfl
@[simp] theorem dynamicReset_lfo (s : State) : (s.dynamicReset).lfo = s.lfo.map fun l => { l with phase := F32.posZero, value := F32.posZero } :=
  rfl
@[simp] theorem dynamicReset_route (s : State) : (s.dynamicReset).route = s.route := rfl
@[simp] theorem dynamicReset_note (s : State) : (s.dynamicReset).note = Const.noteNone := rfl
@[simp] theorem dynamicReset_vel (s : State) : (s.dynamicReset).vel = 0#8 := rfl
@[simp] theorem dynamicReset_pressure (s : State) : (s.dynamicReset).pressure = 0#8 := rfl
@[simp] theorem dynamicReset_ampEff (s : State) : (s.dynamicReset).ampEff = F32.one := rfl
@[simp] theorem dynamicReset_acc (s : State) : (s.dynamicReset).acc = accZero s.cfg := rfl

end Sys2Proof.Machine.State
end

