-- ==== Sys2Proof/Laws/Registers.lean ====
section
/-! SUPPORT. The register readback class by class, and what writing one unit's registers does to it. -/

namespace Sys2Proof.Machine

/-- As many units as the configuration says, in every bank: the part of the invariant the readback needs. -/
structure State.Sized (s : State) : Prop where
  osc : s.osc.length = s.cfg.nOsc
  flt : s.flt.length = s.cfg.nFlt
  env : s.env.length = s.cfg.nEnv
  lfo : s.lfo.length = s.cfg.nLfo
  route : s.route.length = s.cfg.nRoute

theorem State.Inv.sized {s : State} (h : s.Inv) : s.Sized :=
  ⟨h.oscCount, h.fltCount, h.envCount, h.lfoCount, h.routeCount⟩

theorem fieldsOf_bank {α : Type} (fields : α → List Word) (us : List α) (n w : Nat) (hn : us.length = n)
    (hw : ∀ u, (fields u).length = w) (i f : Nat) :
    (if decide (i < n) && decide (f < w) then some ((fieldsOf fields us i).getD f 0#32) else none) =
      (us[i]?).bind fun u => (fields u)[f]? := by
  subst hn
  by_cases hi : i < us.length
  · have hu : us[i]? = some us[i] := List.getElem?_eq_getElem hi
    simp only [fieldsOf, hu, hi, decide_true, Bool.true_and, Option.bind_some]
    by_cases hf : f < w
    · have : f < (fields us[i]).length := by rw [hw]; exact hf
      simp [hf, List.getD_eq_getElem?_getD, List.getElem?_eq_getElem this]
    · have : (fields us[i]).length ≤ f := by rw [hw]; omega
      simp [hf, List.getElem?_eq_none this]
  · simp [hi]

theorem readRegister_osc {s : State} (h : s.Sized) (i f : Nat) :
    s.readRegister 1 i f = (s.osc[i]?).bind fun u => (oscFields u)[f]? :=
  fieldsOf_bank oscFields s.osc s.cfg.nOsc 14 h.osc (fun _ => rfl) i f

theorem readRegister_flt {s : State} (h : s.Sized) (i f : Nat) :
    s.readRegister 2 i f = (s.flt[i]?).bind fun u => (fltFields u)[f]? :=
  fieldsOf_bank fltFields s.flt s.cfg.nFlt 18 h.flt (fun _ => rfl) i f

theorem readRegister_env {s : State} (h : s.Sized) (i f : Nat) :
    s.readRegister 3 i f = (s.env[i]?).bind fun u => (envFields u)[f]? :=
  fieldsOf_bank envFields s.env s.cfg.nEnv 19 h.env (fun _ => rfl) i f

theorem readRegister_lfo {s : State} (h : s.Sized) (i f : Nat) :
    s.readRegister 4 i f = (s.lfo[i]?).bind fun u => (lfoFields u)[f]? :=
  fieldsOf_bank lfoFields s.lfo s.cfg.nLfo 12 h.lfo (fun _ => rfl) i f

theorem readRegister_route {s : State} (h : s.Sized) (i f : Nat) :
    s.readRegister 5 i f = (s.route[i]?).bind fun u => (routeFields u)[f]? :=
  fieldsOf_bank routeFields s.route s.cfg.nRoute 3 h.route (fun _ => rfl) i f

/-- A register address whose class is none of 0 to 7 names no register. -/
theorem readRegister_high (s : State) (c i f : Nat) (hc : 8 ≤ c) : s.readRegister c i f = none := by
  have hr : registerExists s.cfg c i f = false := by
    unfold registerExists
    split <;> first | omega | rfl
  simp [State.readRegister, hr]

theorem readRegister_global (s : State) (i f : Nat) :
    s.readRegister 0 i f = if i = 0 then s.globalFields[f]? else none := by
  have hl : s.globalFields.length = 13 := rfl
  unfold State.readRegister registerExists State.registerValue
  by_cases hi : i = 0
  · by_cases hf : f < 13
    · simp [hi, hf, List.getD_eq_getElem?_getD, List.getElem?_eq_getElem (hl ▸ hf)]
    · simp [hi, hf, List.getElem?_eq_none (hl ▸ Nat.le_of_not_lt hf)]
  · simp [hi]

theorem readRegister_voice (s : State) (i f : Nat) :
    s.readRegister 6 i f = if i = 0 then s.voiceFields[f]? else none := by
  have hl : s.voiceFields.length = 5 := rfl
  unfold State.readRegister registerExists State.registerValue
  by_cases hi : i = 0
  · by_cases hf : f < 5
    · simp [hi, hf, List.getD_eq_getElem?_getD, List.getElem?_eq_getElem (hl ▸ hf)]
    · simp [hi, hf, List.getElem?_eq_none (hl ▸ Nat.le_of_not_lt hf)]
  · simp [hi]

/-- Two states read alike where their register sets, and what the derived registers come from, are alike. -/
theorem readRegister_congr {s t : State} (hc : t.cfg = s.cfg) (hg : t.globalFields = s.globalFields)
    (ho : t.osc = s.osc) (hf : t.flt = s.flt) (he : t.env = s.env) (hl : t.lfo = s.lfo) (hr : t.route = s.route)
    (hv : t.voiceFields = s.voiceFields) (ha : t.acc = s.acc) (c i f : Nat) :
    t.readRegister c i f = s.readRegister c i f := by
  unfold State.readRegister State.registerValue
  rw [hc, hg, ho, hf, he, hl, hr, hv, ha]

/-- Reading another class is not changed by a change inside one. -/
theorem readRegister_of_class {s t : State} (c : Nat) (hc : t.cfg = s.cfg) (h0 : c ≠ 0 ∨ t.globalFields = s.globalFields)
    (h1 : c ≠ 1 ∨ t.osc = s.osc) (h2 : c ≠ 2 ∨ t.flt = s.flt) (h3 : c ≠ 3 ∨ t.env = s.env)
    (h4 : c ≠ 4 ∨ t.lfo = s.lfo) (h5 : c ≠ 5 ∨ t.route = s.route) (h6 : c ≠ 6 ∨ t.voiceFields = s.voiceFields)
    (h7 : c ≠ 7 ∨ t.acc = s.acc) (i f : Nat) : t.readRegister c i f = s.readRegister c i f := by
  unfold State.readRegister State.registerValue
  rw [hc]
  split
  · congr 1
    split
    · rw [h0.resolve_left (by simp)]
    · rw [h1.resolve_left (by simp)]
    · rw [h2.resolve_left (by simp)]
    · rw [h3.resolve_left (by simp)]
    · rw [h4.resolve_left (by simp)]
    · rw [h5.resolve_left (by simp)]
    · rw [h6.resolve_left (by simp)]
    · rw [h7.resolve_left (by simp)]
    · rfl
  · rfl

/-- Reading a bank after one of its units has been rewritten. -/
theorem bank_modify {α : Type} (fields : α → List Word) (us : List α) (x : Nat) (g : α → α) (u : α)
    (hu : us[x]? = some u) (i f : Nat) :
    ((us.modify x g)[i]?).bind (fun v => (fields v)[f]?) =
      if i = x then (fields (g u))[f]? else (us[i]?).bind fun v => (fields v)[f]? := by
  by_cases hi : i = x
  · subst hi; simp [hu]
  · have : ¬ x = i := fun h => hi h.symm
    simp [hi, this]

/-- Unit x's registers are rewritten in one bank: exactly the listed registers of that unit change. The bank is class
`cls`; `hread` reads it before and after, `hother` says no other class changes outside `also`. -/
theorem sameRegisters_of_bank {α : Type} {s t : State} (cls : Nat) (fields : α → List Word) (us : List α) (x : Nat)
    (g : α → α) (u : α) (hu : us[x]? = some u)
    (hs : ∀ i f, s.readRegister cls i f = (us[i]?).bind fun v => (fields v)[f]?)
    (ht : ∀ i f, t.readRegister cls i f = ((us.modify x g)[i]?).bind fun v => (fields v)[f]?)
    (changed : Address → Bool)
    (hsame : ∀ f, changed (cls, x, f) = false → (fields (g u))[f]? = (fields u)[f]?)
    (hother : ∀ c i f, c ≠ cls → changed (c, i, f) = false → t.readRegister c i f = s.readRegister c i f) :
    SameRegisters changed s t := by
  intro c i f hf
  by_cases hc : c = cls
  · subst hc
    rw [ht, hs, bank_modify fields us x g u hu]
    by_cases hi : i = x
    · subst hi; rw [if_pos rfl, hsame f hf, hu]; rfl
    · rw [if_neg hi]
  · exact hother c i f hc hf

end Sys2Proof.Machine
end

