-- ==== Sys2Proof/Laws/Ops.lean ====
section
/-! SUPPORT. What each shared operation can do, said once: the check phase, the step, the flow control, and a command
that rewrites one unit's registers. -/

namespace Sys2Proof.Machine

/-! ### The check phase -/

@[simp] theorem need_true (e : Event) : need true e = none := rfl
@[simp] theorem need_false (e : Event) : need false e = some e := rfl
@[simp] theorem firstFailure_nil : firstFailure [] = none := rfl
@[simp] theorem firstFailure_some (e : Event) (cs : List (Option Event)) : firstFailure (some e :: cs) = some e := rfl
@[simp] theorem firstFailure_none (cs : List (Option Event)) : firstFailure (none :: cs) = firstFailure cs := rfl

theorem firstFailure_need (ok : Bool) (e : Event) (cs : List (Option Event)) :
    firstFailure (need ok e :: cs) = if ok then firstFailure cs else some e := by cases ok <;> rfl

/-- No check fails: the command's effect. -/
theorem checked_pass {s : State} {i : Instr} {cs : List (Option Event)} {eff : State} (h : firstFailure cs = none) :
    s.checked i cs eff = .next eff := by simp [State.checked, h]

/-- A check fails: its event, and nothing else. -/
theorem checked_fail {s : State} {i : Instr} {cs : List (Option Event)} {eff : State} {e : Event}
    (h : firstFailure cs = some e) : s.checked i cs eff = .next (s.raise i.opcode e) := by simp [State.checked, h]

/-- Everything a checked command can do. -/
theorem checked_cases {s t : State} {i : Instr} {cs : List (Option Event)} {eff : State}
    (h : s.checked i cs eff = .next t) :
    (firstFailure cs = none ∧ t = eff) ∨ ∃ e, firstFailure cs = some e ∧ t = s.raise i.opcode e := by
  unfold State.checked at h
  cases hf : firstFailure cs with
  | none => rw [hf] at h; injection h with h; exact .inl ⟨rfl, h.symm⟩
  | some e => rw [hf] at h; injection h with h; exact .inr ⟨e, rfl, h.symm⟩

/-- A checked command always answers a next state. -/
theorem checked_next (s : State) (i : Instr) (cs : List (Option Event)) (eff : State) :
    ∃ t, s.checked i cs eff = .next t := by
  unfold State.checked
  split <;> exact ⟨_, rfl⟩

/-! ### The step -/

/-- Everything a step can do, guards included. -/
theorem step_cases (s : State) :
    (s.cfg.legal = false ∧ step s = .refused .illegalConfiguration) ∨
    (s.cfg.legal = true ∧ s.commands = [] ∧ step s = .next s) ∨
    (∃ w rest, s.cfg.legal = true ∧ s.commands = w :: rest ∧
      ((s.mayRun (decodeCommand w) = false ∧ step s = .refused .runWithoutReset) ∨
       (s.mayRun (decodeCommand w) = true ∧ s.hasRoom (decodeCommand w) = false ∧ step s = .next s) ∨
       (s.mayRun (decodeCommand w) = true ∧ s.hasRoom (decodeCommand w) = true ∧
        step s = execDecoded (decodeCommand w) { s with commands := rest }))) := by
  by_cases hc : s.cfg.legal = true
  · cases hw : s.commands with
    | nil => exact .inr (.inl ⟨hc, rfl, by simp [step, hc, hw]⟩)
    | cons w rest =>
      refine .inr (.inr ⟨w, rest, hc, rfl, ?_⟩)
      have hp : s.popCommand = { s with commands := rest } := by simp [State.popCommand, hw]
      cases hm : s.mayRun (decodeCommand w)
      · exact .inl ⟨rfl, by simp [step, hc, hw, State.take, hm]⟩
      · cases hr : s.hasRoom (decodeCommand w)
        · exact .inr (.inl ⟨rfl, rfl, by simp [step, hc, hw, State.take, hm, hr]⟩)
        · exact .inr (.inr ⟨rfl, rfl, by simp [step, hc, hw, State.take, hm, hr, hp]⟩)
  · exact .inl ⟨by simpa using hc, by simp [step, hc]⟩

/-! ### A command that rewrites one unit's registers -/

theorem not_mem_of_contains {ws : List (Address × Word)} {also : List Address} {a : Address}
    (h : (ws.map Prod.fst ++ also).contains a = false) : (∀ w ∈ ws, w.1 ≠ a) ∧ a ∉ also := by
  simp only [List.contains_eq_mem, decide_eq_false_iff_not, List.mem_append, List.mem_map, not_or, not_exists,
    not_and] at h
  exact ⟨fun w hw he => h.1 w hw he, h.2⟩

/-- Tables read alike where every oscillator's tables are the same. -/
theorem sameTables_of_osc {s t : State} (h : ∀ i : Nat, (t.osc[i]?).map (fun o : Osc => (o.user, o.ctab)) =
    (s.osc[i]?).map fun o : Osc => (o.user, o.ctab)) : SameTables s t := by
  intro i n
  have hi := h i
  unfold State.userEntry State.custEntry
  cases hs : s.osc[i]? <;> cases ht : t.osc[i]? <;> simp [hs, ht] at hi ⊢
  exact ⟨by rw [hi.1], by rw [hi.2]⟩


/-- A command whose effect is to rewrite osc x writes what the new register list says and nothing else. -/
theorem writes_modOsc {i : Instr} {s : State} {x : Byte} {g : Osc → Osc} {u : Osc} (h : s.Sized)
    (he : exec i s = .next (s.modOsc x g)) (hu : s.osc[x.toNat]? = some u)
    (htab : ((g u).user, (g u).ctab) = (u.user, u.ctab))
    {writes : List (Address × Word)}
    (hw : ∀ w ∈ writes, w.1.1 = 1 ∧ w.1.2.1 = x.toNat ∧ (oscFields (g u))[w.1.2.2]? = some w.2)
    (hs : ∀ f, (∀ w ∈ writes, w.1 ≠ (1, x.toNat, f)) → (oscFields (g u))[f]? = (oscFields u)[f]?) :
    Writes i s writes [] := by
  have hz : (s.modOsc x g).Sized := by
    constructor <;> simp [h.osc, h.flt, h.env, h.lfo, h.route]
  refine ⟨_, he, fun w hmem => ?_, ?_, sameTables_of_osc fun a => by
    by_cases ha : a = x.toNat
    · subst ha; simpa [hu] using htab
    · have : ¬ x.toNat = a := fun e => ha e.symm
      simp [this], ⟨rfl, rfl, rfl, rfl⟩, rfl, rfl, rfl, rfl⟩
  · obtain ⟨h1, h2, h3⟩ := hw w hmem
    rw [Reads, h1, h2, readRegister_osc hz]
    simp [hu, h3]
  · refine sameRegisters_of_bank 1 oscFields s.osc x.toNat g u hu (readRegister_osc h)
      (fun a f => by rw [readRegister_osc hz]; rfl) _ (fun f hf => hs f (not_mem_of_contains hf).1) ?_
    intro c a f hc hf
    exact readRegister_of_class (s := s) (t := s.modOsc x g) c rfl (.inr rfl) (.inl hc) (.inr rfl) (.inr rfl) (.inr rfl) (.inr rfl) (.inr rfl) (.inr rfl) a f

/-- A command whose effect is to rewrite flt x writes what the new register list says and nothing else. -/
theorem writes_modFlt {i : Instr} {s : State} {x : Byte} {g : Flt → Flt} {u : Flt} (h : s.Sized)
    (he : exec i s = .next (s.modFlt x g)) (hu : s.flt[x.toNat]? = some u)
    {writes : List (Address × Word)}
    (hw : ∀ w ∈ writes, w.1.1 = 2 ∧ w.1.2.1 = x.toNat ∧ (fltFields (g u))[w.1.2.2]? = some w.2)
    (hs : ∀ f, (∀ w ∈ writes, w.1 ≠ (2, x.toNat, f)) → (fltFields (g u))[f]? = (fltFields u)[f]?) :
    Writes i s writes [] := by
  have hz : (s.modFlt x g).Sized := by
    constructor <;> simp [h.osc, h.flt, h.env, h.lfo, h.route]
  refine ⟨_, he, fun w hmem => ?_, ?_, fun _ _ => ⟨rfl, rfl⟩, ⟨rfl, rfl, rfl, rfl⟩, rfl, rfl, rfl, rfl⟩
  · obtain ⟨h1, h2, h3⟩ := hw w hmem
    rw [Reads, h1, h2, readRegister_flt hz]
    simp [hu, h3]
  · refine sameRegisters_of_bank 2 fltFields s.flt x.toNat g u hu (readRegister_flt h)
      (fun a f => by rw [readRegister_flt hz]; rfl) _ (fun f hf => hs f (not_mem_of_contains hf).1) ?_
    intro c a f hc hf
    exact readRegister_of_class (s := s) (t := s.modFlt x g) c rfl (.inr rfl) (.inr rfl) (.inl hc) (.inr rfl) (.inr rfl) (.inr rfl) (.inr rfl) (.inr rfl) a f

/-- A command whose effect is to rewrite LFO x writes what the new register list says and nothing else. -/
theorem writes_modLfo {i : Instr} {s : State} {x : Byte} {g : Lfo → Lfo} {u : Lfo} (h : s.Sized)
    (he : exec i s = .next (s.modLfo x g)) (hu : s.lfo[x.toNat]? = some u)
    {writes : List (Address × Word)}
    (hw : ∀ w ∈ writes, w.1.1 = 4 ∧ w.1.2.1 = x.toNat ∧ (lfoFields (g u))[w.1.2.2]? = some w.2)
    (hs : ∀ f, (∀ w ∈ writes, w.1 ≠ (4, x.toNat, f)) → (lfoFields (g u))[f]? = (lfoFields u)[f]?) :
    Writes i s writes [] := by
  have hz : (s.modLfo x g).Sized := by
    constructor <;> simp [h.osc, h.flt, h.env, h.lfo, h.route]
  refine ⟨_, he, fun w hmem => ?_, ?_, fun _ _ => ⟨rfl, rfl⟩, ⟨rfl, rfl, rfl, rfl⟩, rfl, rfl, rfl, rfl⟩
  · obtain ⟨h1, h2, h3⟩ := hw w hmem
    rw [Reads, h1, h2, readRegister_lfo hz]
    simp [hu, h3]
  · refine sameRegisters_of_bank 4 lfoFields s.lfo x.toNat g u hu (readRegister_lfo h)
      (fun a f => by rw [readRegister_lfo hz]; rfl) _ (fun f hf => hs f (not_mem_of_contains hf).1) ?_
    intro c a f hc hf
    exact readRegister_of_class (s := s) (t := s.modLfo x g) c rfl (.inr rfl) (.inr rfl) (.inr rfl) (.inr rfl) (.inl hc) (.inr rfl) (.inr rfl) (.inr rfl) a f

/-- A command whose effect is to rewrite route x writes what the new register list says and nothing else. -/
theorem writes_modRoute {i : Instr} {s : State} {x : Byte} {g : Route → Route} {u : Route} (h : s.Sized)
    (he : exec i s = .next (s.modRoute x g)) (hu : s.route[x.toNat]? = some u)
    {writes : List (Address × Word)}
    (hw : ∀ w ∈ writes, w.1.1 = 5 ∧ w.1.2.1 = x.toNat ∧ (routeFields (g u))[w.1.2.2]? = some w.2)
    (hs : ∀ f, (∀ w ∈ writes, w.1 ≠ (5, x.toNat, f)) → (routeFields (g u))[f]? = (routeFields u)[f]?) :
    Writes i s writes [] := by
  have hz : (s.modRoute x g).Sized := by
    constructor <;> simp [h.osc, h.flt, h.env, h.lfo, h.route]
  refine ⟨_, he, fun w hmem => ?_, ?_, fun _ _ => ⟨rfl, rfl⟩, ⟨rfl, rfl, rfl, rfl⟩, rfl, rfl, rfl, rfl⟩
  · obtain ⟨h1, h2, h3⟩ := hw w hmem
    rw [Reads, h1, h2, readRegister_route hz]
    simp [hu, h3]
  · refine sameRegisters_of_bank 5 routeFields s.route x.toNat g u hu (readRegister_route h)
      (fun a f => by rw [readRegister_route hz]; rfl) _ (fun f hf => hs f (not_mem_of_contains hf).1) ?_
    intro c a f hc hf
    exact readRegister_of_class (s := s) (t := s.modRoute x g) c rfl (.inr rfl) (.inr rfl) (.inr rfl) (.inr rfl) (.inr rfl) (.inl hc) (.inr rfl) (.inr rfl) a f

/-- A command whose effect is to rewrite env x writes what the new register list says and nothing else. -/
theorem writes_modEnv {i : Instr} {s : State} {x : Byte} {g : Env → Env} {u : Env} (h : s.Sized)
    (he : exec i s = .next (s.modEnv x g)) (hu : s.env[x.toNat]? = some u)
    {writes : List (Address × Word)} (also : List Address)
    (hw : ∀ w ∈ writes, w.1.1 = 3 ∧ w.1.2.1 = x.toNat ∧ (envFields (g u))[w.1.2.2]? = some w.2)
    (hs : ∀ f, (∀ w ∈ writes, w.1 ≠ (3, x.toNat, f)) → (envFields (g u))[f]? = (envFields u)[f]?)
    (h0 : (0, 0, 4) ∈ also ∨ ∀ v ∈ s.env[0]?, x.toNat = 0 → (g v).stage = v.stage)
    (h6 : (6, 0, 3) ∈ also ∨ ∀ v ∈ s.env[0]?, x.toNat = 0 → (g v).stage = v.stage) :
    Writes i s writes also := by
  have hz : (s.modEnv x g).Sized := by
    constructor <;> simp [h.osc, h.flt, h.env, h.lfo, h.route]
  refine ⟨_, he, fun w hmem => ?_, ?_, fun _ _ => ⟨rfl, rfl⟩, ⟨rfl, rfl, rfl, rfl⟩, rfl, rfl, rfl, rfl⟩
  · obtain ⟨h1, h2, h3⟩ := hw w hmem
    rw [Reads, h1, h2, readRegister_env hz]
    simp [hu, h3]
  · refine sameRegisters_of_bank 3 envFields s.env x.toNat g u hu (readRegister_env h)
      (fun a f => by rw [readRegister_env hz]; rfl) _ (fun f hf => hs f (not_mem_of_contains hf).1) ?_
    intro c a f hc hf
    have hstage : ∀ b : Address, b ∈ also → (c, a, f) ≠ b := fun b hb he =>
      (not_mem_of_contains hf).2 (he ▸ hb)
    have hamp : (∀ v ∈ s.env[0]?, x.toNat = 0 → (g v).stage = v.stage) →
        (s.modEnv x g).ampEnv.stage = s.ampEnv.stage := by
      intro hk
      unfold State.ampEnv
      rw [List.getD_eq_getElem?_getD, List.getD_eq_getElem?_getD, State.modEnv_env]
      by_cases hx : x.toNat = 0
      · cases hv : s.env[0]? with
        | none => simp [hx, hv]
        | some v => simpa [hx, hv] using hk v (by simp [hv]) hx
      · simp [hx]
    by_cases c0 : c = 0
    · subst c0
      rw [readRegister_global, readRegister_global]
      by_cases ha : a = 0
      · rw [if_pos ha, if_pos ha]
        subst ha
        by_cases hf4 : f = 4
        · subst hf4
          rcases h0 with h0 | h0
          · exact absurd rfl (hstage _ h0)
          · simp [State.globalFields, State.status, State.active, envActive, State.noteValid, State.err, hamp h0]
        · have : ∀ w w' : Word, ∀ l r : List Word, l.length = 4 → f ≠ 4 → (l ++ w :: r)[f]? = (l ++ w' :: r)[f]? := by
            intro w w' l r hl hne
            rcases Nat.lt_trichotomy f 4 with hlt | heq | hgt
            · rw [List.getElem?_append_left (by omega), List.getElem?_append_left (by omega)]
            · exact absurd heq hne
            · rw [List.getElem?_append_right (by omega), List.getElem?_append_right (by omega)]
              obtain ⟨m, hm⟩ : ∃ m, f - l.length = m + 1 := ⟨f - l.length - 1, by omega⟩
              rw [hm, List.getElem?_cons_succ, List.getElem?_cons_succ]
          exact this _ _ [s.fs, s.tempo, s.prng, s.sampleCount] _ rfl hf4
      · rw [if_neg ha, if_neg ha]
    · by_cases c6 : c = 6
      · subst c6
        rw [readRegister_voice, readRegister_voice]
        by_cases ha : a = 0
        · rw [if_pos ha, if_pos ha]
          subst ha
          match f with
          | 0 => rfl
          | 1 => rfl
          | 2 => rfl
          | 3 =>
            rcases h6 with h6 | h6
            · exact absurd rfl (hstage _ h6)
            · simp [State.voiceFields, State.active, envActive, hamp h6]
          | 4 => rfl
          | (n + 5) => rfl
        · rw [if_neg ha, if_neg ha]
      · exact readRegister_of_class (s := s) (t := s.modEnv x g) c rfl (.inl c0) (.inr rfl) (.inr rfl) (.inl hc) (.inr rfl) (.inr rfl) (.inl c6)
          (.inr rfl) a f

end Sys2Proof.Machine
end

