-- ==== Sys2Proof/Laws/Commands.lean ====
section
/-! SUPPORT. One lemma per checked command: well-formed, it answers its effect. Ill-formed commands are `checked_fail`'s. -/

namespace Sys2Proof.Machine

theorem pass1 {a : Bool} {e : Event} (h : a = true) : firstFailure [need a e] = none := by simp [h]

theorem pass2 {a b : Bool} {e f : Event} (h : (a && b) = true) : firstFailure [need a e, need b f] = none := by
  simp only [Bool.and_eq_true] at h
  simp [h]

theorem pass3 {a b c : Bool} {e f g : Event} (h : (a && b && c) = true) :
    firstFailure [need a e, need b f, need c g] = none := by
  simp only [Bool.and_eq_true] at h
  simp [h]

theorem execSetSampleRate_next (d : Word) {s : State}
    (h : (Instr.setSampleRate d).wellFormed s.cfg = true) :
    exec (.setSampleRate d) s = .next
      (s.withSampleRate d) :=
  checked_pass (pass1 h)

theorem execSetTempo_next (d : Word) {s : State}
    (h : (Instr.setTempo d).wellFormed s.cfg = true) :
    exec (.setTempo d) s = .next
      { s with tempo := F32.clamp d Const.tempoMin Const.tempoMax } :=
  checked_pass (pass1 h)

theorem execNoteOn_next (note vel : Byte) (d : Word) {s : State}
    (h : (Instr.noteOn note vel d).wellFormed s.cfg = true) :
    exec (.noteOn note vel d) s = .next
      (s.noteOn note vel d) :=
  checked_pass (pass2 h)

theorem execSetPressure_next (y : Byte) {s : State}
    (h : (Instr.setPressure y).wellFormed s.cfg = true) :
    exec (.setPressure y) s = .next
      { s with pressure := y } :=
  checked_pass (pass1 h)

theorem execOscSetWave_next (x y : Byte) {s : State}
    (h : (Instr.oscSetWave x y).wellFormed s.cfg = true) :
    exec (.oscSetWave x y) s = .next
      (s.modOsc x fun o => { o with wave := (waveOf y).getD o.wave }) :=
  checked_pass (pass2 h)

theorem execOscSetFreq_next (x : Byte) (d : Word) {s : State}
    (h : (Instr.oscSetFreq x d).wellFormed s.cfg = true) :
    exec (.oscSetFreq x d) s = .next
      (s.modOsc x fun o => { o with freq := F32.clamp d Const.fMin Const.fMax }) :=
  checked_pass (pass2 h)

theorem execOscSetPhase_next (x : Byte) (d : Word) {s : State}
    (h : (Instr.oscSetPhase x d).wellFormed s.cfg = true) :
    exec (.oscSetPhase x d) s = .next
      (s.modOsc x fun o => { o with phase := F32.wrap d, ph0 := F32.wrap d }) :=
  checked_pass (pass2 h)

theorem execOscSetDetune_next (x : Byte) (d : Word) {s : State}
    (h : (Instr.oscSetDetune x d).wellFormed s.cfg = true) :
    exec (.oscSetDetune x d) s = .next
      (s.modOsc x fun o => { o with detune := F32.clamp d Const.detMin Const.detMax, dscale := FastMath.dscale (F32.clamp d Const.detMin Const.detMax) }) :=
  checked_pass (pass2 h)

theorem execOscSetPw_next (x : Byte) (d : Word) {s : State}
    (h : (Instr.oscSetPw x d).wellFormed s.cfg = true) :
    exec (.oscSetPw x d) s = .next
      (s.modOsc x fun o => { o with pw := F32.clamp d Const.pwMin Const.pwMax }) :=
  checked_pass (pass2 h)

theorem execOscSetMix_next (x : Byte) (d : Word) {s : State}
    (h : (Instr.oscSetMix x d).wellFormed s.cfg = true) :
    exec (.oscSetMix x d) s = .next
      (s.modOsc x fun o => { o with mix := F32.clamp d Const.mixMin Const.mixMax }) :=
  checked_pass (pass2 h)

theorem execOscCustWrite_next (x : Byte) (n : BitVec 16) (d : Word) {s : State}
    (h : (Instr.oscCustWrite x n d).wellFormed s.cfg = true) :
    exec (.oscCustWrite x n d) s = .next
      (s.modOsc x fun o => { o with user := o.user.write n.toNat d }) :=
  checked_pass (pass3 h)

theorem execOscCustCommit_next (x : Byte) (d : Word) {s : State}
    (h : (Instr.oscCustCommit x d).wellFormed s.cfg = true) :
    exec (.oscCustCommit x d) s = .next
      (s.modOsc x fun o => { o with ctab := Memory.tabulate (custResample s.cfg.tab d.toNat o.user) s.cfg.tab 0, custLen := d.toNat }) :=
  checked_pass (pass2 h)

theorem execFltSetType_next (x y : Byte) {s : State}
    (h : (Instr.fltSetType x y).wellFormed s.cfg = true) :
    exec (.fltSetType x y) s = .next
      (s.setFlt x fun f => { f with type := (filterTypeOf y).getD f.type }) :=
  checked_pass (pass2 h)

theorem execFltSetCutoff_next (x : Byte) (d : Word) {s : State}
    (h : (Instr.fltSetCutoff x d).wellFormed s.cfg = true) :
    exec (.fltSetCutoff x d) s = .next
      (s.setFlt x fun f => { f with cutoff := F32.clamp d Const.cutMin Const.cutMax }) :=
  checked_pass (pass2 h)

theorem execFltSetRes_next (x : Byte) (d : Word) {s : State}
    (h : (Instr.fltSetRes x d).wellFormed s.cfg = true) :
    exec (.fltSetRes x d) s = .next
      (s.setFlt x fun f => { f with res := F32.clamp d Const.qMin Const.qMax }) :=
  checked_pass (pass2 h)

theorem execFltSetGain_next (x : Byte) (d : Word) {s : State}
    (h : (Instr.fltSetGain x d).wellFormed s.cfg = true) :
    exec (.fltSetGain x d) s = .next
      (s.setFlt x fun f => { f with gain := F32.clamp d Const.gainMin Const.gainMax }) :=
  checked_pass (pass2 h)

theorem execFltSetEnable_next (x y : Byte) {s : State}
    (h : (Instr.fltSetEnable x y).wellFormed s.cfg = true) :
    exec (.fltSetEnable x y) s = .next
      (s.modFlt x fun f => fltEnable ((bitOf y).getD f.enable) f) :=
  checked_pass (pass2 h)

theorem execFltReset_next (x : Byte) {s : State}
    (h : (Instr.fltReset x).wellFormed s.cfg = true) :
    exec (.fltReset x) s = .next
      (s.modFlt x fltClear) :=
  checked_pass (pass1 h)

theorem execEnvSetAttack_next (x : Byte) (d : Word) {s : State}
    (h : (Instr.envSetAttack x d).wellFormed s.cfg = true) :
    exec (.envSetAttack x d) s = .next
      (s.modEnv x fun e => envLenA s.fs { e with attack := F32.clamp d Const.timeMin Const.timeMax }) :=
  checked_pass (pass2 h)

theorem execEnvSetDecay_next (x : Byte) (d : Word) {s : State}
    (h : (Instr.envSetDecay x d).wellFormed s.cfg = true) :
    exec (.envSetDecay x d) s = .next
      (s.modEnv x fun e => envLenD s.fs { e with decay := F32.clamp d Const.timeMin Const.timeMax }) :=
  checked_pass (pass2 h)

theorem execEnvSetSustain_next (x : Byte) (d : Word) {s : State}
    (h : (Instr.envSetSustain x d).wellFormed s.cfg = true) :
    exec (.envSetSustain x d) s = .next
      (s.modEnv x fun e => { e with sustain := F32.clamp d Const.levelMin Const.levelMax }) :=
  checked_pass (pass2 h)

theorem execEnvSetRelease_next (x : Byte) (d : Word) {s : State}
    (h : (Instr.envSetRelease x d).wellFormed s.cfg = true) :
    exec (.envSetRelease x d) s = .next
      (s.modEnv x fun e => envLenR s.fs { e with release := F32.clamp d Const.timeMin Const.timeMax }) :=
  checked_pass (pass2 h)

theorem execEnvSetCurve_next (x y : Byte) {s : State}
    (h : (Instr.envSetCurve x y).wellFormed s.cfg = true) :
    exec (.envSetCurve x y) s = .next
      (s.modEnv x fun e => { e with curve := y.toNat }) :=
  checked_pass (pass2 h)

theorem execEnvSetVelsens_next (x : Byte) (d : Word) {s : State}
    (h : (Instr.envSetVelsens x d).wellFormed s.cfg = true) :
    exec (.envSetVelsens x d) s = .next
      (s.modEnv x fun e => { e with velsens := F32.clamp d Const.levelMin Const.levelMax }) :=
  checked_pass (pass2 h)

theorem execEnvTrigger_next (x : Byte) {s : State}
    (h : (Instr.envTrigger x).wellFormed s.cfg = true) :
    exec (.envTrigger x) s = .next
      (s.modEnv x envTriggered) :=
  checked_pass (pass1 h)

theorem execEnvRelease_next (x : Byte) {s : State}
    (h : (Instr.envRelease x).wellFormed s.cfg = true) :
    exec (.envRelease x) s = .next
      (s.modEnv x envReleased) :=
  checked_pass (pass1 h)

theorem execEnvStop_next (x : Byte) {s : State}
    (h : (Instr.envStop x).wellFormed s.cfg = true) :
    exec (.envStop x) s = .next
      (s.modEnv x envStopped) :=
  checked_pass (pass1 h)

theorem execLfoSetWave_next (x y : Byte) {s : State}
    (h : (Instr.lfoSetWave x y).wellFormed s.cfg = true) :
    exec (.lfoSetWave x y) s = .next
      (s.modLfo x fun l => { l with wave := (lfoWaveOf y).getD l.wave }) :=
  checked_pass (pass2 h)

theorem execLfoSetFreq_next (x : Byte) (d : Word) {s : State}
    (h : (Instr.lfoSetFreq x d).wellFormed s.cfg = true) :
    exec (.lfoSetFreq x d) s = .next
      (s.modLfo x fun l => { l with freq := F32.clamp d Const.lfoFMin Const.lfoFMax }) :=
  checked_pass (pass2 h)

theorem execLfoSetMode_next (x y : Byte) {s : State}
    (h : (Instr.lfoSetMode x y).wellFormed s.cfg = true) :
    exec (.lfoSetMode x y) s = .next
      (s.modLfo x fun l => { l with mode := (lfoModeOf y).getD l.mode }) :=
  checked_pass (pass2 h)

theorem execLfoSetDiv_next (x y : Byte) {s : State}
    (h : (Instr.lfoSetDiv x y).wellFormed s.cfg = true) :
    exec (.lfoSetDiv x y) s = .next
      (s.modLfo x fun l => { l with div := y.toNat }) :=
  checked_pass (pass2 h)

theorem execLfoSetDepth_next (x : Byte) (d : Word) {s : State}
    (h : (Instr.lfoSetDepth x d).wellFormed s.cfg = true) :
    exec (.lfoSetDepth x d) s = .next
      (s.modLfo x fun l => { l with depth := F32.clamp d Const.levelMin Const.levelMax }) :=
  checked_pass (pass2 h)

theorem execLfoSetInvert_next (x y : Byte) {s : State}
    (h : (Instr.lfoSetInvert x y).wellFormed s.cfg = true) :
    exec (.lfoSetInvert x y) s = .next
      (s.modLfo x fun l => { l with invert := (bitOf y).getD l.invert }) :=
  checked_pass (pass2 h)

theorem execLfoSetRetrig_next (x y : Byte) {s : State}
    (h : (Instr.lfoSetRetrig x y).wellFormed s.cfg = true) :
    exec (.lfoSetRetrig x y) s = .next
      (s.modLfo x fun l => { l with retrig := (bitOf y).getD l.retrig }) :=
  checked_pass (pass2 h)

theorem execLfoSetPw_next (x : Byte) (d : Word) {s : State}
    (h : (Instr.lfoSetPw x d).wellFormed s.cfg = true) :
    exec (.lfoSetPw x d) s = .next
      (s.modLfo x fun l => { l with pw := F32.clamp d Const.pwMin Const.pwMax }) :=
  checked_pass (pass2 h)

theorem execLfoSetPhase_next (x : Byte) (d : Word) {s : State}
    (h : (Instr.lfoSetPhase x d).wellFormed s.cfg = true) :
    exec (.lfoSetPhase x d) s = .next
      (s.modLfo x fun l => { l with phase := F32.wrap d }) :=
  checked_pass (pass2 h)

theorem execLfoTrigger_next (x : Byte) {s : State}
    (h : (Instr.lfoTrigger x).wellFormed s.cfg = true) :
    exec (.lfoTrigger x) s = .next
      (s.modLfo x lfoTriggered) :=
  checked_pass (pass1 h)

theorem execRouteSet_next (x src dst : Byte) (d : Word) {s : State}
    (h : (Instr.routeSet x src dst d).wellFormed s.cfg = true) :
    exec (.routeSet x src dst d) s = .next
      (s.modRoute x fun _ => { src := src, dst := dst, amount := F32.clamp d Const.amtMin Const.amtMax }) :=
  checked_pass (pass3 h)

theorem execRouteClear_next (x : Byte) {s : State}
    (h : (Instr.routeClear x).wellFormed s.cfg = true) :
    exec (.routeClear x) s = .next
      (s.modRoute x fun _ => routeEmpty) :=
  checked_pass (pass1 h)

end Sys2Proof.Machine
end

