-- ==== Sys2Proof/Laws/Fields.lean ====
section
/-! SUPPORT. The fields of a word put together from its fields (30_encoding.md R140). -/

namespace Sys2Proof

theorem x_word (o x y z : Byte) (d : Word) : Command.x (o ++ x ++ y ++ z ++ d : Command) = x := by
  apply BitVec.eq_of_getLsbD_eq
  intro k hk
  simp only [Command.x, BitVec.getLsbD_extractLsb', BitVec.getLsbD_append, hk, decide_true, Bool.true_and]
  rw [if_neg (by omega), if_neg (by omega), if_neg (by omega), if_pos (by omega)]
  congr 1; omega
theorem y_word (o x y z : Byte) (d : Word) : Command.y (o ++ x ++ y ++ z ++ d : Command) = y := by
  apply BitVec.eq_of_getLsbD_eq
  intro k hk
  simp only [Command.y, BitVec.getLsbD_extractLsb', BitVec.getLsbD_append, hk, decide_true, Bool.true_and]
  rw [if_neg (by omega), if_neg (by omega), if_pos (by omega)]
  congr 1; omega
theorem z_word (o x y z : Byte) (d : Word) : Command.z (o ++ x ++ y ++ z ++ d : Command) = z := by
  apply BitVec.eq_of_getLsbD_eq
  intro k hk
  simp only [Command.z, BitVec.getLsbD_extractLsb', BitVec.getLsbD_append, hk, decide_true, Bool.true_and]
  rw [if_neg (by omega), if_pos (by omega)]
  congr 1; omega
theorem d_word (o x y z : Byte) (d : Word) : Command.d (o ++ x ++ y ++ z ++ d : Command) = d := by
  apply BitVec.eq_of_getLsbD_eq
  intro k hk
  simp only [Command.d, BitVec.getLsbD_extractLsb', BitVec.getLsbD_append, hk, decide_true, Bool.true_and]
  rw [if_pos (by omega)]
  congr 1; omega

/-- A 16-bit index is its two bytes (R141). -/
theorem index_word (n : BitVec 16) : (n.extractLsb' 8 8 ++ n.extractLsb' 0 8 : BitVec 16) = n := by
  apply BitVec.eq_of_getLsbD_eq
  intro k hk
  simp only [BitVec.getLsbD_extractLsb', BitVec.getLsbD_append]
  split
  · next h => simp [h]
  · next h => simp [show k - 8 < 8 by omega, show 8 + (k - 8) = k by omega]

end Sys2Proof
end

