-- ==== Sys2Proof/Laws/Host.lean ====
section
/-! SUPPORT. The output streams and the host: when a stream accepts words, what taking one leaves, and that taking all ends
a stall. -/

namespace Sys2Proof.Machine

/-- The model's test of a stream is the statements' word for it. -/
theorem roomFor_iff (cap : Option Nat) (held n : Nat) : roomFor cap held n = true ↔ Accepts cap held n := by
  unfold roomFor Accepts
  cases cap <;> simp

@[simp] theorem roomFor_none (held n : Nat) : roomFor none held n = true := rfl

/-- A stream that is not full has room for one word and for none, and only such a stream has. -/
theorem roomFor_le_one (cap : Option Nat) (held n : Nat) (hn : n ≤ 1) :
    roomFor cap held n = true ↔ ∀ k, cap = some k → held < k := by
  rw [roomFor_iff]
  exact forall₂_congr fun k _ => ⟨And.left, fun h => ⟨h, .inl (by omega)⟩⟩

/-- A full stream has room for nothing. -/
theorem roomFor_full {cap : Option Nat} {held : Nat} (h : ¬ ∀ k, cap = some k → held < k) (n : Nat) :
    roomFor cap held n = false :=
  Bool.eq_false_iff.2 fun hr => h fun k hk => ((roomFor_iff cap held n).1 hr k hk).1

/-- An empty stream that can hold anything accepts every count. -/
theorem roomFor_empty {cap : Option Nat} (h : cap ≠ some 0) (n : Nat) : roomFor cap 0 n = true :=
  (roomFor_iff cap 0 n).2 fun k hk => ⟨Nat.pos_of_ne_zero fun h0 => h (by rw [hk, h0]), .inr rfl⟩

/-- Every command runs when neither stream is full and the audio stream accepts its frames. -/
theorem hasRoom_of_notFull {s : State} {c : Decoded} (h : s.NotFull)
    (hf : Accepts s.audioCap s.audio.length (framesOfDecoded c)) : s.hasRoom c = true := by
  have hr : responsesOfDecoded c ≤ 1 := by
    unfold responsesOfDecoded
    split
    · exact Nat.le_refl 1
    · split <;> decide
    · decide
  simp [State.hasRoom, (roomFor_iff _ _ _).2 hf, (roomFor_le_one _ _ _ hr).2 h.2]

/-- No command runs while a stream is full. -/
theorem hasRoom_of_full {s : State} (h : ¬ s.NotFull) (c : Decoded) : s.hasRoom c = false := by
  unfold State.hasRoom
  by_cases ha : ∀ k, s.audioCap = some k → s.audio.length < k
  · simp [roomFor_full (fun hr => h ⟨ha, hr⟩)]
  · simp [roomFor_full ha]

@[simp] theorem host_takeFrame (s : State) : s.host .takeFrame = { s with audio := s.audio.dropLast } := rfl
@[simp] theorem host_takeResponse (s : State) : s.host .takeResponse = { s with responses := s.responses.dropLast } := rfl

theorem takeFrame_iterate (n : Nat) (s : State) :
    (fun t : State => t.host .takeFrame)^[n] s = { s with audio := s.audio.take (s.audio.length - n) } := by
  induction n generalizing s with
  | zero => simp
  | succ n ih =>
    rw [Function.iterate_succ_apply, ih]
    simp [List.dropLast_eq_take, List.take_take, Nat.sub_sub, Nat.add_comm]
    omega

theorem takeResponse_iterate (n : Nat) (s : State) :
    (fun t : State => t.host .takeResponse)^[n] s = { s with responses := s.responses.take (s.responses.length - n) } := by
  induction n generalizing s with
  | zero => simp
  | succ n ih =>
    rw [Function.iterate_succ_apply, ih]
    simp [List.dropLast_eq_take, List.take_take, Nat.sub_sub, Nat.add_comm]
    omega

/-- After the host has taken everything both streams are empty, and nothing else has changed. -/
theorem drained_eq (s : State) : s.drained = { s with audio := [], responses := [] } := by
  unfold State.drained
  rw [takeFrame_iterate, takeResponse_iterate]
  simp

end Sys2Proof.Machine
end

