-- ==== Sys2Proof/Laws/Units.lean ====
section
/-! SUPPORT. The unit operations keep each unit's registers legal: the terms of the invariant, one lemma per operation. -/

namespace Sys2Proof.Machine

/-- A clamp of anything but a NaN lands in the range. -/
theorem clamp_inRange {x lo hi : F32} (hx : F32.isNaN x = false) (hl : F32.isNaN lo = false) (hh : F32.isNaN hi = false)
    (hle : F32.le lo hi = true) : inRange lo hi (F32.clamp x lo hi) = true := by
  unfold inRange F32.clamp
  simp only [F32.le, F32.lt, hx, hl, hh, Bool.not_false, Bool.true_and, decide_eq_true_eq] at hle ⊢
  split
  · simp [hl, hle]
  · split
    · simp [hh, hle]
    · simp [hx]; omega

/-- A clamp of anything lands outside neither bound. -/
theorem clamp_notOutside {x lo hi : F32}
    (hle : F32.le lo hi = true) : notOutside lo hi (F32.clamp x lo hi) = true := by
  unfold notOutside F32.clamp
  simp only [F32.le, F32.lt, Bool.and_eq_true, decide_eq_true_eq, Bool.not_eq_true'] at hle ⊢
  obtain ⟨⟨hl, hh⟩, hle⟩ := hle
  split
  · simp [hl, hh, hle]
  · split
    · simp [hl, hh, hle]
    · next h1 h2 => simp [hl, hh] at h1 h2 ⊢; exact ⟨h1, h2⟩

theorem oscEffective_ok_of {c : Config} {fs a b d : F32} {o : Osc} (hc : 1 ≤ c.nb) (h1 : inRange Const.detMin Const.detMax o.detune = true)
    (h2 : inRange Const.pwMin Const.pwMax o.pw = true) (h3 : inRange Const.mixMin Const.mixMax o.mix = true)
    (h8 : decide (o.custLen ≤ c.uMax) = true) (h9 : o.user.wf = true) (h10 : o.user.below c.uMax = true) (h11 : o.ctab.wf = true) (h12 : o.ctab.below c.tab = true) :
    oscOk c (oscEffective c fs a b d o) = true := by
  have hb : ∀ f, Tables.selectBand c.nb f < c.nb := by
    intro f
    unfold Tables.selectBand
    have : ∀ n, 1 ≤ n → Tables.bandBelow c.nb f n < n := by
      intro n hn
      induction n with
      | zero => omega
      | succ n ih =>
        unfold Tables.bandBelow
        split
        · omega
        · rcases Nat.eq_zero_or_pos n with rfl | hp
          · simp [Tables.bandBelow]
          · have := ih hp; omega
    exact this _ hc
  unfold oscOk
  simp only [Bool.and_eq_true, oscEffective]
  exact ⟨⟨⟨⟨⟨⟨⟨⟨⟨⟨⟨h1,h2⟩,h3⟩,clamp_notOutside (by decide)⟩,clamp_notOutside (by decide)⟩,clamp_notOutside (by decide)⟩,decide_eq_true (hb _)⟩,h8⟩,h9⟩,h10⟩,h11⟩,h12⟩

theorem oscEffective_ok {c : Config} {fs a b d : F32} {o : Osc} (hc : 1 ≤ c.nb) (h : oscOk c o = true) :
    oscOk c (oscEffective c fs a b d o) = true := by
  unfold oscOk at h
  simp only [Bool.and_eq_true] at h
  obtain ⟨⟨⟨⟨⟨⟨⟨⟨⟨⟨⟨h1, h2⟩, h3⟩, _⟩, _⟩, _⟩, _⟩, h8⟩, h9⟩, h10⟩, h11⟩, h12⟩ := h
  exact oscEffective_ok_of hc h1 h2 h3 h8 h9 h10 h11 h12

theorem fltUpdate_ok_of {c : Config} {fs a b d : F32} {f : Flt} (h1 : inRange Const.cutMin Const.cutMax f.cutoff = true)
   (h2 : inRange Const.qMin Const.qMax f.res = true) (h3 : inRange Const.gainMin Const.gainMax f.gain = true)
   (h7 : F32.isFinite f.x1 = true) (h8 : F32.isFinite f.x2 = true) (h9 : F32.isFinite f.y1 = true) (h10 : F32.isFinite f.y2 = true) :
    fltOk (fltUpdate c fs a b d f) = true := by
  unfold fltOk
  simp only [Bool.and_eq_true, fltUpdate, coefs, normCoefs]
  exact ⟨⟨⟨⟨⟨⟨⟨⟨⟨h1,h2⟩,h3⟩,clamp_notOutside (by decide)⟩,clamp_notOutside (by decide)⟩,by decide⟩,h7⟩,h8⟩,h9⟩,h10⟩

theorem fltUpdate_ok {c : Config} {fs a b d : F32} {f : Flt} (h : fltOk f = true) :
    fltOk (fltUpdate c fs a b d f) = true := by
  unfold fltOk at h
  simp only [Bool.and_eq_true] at h
  obtain ⟨⟨⟨⟨⟨⟨⟨⟨⟨h1,h2⟩,h3⟩,h4⟩,h5⟩,h6⟩,h7⟩,h8⟩,h9⟩,h10⟩ := h
  exact fltUpdate_ok_of h1 h2 h3 h7 h8 h9 h10

theorem fltClear_ok {f : Flt} (h : fltOk f = true) : fltOk (fltClear f) = true := by
  unfold fltOk at h ⊢
  simp only [Bool.and_eq_true, fltClear] at h ⊢
  obtain ⟨⟨⟨⟨⟨⟨⟨⟨⟨h1,h2⟩,h3⟩,h4⟩,h5⟩,h6⟩,h7⟩,h8⟩,h9⟩,h10⟩ := h
  exact ⟨⟨⟨⟨⟨⟨⟨⟨⟨h1,h2⟩,h3⟩,h4⟩,h5⟩,h6⟩,by decide⟩,by decide⟩,by decide⟩,by decide⟩

theorem lfoEffective_ok {fs tempo : F32} {l : Lfo} (h : lfoOk l = true) : lfoOk (lfoEffective fs tempo l) = true := by
  unfold lfoOk at h ⊢
  simp only [Bool.and_eq_true, lfoEffective] at h ⊢
  refine ⟨h.1, ?_⟩
  have h1 : inRange Const.lfoFMin Const.lfoFMax l.freq = true := h.1.1.1.1
  have h2 : notOutside Const.lfoFMin Const.lfoFMax l.freq = true := by
    unfold inRange at h1; unfold notOutside
    simp only [F32.le, F32.lt, Bool.and_eq_true, decide_eq_true_eq, Bool.not_eq_true'] at h1 ⊢
    simp [h1]
  split
  · exact clamp_notOutside (by decide)
  all_goals exact h2

theorem envStep_ok {e : Env} (h : envOk e = true) : envOk (envStep e) = true := by
  unfold envOk at h ⊢
  simp only [Bool.and_eq_true, decide_eq_true_eq] at h
  obtain ⟨⟨⟨⟨⟨⟨⟨⟨⟨⟨⟨h1,h2⟩,h3⟩,h4⟩,h5⟩,h6⟩,h7⟩,h8⟩,h9⟩,h10⟩,h11⟩,h12⟩ := h
  unfold envStep envRamp envShutdown envEnter
  cases hs : e.stage <;> simp only [hs] at h12 ⊢ <;> (try split) <;> simp_all

/-- What holds of every element, and of what `g` makes of one, holds of every element after `modify`. -/
theorem mem_modify {α} {l : List α} {x : Nat} {g : α → α} {p : α → Prop} (h : ∀ a ∈ l, p a) (hg : ∀ a, p a → p (g a)) :
    ∀ a ∈ l.modify x g, p a := by
  intro a ha
  obtain ⟨i, hi, rfl⟩ := List.getElem_of_mem ha
  rw [List.getElem_modify]
  split
  · exact hg _ (h _ (List.getElem_mem _))
  · exact h _ (List.getElem_mem _)

end Sys2Proof.Machine
end

