-- ==== Sys2Proof/Laws/Legal.lean ====
section
/-! SUPPORT. The unit operations of block start and of the setters keep the running and the derived registers in the ranges of
`State.Legal`: one lemma per operation. -/

namespace Sys2Proof.Machine

open F32

theorem add_not_nan {a b : F32} (ha : isFinite a = true) (hb : isFinite b = true) : isNaN (add a b) = false := by
  obtain ⟨an, ai⟩ := (isFinite_iff a).1 ha
  obtain ⟨bn, bi⟩ := (isFinite_iff b).1 hb
  unfold add
  simp only [an, ai, bn, bi, Bool.or_self, Bool.false_eq_true, if_false]
  split
  · split <;> decide
  · exact isNaN_ofMag _ (roundMag_cap _ _)

theorem mul_not_nan {a b : F32} (ha : isFinite a = true) (hb : isFinite b = true) : isNaN (mul a b) = false := by
  obtain ⟨an, ai⟩ := (isFinite_iff a).1 ha
  obtain ⟨bn, bi⟩ := (isFinite_iff b).1 hb
  unfold mul
  simp only [an, ai, bn, bi, Bool.or_self, Bool.false_eq_true, if_false]
  exact isNaN_ofMag _ (roundMag_cap _ _)

/-- The clamped sum of two finite values is in the range. -/
theorem clamp_add {a b lo hi : F32} (ha : isFinite a = true) (hb : isFinite b = true) (hl : isNaN lo = false)
    (hh : isNaN hi = false) (hle : F32.le lo hi = true) : inRange lo hi (clamp (add a b) lo hi) = true :=
  clamp_inRange (add_not_nan ha hb) hl hh hle

/-- The ceiling of CUT_EFF is a value, and not below CUT_MIN (42_filter.md R301). -/
theorem cut_ceiling {fs : F32} (hfs : inRange Const.fsMin Const.fsMax fs = true) :
    isNaN (F32.min Const.cutMax (mul Const.nyqFrac fs)) = false ∧
      F32.le Const.cutMin (F32.min Const.cutMax (mul Const.nyqFrac fs)) = true := by
  obtain ⟨sn, s0, s1⟩ := (inRange_iff (by decide) (by decide)).1 hfs
  have sf : isFinite fs = true := finite_of_inRange (by decide) (by decide) hfs
  have t0 : toInt Const.fsMin = 8000 * 2 ^ 149 := by decide
  have t1 : toInt Const.fsMax = 192000 * 2 ^ 149 := by decide
  have tn : toInt Const.nyqFrac = 16441672 * 2 ^ 124 := by decide
  have t2 : toInt Const.cutMin = 20 * 2 ^ 149 := by decide
  have t3 : toInt 0x48000000#32 = 2 ^ 17 * 2 ^ 149 := by decide
  have hq : inRange Const.cutMin 0x48000000#32 (mul Const.nyqFrac fs) = true := by
    refine mul_between (by decide) sf (by decide) (by decide) ?_ ?_
    · rw [t2, tn]; push_cast; omega
    · rw [t3, tn]; push_cast; omega
  obtain ⟨qn, q0, -⟩ := (inRange_iff (by decide) (by decide)).1 hq
  unfold F32.min
  split
  · refine ⟨qn, ?_⟩
    unfold F32.le
    simp [qn, q0, show isNaN Const.cutMin = false by decide]
  · exact ⟨by decide, by decide⟩

/-- A coefficient update leaves the effective parameters in their ranges and every coefficient finite (R301, R313, R320). -/
theorem fltUpdate_legal {c : Config} (hc : c.legal = true) {fs a b d : F32} {f : Flt}
    (hfs : inRange Const.fsMin Const.fsMax fs = true) (ok : fltOk f = true) (ha : isFinite a = true)
    (hb : isFinite b = true) (hd : isFinite d = true) : fltLegal fs (fltUpdate c fs a b d f) = true := by
  unfold fltOk at ok
  simp only [Bool.and_eq_true] at ok
  obtain ⟨⟨⟨⟨⟨⟨⟨⟨⟨h1, h2⟩, h3⟩, -⟩, -⟩, -⟩, -⟩, -⟩, -⟩, -⟩ := ok
  have fin {lo hi x : F32} (hl : isFinite lo = true) (hh : isFinite hi = true) (h : inRange lo hi x = true) :=
    finite_of_inRange hl hh h
  obtain ⟨cn, cle⟩ := cut_ceiling hfs
  have e1 : inRange Const.cutMin (F32.min Const.cutMax (mul Const.nyqFrac fs)) (fltUpdate c fs a b d f).cutEff = true :=
    clamp_add (fin (by decide) (by decide) h1) ha (by decide) cn cle
  have e2 : inRange Const.qMin Const.qMax (fltUpdate c fs a b d f).qEff = true :=
    clamp_add (fin (by decide) (by decide) h2) hb (by decide) (by decide) (by decide)
  have e3 : inRange Const.gainMin Const.gainMax (fltUpdate c fs a b d f).gainEff = true :=
    clamp_add (fin (by decide) (by decide) h3) hd (by decide) (by decide) (by decide)
  obtain ⟨k0, k1, k2, k3, k4⟩ := coefs_finite hc f.type hfs e1 e2 e3
  unfold fltLegal
  simp only [Bool.and_eq_true]
  exact ⟨⟨⟨⟨⟨⟨⟨e1, e2⟩, e3⟩, k0⟩, k1⟩, k2⟩, k3⟩, k4⟩

/-- The quotient of a frequency up to 20000 Hz and a sample rate is finite. -/
theorem increment_finite {fs f hi : F32} (hfs : inRange Const.fsMin Const.fsMax fs = true)
    (hh : isFinite hi = true) (hhi : toInt hi ≤ 20000 * 2 ^ 149) (hf : inRange posZero hi f = true) :
    isFinite (div f fs) = true := by
  obtain ⟨-, s0, -⟩ := (inRange_iff (by decide) (by decide)).1 hfs
  obtain ⟨-, f0, f1⟩ := (inRange_iff (by decide) ((isFinite_iff hi).1 hh).1).1 hf
  have t0 : toInt Const.fsMin = 8000 * 2 ^ 149 := by decide
  have t4 : toInt Const.four = 2 ^ 151 := by decide
  rw [toInt_posZero] at f0
  refine finite_of_inRange (lo := posZero) (hi := Const.four) (by decide) (by decide)
    (div_between (finite_of_inRange (by decide) hh hf) (finite_of_inRange (by decide) (by decide) hfs) (by omega)
      (by decide) (by decide) ?_ ?_)
  · rw [toInt_posZero, zero_mul]; positivity
  · rw [t4]; omega

/-- The effective parameters of an oscillator are in their ranges (41_oscillator.md R251). -/
theorem oscEffective_legal {c : Config} {fs a b d : F32} {o : Osc} (hfs : inRange Const.fsMin Const.fsMax fs = true)
    (ok : oscOk c o = true) (h : oscLegal c fs o = true) (ha : isFinite a = true) (hb : isFinite b = true)
    (hd : isFinite d = true) : oscLegal c fs (oscEffective c fs a b d o) = true := by
  unfold oscOk at ok
  simp only [Bool.and_eq_true] at ok
  obtain ⟨⟨⟨⟨⟨⟨⟨⟨⟨⟨⟨g1, g2⟩, g3⟩, -⟩, -⟩, -⟩, -⟩, -⟩, -⟩, -⟩, -⟩, -⟩ := ok
  unfold oscLegal at h
  simp only [Bool.and_eq_true] at h
  obtain ⟨⟨⟨⟨⟨⟨⟨⟨⟨⟨⟨h1, h2⟩, h3⟩, h4⟩, h5⟩, -⟩, -⟩, -⟩, -⟩, -⟩, -⟩, h12⟩ := h
  have ff := finite_of_inRange (lo := 0x4102D013#32) (hi := Const.fMax) (by decide) (by decide) h1
  have fds := finite_of_inRange (by decide) (by decide) (FastMath.dscale_between g1)
  -- FREQ ⊗ DSCALE is finite: both are bounded
  have hprod : isFinite (mul o.freq o.dscale) = true := by
    rw [beq_iff_eq] at h4
    rw [h4]
    obtain ⟨-, f0, f1⟩ := (inRange_iff (by decide) (by decide)).1 h1
    obtain ⟨-, d0, d1⟩ := (inRange_iff (by decide) (by decide)).1 (FastMath.dscale_between g1)
    have t1 : toInt Const.fMax = 20000 * 2 ^ 149 := by decide
    have t2 : toInt 0x40840000#32 = 33 * 2 ^ 146 := by decide
    have t3 : (0 : Int) < toInt 0x4102D013#32 := by decide
    have t4 : (0 : Int) < toInt 0x3E7FE000#32 := by decide
    have t5 : toInt 0x48000000#32 = 2 ^ 17 * 2 ^ 149 := by decide
    refine finite_of_inRange (lo := posZero) (hi := 0x48000000#32) (by decide) (by decide)
      (mul_between ff fds (by decide) (by decide) ?_ ?_)
    · rw [toInt_posZero, zero_mul]
      exact mul_nonneg (by omega) (by omega)
    · rw [t5]
      calc toInt o.freq * toInt (FastMath.dscale o.detune) ≤ (20000 * 2 ^ 149) * (33 * 2 ^ 146) :=
            mul_le_mul (by omega) (by omega) (by omega) (by norm_num)
        _ ≤ _ := by norm_num
  have e1 : inRange Const.fMin Const.fMax (oscEffective c fs a b d o).fEff = true :=
    clamp_add hprod ha (by decide) (by decide) (by decide)
  have e2 : inRange Const.pwMin Const.pwMax (oscEffective c fs a b d o).pwEff = true :=
    clamp_add (finite_of_inRange (by decide) (by decide) g2) hb (by decide) (by decide) (by decide)
  have e3 : inRange Const.mixMin Const.mixMax (oscEffective c fs a b d o).mixEff = true :=
    clamp_add (finite_of_inRange (by decide) (by decide) g3) hd (by decide) (by decide) (by decide)
  have e4 : isFinite (oscEffective c fs a b d o).inc = true := by
    refine increment_finite (hi := Const.fMax) hfs (by decide) (by decide) ?_
    obtain ⟨n, l, u⟩ := (inRange_iff (by decide) (by decide)).1 e1
    have : (0 : Int) < toInt Const.fMin := by decide
    exact (inRange_iff (by decide) (by decide)).2 ⟨n, by rw [toInt_posZero]; exact this.le.trans l, u⟩
  unfold oscLegal
  simp only [Bool.and_eq_true]
  exact ⟨⟨⟨⟨⟨⟨⟨⟨⟨⟨⟨h1, h2⟩, h3⟩, h4⟩, h5⟩, e1⟩, by simp [oscEffective]⟩, e4⟩, by simp [oscEffective]⟩, e2⟩, e3⟩, h12⟩

/-- The rate of an LFO is in its range and its increment finite (44_lfo.md R401). -/
theorem lfoEffective_legal {fs tempo : F32} {l : Lfo} (hfs : inRange Const.fsMin Const.fsMax fs = true)
    (ht : inRange Const.tempoMin Const.tempoMax tempo = true) (ok : lfoOk l = true) (h : lfoLegal fs l = true) :
    lfoLegal fs (lfoEffective fs tempo l) = true := by
  unfold lfoOk at ok
  simp only [Bool.and_eq_true] at ok
  obtain ⟨⟨⟨⟨g1, -⟩, -⟩, g4⟩, -⟩ := ok
  unfold lfoLegal at h
  simp only [Bool.and_eq_true] at h
  obtain ⟨⟨⟨⟨h1, h2⟩, -⟩, -⟩, -⟩ := h
  have hr : ∀ d, d ≤ 15 → isFinite (Tables.rdiv d) = true := by decide +kernel
  have e1 : inRange Const.lfoFMin Const.lfoFMax (lfoEffective fs tempo l).fEff = true := by
    unfold lfoEffective
    simp only
    split
    · exact clamp_inRange (mul_not_nan (finite_of_inRange (by decide) (by decide) ht) (hr _ (of_decide_eq_true g4)))
        (by decide) (by decide) (by decide)
    · exact g1
    · exact g1
  have e2 : isFinite (lfoEffective fs tempo l).inc = true := by
    refine increment_finite (hi := Const.lfoFMax) hfs (by decide) (by decide) ?_
    obtain ⟨n, lo, u⟩ := (inRange_iff (by decide) (by decide)).1 e1
    have : (0 : Int) < toInt Const.lfoFMin := by decide
    exact (inRange_iff (by decide) (by decide)).2 ⟨n, by rw [toInt_posZero]; exact this.le.trans lo, u⟩
  unfold lfoLegal
  simp only [Bool.and_eq_true]
  exact ⟨⟨⟨⟨h1, h2⟩, e1⟩, by simp [lfoEffective]⟩, e2⟩

/-- A draw is in [−1, 1] (40_fastmath.md R210). -/
theorem draw_bipolar (p : Word) : inRange Const.minusOne one (FastMath.draw p).2 = true := by
  unfold FastMath.draw FastMath.prngValue
  simp only
  have hm : (FastMath.prngNext p).toNat >>> 8 < 2 ^ 24 := by
    have := (FastMath.prngNext p).isLt
    rw [Nat.shiftRight_eq_div_pow]
    omega
  generalize (FastMath.prngNext p).toNat >>> 8 = m at *
  have t1 : toInt 0x4B800000#32 = 2 ^ 24 * 2 ^ 149 := by decide
  have t2 : toInt 0x34000000#32 = 2 ^ 126 := by decide
  have t3 : toInt two = 2 ^ 150 := by decide
  have hf : inRange posZero 0x4B800000#32 (float (m : Int)) = true :=
    float_between (by decide) (by decide) (by rw [toInt_posZero]; exact mul_nonneg (Int.natCast_nonneg _) (by norm_num))
      (by rw [t1]; exact Int.mul_le_mul_of_nonneg_right (by exact_mod_cast hm.le) (by norm_num))
  obtain ⟨-, f0, f1⟩ := (inRange_iff (by decide) (by decide)).1 hf
  have hp : inRange posZero two (mul (float (m : Int)) 0x34000000#32) = true := by
    refine mul_between (finite_of_inRange (by decide) (by decide) hf) (by decide) (by decide) (by decide) ?_ ?_
    · rw [toInt_posZero] at f0 ⊢
      rw [t2, zero_mul]
      positivity
    · rw [t1] at f1
      rw [t2, t3]
      push_cast
      omega
  obtain ⟨-, p0, p1⟩ := (inRange_iff (by decide) (by decide)).1 hp
  rw [toInt_posZero] at p0
  rw [t3] at p1
  exact sub_between (finite_of_inRange (by decide) (by decide) hp) (by decide) (by decide) (by decide)
    (by rw [toInt_minusOne, toInt_one]; omega) (by rw [toInt_one]; omega)

/-- The closed-form triangle of a phase is in [−1, 1] (41_oscillator.md R265). -/
theorem triCF_bipolar {φ : F32} (h : unitPhase φ = true) : inRange Const.minusOne one (Tables.triCF φ) = true := by
  unfold unitPhase F32.le F32.lt at h
  simp only [Bool.and_eq_true, decide_eq_true_eq, Bool.not_eq_true'] at h
  obtain ⟨⟨⟨-, hn⟩, h0⟩, -, h1⟩ := h
  rw [toInt_posZero] at h0
  rw [toInt_one] at h1
  have hf : isFinite φ = true := finite_of_inRange (lo := posZero) (hi := one) (by decide) (by decide)
    ((unit_iff _).2 ⟨hn, h0, by omega⟩)
  have q1 : toInt Const.quarter = 2 ^ 147 := by decide
  have q3 : toInt Const.threeQuarters = 3 * 2 ^ 147 := by decide
  have t2 : toInt two = 2 ^ 150 := by decide
  have t3 : toInt 0x40400000#32 = 3 * 2 ^ 149 := by decide
  have t4 : toInt Const.four = 2 ^ 151 := by decide
  have four (lo hi : F32) (fl : isFinite lo = true) (fh : isFinite hi = true) (h1 : toInt lo ≤ 4 * toInt φ)
      (h2 : 4 * toInt φ ≤ toInt hi) : isFinite (mul Const.four φ) = true ∧ toInt lo ≤ toInt (mul Const.four φ) ∧
        toInt (mul Const.four φ) ≤ toInt hi := by
    have hl := ((isFinite_iff lo).1 fl).1
    have hh := ((isFinite_iff hi).1 fh).1
    have := mul_between (a := Const.four) (by decide) hf hl hh (by rw [t4]; push_cast; omega) (by rw [t4]; push_cast; omega)
    obtain ⟨-, a, b⟩ := (inRange_iff hl hh).1 this
    exact ⟨finite_of_inRange fl fh this, a, b⟩
  unfold Tables.triCF F32.lt
  simp only [hn, show isNaN Const.quarter = false by decide, show isNaN Const.threeQuarters = false by decide,
    Bool.not_false, Bool.true_and, decide_eq_true_eq, q1, q3]
  split
  · obtain ⟨f, a, b⟩ := four posZero one (by decide) (by decide) (by rw [toInt_posZero]; omega) (by rw [toInt_one]; omega)
    rw [toInt_posZero] at a
    rw [toInt_one] at b
    exact (bipolar_iff _).2 ⟨((isFinite_iff _).1 f).1, by omega, b⟩
  · split
    · obtain ⟨f, a, b⟩ := four one 0x40400000#32 (by decide) (by decide) (by rw [toInt_one]; omega) (by rw [t3]; omega)
      rw [toInt_one] at a
      rw [t3] at b
      exact sub_between (by decide) f (by decide) (by decide) (by rw [toInt_minusOne, t2]; omega)
        (by rw [toInt_one, t2]; omega)
    · obtain ⟨f, a, b⟩ := four 0x40400000#32 Const.four (by decide) (by decide) (by rw [t3]; omega) (by rw [t4]; omega)
      rw [t3] at a
      rw [t4] at b
      exact sub_between f (by decide) (by decide) (by decide) (by rw [toInt_minusOne, t4]; omega)
        (by rw [toInt_one, t4]; omega)

/-- The waveform of an LFO is in [−1, 1] (44_lfo.md R404). -/
theorem lfoWave_bipolar {c : Config} (hc : c.legal = true) {l : Lfo} (h : unitPhase l.phase = true) (p : Word) :
    inRange Const.minusOne one (lfoWave c.tsin l p).2 = true := by
  have htri := triCF_bipolar h
  unfold unitPhase F32.le F32.lt at h
  simp only [Bool.and_eq_true, decide_eq_true_eq, Bool.not_eq_true'] at h
  obtain ⟨⟨⟨-, hn⟩, h0⟩, -, h1⟩ := h
  rw [toInt_posZero] at h0
  rw [toInt_one] at h1
  have hf : isFinite l.phase = true := finite_of_inRange (lo := posZero) (hi := one) (by decide) (by decide)
    ((unit_iff _).2 ⟨hn, h0, by omega⟩)
  have t2 : toInt two = 2 ^ 150 := by decide
  unfold lfoWave
  split
  · obtain ⟨k, hk, hts⟩ := tsin_cases hc
    have hle : c.tsin ≤ 65536 := by
      rw [hts]
      calc 64 * 2 ^ k ≤ 64 * 2 ^ 10 := Nat.mul_le_mul_left _ (Nat.pow_le_pow_right (by norm_num) hk)
        _ = 65536 := by norm_num
    have hle' : (c.tsin : Int) ≤ 2 ^ 16 := (Int.ofNat_le.2 hle).trans (by norm_num)
    have tb : toInt 0x47800000#32 = 2 ^ 16 * 2 ^ 149 := by decide
    have hfl := toInt_float (n := c.tsin) (by omega)
    have ffl : isFinite (float (c.tsin : Int)) = true :=
      finite_of_inRange (lo := posZero) (hi := 0x47800000#32) (by decide) (by decide)
        (float_between (by decide) (by decide) (by rw [toInt_posZero]; exact mul_nonneg (Int.natCast_nonneg _) (by norm_num))
          (by rw [tb]; exact Int.mul_le_mul_of_nonneg_right hle' (by norm_num)))
    have hp : inRange posZero 0x47800000#32 (mul l.phase (float (c.tsin : Int))) = true := by
      refine mul_between hf ffl (by decide) (by decide) ?_ ?_
      · rw [toInt_posZero, zero_mul, hfl]
        exact mul_nonneg h0 (mul_nonneg (Int.natCast_nonneg _) (by norm_num))
      · rw [tb, hfl]
        calc toInt l.phase * ((c.tsin : Int) * 2 ^ 149) ≤ 2 ^ 149 * (2 ^ 16 * 2 ^ 149) :=
              mul_le_mul h1.le (Int.mul_le_mul_of_nonneg_right hle' (by norm_num))
                (mul_nonneg (Int.natCast_nonneg _) (by norm_num)) (by norm_num)
          _ ≤ _ := by norm_num
    obtain ⟨-, p0, p1⟩ := (inRange_iff (by decide) (by decide)).1 hp
    rw [toInt_posZero] at p0
    rw [tb] at p1
    exact FastMath.sinPos_bipolar (finite_of_inRange (by decide) (by decide) hp) p0 (by omega)
  · exact htri
  · have hm : inRange posZero two (mul two l.phase) = true := by
      refine mul_between (by decide) hf (by decide) (by decide) ?_ ?_
      · rw [toInt_posZero, t2]; omega
      · rw [t2]; push_cast; omega
    obtain ⟨-, m0, m1⟩ := (inRange_iff (by decide) (by decide)).1 hm
    rw [toInt_posZero] at m0
    rw [t2] at m1
    exact sub_between (finite_of_inRange (by decide) (by decide) hm) (by decide) (by decide) (by decide)
      (by rw [toInt_minusOne, toInt_one]; omega) (by rw [toInt_one]; omega)
  · simp only [Tables.squareCF]
    split <;> decide
  · exact draw_bipolar p

/-- VALUE of an LFO is in [−1, 1] (R402). -/
theorem lfoValue_legal {fs w : F32} {l : Lfo} (ok : lfoOk l = true) (h : lfoLegal fs l = true)
    (hw : inRange Const.minusOne one w = true) : lfoLegal fs (lfoValue l w) = true := by
  unfold lfoOk at ok
  simp only [Bool.and_eq_true] at ok
  obtain ⟨⟨⟨⟨-, g2⟩, -⟩, -⟩, -⟩ := ok
  unfold lfoLegal at h
  simp only [Bool.and_eq_true] at h
  obtain ⟨⟨⟨⟨h1, -⟩, h3⟩, h4⟩, h5⟩ := h
  have hd : inRange posZero one l.depth = true := g2
  obtain ⟨-, d0, d1⟩ := (unit_iff _).1 hd
  obtain ⟨-, w0, w1⟩ := (bipolar_iff _).1 hw
  have hm : inRange Const.minusOne one (mul l.depth w) = true := by
    refine mul_between (unit_finite hd) (bipolar_finite hw) (by decide) (by decide) ?_ ?_
    · rw [toInt_minusOne]; push_cast; nlinarith
    · rw [toInt_one]; push_cast; nlinarith
  obtain ⟨mn, m0, m1⟩ := (bipolar_iff _).1 hm
  have hneg : inRange Const.minusOne one (F32.neg (mul l.depth w)) = true := by
    have := (isFinite_iff _).1 (show isFinite (F32.neg (mul l.depth w)) = true by
      rw [isFinite_neg]; exact bipolar_finite hm)
    exact (bipolar_iff _).2 ⟨this.1, by rw [toInt_neg]; omega, by rw [toInt_neg]; omega⟩
  have e : inRange Const.minusOne one (lfoValue l w).value = true := by
    unfold lfoValue
    simp only
    split
    · exact hneg
    · exact hm
  unfold lfoLegal
  simp only [Bool.and_eq_true]
  exact ⟨⟨⟨⟨h1, e⟩, h3⟩, h4⟩, h5⟩

end Sys2Proof.Machine
end

