-- ==== Sys2Proof/Laws/PerInstr.lean ====
section
/-! SUPPORT. Facts about every command as syntax, one lemma per constructor: its word carries its opcode, whatever the
operands (30_encoding.md R140, R143). -/

namespace Sys2Proof.Laws.Encoding

/-- The opcode field of a command's word is the command's opcode. -/
def Statement (i : Instr) : Prop := Command.op i.encode = i.opcode

/-- The opcode field of a word built from its fields. -/
theorem op_word (o x y z : Byte) (d : Word) : Command.op (o ++ x ++ y ++ z ++ d : Command) = o := by
  apply BitVec.eq_of_getLsbD_eq
  intro k hk
  simp only [Command.op, BitVec.getLsbD_extractLsb', BitVec.getLsbD_append, hk, decide_true, Bool.true_and]
  rw [if_neg (by omega), if_neg (by omega), if_neg (by omega), if_neg (by omega)]
  congr 1
  omega

theorem nop : Statement (.nop) := op_word _ _ _ _ _
theorem reset : Statement (.reset) := op_word _ _ _ _ _
theorem setSampleRate (d : Word) : Statement (.setSampleRate d) := op_word _ _ _ _ _
theorem setTempo (d : Word) : Statement (.setTempo d) := op_word _ _ _ _ _
theorem seedPrng (d : Word) : Statement (.seedPrng d) := op_word _ _ _ _ _
theorem read (cls idx fld : Byte) : Statement (.read cls idx fld) := op_word _ _ _ _ _
theorem clearStatus : Statement (.clearStatus) := op_word _ _ _ _ _
theorem noteOn (note vel : Byte) (d : Word) : Statement (.noteOn note vel d) := op_word _ _ _ _ _
theorem noteOff : Statement (.noteOff) := op_word _ _ _ _ _
theorem voiceStop : Statement (.voiceStop) := op_word _ _ _ _ _
theorem voiceKill : Statement (.voiceKill) := op_word _ _ _ _ _
theorem setPressure (y : Byte) : Statement (.setPressure y) := op_word _ _ _ _ _
theorem process (d : Word) : Statement (.process d) := op_word _ _ _ _ _
theorem oscSetWave (x y : Byte) : Statement (.oscSetWave x y) := op_word _ _ _ _ _
theorem oscSetFreq (x : Byte) (d : Word) : Statement (.oscSetFreq x d) := op_word _ _ _ _ _
theorem oscSetPhase (x : Byte) (d : Word) : Statement (.oscSetPhase x d) := op_word _ _ _ _ _
theorem oscSetDetune (x : Byte) (d : Word) : Statement (.oscSetDetune x d) := op_word _ _ _ _ _
theorem oscSetPw (x : Byte) (d : Word) : Statement (.oscSetPw x d) := op_word _ _ _ _ _
theorem oscSetMix (x : Byte) (d : Word) : Statement (.oscSetMix x d) := op_word _ _ _ _ _
theorem oscCustWrite (x : Byte) (n : BitVec 16) (d : Word) : Statement (.oscCustWrite x n d) := op_word _ _ _ _ _
theorem oscCustCommit (x : Byte) (d : Word) : Statement (.oscCustCommit x d) := op_word _ _ _ _ _
theorem fltSetType (x y : Byte) : Statement (.fltSetType x y) := op_word _ _ _ _ _
theorem fltSetCutoff (x : Byte) (d : Word) : Statement (.fltSetCutoff x d) := op_word _ _ _ _ _
theorem fltSetRes (x : Byte) (d : Word) : Statement (.fltSetRes x d) := op_word _ _ _ _ _
theorem fltSetGain (x : Byte) (d : Word) : Statement (.fltSetGain x d) := op_word _ _ _ _ _
theorem fltSetEnable (x y : Byte) : Statement (.fltSetEnable x y) := op_word _ _ _ _ _
theorem fltReset (x : Byte) : Statement (.fltReset x) := op_word _ _ _ _ _
theorem envSetAttack (x : Byte) (d : Word) : Statement (.envSetAttack x d) := op_word _ _ _ _ _
theorem envSetDecay (x : Byte) (d : Word) : Statement (.envSetDecay x d) := op_word _ _ _ _ _
theorem envSetSustain (x : Byte) (d : Word) : Statement (.envSetSustain x d) := op_word _ _ _ _ _
theorem envSetRelease (x : Byte) (d : Word) : Statement (.envSetRelease x d) := op_word _ _ _ _ _
theorem envSetCurve (x y : Byte) : Statement (.envSetCurve x y) := op_word _ _ _ _ _
theorem envSetVelsens (x : Byte) (d : Word) : Statement (.envSetVelsens x d) := op_word _ _ _ _ _
theorem envTrigger (x : Byte) : Statement (.envTrigger x) := op_word _ _ _ _ _
theorem envRelease (x : Byte) : Statement (.envRelease x) := op_word _ _ _ _ _
theorem envStop (x : Byte) : Statement (.envStop x) := op_word _ _ _ _ _
theorem lfoSetWave (x y : Byte) : Statement (.lfoSetWave x y) := op_word _ _ _ _ _
theorem lfoSetFreq (x : Byte) (d : Word) : Statement (.lfoSetFreq x d) := op_word _ _ _ _ _
theorem lfoSetMode (x y : Byte) : Statement (.lfoSetMode x y) := op_word _ _ _ _ _
theorem lfoSetDiv (x y : Byte) : Statement (.lfoSetDiv x y) := op_word _ _ _ _ _
theorem lfoSetDepth (x : Byte) (d : Word) : Statement (.lfoSetDepth x d) := op_word _ _ _ _ _
theorem lfoSetInvert (x y : Byte) : Statement (.lfoSetInvert x y) := op_word _ _ _ _ _
theorem lfoSetRetrig (x y : Byte) : Statement (.lfoSetRetrig x y) := op_word _ _ _ _ _
theorem lfoSetPw (x : Byte) (d : Word) : Statement (.lfoSetPw x d) := op_word _ _ _ _ _
theorem lfoSetPhase (x : Byte) (d : Word) : Statement (.lfoSetPhase x d) := op_word _ _ _ _ _
theorem lfoTrigger (x : Byte) : Statement (.lfoTrigger x) := op_word _ _ _ _ _
theorem routeSet (x src dst : Byte) (d : Word) : Statement (.routeSet x src dst d) := op_word _ _ _ _ _
theorem routeClear (x : Byte) : Statement (.routeClear x) := op_word _ _ _ _ _

end Sys2Proof.Laws.Encoding
end

