-- ==== Sys2Proof/Tests/Slice0.lean ====
section
/-! SUPPORT. The model's own tests. Expected values are the spec's: 95_test_vectors.md (V-…), the examples of the rule
files, or hand calculation where a comment says so. Last, one witness for the hypotheses of every statement. -/

namespace Sys2Proof.Tests

-- one theorem at a time: checked all at once, their threads run past the memory limit
set_option Elab.async false

open Sys2Proof Sys2Proof.Machine

/-! ### Helpers -/

/-- The least units the legal ranges allow, with small tables. -/
def tinyCfg : Config := { nOsc := 1, nFlt := 1, nEnv := 3, nLfo := 1, nRoute := 1, tsin := 64, tab := 64, nb := 1, uMax := 4 }

/-- Power-on reset in that configuration. -/
def tiny : State := State.resetOf tinyCfg

/-- A register after one command. -/
def readAfter (i : Instr) (s : State) (c x f : Nat) : Option Word :=
  match exec i s with
  | .next t => t.readRegister c x f
  | _ => none

/-- Some registers after one command. -/
def readsAfter (i : Instr) (s : State) (as : List Address) : List (Option Word) :=
  match exec i s with
  | .next t => as.map fun a => t.readRegister a.1 a.2.1 a.2.2
  | _ => []

/-- The left samples on the audio stream after one command. -/
def framesAfter (i : Instr) (s : State) : List Word :=
  match exec i s with
  | .next t => t.audioStream.map Frame.l
  | _ => []

/-- EVT_STICKY, LAST_EVT, REJECT_COUNT after one command word. -/
def eventsAfter (w : Command) (s : State) : Option (Word × Word × Word) :=
  match step { s with commands := [w] } with
  | .next t => some (t.evtSticky, t.lastEvt, t.rejectCount)
  | _ => none

/-! ### Well-formedness: one ill-formed command for each check -/

theorem test_smoke_wellFormed_accepts :
    (Instr.oscSetFreq 0 0x43DC0000#32).wellFormed tinyCfg = true ∧ (Instr.oscSetFreq 0 0x7F800000#32).wellFormed tinyCfg = true ∧
    (Instr.read 7 7 0).wellFormed tinyCfg = true ∧ (Instr.envSetCurve 2 8).wellFormed tinyCfg = true ∧
    (Instr.routeSet 0 0x12 0x61 0x3F800000#32).wellFormed Config.reference = true := by decide +kernel

theorem test_smoke_wellFormed_index :
    (Instr.oscSetWave 1 0).wellFormed tinyCfg = false ∧ (Instr.fltReset 1).wellFormed tinyCfg = false ∧
    (Instr.envTrigger 3).wellFormed tinyCfg = false ∧ (Instr.lfoTrigger 1).wellFormed tinyCfg = false ∧
    (Instr.routeClear 1).wellFormed tinyCfg = false := by decide +kernel

theorem test_smoke_wellFormed_operand :
    (Instr.noteOn 128 0 0#32).wellFormed tinyCfg = false ∧ (Instr.noteOn 0 128 0#32).wellFormed tinyCfg = false ∧
    (Instr.setPressure 128).wellFormed tinyCfg = false ∧ (Instr.oscSetWave 0 6).wellFormed tinyCfg = false ∧
    (Instr.oscCustWrite 0 4 0#32).wellFormed tinyCfg = false ∧ (Instr.oscCustCommit 0 0#32).wellFormed tinyCfg = false ∧
    (Instr.oscCustCommit 0 5#32).wellFormed tinyCfg = false ∧ (Instr.fltSetType 0 8).wellFormed tinyCfg = false ∧
    (Instr.fltSetEnable 0 2).wellFormed tinyCfg = false ∧ (Instr.envSetCurve 0 1).wellFormed tinyCfg = false ∧
    (Instr.envSetCurve 0 9).wellFormed tinyCfg = false ∧ (Instr.lfoSetWave 0 5).wellFormed tinyCfg = false ∧
    (Instr.lfoSetMode 0 3).wellFormed tinyCfg = false ∧ (Instr.lfoSetDiv 0 16).wellFormed tinyCfg = false ∧
    (Instr.lfoSetInvert 0 2).wellFormed tinyCfg = false ∧ (Instr.lfoSetRetrig 0 2).wellFormed tinyCfg = false ∧
    (Instr.routeSet 0 0x13 0x70 0#32).wellFormed tinyCfg = false ∧
    (Instr.routeSet 0 0x31 0x70 0#32).wellFormed tinyCfg = false ∧
    (Instr.routeSet 0 0x50 0x70 0#32).wellFormed tinyCfg = false ∧
    (Instr.routeSet 0 0x10 0x80 0#32).wellFormed tinyCfg = false ∧
    (Instr.routeSet 0 0x10 0x11 0#32).wellFormed tinyCfg = false := by decide +kernel

theorem test_smoke_wellFormed_number :
    (Instr.setSampleRate 0x7FC00000#32).wellFormed tinyCfg = false ∧ (Instr.setTempo 0xFF800001#32).wellFormed tinyCfg = false ∧
    (Instr.noteOn 0 0 0x7F800001#32).wellFormed tinyCfg = false ∧ (Instr.oscSetPhase 0 0x7F800000#32).wellFormed tinyCfg = false ∧
    (Instr.lfoSetPhase 0 0xFF800000#32).wellFormed tinyCfg = false ∧
    (Instr.oscCustWrite 0 0 0x7F800000#32).wellFormed tinyCfg = false ∧
    (Instr.fltSetCutoff 0 0x7FFFFFFF#32).wellFormed tinyCfg = false ∧
    (Instr.routeSet 0 0x10 0x70 0x7FC00000#32).wellFormed tinyCfg = false := by decide +kernel

theorem test_smoke_wellFormed_address :
    (Instr.read 9 0 0).wellFormed Config.reference = false ∧ (Instr.read 1 3 0).wellFormed Config.reference = false ∧
    (Instr.read 1 0 14).wellFormed Config.reference = false ∧ (Instr.read 7 1 3).wellFormed Config.reference = false ∧
    (Instr.read 0 1 0).wellFormed Config.reference = false ∧ (Instr.read 0 0 13).wellFormed Config.reference = false ∧
    (Instr.read 6 0 5).wellFormed Config.reference = false ∧ (Instr.read 7 7 1).wellFormed Config.reference = false := by
  decide +kernel

/-! ### Decoding: a word for every constructor (V-ENC-1) -/

theorem test_decode_control :
    decodeCommand 0x0000000000000000#64 = .instr .nop ∧ decodeCommand 0x00FFFFFFFFFFFFFF#64 = .instr .nop ∧
    decodeCommand 0x0100000000000000#64 = .instr .reset ∧
    decodeCommand 0x0200000047BB8000#64 = .instr (.setSampleRate 0x47BB8000#32) ∧
    decodeCommand 0x0300000042F00000#64 = .instr (.setTempo 0x42F00000#32) ∧
    decodeCommand 0x04000000DEADBEEF#64 = .instr (.seedPrng 0xDEADBEEF#32) ∧
    decodeCommand 0x0502010500000000#64 = .instr (.read 2 1 5) ∧
    decodeCommand 0x0600000000000000#64 = .instr .clearStatus := by decide +kernel

theorem test_decode_voice :
    decodeCommand 0x103C640000000000#64 = .instr (.noteOn 60 100 0#32) ∧
    decodeCommand 0x103C64004382C000#64 = .instr (.noteOn 60 100 0x4382C000#32) ∧
    decodeCommand 0x1100000000000000#64 = .instr .noteOff ∧ decodeCommand 0x1200000000000000#64 = .instr .voiceStop ∧
    decodeCommand 0x1300000000000000#64 = .instr .voiceKill ∧
    decodeCommand 0x1400400000000000#64 = .instr (.setPressure 64) ∧
    decodeCommand 0x1500000000000100#64 = .instr (.process 256#32) ∧
    decodeCommand 0x15000000FFFFFFFF#64 = .instr (.process 0xFFFFFFFF#32) := by decide +kernel

theorem test_decode_oscillator :
    decodeCommand 0x2002030000000000#64 = .instr (.oscSetWave 2 3) ∧
    decodeCommand 0x21010000447A0000#64 = .instr (.oscSetFreq 1 0x447A0000#32) ∧
    decodeCommand 0x220000003F000000#64 = .instr (.oscSetPhase 0 0x3F000000#32) ∧
    decodeCommand 0x23010000BF000000#64 = .instr (.oscSetDetune 1 0xBF000000#32) ∧
    decodeCommand 0x240200003DCCCCCD#64 = .instr (.oscSetPw 2 0x3DCCCCCD#32) ∧
    decodeCommand 0x250200003E800000#64 = .instr (.oscSetMix 2 0x3E800000#32) ∧
    decodeCommand 0x26010FFF3F400000#64 = .instr (.oscCustWrite 1 0x0FFF#16 0x3F400000#32) ∧
    decodeCommand 0x2701000000001000#64 = .instr (.oscCustCommit 1 4096#32) := by decide +kernel

theorem test_decode_filter :
    decodeCommand 0x3001070000000000#64 = .instr (.fltSetType 1 7) ∧
    decodeCommand 0x31010000437A0000#64 = .instr (.fltSetCutoff 1 0x437A0000#32) ∧
    decodeCommand 0x320100003F000000#64 = .instr (.fltSetRes 1 0x3F000000#32) ∧
    decodeCommand 0x33000000C1400000#64 = .instr (.fltSetGain 0 0xC1400000#32) ∧
    decodeCommand 0x3401010000000000#64 = .instr (.fltSetEnable 1 1) ∧
    decodeCommand 0x3500000000000000#64 = .instr (.fltReset 0) := by decide +kernel

theorem test_decode_envelope :
    decodeCommand 0x400200003F800000#64 = .instr (.envSetAttack 2 0x3F800000#32) ∧
    decodeCommand 0x410000003E800000#64 = .instr (.envSetDecay 0 0x3E800000#32) ∧
    decodeCommand 0x4201000000000000#64 = .instr (.envSetSustain 1 0#32) ∧
    decodeCommand 0x4302000040000000#64 = .instr (.envSetRelease 2 0x40000000#32) ∧
    decodeCommand 0x4401080000000000#64 = .instr (.envSetCurve 1 8) ∧
    decodeCommand 0x450200003F000000#64 = .instr (.envSetVelsens 2 0x3F000000#32) ∧
    decodeCommand 0x4600000000000000#64 = .instr (.envTrigger 0) ∧
    decodeCommand 0x4702000000000000#64 = .instr (.envRelease 2) ∧
    decodeCommand 0x4800000000000000#64 = .instr (.envStop 0) := by decide +kernel

theorem test_decode_lfo :
    decodeCommand 0x5001040000000000#64 = .instr (.lfoSetWave 1 4) ∧
    decodeCommand 0x510000003F000000#64 = .instr (.lfoSetFreq 0 0x3F000000#32) ∧
    decodeCommand 0x5201020000000000#64 = .instr (.lfoSetMode 1 2) ∧
    decodeCommand 0x53010F0000000000#64 = .instr (.lfoSetDiv 1 15) ∧
    decodeCommand 0x540100003E800000#64 = .instr (.lfoSetDepth 1 0x3E800000#32) ∧
    decodeCommand 0x5501000000000000#64 = .instr (.lfoSetInvert 1 0) ∧
    decodeCommand 0x5600010000000000#64 = .instr (.lfoSetRetrig 0 1) ∧
    decodeCommand 0x570100003F400000#64 = .instr (.lfoSetPw 1 0x3F400000#32) ∧
    decodeCommand 0x5801000000000000#64 = .instr (.lfoSetPhase 1 0#32) ∧
    decodeCommand 0x5901000000000000#64 = .instr (.lfoTrigger 1) := by decide +kernel

theorem test_decode_routing :
    decodeCommand 0x60071221BF000000#64 = .instr (.routeSet 7 0x12 0x21 0xBF000000#32) ∧
    decodeCommand 0x6002406141400000#64 = .instr (.routeSet 2 0x40 0x61 0x41400000#32) ∧
    decodeCommand 0x6107000000000000#64 = .instr (.routeClear 7) := by decide +kernel

/-- V-CHK-1: unassigned opcodes and non-zero reserved fields, by name. -/
theorem test_decode_refuses :
    decodeCommand 0x0700000000000000#64 = .illegalOpcode 7 ∧ decodeCommand 0xFF00000000000000#64 = .illegalOpcode 0xFF ∧
    decodeCommand 0x1101000000000000#64 = .reservedNonzero 0x11 ∧
    decodeCommand 0x2009000100000000#64 = .reservedNonzero 0x20 ∧
    decodeCommand 0x0509000000000001#64 = .reservedNonzero 5 := by decide +kernel

/-! ### Constants and numerics -/

/-- 00_scope.md R8: the patterns are the RN32 of the rule's decimals. -/
theorem test_constants :
    Const.pwMin = F32.ofRat false 1 100 ∧ Const.pwMax = F32.ofRat false 99 100 ∧ Const.nyqFrac = F32.ofRat false 49 100 ∧
    Const.qMin = F32.ofRat false 1 10 ∧ Const.tShut = F32.ofRat false 3 1000 ∧ Const.lfoFMin = F32.ofRat false 1 100 ∧
    Const.attackReset = F32.ofRat false 1 100 ∧ Const.decayReset = F32.ofRat false 1 10 ∧
    Const.sustainReset = F32.ofRat false 8 10 ∧ Const.releaseReset = F32.ofRat false 2 10 ∧
    Const.resReset = F32.sqrt Const.half ∧ Const.fMax = F32.float 20000 ∧ Const.fsMin = F32.float 8000 ∧
    Const.fsMax = F32.float 192000 ∧ Const.tempoMax = F32.float 300 ∧ Const.guardLimit = F32.float 4096 ∧
    Const.amtMin = F32.float (-1000000) ∧ Const.gainMin = F32.float (-24) ∧ Const.fsReset = F32.float 48000 := by
  decide +kernel

/-- Σ ±x^(2k+1)/(2k+1), x = 1/m, to 640 bits: the arctangent (alternating) or the hyperbolic one, by hand. -/
def invArc (alternating : Bool) (m : Nat) : Nat → Nat → Int → Int
  | 0, _, _ => 0
  | f + 1, k, p => p / (2 * k + 1 : Nat) + invArc alternating m f (k + 1) ((if alternating then -p else p) / (m * m : Nat))

/-- π by Machin's formula, ln 2 = 2·artanh(1/3), ln 10 = 3·ln 2 + 2·artanh(1/9): within 2^-627 of the literals. -/
theorem test_transcendental_literals :
    (4 * (4 * invArc true 5 150 0 (2 ^ 640 / 5) - invArc true 239 60 0 (2 ^ 640 / 239)) - Fix.piBits).natAbs < 2 ^ 13 ∧
    (2 * invArc false 3 210 0 (2 ^ 640 / 3) - Fix.ln2Bits).natAbs < 2 ^ 10 ∧
    (6 * invArc false 3 210 0 (2 ^ 640 / 3) + 2 * invArc false 9 110 0 (2 ^ 640 / 9) - Fix.ln10Bits).natAbs < 2 ^ 12 := by
  decide +kernel

/-- 40_fastmath.md R205, R210: TWO_PI, HALF_PI, KSIN and the first draws of V-FM-2. -/
theorem test_fastmath :
    FastMath.twoPi = Fix.rn32 (fun P => 2 * Fix.pi P) ∧ FastMath.halfPi = Fix.rn32 (fun P => Fix.pi P / 2 : Nat → Int) ∧
    FastMath.ksin 1024 = 0x4322F983#32 ∧ FastMath.draw 1#32 = (0x3C88596C#32, 0xBF06EF4E#32) ∧
    FastMath.draw 0x3C88596C#32 = (0x5E8885DB#32, 0xBE85DDEC#32) ∧ FastMath.dscale 0x40E00000#32 = 0x3FBFC887#32 ∧
    FastMath.db40 0xC0C00000#32 = 0x3F353BEF#32 ∧ FastMath.n2f 21 = 0x41DC0000#32 := by decide +kernel

/-- R12, by hand: a tie to even, a subnormal sum, overflow, exact cancellation, a zero's sign, a correctly rounded root. -/
theorem test_arithmetic :
    F32.add 0x3F800000#32 0x33800000#32 = 0x3F800000#32 ∧ F32.add 0x00000001#32 0x00000001#32 = 0x00000002#32 ∧
    F32.mul 0x7F000000#32 0x40000000#32 = 0x7F800000#32 ∧ F32.sub 0x3F800000#32 0x3F800000#32 = 0x00000000#32 ∧
    F32.mul 0xBF800000#32 0x00000000#32 = 0x80000000#32 ∧ F32.div 0x3F800000#32 0x40400000#32 = 0x3EAAAAAB#32 ∧
    F32.sqrt 0x40000000#32 = 0x3FB504F3#32 ∧ F32.wrap 0xBE800000#32 = 0x3F400000#32 := by decide +kernel

/-! ### Memory -/

/-- The reset tables list nothing and are in canonical form; writing the unlisted value removes the entry. -/
theorem test_memory :
    (State.reset.osc.all fun o => o.user.wf && o.ctab.wf) = true ∧
    Memory.write [(2, 0x3F800000#32)] 2 0#32 = [] ∧ Memory.write [(2, 0x3F800000#32)] 1 0x40000000#32 =
      [(1, 0x40000000#32), (2, 0x3F800000#32)] := by decide +kernel

/-! ### Commands, one step each, from reset (95_test_vectors.md §2) -/

/-- V-CTL-1. -/
theorem test_reset_globals :
    (List.range 13).map (State.reset.readRegister 0 0) = [0x473B8000#32, 0x42F00000#32, 1#32, 0#32, 0#32, 0#32, 0#32, 0#32,
      0#32, 0#32, 0x02030203#32, 0x080B0A08#32, 0x00001000#32].map some := by decide +kernel

/-- V-FLT-1. -/
theorem test_reset_coefficients :
    [5, 6, 7, 8, 9, 10].map (State.reset.readRegister 2 0) = [0x3F307655#32, 0x3FB07655#32, 0x3F307655#32, 0x3F800000#32,
      0x3FA3CADD#32, 0x3EF4872C#32].map some := by decide +kernel

/-- V-CTL-2. -/
theorem test_set_sample_rate :
    readsAfter (.setSampleRate 0x472C4400#32) State.reset [(0, 0, 0), (1, 0, 9), (1, 0, 10), (3, 0, 11), (3, 0, 14), (4, 0, 11),
      (2, 0, 15), (2, 0, 5), (2, 0, 9)] = [0x472C4400#32, 0x3C2377EE#32, 3#32, 441#32, 132#32, 0x37BE37C6#32, 0x469C4000#32,
      0x3F5030AD#32, 0x3FCBAF89#32].map some := by decide +kernel

/-- V-CTL-4, V-CTL-5. -/
theorem test_tempo_and_seed :
    readAfter (.setTempo 0x43FA0000#32) State.reset 0 0 1 = some 0x43960000#32 ∧
    readAfter (.setTempo 0x7FC00000#32) State.reset 0 0 6 = some 0x0305#32 ∧
    readAfter (.seedPrng 12345#32) State.reset 0 0 2 = some 12345#32 := by decide +kernel

/-- V-VOICE-1, S2, S4. -/
theorem test_note_on :
    readAfter (.noteOn 69 127 0x49742400#32) State.reset 1 2 1 = some 0x469C4000#32 ∧
    readAfter (.noteOn 69 127 0x80000000#32) State.reset 1 0 1 = some 0x41A00000#32 ∧
    readAfter (.noteOn 0 127 0#32) State.reset 1 0 1 = some 0x4102D013#32 ∧
    readAfter (.noteOn 69 64 0#32) State.reset 3 0 10 = some 0x3F010204#32 ∧
    readAfter (.noteOn 69 127 0#32) State.reset 0 0 4 = some 0x00000013#32 := by decide +kernel

/-- A held note in Sustain, for the commands that end one. -/
def held : State :=
  { tiny with note := 60#8, env := tiny.env.map fun e => { e with stage := .sustain, value := Const.sustainReset } }

/-- 43_envelope.md R361, R362; 45_voice.md R454. -/
theorem test_note_end :
    readsAfter .noteOff held [(3, 1, 0), (3, 1, 3), (6, 0, 0)] = [4#32, 0x3F4CCCCD#32, 60#32].map some ∧
    readsAfter .voiceStop held [(3, 2, 0), (6, 0, 0), (0, 0, 4)] = [5#32, 60#32, 0x1B#32].map some ∧
    readsAfter .voiceKill held [(3, 0, 0), (3, 0, 1), (6, 0, 0), (0, 0, 4)] = [0#32, 0#32, 255#32, 0#32].map some ∧
    readAfter (.setPressure 127) held 6 0 2 = some 127#32 := by decide +kernel

/-- V-OSC-3, V-OSC-4, V-CHK-2. -/
theorem test_oscillator_setters :
    readsAfter (.oscSetDetune 0 0x41A00000#32) tiny [(1, 0, 4), (1, 0, 5)] = [0x41400000#32, 0x40000000#32].map some ∧
    readsAfter (.oscSetPhase 0 0x3FA00000#32) tiny [(1, 0, 2), (1, 0, 3)] = [0x3E800000#32, 0x3E800000#32].map some ∧
    readAfter (.oscSetPw 0 0#32) tiny 1 0 6 = some 0x3C23D70A#32 ∧
    readAfter (.oscSetMix 0 0x40000000#32) tiny 1 0 7 = some 0x3F800000#32 ∧
    readAfter (.oscSetFreq 0 0xFF800000#32) tiny 1 0 1 = some 0x41A00000#32 ∧
    readAfter (.oscSetWave 0 5) tiny 1 0 0 = some 5#32 := by decide +kernel

/-- Four user samples 0, 1, 0, −1 (V-OSC-6). -/
def fourSamples : State := tiny.modOsc 0 fun o => { o with user := [(1, 0x3F800000#32), (3, 0xBF800000#32)] }

/-- V-OSC-6, its table of 2048 entries scaled to 64: entry 1 is a sixteenth of the way to sample 1. -/
theorem test_custom_table :
    (match exec (.oscCustCommit 0 4#32) fourSamples with
     | .next t => [0, 1, 8, 16, 32, 48, 63].map (t.custEntry 0)
     | _ => []) =
      [0x00000000#32, 0x3D800000#32, 0x3F000000#32, 0x3F800000#32, 0x00000000#32, 0xBF800000#32, 0xBD800000#32] ∧
    readAfter (.oscCustCommit 0 4#32) fourSamples 1 0 13 = some 4#32 ∧
    (match exec (.oscCustWrite 0 2 0x7F61B1E6#32) fourSamples with
     | .next t => [1, 2, 3].map (t.userEntry 0)
     | _ => []) = [0x3F800000#32, 0x7F61B1E6#32, 0xBF800000#32] := by decide +kernel

/-- V-FLT-4, and V-FLT-2's HSHELF and NOTCH rows, each as the last setter of its sequence. -/
theorem test_filter_setters :
    readsAfter (.fltSetCutoff 0 0x46EA6000#32) tiny [(2, 0, 1), (2, 0, 15)] = [0x469C4000#32, 0x469C4000#32].map some ∧
    readAfter (.fltSetRes 0 0#32) tiny 2 0 2 = some 0x3DCCCCCD#32 ∧
    readsAfter (.fltSetGain 0 0x40C00000#32)
      (State.reset.modFlt 0 fun f => { f with type := .highShelf, cutoff := 0x447A0000#32 })
      [(2, 0, 5), (2, 0, 6), (2, 0, 7), (2, 0, 8), (2, 0, 9), (2, 0, 10)] =
        [0x3FF756DD#32, 0xC0641A4C#32, 0x3FD3A69F#32, 0x3F800000#32, 0xBFE3F327#32, 0x3F4D7814#32].map some ∧
    readsAfter (.fltSetType 0 3) (State.reset.modFlt 0 fun f => { f with cutoff := 0x447A0000#32 })
      [(2, 0, 5), (2, 0, 6), (2, 0, 7), (2, 0, 9), (2, 0, 10)] =
        [0x3F6A5E6A#32, 0xBFE85CE0#32, 0x3F6A5E6A#32, 0xBFE85CE0#32, 0x3F54BCD3#32].map some := by decide +kernel

/-- V-FLT-5. -/
theorem test_filter_enable_and_reset :
    let s := tiny.modFlt 0 fun f => { f with enable := true, x1 := 0xBF0C8CCC#32, y1 := 0xBF0EE0A0#32 }
    readAfter (.fltSetEnable 0 1) s 2 0 11 = some 0xBF0C8CCC#32 ∧ readAfter (.fltSetEnable 0 0) s 2 0 11 = some 0#32 ∧
    readAfter (.fltReset 0) s 2 0 13 = some 0#32 := by decide +kernel

/-- V-ENV-6, V-ENV-9, 43_envelope.md R360, R374. -/
theorem test_envelope_commands :
    readsAfter (.envSetAttack 0 0#32) tiny [(3, 0, 11), (3, 0, 15)] = [1#32, 0x3F800000#32].map some ∧
    readAfter (.envSetAttack 0 0x3A83126F#32) tiny 3 0 11 = some 48#32 ∧
    readAfter (.envSetDecay 1 0x42C80000#32) tiny 3 1 5 = some 0x41F00000#32 ∧
    readAfter (.envSetRelease 2 0xBF800000#32) tiny 3 2 7 = some 0#32 ∧
    readAfter (.envSetSustain 0 0x40000000#32) tiny 3 0 6 = some 0x3F800000#32 ∧
    readAfter (.envSetVelsens 0 0x3F000000#32) tiny 3 0 9 = some 0x3F000000#32 ∧
    readAfter (.envSetCurve 0 8) tiny 3 0 8 = some 8#32 ∧
    readsAfter (.envTrigger 1) held [(3, 1, 0), (3, 1, 1), (3, 1, 3)] = [1#32, 0x3F4CCCCD#32, 0x3F4CCCCD#32].map some ∧
    readAfter (.envRelease 1) tiny 3 1 0 = some 0#32 ∧ readAfter (.envStop 1) held 3 1 0 = some 5#32 := by decide +kernel

/-- V-ENV-1 to V-ENV-4: first steps of each stage at the lengths of reset. -/
theorem test_envelope_step :
    let e : Env := envLens Const.fsReset envReset
    (envStep { e with stage := .attack }).value = 0x3BCC6080#32 ∧
    (envStep { e with stage := .attack, elapsed := 239 }).value = 0x3F600000#32 ∧
    (envStep { e with stage := .decay, start := F32.one }).value = 0x3F7FF7CF#32 ∧
    (envStep { e with stage := .release, start := Const.sustainReset }).value = 0x3F4CBC6A#32 ∧
    (envStep { e with stage := .shutdown, start := Const.sustainReset }).value = 0x3F4B60B7#32 ∧
    (envStep { e with stage := .attack, elapsed := 479 }).stage = .decay := by decide +kernel

/-- V-LFO-3, V-LFO-4 and the LFO's other setters. -/
theorem test_lfo_commands :
    readAfter (.lfoSetFreq 0 0x3A83126F#32) tiny 4 0 1 = some 0x3C23D70A#32 ∧
    readAfter (.lfoSetFreq 0 0x447A0000#32) tiny 4 0 1 = some 0x42C80000#32 ∧
    readAfter (.lfoTrigger 0) (tiny.modLfo 0 fun l => { l with phase := Const.half, mode := .keySync }) 4 0 8 =
      some 0x3F000000#32 ∧
    readAfter (.lfoTrigger 0) (tiny.modLfo 0 fun l => { l with phase := Const.half, retrig := true }) 4 0 8 = some 0#32 ∧
    readAfter (.lfoSetWave 0 4) tiny 4 0 0 = some 4#32 ∧ readAfter (.lfoSetMode 0 1) tiny 4 0 2 = some 1#32 ∧
    readAfter (.lfoSetDiv 0 15) tiny 4 0 3 = some 15#32 ∧ readAfter (.lfoSetDepth 0 0xBF800000#32) tiny 4 0 4 = some 0#32 ∧
    readAfter (.lfoSetInvert 0 1) tiny 4 0 5 = some 1#32 ∧ readAfter (.lfoSetRetrig 0 1) tiny 4 0 6 = some 1#32 ∧
    readAfter (.lfoSetPw 0 0x3F800000#32) tiny 4 0 7 = some 0x3F7D70A4#32 ∧
    readAfter (.lfoSetPhase 0 0xBE800000#32) tiny 4 0 8 = some 0x3F400000#32 := by decide +kernel

/-- V-LFO-1, V-LFO-2: the rate in tempo sync, the values at phase 0.1. -/
theorem test_lfo_values :
    (lfoEffective Const.fsReset Const.tempoReset { lfoReset with mode := .tempoSync, div := 9 }).fEff = 0x402AAAAB#32 ∧
    (lfoWave 1024 { lfoReset with phase := 0x3DCCCCCD#32 } 1#32).2 = 0x3F1678EC#32 ∧
    (lfoWave 1024 { lfoReset with phase := 0x3DCCCCCD#32, wave := .triangle } 1#32).2 = 0x3ECCCCCD#32 ∧
    (lfoWave 1024 { lfoReset with phase := 0x3DCCCCCD#32, wave := .sawtooth } 1#32).2 = 0xBF4CCCCD#32 ∧
    (lfoWave 1024 { lfoReset with phase := 0x3DCCCCCD#32, wave := .square } 1#32).2 = 0x3F800000#32 := by decide +kernel

/-- V-CHK-2: a routing amount clamps; V-RT-6: clearing a slot. -/
theorem test_routing :
    readsAfter (.routeSet 0 0x30 0x70 0x7F800000#32) tiny [(5, 0, 0), (5, 0, 1), (5, 0, 2)] =
      [0x30#32, 0x70#32, 0x49742400#32].map some ∧
    readsAfter (.routeClear 0) { tiny with route := [{ src := 0x30, dst := 0x70, amount := F32.one }] }
      [(5, 0, 0), (5, 0, 1), (5, 0, 2)] = [0#32, 0#32, 0#32].map some := by decide +kernel

/-- V-CHK-1 and V-CHK-2, one word each from reset. -/
theorem test_events :
    eventsAfter 0x0700000000000000#64 State.reset = some (0x002#32, 0x0701#32, 1#32) ∧
    eventsAfter 0x1101000000000000#64 State.reset = some (0x004#32, 0x1102#32, 1#32) ∧
    eventsAfter 0x2103000043DC0000#64 State.reset = some (0x008#32, 0x2103#32, 1#32) ∧
    eventsAfter 0x2000060000000000#64 State.reset = some (0x010#32, 0x2004#32, 1#32) ∧
    eventsAfter 0x220000007F800000#64 State.reset = some (0x020#32, 0x2205#32, 1#32) ∧
    eventsAfter 0x600810703F800000#64 State.reset = some (0x008#32, 0x6003#32, 1#32) ∧
    eventsAfter 0x0507010300000000#64 State.reset = some (0x100#32, 0x0508#32, 1#32) ∧
    eventsAfter 0x0509000000000001#64 State.reset = some (0x004#32, 0x0502#32, 1#32) ∧
    eventsAfter 0x15000000FFFFFFFB#64 State.reset = some (0#32, 0#32, 0#32) := by decide +kernel

/-- 10_state.md R35: CLEAR_STATUS; READ answers a word (46_control.md R506). -/
theorem test_status_and_read :
    readsAfter .clearStatus { tiny with evtSticky := 2#32, rejectCount := 7#32 } [(0, 0, 4), (0, 0, 5), (0, 0, 7)] =
      [0#32, 0#32, 0#32].map some ∧
    (match exec (.read 5 0 2) tiny, exec (.read 9 0 0) tiny with
     | .next t, .next u => (t.responses, u.responses, u.lastEvt)
     | _, _ => ([], [], 0#32)) = ([0#32], [0#32], 0x0508#32) := by decide +kernel

/-! ### PROCESS, one command each -/

/-- The reference block with a flat envelope and note 69 on, as P1 has it. -/
def noteOn69 : State :=
  { State.reset with
    note := 69#8, vel := 127#8
    env := State.reset.env.map fun e => envTriggered { envLenA Const.fsReset { e with attack := 0#32 } with sustain := F32.one } }

/-- P1: four frames of a sine, STATUS, the phase. -/
theorem test_process_sine :
    framesAfter (.process 4#32) noteOn69 = [0x00000000#32, 0x3D6BC7FC#32, 0x3DEB63F8#32, 0x3E300E11#32] ∧
    readsAfter (.process 4#32) noteOn69 [(0, 0, 3), (0, 0, 4), (1, 0, 2), (3, 0, 0), (3, 0, 1)] =
      [4#32, 0x15#32, 0x3D162FC9#32, 2#32, 0x3F800000#32].map some := by decide +kernel

/-- V-OSC-1: the first frames of each other wave. -/
def waveFrames (w : Wave) (n : Word) : List Word :=
  framesAfter (.process n) (noteOn69.modOsc 0 fun o => { o with wave := w })

theorem test_process_waves :
    waveFrames .triangle 2#32 = [0x00000000#32, 0x3D171EC6#32] ∧ waveFrames .sawtooth 2#32 = [0x00000000#32, 0xBF85E7F0#32] ∧
    waveFrames .square 2#32 = [0x00000000#32, 0x3F8927AD#32] ∧
    waveFrames .noise 4#32 = [0xBF06EF4E#32, 0xBE85DDEC#32, 0x3C0B0080#32, 0x3ED1CCE8#32] := by decide +kernel

/-- V-RT-1: velocity 64 on AMP. -/
theorem test_process_routing :
    readsAfter (.process 1#32)
      { State.reset with vel := 64#8, route := [{ src := 0x30, dst := 0x70, amount := F32.one }] } [(7, 7, 0), (6, 0, 4)] =
      [0x3F010204#32, 0x3FC08102#32].map some := by decide +kernel

/-- 45_voice.md R474: the frame on which the amplitude envelope ends frees the voice. -/
theorem test_process_reclaims :
    readsAfter (.process 1#32)
      { tiny with note := 60#8, env := tiny.env.map fun e => { e with stage := .shutdown, elapsed := 143, start := F32.one } }
      [(6, 0, 0), (3, 0, 0), (3, 0, 1), (0, 0, 4)] = [255#32, 0#32, 0#32, 0#32].map some := by decide +kernel

/-- 42_filter.md R332: a guard trip clears the delay line and is counted (V-FLT-6's event). -/
theorem test_guard :
    let s := tiny.modFlt 0 fun f => { f with enable := true, y1 := 0x7F000000#32 }
    readsAfter (.process 1#32) s [(2, 0, 13), (0, 0, 5), (0, 0, 6), (0, 0, 8)] =
      [0#32, 0x40#32, 0x1506#32, 1#32].map some := by decide +kernel

/-! ### The step, the transports -/

/-- A word sent as bytes, in two pieces, arrives whole (20_memory.md R107, R108); a step runs it. -/
theorem test_transport :
    let s := (tiny.receive [0x64, 0, 0]).receive [0, 0, 0, 0, 0x15]
    s.commands = [0x1500000000000064#64] ∧ s.rxBytes = [] := by decide +kernel

/-- 20_memory.md R103, decision D44, 60_exceptions.md R624: while the audio stream is full every command waits, a NOTE_OFF too,
and each runs once the host has taken the frame. -/
theorem test_stall_ends :
    let s : State := { tiny with
      commands := [0x1500000000000001#64], audio := [{ l := F32.one, r := F32.one }], audioCap := some 1 }
    let ran (o : Host.Outcome State Fault Refusal) : Nat × Nat :=
      match o with
      | .next t => (t.commands.length, t.audio.length)
      | _ => (9, 9)
    ran (step s) = (1, 1) ∧ ran (step (s.host .takeFrame)) = (0, 1) ∧
    ran (step { s with commands := [0x1100000000000000#64] }) = (1, 1) ∧
    ran (step ({ s with commands := [0x1100000000000000#64] }.host .takeFrame)) = (0, 0) := by decide +kernel

/-- 70_reset_and_hazards.md R705: power-on empties the output streams. Log entry 18: the words sent go too, the capacities stay. -/
theorem test_power_on :
    let s := { tiny with
      commands := [0#64], rxBytes := [1#8], responses := [1#32], pressure := 5#8, audioCap := some 7 }.host .powerOn
    (s.commands, s.rxBytes, s.responses, s.pressure, s.audioCap, s.respCap) = ([], [], [], 0#8, some 7, none) := by
  decide +kernel

/-- 30_encoding.md R170, and the two-operand NOTE_ON of 95_test_vectors.md V-VOICE-1. -/
theorem test_note_on_text :
    Asm.assembleLine "NOTE_ON 60, 127" = some [0x103C7F0000000000#64] ∧
    Asm.assembleLine "NOTE_ON 60, 127, 261.5" = some [0x103C7F004382C000#64] := by decide +kernel

/-- 95_test_vectors.md V-CTL-4, P4 step 5 and V-CHK-2. Log entry 15: a minus sign before zero. -/
theorem test_nan_text :
    Asm.assembleLine "SET_TEMPO NaN" = some [0x030000007FC00000#64] ∧
    Asm.assembleLine "ENV_SET_ATTACK 0, NaN" = some [0x400000007FC00000#64] ∧
    Asm.assembleLine "OSC_SET_FREQ 0, −∞" = some [0x21000000FF800000#64] ∧
    Asm.assembleLine "PROCESS −5" = some [0x15000000FFFFFFFB#64] ∧
    Asm.assembleLine "OSC_SET_DETUNE 0, -0.0" = some [0x2300000080000000#64] := by decide +kernel

/-- The decoder through the table's numbering, and the step on the word placed for it. -/
theorem test_fetch :
    decodeTableWord 64 0x1400400000000000 = some (.setPressure 64) ∧
    (match step (tiny.withFetchWord 64 0x1400400000000000) with
     | .next t => (t.pressure, t.commands)
     | _ => (0#8, [0#64])) = (64#8, []) := by decide +kernel

/-! ### Witnesses: states and operands that meet the hypotheses of each statement, clause by clause -/

/-- The small block after power-on reset meets the invariant. -/
theorem tiny_inv : tiny.Inv := by constructor <;> decide +kernel

theorem tiny_ready : tiny.Ready := ⟨tiny_inv, rfl⟩

/-- A state with commands waiting meets what the same state without them does. -/
theorem inv_commands {s : State} (h : s.Inv) (ws : List Command) : State.Inv { s with commands := ws } :=
  ⟨h.cfg, h.oscCount, h.fltCount, h.envCount, h.lfoCount, h.routeCount, h.osc, h.flt, h.env, h.lfo, h.route, h.acc, h.fs,
   h.tempo, h.note, h.vel, h.pressure, h.sticky, h.lastEvt, h.frames⟩

/-- The small block with one command waiting. -/
def waiting (w : Command) : State := { tiny with commands := [w] }

theorem waiting_ready (w : Command) : (waiting w).Ready := ⟨inv_commands tiny_inv _, rfl⟩

/-- A note held in Sustain meets the invariant. -/
theorem held_inv : held.Inv := by constructor <;> decide +kernel

theorem witness_DecodeFollowsOpcodeMap :
    (∃ r ∈ opcodeRows, 0x1400400000000000#64 &&& r.mask = r.pattern) ∧
    (∃ r ∈ opcodeRows, Command.op 0x1400400000000001#64 = Command.op r.pattern ∧ 0x1400400000000001#64 &&& r.mask ≠ r.pattern) ∧
    (∀ r ∈ opcodeRows, Command.op 0x0700000000000000#64 ≠ Command.op r.pattern) ∧
    (∀ r ∈ opcodeRows, Command.op 0x6200000000000000#64 ≠ Command.op r.pattern) := by decide +kernel

/-- The streams of the small block are unbounded. -/
theorem waiting_notFull (w : Command) : (waiting w).NotFull := ⟨nofun, nofun⟩

theorem witness_UnassignedOpcodesRefused (w : Command) :
    (waiting w).Ready ∧ (waiting w).commands = w :: [] ∧ (waiting w).NotFull :=
  ⟨waiting_ready w, rfl, waiting_notFull w⟩

/-- The ends of every unassigned range of R164, and the assigned opcodes beside them. -/
theorem witness_UnassignedOpcodesRefused_ranges :
    (∀ op ∈ [0x07#8, 0x0F#8, 0x16#8, 0x1F#8, 0x28#8, 0x2F#8, 0x36#8, 0x3F#8, 0x49#8, 0x4F#8, 0x5A#8, 0x5F#8, 0x62#8, 0xFF#8],
      decodeCommand (op ++ 0#56) = .illegalOpcode op) ∧
    (∀ op ∈ [0x06#8, 0x10#8, 0x15#8, 0x20#8, 0x27#8, 0x30#8, 0x35#8, 0x40#8, 0x48#8, 0x50#8, 0x59#8, 0x60#8, 0x61#8],
      decodeCommand (op ++ 0#56) ≠ .illegalOpcode op) := by decide +kernel

theorem witness_ReservedFieldsRefused :
    (waiting 0x0509000000000001#64).Ready ∧ (waiting 0x0509000000000001#64).NotFull ∧
    (waiting 0x1101000000000000#64).Ready ∧ (waiting 0x1101000000000000#64).NotFull ∧
    (∃ r ∈ opcodeRows, r.mnemonic = "READ" ∧ Command.op 0x0509000000000001#64 = Command.op r.pattern ∧
      0x0509000000000001#64 &&& r.mask ≠ r.pattern) ∧
    (∃ r ∈ opcodeRows, r.mnemonic ≠ "READ" ∧ Command.op 0x1101000000000000#64 = Command.op r.pattern ∧
      0x1101000000000000#64 &&& r.mask ≠ r.pattern) := by
  exact ⟨waiting_ready _, waiting_notFull _, waiting_ready _, waiting_notFull _,
    ⟨⟨"READ", 0x0500000000000000#64, 0xFF000000FFFFFFFF#64⟩, by decide +kernel, rfl, by decide, by decide⟩,
    ⟨⟨"NOTE_OFF", 0x1100000000000000#64, 0xFFFFFFFFFFFFFFFF#64⟩, by decide +kernel, by decide, by decide, by decide⟩⟩

theorem witness_HintSpaceIsNop :
    (waiting 0x00FFFFFFFFFFFFFF#64).Ready ∧ (waiting 0x00FFFFFFFFFFFFFF#64).NotFull ∧
    Command.op 0x00FFFFFFFFFFFFFF#64 = 0#8 := ⟨waiting_ready _, waiting_notFull _, by decide⟩

theorem witness_TransportAssembly :
    tiny.rxBytes = [] ∧ tiny.rxBytes.length + (List.replicate 7 1#8).length < 8 ∧
    (tiny.rxBytes.length + ([] : List Byte).length < 8) := by decide +kernel

/-- The capacities of the streams are no part of the invariant. -/
theorem ready_caps {s : State} (h : s.Ready) (a r : Option Nat) : State.Ready { s with audioCap := a, respCap := r } :=
  ⟨⟨h.inv.cfg, h.inv.oscCount, h.inv.fltCount, h.inv.envCount, h.inv.lfoCount, h.inv.routeCount, h.inv.osc, h.inv.flt,
    h.inv.env, h.inv.lfo, h.inv.route, h.inv.acc, h.inv.fs, h.inv.tempo, h.inv.note, h.inv.vel, h.inv.pressure,
    h.inv.sticky, h.inv.lastEvt, h.inv.frames⟩, h.resetDone⟩

/-- Unbounded; one place left for the one frame; longer than the whole stream, which is empty. -/
theorem witness_StepRunsDecodedCommand :
    (waiting 0x1500000000000001#64).Ready ∧ (waiting 0x1500000000000001#64).NotFull ∧
    decodeCommand 0x1500000000000001#64 = .instr (.process 1#32) ∧
    Accepts (waiting 0x1500000000000001#64).audioCap 0 (1#32).toInt.toNat ∧ Accepts (some 3) 2 (1#32).toInt.toNat ∧
    Accepts (some 1) 0 (2#32).toInt.toNat :=
  ⟨waiting_ready _, waiting_notFull _, by decide +kernel, nofun, fun _ h => by cases h; decide, fun _ h => by cases h; decide⟩

theorem witness_StepRefusals :
    ({ tiny with cfg := { tinyCfg with nEnv := 2 } } : State).cfg.legal = false ∧
    (({ waiting 0x1100000000000000#64 with resetDone := false } : State).cfg.legal = true ∧
      decodeCommand 0x1100000000000000#64 ≠ .instr .reset) ∧ decodeCommand 0x0100000000000000#64 = .instr .reset ∧
    ({ waiting 0x0100000000000000#64 with resetDone := false } : State).NotFull ∧
    (tiny.cfg.legal = true ∧ tiny.resetDone = true) :=
  ⟨by decide +kernel, by decide +kernel, by decide +kernel, ⟨nofun, nofun⟩, by decide +kernel⟩

/-- One frame held and room for one more, a PROCESS of two. -/
def stalled : State :=
  { waiting 0x1500000000000002#64 with audio := [{ l := F32.one, r := F32.one }], audioCap := some 2 }

theorem stalled_ready : stalled.Ready := ⟨by constructor <;> decide +kernel, rfl⟩

/-- Nothing waiting; a PROCESS that does not fit, which the host's taking lets run; a full audio stream, a full response stream. -/
theorem witness_StepWaits :
    (tiny.Ready ∧ tiny.commands = []) ∧
    (stalled.Ready ∧ decodeCommand 0x1500000000000002#64 = .instr (.process 2#32) ∧
      ¬ Accepts stalled.audioCap stalled.audio.length (2#32).toInt.toNat ∧ stalled.audioCap ≠ some 0 ∧
      stalled.respCap ≠ some 0) ∧
    (State.Ready { stalled with audioCap := some 1, respCap := none } ∧
      ¬ State.NotFull { stalled with audioCap := some 1, respCap := none }) ∧
    (State.Ready { waiting 0x1100000000000000#64 with audioCap := none, respCap := some 0 } ∧
      ¬ State.NotFull { waiting 0x1100000000000000#64 with audioCap := none, respCap := some 0 }) :=
  ⟨⟨tiny_ready, rfl⟩,
   ⟨stalled_ready, by decide +kernel, fun h => absurd (h 2 rfl) (by decide), by decide, by decide⟩,
   ⟨ready_caps stalled_ready _ _, fun h => absurd (h.1 1 rfl) (by decide)⟩,
   ⟨ready_caps (waiting_ready _) _ _, fun h => absurd (h.2 0 rfl) (by decide)⟩⟩

theorem witness_ReadyRunsNeverStop : ∃ s : State, s.Ready := ⟨tiny, tiny_ready⟩

theorem witness_InvariantAtReset : Config.reference.legal = true ∧ tinyCfg.legal = true ∧
    ({ nOsc := 16, nFlt := 16, nEnv := 16, nLfo := 16, nRoute := 64, tsin := 65536, tab := 65536, nb := 16, uMax := 65536 } :
      Config).legal = true := by decide +kernel

theorem witness_InvariantKept : ∃ s t : State, s.Inv ∧ s.commands ≠ [] ∧ step s = .next t :=
  ⟨waiting 0x1100000000000000#64, { tiny with env := tiny.env.map envReleased }, (waiting_ready _).inv, by decide, rfl⟩

/-- Every register of the small block is in its range after reset. -/
theorem tiny_legal : tiny.Legal where
  inv := tiny_inv
  osc := by decide +kernel
  flt := by decide +kernel
  env := by decide +kernel
  lfo := by decide +kernel
  ampEff := by decide +kernel
  acc t n := by
    have h (l : List F32) (hl : l = [F32.posZero]) : F32.isFinite ((l[n]?).getD F32.posZero) = true := by
      subst hl; cases n <;> simp <;> decide
    unfold accGet
    split <;> first | exact h _ rfl | decide +kernel

/-- A command and a frame. -/
theorem witness_LegalRegistersKept :
    (∃ t, (waiting 0x1100000000000000#64).Legal ∧ step (waiting 0x1100000000000000#64) = .next t) ∧
    (∃ t, (waiting 0x1500000000000001#64).Legal ∧ step (waiting 0x1500000000000001#64) = .next t) :=
  have legal (w : Command) : (waiting w).Legal :=
    ⟨(waiting_ready w).inv, tiny_legal.osc, tiny_legal.flt, tiny_legal.env, tiny_legal.lfo, tiny_legal.ampEff,
     tiny_legal.acc⟩
  ⟨⟨_, legal _, rfl⟩, ⟨_, legal _, rfl⟩⟩

theorem witness_EventRecord : (1 ≤ 1 ∧ 1 ≤ 8) ∧ (1 ≤ 8 ∧ 8 ≤ 8) := by decide

theorem witness_CheckPhase :
    unitIndexLegal tinyCfg (.oscSetWave 1 9) = false ∧
    (unitIndexLegal tinyCfg (.oscSetWave 0 6) = true ∧ operandsLegal tinyCfg (.oscSetWave 0 6) = false) ∧
    (unitIndexLegal tinyCfg (.routeSet 0 0x10 0x70 0x7FC00000#32) = true ∧
      operandsLegal tinyCfg (.routeSet 0 0x10 0x70 0x7FC00000#32) = true ∧
      numberLegal (.routeSet 0 0x10 0x70 0x7FC00000#32) = false) ∧
    (Instr.lfoSetPhase 0 0xC0000000#32).wellFormed tinyCfg = true := by decide +kernel

/-- A command that answers a next state and is none of those the general rules leave out. -/
theorem witness_general_rules :
    (∃ t, exec .noteOff held = .next t) ∧ (∃ t, exec (.process 1#32) held = .next t) ∧
    (∃ t, exec (.read 0 0 0) held = .next t) ∧ (∃ t, execReservedNonzero 5 held = .next t) ∧
    (∃ t, execReservedNonzero 0x11 held = .next t) ∧ (∃ t, execIllegalOpcode 7 held = .next t) :=
  ⟨⟨_, rfl⟩, ⟨_, rfl⟩, ⟨_, rfl⟩, ⟨_, rfl⟩, ⟨_, rfl⟩, ⟨_, rfl⟩⟩

/-- EventRegistersPersist: an event recorded before the command. -/
theorem witness_EventRegistersPersist :
    ∃ t, exec .noteOff (tiny.raise 0x11 .badIndex) = .next t ∧ (tiny.raise 0x11 .badIndex).lastEvt ≠ 0#32 :=
  ⟨_, rfl, by decide +kernel⟩

theorem witness_OnlyProcessEmits :
    ∃ t, exec (.process 2#32) held = .next t ∧ t.audioStream.length = 2 ∧ (1 : Nat) < 2 := ⟨_, rfl, by decide +kernel, by decide⟩

theorem witness_OnlyReadResponds : ∃ t, exec (.read 0 0 0) tiny = .next t := ⟨_, rfl⟩

theorem witness_WhoWritesWhat : ∃ t, exec .voiceKill tiny = .next t := ⟨_, rfl⟩

theorem witness_SettersAreIdempotent :
    tiny.Inv ∧ isSetter (.oscCustCommit 0 4#32) = true ∧ (Instr.oscCustCommit 0 4#32).wellFormed tiny.cfg = true ∧
    isSetter (.fltSetEnable 0 1) = true ∧ (Instr.fltSetEnable 0 1).wellFormed tiny.cfg = true :=
  ⟨tiny_inv, by decide +kernel⟩

theorem witness_ResetValues :
    tinyCfg.legal = true ∧ 0 < tinyCfg.nOsc ∧ 2 < tinyCfg.nEnv ∧ 0 < tinyCfg.nFlt ∧ 0 < tinyCfg.nLfo ∧ 0 < tinyCfg.nRoute ∧
    tiny.readRegister 7 7 0 = some 0#32 := by decide +kernel

theorem witness_SampleRateCommand :
    tiny.Inv ∧ F32.isNaN 0x7F800000#32 = false ∧ keptBySampleRate (0, 0, 2) = true ∧ tiny.osc[0]?.isSome = true ∧
    tiny.flt[0]?.isSome = true ∧ tiny.env[2]?.isSome = true ∧ tiny.lfo[0]?.isSome = true ∧
    tiny.readRegister 7 1 0 ≠ none := ⟨tiny_inv, by decide +kernel⟩

theorem witness_GlobalRegisterCommands : F32.isNaN 0xFF800000#32 = false ∧ F32.isNaN 0x7F800000#32 = false := by decide

theorem witness_ReadAnswersRegister :
    (∃ w, tiny.readRegister 1 0 13 = some w) ∧ tiny.readRegister 1 0 14 = none ∧ (∃ w, tiny.readRegister 7 7 0 = some w) ∧
    tiny.readRegister 7 7 1 = none := ⟨⟨_, rfl⟩, rfl, ⟨_, rfl⟩, rfl⟩

theorem witness_RegisterMap :
    tiny.Inv ∧ tiny.osc[0]?.isSome = true ∧ tiny.flt[0]?.isSome = true ∧ tiny.env[2]?.isSome = true ∧
    tiny.lfo[0]?.isSome = true ∧ tiny.route[0]?.isSome = true ∧ tiny.cfg.nOsc ≤ 1 := ⟨tiny_inv, by decide +kernel⟩

theorem witness_StatusAndConfigWords : tiny.env[0]?.isSome = true ∧ tiny.cfg.legal = true := by decide +kernel

theorem witness_NoteOn :
    (held.Inv ∧ held.env[0]?.map Env.stage ≠ some .idle) ∧ (tiny.Inv ∧ tiny.env[0]?.map Env.stage = some .idle) ∧
    (0#8).toNat ≤ 127 ∧ (127#8).toNat ≤ 127 ∧ F32.isNaN 0x80000000#32 = false ∧ F32.isNaN 0x00000000#32 = false :=
  ⟨⟨held_inv, by decide +kernel⟩, ⟨tiny_inv, by decide +kernel⟩, by decide, by decide, by decide, by decide⟩

theorem witness_NoteOffAndVoiceStop :
    (held.Inv ∧ held.env[0]?.map Env.stage = some .sustain) ∧ (tiny.Inv ∧ tiny.env[0]?.map Env.stage = some .idle) :=
  ⟨⟨held_inv, by decide +kernel⟩, ⟨tiny_inv, by decide +kernel⟩⟩

theorem witness_VoiceKillAndPressure : held.Inv ∧ 2 < held.cfg.nEnv ∧ (0#8).toNat ≤ 127 ∧ (127#8).toNat ≤ 127 :=
  ⟨held_inv, by decide +kernel⟩

theorem witness_ProcessRendersFrames :
    (0#32).toInt ≤ 0 ∧ (0xFFFFFFFB#32).toInt ≤ 0 ∧ 0 < (1#32).toInt ∧ 0 < (0x7FFFFFFF#32).toInt := by decide

theorem witness_ProcessKeepsParameters :
    (∃ t, exec (.process 1#32) held = .next t) ∧ isParameter (3, 0, 10) = true := ⟨⟨_, rfl⟩, rfl⟩

/-- A block with one enabled slot, a Noise LFO that is inverted, and a velocity. -/
def routed : State :=
  { tiny with
    vel := 100#8, route := [{ src := 0x20, dst := 0x70, amount := F32.one }]
    lfo := tiny.lfo.map fun l => { l with wave := .noise, invert := true } }

theorem routed_inv : routed.Inv := by constructor <;> decide +kernel

theorem witness_BlockStart :
    routed.Inv ∧ routed.lfo[0]?.isSome = true ∧ routed.osc[0]?.isSome = true ∧ routed.flt[0]?.isSome = true ∧
    (∃ a, Reads routed.blockStart (7, 1, 0) a) ∧ (∃ a, Reads routed.blockStart (7, 2, 0) a) ∧
    (∃ a, Reads routed.blockStart (7, 3, 0) a) ∧ ∃ a, Reads routed.blockStart (7, 7, 0) a :=
  ⟨routed_inv, by decide +kernel, by decide +kernel, by decide +kernel, ⟨_, rfl⟩, ⟨_, rfl⟩, ⟨_, rfl⟩, ⟨_, rfl⟩⟩

theorem witness_RoutingAccumulates :
    routed.Inv ∧ (∃ w, routed.blockStart.readRegister 7 7 0 = some w) ∧ routed.route.filter (feeds 7 0) = routed.route :=
  ⟨routed_inv, ⟨_, rfl⟩, by decide +kernel⟩

/-- Held in Sustain through an enabled filter whose delay line trips the guard. -/
def tripping : State := held.modFlt 0 fun f => { f with enable := true, y1 := 0x7F000000#32 }

/-- A custom wave and a level that together overflow a frame (V-EVT-1). -/
def overflowing : State :=
  { held with
    ampEff := F32.two
    env := held.env.map fun e => { e with sustain := F32.one }
    osc := held.osc.map fun o => { o with wave := .custom, ctab := [(0, 0x7F61B1E6#32), (1, 0x7F61B1E6#32)] } }

theorem witness_SampleFrame :
    (held.Inv ∧ held.env[0]?.isSome = true) ∧
    (tripping.Inv ∧ filterEvents tripping.flt F32.posZero ≠ []) ∧
    (overflowing.Inv ∧ overflowing.sample.sanitizeCount = 1#32) :=
  ⟨⟨held_inv, by decide +kernel⟩, ⟨by constructor <;> decide +kernel, by decide +kernel⟩,
   ⟨by constructor <;> decide +kernel, by decide +kernel⟩⟩

/-- One frame from the end of the amplitude envelope. -/
def ending : State :=
  { held with env := held.env.map fun e => { e with stage := .shutdown, elapsed := 143 } }

theorem witness_ReclaimAfterProcess :
    (ending.Inv ∧ (State.samples 1 ending.blockStart).note ≠ 255#8 ∧
      (State.samples 1 ending.blockStart).env[0]?.map Env.stage = some .idle) ∧
    (held.Inv ∧ (State.samples 1 held.blockStart).env[0]?.map Env.stage = some .sustain) ∧ 0 < (1#32).toInt :=
  ⟨⟨by constructor <;> decide +kernel, by decide +kernel⟩, ⟨held_inv, by decide +kernel⟩, by decide⟩

theorem witness_SplitProcessSameFrames :
    held.Inv ∧ (∀ r ∈ held.route, slotDisabled r = true) ∧ (∀ l ∈ held.lfo, l.wave ≠ .noise) ∧ 0 < (1#32).toInt ∧
    0 < (0x7FFFFFFE#32).toInt ∧ (0x7FFFFFFF#32).toInt = (1#32).toInt + (0x7FFFFFFE#32).toInt :=
  ⟨held_inv, by decide +kernel, by decide +kernel, by decide, by decide, by decide⟩

theorem witness_OscillatorSetters :
    tiny.Inv ∧ (0#8).toNat < tiny.cfg.nOsc ∧ (5#8).toNat ≤ 5 ∧ F32.isNaN 0x7F800000#32 = false ∧
    F32.isFinite 0x7F7FFFFF#32 = true := ⟨tiny_inv, by decide +kernel⟩

theorem witness_CustomWrite :
    tiny.Inv ∧ (0#8).toNat < tiny.cfg.nOsc ∧ (3#16).toNat < tiny.cfg.uMax ∧ F32.isFinite 0xFF7FFFFF#32 = true :=
  ⟨tiny_inv, by decide +kernel⟩

theorem witness_CustomCommit :
    tiny.Inv ∧ (0#8).toNat < tiny.cfg.nOsc ∧ 1 ≤ (1#32).toNat ∧ (4#32).toNat ≤ tiny.cfg.uMax ∧ 63 < tiny.cfg.tab :=
  ⟨tiny_inv, by decide +kernel⟩

theorem witness_BandIsLargest :
    F32.le (Tables.edge 8 0) 0x41A00000#32 = true ∧ Tables.selectBand 8 0x43DC0000#32 = 3 ∧
    Tables.selectBand 8 0x469C4000#32 = 7 := by decide +kernel

theorem witness_FilterSetters :
    tiny.Inv ∧ tiny.flt[0]?.isSome = true ∧ filterTypeOf 0 = some .lowPass ∧ filterTypeOf 7 = some .highShelf ∧
    F32.isNaN 0x7F800000#32 = false := ⟨tiny_inv, by decide +kernel⟩

theorem witness_FilterEnableAndReset :
    tiny.Inv ∧ tiny.flt[0]?.map Flt.enable = some false ∧ (0#8).toNat ≤ 1 ∧ (1#8).toNat ≤ 1 := ⟨tiny_inv, by decide +kernel⟩

/-- A y of GUARD itself passes; one ulp more trips. -/
theorem witness_BiquadWithGuard :
    let f : Flt := { fltReset with b0 := F32.one }
    (F32.isFinite 0x45800000#32 = true ∧ F32.lt 0x45800000#32 (F32.abs 0x45800000#32) = false ∧
      biquad f 0x45800000#32 = ({ f with x1 := 0x45800000#32, y1 := 0x45800000#32 }, 0x45800000#32, [])) ∧
    F32.lt 0x45800000#32 (F32.abs 0x45800001#32) = true ∧
    (biquad { f with x1 := F32.one } 0x45800001#32).2 = (F32.posZero, [.filterInstability]) := by decide +kernel

theorem witness_CascadeOutput :
    (∀ f ∈ tiny.flt, f.enable = false) ∧ (∃ f ∈ tripping.flt, f.enable = true) ∧
    Event.filterInstability ∈ (cascade tripping.flt F32.posZero).2.2 ∧ tiny.flt[0]?.isSome = true := by decide +kernel

/-- 42_filter.md R330: two enabled filters in series, the first doubling and the second adding its held input, by hand:
(1·2)·1 + 1 = 3; a disabled one between them passes the 2 on. -/
theorem test_cascade_series :
    let f : Flt := { fltReset with b0 := F32.two, enable := true }
    let g : Flt := { fltReset with b0 := F32.one, b1 := F32.one, x1 := F32.one, enable := true }
    let r := cascade [f, { f with enable := false }, g] F32.one
    r.2.1 = 0x40400000#32 ∧ r.1.map Flt.x1 = [F32.one, fltReset.x1, F32.two] := by decide +kernel

theorem witness_EnvelopeSetters :
    tiny.Inv ∧ (2#8).toNat < tiny.cfg.nEnv ∧ 2 ≤ (2#8).toNat ∧ (8#8).toNat ≤ 8 ∧ F32.isNaN 0xFF800000#32 = false :=
  ⟨tiny_inv, by decide +kernel⟩

theorem witness_EnvelopeStageCommands :
    (held.Inv ∧ held.env[2]?.map Env.stage = some .sustain) ∧ (tiny.Inv ∧ tiny.env[0]?.map Env.stage = some .idle) :=
  ⟨⟨held_inv, by decide +kernel⟩, ⟨tiny_inv, by decide +kernel⟩⟩

/-- The two sides of a Shutdown's end. -/
theorem witness_EnvelopeStep :
    let e : Env := envLens Const.fsReset envReset
    e.lenSh ≤ 143 + 1 ∧ 142 + 1 < e.lenSh ∧ (∀ g : Stage, ({ e with stage := g } : Env).stage = g) := by
  refine ⟨by decide +kernel, by decide +kernel, fun _ => rfl⟩

theorem witness_EnvelopeStageLength :
    let e : Env := envLens Const.fsReset { envReset with stage := .release }
    e.elapsed = 0 ∧ 1 ≤ e.lenR ∧ e.stage = .release := by decide +kernel

theorem witness_StageTransitions :
    ∃ t, exec .noteOff held = .next t ∧ held.env[1]?.isSome = true ∧ t.env[1]?.map Env.stage = some .release :=
  ⟨_, rfl, by decide +kernel, by decide +kernel⟩

theorem witness_FullVelocityIsOne :
    inRange 0x00000000#32 0x3F800000#32 0x3F800000#32 = true ∧ (127#8).toNat ≤ 127 ∧
    (inRange 0x00000000#32 0x3F800000#32 0x80000000#32 = true ∧ F32.toInt 0x80000000#32 = 0) := by decide +kernel

theorem witness_LfoCommands :
    tiny.Inv ∧ tiny.lfo[0]?.isSome = true ∧ (1#8).toNat ≤ 1 ∧ (2#8).toNat ≤ 2 ∧ (4#8).toNat ≤ 4 ∧ (15#8).toNat ≤ 15 ∧
    F32.isNaN 0x7F800000#32 = false ∧ F32.isFinite 0x80000001#32 = true := ⟨tiny_inv, by decide +kernel⟩

/-- Every source and destination type at its first and last index. -/
theorem witness_RouteCommands :
    tiny.Inv ∧ (0#8).toNat < tiny.cfg.nRoute ∧ F32.isNaN 0xFF800000#32 = false ∧
    (∀ y ∈ [0x00#8, 0x30#8, 0x40#8], (y.toNat / 16 = 0 ∨ y.toNat / 16 = 3 ∨ y.toNat / 16 = 4) ∧ y.toNat % 16 = 0) ∧
    ((0x12#8).toNat / 16 = 1 ∧ (0x12#8).toNat % 16 < tiny.cfg.nEnv) ∧
    ((0x20#8).toNat / 16 = 2 ∧ (0x20#8).toNat % 16 < tiny.cfg.nLfo) ∧
    (∀ z ∈ [0x00#8, 0x70#8], (z.toNat / 16 = 0 ∨ z.toNat / 16 = 7) ∧ z.toNat % 16 = 0) ∧
    (∀ z ∈ [0x10#8, 0x20#8, 0x30#8], 1 ≤ z.toNat / 16 ∧ z.toNat / 16 ≤ 3 ∧ z.toNat % 16 < tiny.cfg.nOsc) ∧
    (∀ z ∈ [0x40#8, 0x50#8, 0x60#8], 4 ≤ z.toNat / 16 ∧ z.toNat / 16 ≤ 6 ∧ z.toNat % 16 < tiny.cfg.nFlt) :=
  ⟨tiny_inv, by decide +kernel⟩

/-- A pattern with the sign bit set is nobody's nearest. -/
theorem test_nearest_is_unsigned : ¬ NearestEven (2 ^ 31) 0 1 ∧ ¬ NearestRoot (2 ^ 31 + 2) 2 4 1 :=
  ⟨fun h => absurd h.1 (by decide), fun h => absurd h.1 (by decide)⟩

theorem witness_ArithmeticRoundsOnce :
    (0 < 1 ∧ F32.roundMag 0 1 = 0 ∧ F32.roundMag (2 ^ 277) 1 = 0x7F800000 ∧ F32.roundMag 1 2 = 0 ∧ F32.roundMag 3 2 = 2) ∧
    F32.isFinite 0x7F7FFFFF#32 = true ∧ F32.isFinite 0x80000001#32 = true ∧
    F32.toInt 0x7F7FFFFF#32 + F32.toInt 0x80000001#32 ≠ 0 ∧ F32.toInt 0x3F800000#32 + F32.toInt 0xBF800000#32 = 0 ∧
    F32.toInt 0x3F800000#32 - F32.toInt 0x3F800000#32 = 0 ∧ F32.mag 0x80000001#32 ≠ 0 := by decide +kernel

theorem witness_RootsRoundOnce :
    F32.isFinite 0x00000001#32 = true ∧ F32.neg? 0x00000001#32 = false ∧ F32.mag 0x00000001#32 ≠ 0 ∧
    F32.isFinite 0x7F7FFFFF#32 = true ∧ 0 < 128 ∧ 127 < 128 := by decide +kernel

theorem witness_WrapAndClamp :
    F32.isFinite 0xB3000000#32 = true ∧ F32.wrap 0xB3000000#32 = F32.posZero ∧
    (F32.le F32.posZero 0x3F7FFFFF#32 = true ∧ F32.lt 0x3F7FFFFF#32 F32.one = true ∧ 0x3F7FFFFF#32 ≠ F32.negZero) ∧
    (F32.isNaN 0x7F800000#32 = false ∧ F32.isFinite Const.fMin = true ∧ F32.isFinite Const.fMax = true ∧
      F32.le Const.fMin Const.fMax = true) ∧ inRange Const.fMin Const.fMax Const.fMax = true := by decide +kernel

theorem witness_WrittenOutValues : 0 < 128 ∧ 127 < 128 := by decide

end Sys2Proof.Tests
end

/-! PROOFS. The numerics of 00_scope.md: the one rounding is to the nearest, ties to even (R12, R15), the roots are sticky roots
rounded once (R12; 40_fastmath.md R211), and wrap and clamp (R13). -/

namespace Sys2Proof.Machine

open F32

/-! ### Patterns in the order of their magnitudes -/

theorem magOfPattern_eq_mag (m : Nat) : magOfPattern m = mag (ofMag false m) := rfl

theorem roundMag_magOfPattern {m : Nat} (h : m ≤ 0x7F800000) : roundMag (magOfPattern m) 1 = m :=
  (roundMag_mag (isNaN_ofMag false h)).trans (ofMag_mod false h)

theorem magOfPattern_le {m m' : Nat} (h' : m' ≤ 0x7F800000) (h : m ≤ m') : magOfPattern m ≤ magOfPattern m' := by
  rw [magOfPattern_eq_mag, magOfPattern_eq_mag]
  exact mag_le_of_pattern (by rwa [ofMag_mod false (h.trans h'), ofMag_mod false h'])

theorem magOfPattern_lt {m m' : Nat} (h' : m' ≤ 0x7F800000) (h : m < m') : magOfPattern m < magOfPattern m' := by
  refine lt_of_le_of_ne (magOfPattern_le h' h.le) fun e => h.ne ?_
  rw [← roundMag_magOfPattern (h.le.trans h'), e, roundMag_magOfPattern h']

/-- The magnitude of a pattern with `k` doublings of the significand `s`. -/
theorem magOfPattern_significand {k s : Nat} (hs : s ≤ 2 ^ 24) (hk : k = 0 ∨ 2 ^ 23 ≤ s)
    (h : k * 2 ^ 23 + s ≤ 0x7F800000) : magOfPattern (k * 2 ^ 23 + s) = s * 2 ^ k :=
  mag_of_significand hs hk (ofMag_mod false h)

/-- The next pattern is at least one unit of the significand's last place above. -/
theorem magOfPattern_succ {k s : Nat} (hs : s ≤ 2 ^ 24) (hk : k = 0 ∨ 2 ^ 23 ≤ s)
    (h : k * 2 ^ 23 + s < 0x7F800000) : s * 2 ^ k + 2 ^ k ≤ magOfPattern (k * 2 ^ 23 + s + 1) := by
  rcases Nat.lt_or_eq_of_le hs with hlt | rfl
  · have hmag := magOfPattern_significand (k := k) (s := s + 1) hlt (by omega) (by omega)
    rw [add_assoc, hmag, add_one_mul]
  · have e : k * 2 ^ 23 + 2 ^ 24 + 1 = (k + 1) * 2 ^ 23 + (2 ^ 23 + 1) := by omega
    have hmag := magOfPattern_significand (k := k + 1) (s := 2 ^ 23 + 1) (by norm_num) (by norm_num) (by omega)
    rw [e, hmag, pow_succ 2 k]
    omega

/-- Above a power of two, and in the subnormals, the pattern before is one unit below. -/
theorem magOfPattern_pred {k s m : Nat} (hs : s ≤ 2 ^ 24) (hk : k = 0 ∨ 2 ^ 23 < s)
    (h : k * 2 ^ 23 + s ≤ 0x7F800000) (hm : m + 1 = k * 2 ^ 23 + s) : magOfPattern m + 2 ^ k = s * 2 ^ k := by
  obtain ⟨t, rfl⟩ : ∃ t, s = t + 1 := ⟨s - 1, by omega⟩
  obtain rfl : m = k * 2 ^ 23 + t := by omega
  rw [magOfPattern_significand (k := k) (s := t) (by omega) (by omega) (by omega), add_one_mul]

/-! ### A pattern against another: the midpoint between them -/

/-- The k-th root of n/d is no nearer `m` than `r`: it is not beyond their midpoint, and is the midpoint only if `r` is even. -/
def NoNearer (r k n d m : Nat) : Prop :=
  (magOfPattern r < magOfPattern m → 2 ^ k * n ≤ (magOfPattern r + magOfPattern m) ^ k * d) ∧
  (magOfPattern m < magOfPattern r → (magOfPattern r + magOfPattern m) ^ k * d ≤ 2 ^ k * n) ∧
  (2 ^ k * n = (magOfPattern r + magOfPattern m) ^ k * d → r % 2 = 0)

theorem nearestRoot_iff {r k n d : Nat} :
    NearestRoot r k n d ↔ r ≤ 0x7F800000 ∧ ∀ m, m ≤ 0x7F800000 → m ≠ r → NoNearer r k n d m := Iff.rfl

theorem noNearer_one {r n d m : Nat} : NoNearer r 1 n d m ↔
    (magOfPattern r < magOfPattern m → 2 * n ≤ magOfPattern r * d + magOfPattern m * d) ∧
    (magOfPattern m < magOfPattern r → magOfPattern r * d + magOfPattern m * d ≤ 2 * n) ∧
    (2 * n = magOfPattern r * d + magOfPattern m * d → r % 2 = 0) := by
  unfold NoNearer
  rw [pow_one, pow_one, add_mul]

/-- Only the order of the root and the midpoint counts. -/
theorem NoNearer.of_cmp {r k n d k' n' d' m : Nat} (h : NoNearer r k n d m)
    (e : cmp (2 ^ k * n) ((magOfPattern r + magOfPattern m) ^ k * d) =
      cmp (2 ^ k' * n') ((magOfPattern r + magOfPattern m) ^ k' * d')) : NoNearer r k' n' d' m := by
  obtain ⟨above, below, tie⟩ := h
  exact ⟨fun hlt => (le_iff_le_of_cmp_eq_cmp e).1 (above hlt),
    fun hlt => (le_iff_le_of_cmp_eq_cmp (cmp_eq_cmp_symm.1 e)).1 (below hlt),
    fun heq => tie ((eq_iff_eq_of_cmp_eq_cmp e).2 heq)⟩

/-- A pattern no farther than its two neighbours is the nearest. -/
theorem nearestRoot_of_neighbours {r k n d : Nat} (hr : r ≤ 0x7F800000)
    (h : ∀ m, m ≤ 0x7F800000 → m = r + 1 ∨ m + 1 = r → NoNearer r k n d m) : NearestRoot r k n d := by
  refine nearestRoot_iff.2 ⟨hr, fun m hm hne => ?_⟩
  rcases Nat.lt_or_gt_of_ne hne with hlt | hgt
  · obtain ⟨-, below, tie⟩ := h (r - 1) (by omega) (by omega)
    have hb := below (magOfPattern_lt hr (by omega))
    have hmono : (magOfPattern r + magOfPattern m) ^ k * d ≤ (magOfPattern r + magOfPattern (r - 1)) ^ k * d := by
      have := magOfPattern_le (by omega : r - 1 ≤ 0x7F800000) (by omega : m ≤ r - 1)
      gcongr
    have hmr := magOfPattern_lt hr hlt
    exact ⟨fun hc => absurd hc hmr.asymm, fun _ => hmono.trans hb, fun e => tie (e.le.trans hmono |>.antisymm hb)⟩
  · obtain ⟨above, -, tie⟩ := h (r + 1) (by omega) (.inl rfl)
    have ha := above (magOfPattern_lt (by omega) (by omega))
    have hmono : (magOfPattern r + magOfPattern (r + 1)) ^ k * d ≤ (magOfPattern r + magOfPattern m) ^ k * d := by
      have := magOfPattern_le hm (by omega : r + 1 ≤ m)
      gcongr
    have hmr := magOfPattern_lt hm hgt
    exact ⟨fun _ => ha.trans hmono, fun hc => absurd hc hmr.asymm, fun e => tie (ha.antisymm (e ▸ hmono))⟩

/-- The nearest first root is the nearest value. -/
theorem nearestEven_of_nearestRoot {r n d : Nat} (hd : 0 < d) (h : NearestRoot r 1 n d) : NearestEven r n d := by
  obtain ⟨hr, h⟩ := nearestRoot_iff.1 h
  refine ⟨hr, fun m hm hne => ?_⟩
  obtain ⟨above, below, tie⟩ := noNearer_one.1 (h m hm hne)
  rcases Nat.lt_or_gt_of_ne hne with hlt | hgt
  · have hmr := magOfPattern_lt hr hlt
    have := below hmr
    have := Nat.mul_lt_mul_of_pos_right hmr hd
    omega
  · have hmr := magOfPattern_lt hm hgt
    have := above hmr
    have := Nat.mul_lt_mul_of_pos_right hmr hd
    omega

/-! ### The one rounding -/

/-- A whole number half a unit from n/d is taken only if it is even. -/
theorem roundHalfEven_tie {n d : Nat} (hd : 0 < d)
    (h : 2 * n = 2 * (roundHalfEven n d * d) + d ∨ 2 * n + d = 2 * (roundHalfEven n d * d)) :
    roundHalfEven n d % 2 = 0 := by
  have e := Nat.div_add_mod' n d
  have hr := Nat.mod_lt n hd
  revert h
  unfold roundHalfEven
  simp only
  split
  · next hup =>
    simp only [Bool.or_eq_true, decide_eq_true_eq, Bool.and_eq_true, beq_iff_eq] at hup
    rw [add_one_mul]
    omega
  · next hdown =>
    simp only [Bool.or_eq_true, decide_eq_true_eq, Bool.and_eq_true, beq_iff_eq, not_or, not_and] at hdown
    omega

/-- What is not below a pattern is nearer it than any pattern below. -/
theorem noNearer_below {r n d m : Nat} (hd : 0 < d) (hr : r ≤ 0x7F800000) (hm : m < r) (h : magOfPattern r * d ≤ n) :
    NoNearer r 1 n d m := by
  have hmr := magOfPattern_lt hr hm
  have := Nat.mul_lt_mul_of_pos_right hmr hd
  exact noNearer_one.2 ⟨by omega, by omega, by omega⟩

/-- A magnitude with doublings is at least its least 24-bit significand. -/
theorem le_of_doublings {n d : Nat} (hk : Nat.log2 (n / d) - 23 ≠ 0) :
    2 ^ 23 * 2 ^ (Nat.log2 (n / d) - 23) * d ≤ n := by
  rw [← pow_add, show 23 + (Nat.log2 (n / d) - 23) = Nat.log2 (n / d) by omega]
  have h0 : n / d ≠ 0 := by intro h; simp [h] at hk
  exact (Nat.mul_le_mul_right d (Nat.log2_self_le h0)).trans (Nat.div_mul_le_self n d)

section
variable {n d k s m : Nat}

/-- No pattern above a significand rounded to nearest even is nearer. -/
theorem noNearer_succ (hs : s ≤ 2 ^ 24) (hk : k = 0 ∨ 2 ^ 23 ≤ s) (h : k * 2 ^ 23 + s < 0x7F800000)
    (near : 2 * n ≤ 2 * (s * (d * 2 ^ k)) + d * 2 ^ k) (tie : 2 * n = 2 * (s * (d * 2 ^ k)) + d * 2 ^ k → s % 2 = 0) :
    NoNearer (k * 2 ^ 23 + s) 1 n d (k * 2 ^ 23 + s + 1) := by
  have hmag := magOfPattern_significand hs hk (by omega)
  have gap := Nat.mul_le_mul_right d (magOfPattern_succ hs hk h)
  rw [add_mul, show s * 2 ^ k * d = s * (d * 2 ^ k) by ring, mul_comm (2 ^ k) d] at gap
  have hlt := magOfPattern_lt h (Nat.lt_succ_self _)
  rw [noNearer_one, hmag, show s * 2 ^ k * d = s * (d * 2 ^ k) by ring]
  exact ⟨by omega, fun hc => absurd hc (hmag ▸ hlt.asymm), by omega⟩

/-- No pattern below a significand rounded to nearest even is nearer. -/
theorem noNearer_pred (hd : 0 < d) (hs : s ≤ 2 ^ 24) (hk : k = 0 ∨ 2 ^ 23 ≤ s) (h : k * 2 ^ 23 + s ≤ 0x7F800000)
    (hn : k ≠ 0 → 2 ^ 23 * 2 ^ k * d ≤ n)
    (near : 2 * (s * (d * 2 ^ k)) ≤ 2 * n + d * 2 ^ k) (tie : 2 * n + d * 2 ^ k = 2 * (s * (d * 2 ^ k)) → s % 2 = 0)
    (hm : m + 1 = k * 2 ^ 23 + s) : NoNearer (k * 2 ^ 23 + s) 1 n d m := by
  have hmag := magOfPattern_significand hs hk h
  by_cases hpow : k = 0 ∨ 2 ^ 23 < s
  · have gap := congrArg (· * d) (magOfPattern_pred hs hpow h hm)
    simp only [add_mul] at gap
    rw [show s * 2 ^ k * d = s * (d * 2 ^ k) by ring, mul_comm (2 ^ k) d] at gap
    have hlt := magOfPattern_lt h (by omega : m < k * 2 ^ 23 + s)
    rw [noNearer_one, hmag, show s * 2 ^ k * d = s * (d * 2 ^ k) by ring]
    exact ⟨fun hc => absurd hc (hmag ▸ hlt.asymm), by omega, by omega⟩
  · refine noNearer_below hd h (by omega) ?_
    rw [hmag, show s = 2 ^ 23 by omega]
    exact hn (by omega)

end

theorem roundMag_eq (n d : Nat) : roundMag n d = Min.min ((Nat.log2 (n / d) - 23) * 2 ^ 23 +
    roundHalfEven n (d <<< (Nat.log2 (n / d) - 23))) 0x7F800000 := by
  unfold roundMag
  simp only [Nat.shiftLeft_eq]

/-- Of a rounded magnitude and a pattern next to it, the rounded one is nearer, or as near and even. -/
theorem roundMag_noNearer {n d m : Nat} (hd : 0 < d) (hm : m ≤ 0x7F800000)
    (hadj : m = roundMag n d + 1 ∨ m + 1 = roundMag n d) : NoNearer (roundMag n d) 1 n d m := by
  obtain ⟨hk, hs⟩ := significand n d
  have hn := le_of_doublings (n := n) (d := d)
  have hr := roundMag_eq n d
  generalize Nat.log2 (n / d) - 23 = k at hk hs hn hr
  rw [Nat.shiftLeft_eq] at hk hs hr
  have hD : 0 < d * 2 ^ k := by positivity
  obtain ⟨below, above⟩ := roundHalfEven_near (n := n) hD
  have tie := roundHalfEven_tie (n := n) hD
  generalize roundHalfEven n (d * 2 ^ k) = s at hk hs hr below above tie
  rcases Nat.lt_or_ge 0x7F800000 (k * 2 ^ 23 + s) with hinf | hfin
  · rw [hr.trans (min_eq_right hinf.le)] at hadj ⊢
    refine noNearer_below hd le_rfl (by omega) (le_trans ?_ (hn (by omega)))
    have hmag : magOfPattern 0x7F800000 = 2 ^ 23 * 2 ^ 254 := by decide
    have hpow : 2 ^ 254 ≤ 2 ^ k := Nat.pow_le_pow_right Nat.two_pos (by omega)
    rw [hmag]
    gcongr
  · rw [hr.trans (min_eq_left hfin)] at hadj ⊢
    rcases hadj with rfl | hpred
    · exact noNearer_succ hs hk hm above fun e => tie (.inl e)
    · exact noNearer_pred hd hs hk hfin hn below (fun e => tie (.inr e)) hpred

theorem nearestRoot_roundMag {d : Nat} (n : Nat) (hd : 0 < d) : NearestRoot (roundMag n d) 1 n d :=
  nearestRoot_of_neighbours (roundMag_cap n d) fun _ hm hadj => roundMag_noNearer hd hm hadj

theorem nearestEven_roundMag {d : Nat} (n : Nat) (hd : 0 < d) : NearestEven (roundMag n d) n d :=
  nearestEven_of_nearestRoot hd (nearestRoot_roundMag n hd)

end Sys2Proof.Machine

namespace Sys2Proof.F32

open Machine

/-! ### The operations on finite operands -/

theorem add_of_finite {a b : F32} (ha : isFinite a = true) (hb : isFinite b = true) : add a b =
    if toInt a + toInt b = 0 then (if neg? a && neg? b then negZero else posZero)
    else roundInt (toInt a + toInt b) := by
  obtain ⟨an, ai⟩ := (isFinite_iff a).1 ha
  obtain ⟨bn, bi⟩ := (isFinite_iff b).1 hb
  unfold add
  simp only [an, ai, bn, bi, Bool.or_self, Bool.false_eq_true, if_false]

theorem mul_of_finite {a b : F32} (ha : isFinite a = true) (hb : isFinite b = true) :
    mul a b = ofMag (neg? a != neg? b) (roundMag (mag a * mag b) (2 ^ 149)) := by
  obtain ⟨an, ai⟩ := (isFinite_iff a).1 ha
  obtain ⟨bn, bi⟩ := (isFinite_iff b).1 hb
  unfold mul
  simp only [an, ai, bn, bi, Bool.or_self, Bool.false_eq_true, if_false]

theorem div_of_finite {a b : F32} (ha : isFinite a = true) (hb : isFinite b = true) (h0 : mag b ≠ 0) :
    div a b = ofMag (neg? a != neg? b) (roundMag (mag a * 2 ^ 149) (mag b)) := by
  obtain ⟨an, ai⟩ := (isFinite_iff a).1 ha
  obtain ⟨bn, bi⟩ := (isFinite_iff b).1 hb
  unfold div
  simp only [an, ai, bn, bi, h0, Bool.or_self, Bool.false_eq_true, if_false]

/-- A sum that is not zero is the exact one rounded, under its sign. -/
theorem add_nearest {a b : F32} (ha : isFinite a = true) (hb : isFinite b = true) (h : toInt a + toInt b ≠ 0) :
    ∃ r, add a b = ofMag (decide (toInt a + toInt b < 0)) r ∧ NearestEven r (toInt a + toInt b).natAbs 1 :=
  ⟨_, by rw [add_of_finite ha hb, if_neg h, roundInt], nearestEven_roundMag _ Nat.one_pos⟩

theorem toInt_add_of_zero {a b : F32} (ha : isFinite a = true) (hb : isFinite b = true)
    (h : toInt a + toInt b = 0) : toInt (add a b) = 0 := by
  rw [add_of_finite ha hb, if_pos h]
  split <;> decide

end Sys2Proof.F32

namespace Sys2Proof.Machine

open F32

/-- Settles O56: `nearestEven_roundMag` for the one rounding, and each operation on finite operands is one use of it. -/
theorem arithmeticRoundsOnce : Obligations.ArithmeticRoundsOnce := by
  unfold Obligations.ArithmeticRoundsOnce
  refine ⟨fun n d hd => nearestEven_roundMag n hd, fun a b ha hb => ?_⟩
  have hnb : isFinite (neg b) = true := (isFinite_neg b).trans hb
  have hz : toInt a + toInt (neg b) = toInt a - toInt b := by rw [toInt_neg, sub_eq_add_neg]
  refine ⟨add_nearest ha hb, toInt_add_of_zero ha hb, fun h => ?_, fun h => ?_, ?_, fun h => ?_⟩
  · rw [← hz] at h ⊢
    exact add_nearest ha hnb h
  · exact toInt_add_of_zero ha hnb (hz.trans h)
  · exact ⟨_, mul_of_finite ha hb, nearestEven_roundMag _ (by positivity)⟩
  · exact ⟨_, div_of_finite ha hb h, nearestEven_roundMag _ (Nat.pos_of_ne_zero h)⟩

/-! ### Roots -/

theorem lt_rootBits_succ (k n : Nat) : ∀ b r : Nat, n < (r + 2 ^ b) ^ k → n < (rootBits k n b r + 1) ^ k
  | 0, _, h => h
  | b + 1, r, h => by
    unfold rootBits
    split
    · exact lt_rootBits_succ k n b _ (by rwa [add_assoc, ← two_mul, ← pow_succ'])
    · next hlt => exact lt_rootBits_succ k n b r (not_le.1 hlt)

/-- The whole part `r` of the k-th root of n/d, doubled, with a last bit that says whether it is the root. -/
def stickyRoot (k n d r : Nat) : Nat := 2 * r + if r ^ k * d = n then 0 else 1

theorem stickyRoot_between (k n d r : Nat) : 2 * r ≤ stickyRoot k n d r ∧ stickyRoot k n d r ≤ 2 * r + 1 := by
  unfold stickyRoot
  split <;> omega

/-- Against any whole number, the sticky root stands as the root itself. -/
theorem cmp_stickyRoot {k n d r : Nat} (hk : k ≠ 0) (hd : 0 < d) (lo : r ^ k * d ≤ n) (hi : n < (r + 1) ^ k * d)
    (w : Nat) : cmp (stickyRoot k n d r) (2 * w) = cmp n (w ^ k * d) := by
  obtain ⟨s0, s1⟩ := stickyRoot_between k n d r
  rcases Nat.lt_trichotomy w r with hlt | rfl | hgt
  · have hpow : w ^ k * d < r ^ k * d := Nat.mul_lt_mul_of_pos_right (Nat.pow_lt_pow_left hlt hk) hd
    rw [(cmp_eq_gt_iff _ _).2 (by omega : 2 * w < stickyRoot k n d r), (cmp_eq_gt_iff _ _).2 (hpow.trans_le lo)]
  · unfold stickyRoot
    split
    · next e => rw [e, Nat.add_zero, cmp_self_eq_eq, cmp_self_eq_eq]
    · next e => rw [(cmp_eq_gt_iff _ _).2 (Nat.lt_succ_self _), (cmp_eq_gt_iff _ _).2 (lt_of_le_of_ne lo e)]
  · have hpow : (r + 1) ^ k * d ≤ w ^ k * d := Nat.mul_le_mul_right d (Nat.pow_le_pow_left hgt k)
    rw [(cmp_eq_lt_iff _ _).2 (by omega : stickyRoot k n d r < 2 * w), (cmp_eq_lt_iff _ _).2 (hi.trans_le hpow)]

/-- A rounded magnitude that stands to the midpoints beside it as a root does is the root rounded. -/
theorem nearestRoot_of_cmp {n d k n' d' : Nat} (hd : 0 < d)
    (e : ∀ m, m ≤ 0x7F800000 → m = roundMag n d + 1 ∨ m + 1 = roundMag n d →
      cmp (2 * n) ((magOfPattern (roundMag n d) + magOfPattern m) * d) =
        cmp (2 ^ k * n') ((magOfPattern (roundMag n d) + magOfPattern m) ^ k * d')) :
    NearestRoot (roundMag n d) k n' d' :=
  nearestRoot_of_neighbours (roundMag_cap n d) fun m hm hadj =>
    (roundMag_noNearer hd hm hadj).of_cmp (by rw [pow_one, pow_one]; exact e m hm hadj)

/-- What is not above a finite power of two does not round to infinity. -/
theorem roundMag_lt_cap {n d : Nat} (hd : 0 < d) (h : n ≤ 2 ^ 149 * 2 ^ 127 * d) : roundMag n d < 0x7F800000 := by
  have hmag : mag 0x7F000000#32 = 2 ^ 149 * 2 ^ 127 := by decide
  exact (roundMag_le (x := 0x7F000000#32) (by decide) hd (by rwa [hmag])).trans_lt (by decide)

/-- No finite magnitude is above the largest. -/
theorem mag_le_of_finite {x : F32} (h : isFinite x = true) : mag x ≤ (2 ^ 24 - 1) * 2 ^ 253 := by
  have hmax : mag 0x7F7FFFFF#32 = (2 ^ 24 - 1) * 2 ^ 253 := by decide
  have hne : expo x ≠ 255 := by simpa [isFinite] using h
  rw [← hmax]
  refine mag_le_of_pattern ?_
  have := expo_frac x
  have := frac_lt x
  have := expo_lt x
  rw [show (0x7F7FFFFF#32).toNat % 2 ^ 31 = 0x7F7FFFFF by decide]
  omega

theorem sqrt_of_pos {x : F32} (hx : isFinite x = true) (hs : neg? x = false) (h0 : mag x ≠ 0) :
    F32.sqrt x = ofMag false (roundMag (stickyRoot 2 (mag x * 2 ^ 149 * 2 ^ 4) 1
      (rootBits 2 (mag x * 2 ^ 149 * 2 ^ 4) 216 0)) (2 ^ 3)) := by
  obtain ⟨xn, xi⟩ := (isFinite_iff x).1 hx
  unfold F32.sqrt stickyRoot
  simp only [xn, xi, hs, h0, Bool.false_eq_true, if_false, mul_one, pow_two]

/-- The sticky root of 16·v, rounded at three fraction bits, is the square root of v rounded. -/
theorem nearestRoot_two {v r : Nat} (lo : r ^ 2 ≤ v * 2 ^ 4) (hi : v * 2 ^ 4 < (r + 1) ^ 2) :
    NearestRoot (roundMag (stickyRoot 2 (v * 2 ^ 4) 1 r) (2 ^ 3)) 2 v 1 := by
  refine nearestRoot_of_cmp (by norm_num) fun m _ _ => ?_
  have hs := cmp_stickyRoot (n := v * 2 ^ 4) (d := 1) (r := r) two_ne_zero one_pos (by rwa [mul_one]) (by rwa [mul_one])
  generalize stickyRoot 2 (v * 2 ^ 4) 1 r = s at *
  generalize magOfPattern _ + magOfPattern m = w
  calc cmp (2 * s) (w * 2 ^ 3) = cmp (2 * s) (2 * (2 * (2 * w))) := by congr 1; ring
    _ = cmp s (2 * (2 * w)) := cmp_mul_pos_left two_pos _ _
    _ = cmp (v * 2 ^ 4) ((2 * w) ^ 2 * 1) := hs _
    _ = cmp (2 ^ 2 * (2 ^ 2 * v)) (2 ^ 2 * (w ^ 2 * 1)) := by congr 1 <;> ring
    _ = cmp (2 ^ 2 * v) (w ^ 2 * 1) := cmp_mul_pos_left (by norm_num) _ _

theorem sqrt_nearest {x : F32} (hx : isFinite x = true) (hs : neg? x = false) (h0 : mag x ≠ 0) :
    ∃ r, F32.sqrt x = ofMag false r ∧ r < 0x7F800000 ∧ NearestRoot r 2 (mag x * 2 ^ 149) 1 := by
  refine ⟨_, sqrt_of_pos hx hs h0, ?_⟩
  have hv : mag x * 2 ^ 149 * 2 ^ 4 < (2 ^ 215) ^ 2 := by
    have := mag_le_of_finite hx
    omega
  generalize mag x * 2 ^ 149 = v at *
  have lo := rootBits_le 2 (v * 2 ^ 4) 216 0 (by norm_num)
  have hi := lt_rootBits_succ 2 (v * 2 ^ 4) 216 0 (hv.trans (by norm_num))
  generalize rootBits 2 (v * 2 ^ 4) 216 0 = r at *
  refine ⟨roundMag_lt_cap (by norm_num) ?_, nearestRoot_two lo hi⟩
  have hr : r < 2 ^ 215 := lt_of_pow_lt_pow_left₀ 2 (by positivity) (lo.trans_lt hv)
  have hb := (stickyRoot_between 2 (v * 2 ^ 4) 1 r).2
  omega

/-! ### Roots of rationals -/

/-- A pattern of exponent above `j` is a whole multiple of 2^j. -/
theorem dvd_magOfPattern {j m : Nat} (h : (j + 1) * 2 ^ 23 ≤ m) (hm : m ≤ 0x7F800000) : 2 ^ j ∣ magOfPattern m := by
  have hx := expo_frac (ofMag false m)
  have hf := frac_lt (ofMag false m)
  rw [ofMag_mod false hm] at hx
  rw [magOfPattern_eq_mag]
  unfold mag
  rw [if_neg (by omega), Nat.shiftLeft_eq]
  exact (Nat.pow_dvd_pow 2 (by omega)).mul_left _

/-- The sticky root at 32 fraction bits, rounded, is the root rounded, where patterns are multiples of 2^-31. -/
theorem nearestRoot_of_sticky {k num den r : Nat} (hk : k ≠ 0) (hd : 0 < den) (lo : r ^ k * den ≤ num <<< (32 * k))
    (hi : num <<< (32 * k) < (r + 1) ^ k * den) (hr : 2 ^ 32 ≤ r) :
    NearestRoot (roundMag (stickyRoot k (num <<< (32 * k)) den r <<< 149) (1 <<< 33)) k (num * 2 ^ (k * 149)) den := by
  have hcmp := cmp_stickyRoot hk hd lo hi
  have hb := (stickyRoot_between k (num <<< (32 * k)) den r).1
  generalize stickyRoot k (num <<< (32 * k)) den r = s at *
  have hone : 0x3F800000 ≤ roundMag (s <<< 149) (1 <<< 33) := by
    have hmag : mag one = 2 ^ 149 := by decide
    refine le_roundMag (x := one) (by decide) (by decide) ?_
    rw [hmag, Nat.shiftLeft_eq, Nat.shiftLeft_eq]
    omega
  refine nearestRoot_of_cmp (by decide) fun m hm hadj => ?_
  have hcap := roundMag_cap (s <<< 149) (1 <<< 33)
  generalize roundMag (s <<< 149) (1 <<< 33) = p at *
  obtain ⟨w, hw⟩ : 2 ^ 118 ∣ magOfPattern p + magOfPattern m :=
    (dvd_magOfPattern (by omega) hcap).add (dvd_magOfPattern (by omega) hm)
  rw [hw, Nat.shiftLeft_eq, Nat.shiftLeft_eq]
  calc cmp (2 * (s * 2 ^ 149)) (2 ^ 118 * w * (1 * 2 ^ 33)) = cmp (2 ^ 150 * s) (2 ^ 150 * (2 * w)) := by
        congr 1 <;> ring
    _ = cmp s (2 * w) := cmp_mul_pos_left (by norm_num) _ _
    _ = cmp (num <<< (32 * k)) (w ^ k * den) := hcmp w
    _ = cmp (2 ^ (118 * k) * (num <<< (32 * k))) (2 ^ (118 * k) * (w ^ k * den)) :=
        (cmp_mul_pos_left (by positivity) _ _).symm
    _ = cmp (2 ^ k * (num * 2 ^ (k * 149))) ((2 ^ 118 * w) ^ k * den) := by
        congr 1
        · rw [Nat.shiftLeft_eq]; ring
        · rw [mul_pow, ← pow_mul]; ring

theorem rn32Root_eq (k num den : Nat) : Fix.rn32Root k num den = ofMag false (roundMag
    (stickyRoot k (num <<< (32 * k)) den (rootBits k (num <<< (32 * k) / den) 48 0) <<< 149) (1 <<< 33)) := rfl

/-- RN32 of a root in [1, 2^16). -/
theorem rn32Root_nearest {k num den : Nat} (hk : k ≠ 0) (hd : 0 < den) (h1 : den ≤ num)
    (h2 : num < 2 ^ (16 * k) * den) :
    ∃ r, Fix.rn32Root k num den = ofMag false r ∧ r < 0x7F800000 ∧ NearestRoot r k (num * 2 ^ (k * 149)) den := by
  have hq : num <<< (32 * k) / den < (2 ^ 48) ^ k := by
    rw [Nat.div_lt_iff_lt_mul hd, Nat.shiftLeft_eq]
    calc num * 2 ^ (32 * k) < 2 ^ (16 * k) * den * 2 ^ (32 * k) := Nat.mul_lt_mul_of_pos_right h2 (by positivity)
      _ = (2 ^ 48) ^ k * den := by rw [← pow_mul]; ring
  have hq1 : (2 ^ 32) ^ k ≤ num <<< (32 * k) / den := by
    rw [Nat.le_div_iff_mul_le hd, Nat.shiftLeft_eq, ← pow_mul, mul_comm]
    exact Nat.mul_le_mul_right _ h1
  have lo := rootBits_le k (num <<< (32 * k) / den) 48 0 (by simp [hk])
  have hi := lt_rootBits_succ k (num <<< (32 * k) / den) 48 0 (by simpa using hq)
  refine ⟨_, rn32Root_eq k num den, ?_⟩
  generalize rootBits k (num <<< (32 * k) / den) 48 0 = r at *
  have hr : r < 2 ^ 48 := lt_of_pow_lt_pow_left₀ k (by positivity) (lo.trans_lt hq)
  have hr1 : 2 ^ 32 < r + 1 := lt_of_pow_lt_pow_left₀ k (by positivity) (hq1.trans_lt hi)
  refine ⟨roundMag_lt_cap (by decide) ?_, nearestRoot_of_sticky hk hd ((Nat.le_div_iff_mul_le hd).1 lo)
    ((Nat.div_lt_iff_lt_mul hd).1 hi) (by omega)⟩
  have hb := (stickyRoot_between k (num <<< (32 * k)) den r).2
  generalize stickyRoot k (num <<< (32 * k)) den r = s at *
  rw [Nat.shiftLeft_eq, Nat.shiftLeft_eq]
  omega

/-- The note table's roots are in [1, 2^16). -/
theorem n2f_nearest {n : Nat} (h : n < 128) : ∃ r, FastMath.n2f n = ofMag false r ∧ r < 0x7F800000 ∧
    NearestRoot r 12 (440 ^ 12 * 2 ^ n * 2 ^ (12 * 149)) (2 ^ 69) := by
  refine rn32Root_nearest (by norm_num) (by norm_num) ?_ ?_
  · exact (show 2 ^ 69 ≤ 440 ^ 12 * 1 by norm_num).trans (Nat.mul_le_mul_left _ Nat.one_le_two_pow)
  · calc 440 ^ 12 * 2 ^ n ≤ 440 ^ 12 * 2 ^ 127 := Nat.mul_le_mul_left _ (Nat.pow_le_pow_right two_pos (by omega))
      _ < 2 ^ (16 * 12) * 2 ^ 69 := by norm_num

/-- Settles O57: the square root and the twelfth root behind the note table are each a sticky root rounded once. -/
theorem rootsRoundOnce : Obligations.RootsRoundOnce := by
  unfold Obligations.RootsRoundOnce
  exact ⟨fun _ hx hs h0 => sqrt_nearest hx hs h0, fun _ hn => n2f_nearest hn⟩

/-! ### wrap and clamp -/

/-- A finite value is within the largest finite values. -/
theorem toInt_bounds {x : F32} (h : isFinite x = true) :
    -((2 ^ 24 - 1) * 2 ^ 253) ≤ toInt x ∧ toInt x ≤ (2 ^ 24 - 1) * 2 ^ 253 := by
  have := mag_le_of_finite h
  have := natAbs_toInt x
  omega

theorem le_iff_toInt {a b : F32} (ha : isNaN a = false) (hb : isNaN b = false) : F32.le a b = true ↔ toInt a ≤ toInt b := by
  simp [F32.le, ha, hb]

theorem lt_iff_toInt {a b : F32} (ha : isNaN a = false) (hb : isNaN b = false) : F32.lt a b = true ↔ toInt a < toInt b := by
  simp [F32.lt, ha, hb]

/-- The whole part of a finite value is finite and not above it. -/
theorem float_floor {x : F32} (h : isFinite x = true) :
    isFinite (float (floor x)) = true ∧ toInt (float (floor x)) ≤ toInt x := by
  have hl : toInt 0xFF7FFFFF#32 = -((2 ^ 24 - 1) * 2 ^ 253) := by decide
  have hb := (toInt_bounds h).1
  have hr : inRange 0xFF7FFFFF#32 x (float (floor x)) = true := by
    unfold floor
    exact float_between (by decide) ((isFinite_iff x).1 h).1 (by omega) (by omega)
  exact ⟨finite_of_inRange (by decide) h hr, ((inRange_iff (by decide) ((isFinite_iff x).1 h).1).1 hr).2.2⟩

/-- The rest of a finite value over its whole part is a value, and not negative. -/
theorem sub_floor_nonneg {x : F32} (h : isFinite x = true) :
    inRange posZero posInf (sub x (float (floor x))) = true := by
  obtain ⟨ff, fle⟩ := float_floor h
  have hb := toInt_bounds h
  have hfb := toInt_bounds ff
  have hinf : toInt posInf = 2 ^ 149 * 2 ^ 128 := by decide
  refine sub_between h ff (by decide) (by decide) (by rw [toInt_posZero]; omega) ?_
  rcases le_or_gt 0 (toInt x) with hx | hx
  · have hr : inRange posZero x (float (floor x)) = true := by
      unfold floor
      exact float_between (by decide) ((isFinite_iff x).1 h).1 (by rw [toInt_posZero]; omega) (by omega)
    have := ((inRange_iff (by decide) ((isFinite_iff x).1 h).1).1 hr).2.1
    rw [toInt_posZero] at this
    omega
  · omega

theorem wrap_eq (x : F32) : wrap x =
    if F32.le one (sub x (float (floor x))) then posZero
    else if sub x (float (floor x)) = negZero then posZero else sub x (float (floor x)) := rfl

theorem wrap_unitPhase {x : F32} (h : isFinite x = true) : unitPhase (wrap x) = true := by
  obtain ⟨yn, y0, -⟩ := (inRange_iff (by decide) (by decide)).1 (sub_floor_nonneg h)
  rw [wrap_eq]
  generalize sub x (float (floor x)) = y at *
  split
  · decide
  · next hone =>
    split
    · decide
    · rw [le_iff_toInt (by decide) yn, not_le] at hone
      rw [unitPhase, (le_iff_toInt (by decide) yn).2 y0, (lt_iff_toInt yn (by decide)).2 hone]
      rfl

theorem wrap_ne_negZero (x : F32) : wrap x ≠ negZero := by
  rw [wrap_eq]
  split
  · decide
  · split
    · decide
    · assumption

theorem ofMag_sign_pattern (x : F32) : ofMag (neg? x) (x.toNat % 2 ^ 31) = x := by
  have hx := x.isLt
  refine BitVec.eq_of_toNat_eq ?_
  unfold ofMag neg?
  rw [BitVec.toNat_ofNat, BitVec.msb_eq_decide]
  simp only [decide_eq_true_eq]
  split <;> omega

/-- A value's exact magnitude rounds to the value. -/
theorem roundInt_toInt {x : F32} (hn : isNaN x = false) (h0 : toInt x ≠ 0) : roundInt (toInt x) = x := by
  have hs : decide (toInt x < 0) = neg? x := by
    have := toInt_sign x
    cases hx : neg? x <;> simp only [hx] at this <;> simp at this ⊢ <;> omega
  rw [roundInt, natAbs_toInt, roundMag_mag hn, hs, ofMag_sign_pattern]

theorem eq_zero_of_toInt {x : F32} (hn : isNaN x = false) (h : toInt x = 0) : x = posZero ∨ x = negZero := by
  have hm : x.toNat % 2 ^ 31 = 0 := by
    rw [← roundMag_mag hn, ← natAbs_toInt, h]
    decide
  rw [← ofMag_sign_pattern x, hm]
  cases neg? x
  · exact .inl rfl
  · exact .inr rfl

theorem sub_posZero {x : F32} (h : isFinite x = true) (hz : x ≠ negZero) : sub x posZero = x := by
  by_cases h0 : toInt x = 0
  · rcases eq_zero_of_toInt ((isFinite_iff x).1 h).1 h0 with rfl | rfl
    · decide
    · exact absurd rfl hz
  · have e : toInt x + toInt (neg posZero) = toInt x := by rw [toInt_neg, toInt_posZero, neg_zero, add_zero]
    rw [sub, add_of_finite h (by decide), e, if_neg h0, roundInt_toInt ((isFinite_iff x).1 h).1 h0]

theorem wrap_of_unitPhase {x : F32} (h : unitPhase x = true) (hz : x ≠ negZero) : wrap x = x := by
  obtain ⟨hle, hlt⟩ := Bool.and_eq_true_iff.1 h
  have hn : isNaN x = false := by
    simp only [F32.le, Bool.and_eq_true, Bool.not_eq_true'] at hle
    exact hle.1.2
  rw [le_iff_toInt (by decide) hn, toInt_posZero] at hle
  rw [lt_iff_toInt hn (by decide), toInt_one] at hlt
  have hf : isFinite x = true := unit_finite ((unit_iff x).2 ⟨hn, hle, hlt.le⟩)
  have hfloor : float (floor x) = posZero := by rw [floor, Int.ediv_eq_zero_of_lt hle hlt]; rfl
  have hone : ¬ F32.le one x = true := by rw [le_iff_toInt (by decide) hn, toInt_one]; omega
  rw [wrap_eq, hfloor, sub_posZero hf hz, if_neg hone, if_neg hz]

/-- What lies in the range, a clamp keeps. -/
theorem clamp_of_inRange {x lo hi : F32} (hl : isNaN lo = false) (hh : isNaN hi = false)
    (h : inRange lo hi x = true) : clamp x lo hi = x := by
  obtain ⟨hx, h0, h1⟩ := (inRange_iff hl hh).1 h
  rw [clamp, if_neg (by rw [lt_iff_toInt hx hl]; omega), if_neg (by rw [lt_iff_toInt hh hx]; omega)]

theorem clamp_posInf {lo hi : F32} (fl : isFinite lo = true) (fh : isFinite hi = true) :
    clamp 0x7F800000#32 lo hi = hi := by
  have hinf : toInt 0x7F800000#32 = 2 ^ 149 * 2 ^ 128 := by decide
  have hl := toInt_bounds fl
  have hh := toInt_bounds fh
  rw [clamp, if_neg (by rw [lt_iff_toInt (by decide) ((isFinite_iff lo).1 fl).1]; omega),
    if_pos (by rw [lt_iff_toInt ((isFinite_iff hi).1 fh).1 (by decide)]; omega)]

theorem clamp_negInf {lo hi : F32} (fl : isFinite lo = true) : clamp 0xFF800000#32 lo hi = lo := by
  have hinf : toInt 0xFF800000#32 = -(2 ^ 149 * 2 ^ 128) := by decide
  have hl := toInt_bounds fl
  rw [clamp, if_pos (by rw [lt_iff_toInt (by decide) ((isFinite_iff lo).1 fl).1]; omega)]

/-- Settles O58: `wrap_unitPhase` and `wrap_of_unitPhase`, and the clamp by the order of its operand and its bounds. -/
theorem wrapAndClamp : Obligations.WrapAndClamp := by
  unfold Obligations.WrapAndClamp
  refine ⟨fun x h => ?_, fun x lo hi hx fl fh hle => ?_⟩
  · obtain ⟨hle, hlt⟩ := Bool.and_eq_true_iff.1 (wrap_unitPhase h)
    exact ⟨hle, hlt, wrap_ne_negZero x, fun h0 h1 hz => wrap_of_unitPhase (Bool.and_eq_true_iff.2 ⟨h0, h1⟩) hz⟩
  · have hl := ((isFinite_iff lo).1 fl).1
    have hh := ((isFinite_iff hi).1 fh).1
    exact ⟨clamp_inRange hx hl hh hle, clamp_of_inRange hl hh, fun e => e ▸ clamp_posInf fl fh,
      fun e => e ▸ clamp_negInf fl⟩

end Sys2Proof.Machine

/-! PROOFS. The registers of every unit stay in their ranges (10_state.md R37 to R43): what remains of the setters, the stage
commands and the sample loop, beside the laws of block start. -/

namespace Sys2Proof.Machine

open F32

/-! ### Clamped and wrapped operands -/

/-- A range within a wider one. -/
theorem inRange_mono {lo hi lo' hi' x : F32} (hl : F32.le lo' lo = true) (hh : F32.le hi hi' = true)
    (h : inRange lo hi x = true) : inRange lo' hi' x = true := by
  simp only [inRange, F32.le, Bool.and_eq_true, Bool.not_eq_true', decide_eq_true_eq] at *
  obtain ⟨⟨⟨nl', -⟩, h1⟩, ⟨-, nh'⟩, h2⟩ := And.intro hl hh
  obtain ⟨⟨⟨-, nx⟩, h3⟩, -, h4⟩ := h
  exact ⟨⟨⟨nl', nx⟩, h1.trans h3⟩, ⟨nx, nh'⟩, h4.trans h2⟩

theorem notOutside_of_inRange {lo hi x : F32} (h : inRange lo hi x = true) : notOutside lo hi x = true := by
  simp only [inRange, notOutside, F32.le, F32.lt, Bool.and_eq_true, Bool.not_eq_true', decide_eq_true_eq] at *
  simp [h]

theorem unitPhase_posZero : unitPhase posZero = true := by decide

theorem unitPhase_iff (x : F32) : unitPhase x = true ↔ isNaN x = false ∧ 0 ≤ toInt x ∧ toInt x < 2 ^ 149 := by
  simp only [unitPhase, F32.le, F32.lt, Bool.and_eq_true, Bool.not_eq_true', decide_eq_true_eq, toInt_posZero, toInt_one,
    show isNaN posZero = false by decide, show isNaN one = false by decide]
  tauto

/-- A phase increment up to 20000 Hz at 8000 Hz is at most 4. -/
theorem increment_between {fs f hi : F32} (hfs : inRange Const.fsMin Const.fsMax fs = true) (hh : isFinite hi = true)
    (hhi : toInt hi ≤ 20000 * 2 ^ 149) (hf : inRange posZero hi f = true) :
    inRange posZero Const.four (div f fs) = true := by
  obtain ⟨-, s0, -⟩ := (inRange_iff (by decide) (by decide)).1 hfs
  obtain ⟨-, f0, f1⟩ := (inRange_iff (by decide) ((isFinite_iff hi).1 hh).1).1 hf
  have t0 : toInt Const.fsMin = 8000 * 2 ^ 149 := by decide
  have t4 : toInt Const.four = 2 ^ 151 := by decide
  rw [toInt_posZero] at f0
  refine div_between (finite_of_inRange (by decide) hh hf) (finite_of_inRange (by decide) (by decide) hfs) (by omega)
    (by decide) (by decide) ?_ ?_
  · rw [toInt_posZero, zero_mul]; positivity
  · rw [t4]; omega

/-- The phase accumulator keeps a phase in [0, 1) (41_oscillator.md R250, 44_lfo.md R403). -/
theorem advance_unitPhase {φ inc : F32} (hφ : unitPhase φ = true) (hi : inRange posZero Const.four inc = true) :
    unitPhase (wrap (add φ inc)) = true := by
  obtain ⟨hn, h0, h1⟩ := (unitPhase_iff φ).1 hφ
  obtain ⟨-, i0, i1⟩ := (inRange_iff (by decide) (by decide)).1 hi
  have t4 : toInt Const.four = 2 ^ 151 := by decide
  have t8 : toInt 0x41000000#32 = 2 ^ 152 := by decide
  rw [toInt_posZero] at i0
  refine wrap_unitPhase (finite_of_inRange (lo := posZero) (hi := 0x41000000#32) (by decide) (by decide)
    (add_between (unit_finite ((unit_iff φ).2 ⟨hn, h0, h1.le⟩)) (finite_of_inRange (by decide) (by decide) hi)
      (by decide) (by decide) ?_ ?_))
  · rw [toInt_posZero]; omega
  · rw [t8]; omega

/-! ### What is not finite stays not finite -/

theorem finite_of_add {a b : F32} (h : isFinite (add a b) = true) : isFinite a = true ∧ isFinite b = true := by
  have inf {x : F32} (hx : isInf x = true) : isFinite x = false := by simp_all [isInf, isFinite]
  unfold add at h
  split at h
  · simp at h
  · next hn =>
    split at h
    · next ia => split at h <;> simp [inf ia] at h
    · next ia =>
      split at h
      · next ib => simp [inf ib] at h
      · next ib => simp_all [isFinite_iff]

theorem finite_of_sub {a b : F32} (h : isFinite (sub a b) = true) : isFinite a = true ∧ isFinite b = true := by
  obtain ⟨ha, hb⟩ := finite_of_add h
  exact ⟨ha, by rwa [isFinite_neg] at hb⟩

theorem finite_of_mul {a b : F32} (h : isFinite (mul a b) = true) : isFinite a = true ∧ isFinite b = true := by
  have inf (s : Bool) : isFinite (ofMag s 0x7F800000) = false := by cases s <;> decide
  unfold mul at h
  split at h
  · simp at h
  · next hn =>
    split at h
    · split at h <;> simp [inf] at h
    · next hi => simp_all [isFinite_iff]

/-- A finite output has a finite input (42_filter.md R331, R332). -/
theorem finite_of_biquadOut {f : Flt} {x : F32} (h : isFinite (biquadOut f x) = true) : isFinite x = true := by
  have h1 := (finite_of_sub (finite_of_sub h).1).1
  exact (finite_of_mul (finite_of_add (finite_of_add h1).1).1).2

/-! ### Oscillators -/

section
variable {c : Config} {fs : F32} {o : Osc}

theorem oscOk_iff : oscOk c o = true ↔
    inRange Const.detMin Const.detMax o.detune = true ∧ inRange Const.pwMin Const.pwMax o.pw = true ∧
    inRange Const.mixMin Const.mixMax o.mix = true ∧ notOutside Const.fMin Const.fMax o.fEff = true ∧
    notOutside Const.pwMin Const.pwMax o.pwEff = true ∧ notOutside Const.mixMin Const.mixMax o.mixEff = true ∧
    o.band < c.nb ∧ o.custLen ≤ c.uMax ∧ o.user.wf = true ∧ o.user.below c.uMax = true ∧ o.ctab.wf = true ∧
    o.ctab.below c.tab = true := by
  simp [oscOk, and_assoc]

theorem oscLegal_iff : oscLegal c fs o = true ↔
    inRange 0x4102D013#32 Const.fMax o.freq = true ∧ unitPhase o.phase = true ∧ unitPhase o.ph0 = true ∧
    o.dscale = FastMath.dscale o.detune ∧ isFinite o.dscale = true ∧ inRange Const.fMin Const.fMax o.fEff = true ∧
    o.inc = div o.fEff fs ∧ isFinite o.inc = true ∧ o.band = Tables.selectBand c.nb o.fEff ∧
    inRange Const.pwMin Const.pwMax o.pwEff = true ∧ inRange Const.mixMin Const.mixMax o.mixEff = true ∧
    o.user.all (fun e => isFinite e.2) = true := by
  simp [oscLegal, and_assoc]

/-- An update of an oscillator that keeps its registers in their ranges. -/
structure KeepsOsc (c : Config) (fs : F32) (g : Osc → Osc) : Prop where
  ok : ∀ {o}, oscOk c o = true → oscOk c (g o) = true
  legal : ∀ {o}, oscOk c o = true → oscLegal c fs o = true → oscLegal c fs (g o) = true

theorem oscSetWave_keeps (w : Osc → Wave) : KeepsOsc c fs fun o => { o with wave := w o } := ⟨id, fun _ => id⟩

theorem oscSetFreq_keeps {f : F32} (hf : inRange 0x4102D013#32 Const.fMax f = true) :
    KeepsOsc c fs fun o => { o with freq := f } :=
  ⟨id, fun _ h => oscLegal_iff.2 ⟨hf, (oscLegal_iff.1 h).2⟩⟩

theorem oscSetPhase_keeps {φ : F32} (hφ : unitPhase φ = true) :
    KeepsOsc c fs fun o => { o with phase := φ, ph0 := φ } := by
  refine ⟨id, fun _ h => ?_⟩
  obtain ⟨hf, -, -, h⟩ := oscLegal_iff.1 h
  exact oscLegal_iff.2 ⟨hf, hφ, hφ, h⟩

theorem oscPhase_keeps (φ : Osc → F32) (hφ : ∀ {o}, oscLegal c fs o = true → unitPhase (φ o) = true) :
    KeepsOsc c fs fun o => { o with phase := φ o } := by
  refine ⟨id, fun _ h => ?_⟩
  obtain ⟨hf, -, h0, h'⟩ := oscLegal_iff.1 h
  exact oscLegal_iff.2 ⟨hf, hφ h, h0, h'⟩

theorem oscSetDetune_keeps {d : F32} (hd : inRange Const.detMin Const.detMax d = true) :
    KeepsOsc c fs fun o => { o with detune := d, dscale := FastMath.dscale d } := by
  refine ⟨fun h => oscOk_iff.2 ⟨hd, (oscOk_iff.1 h).2⟩, fun _ h => ?_⟩
  obtain ⟨hf, hp, h0, -, -, h⟩ := oscLegal_iff.1 h
  exact oscLegal_iff.2 ⟨hf, hp, h0, rfl, finite_of_inRange (by decide) (by decide) (FastMath.dscale_between hd), h⟩

theorem oscSetPw_keeps {d : F32} (hd : inRange Const.pwMin Const.pwMax d = true) :
    KeepsOsc c fs fun o => { o with pw := d } := by
  refine ⟨fun h => ?_, fun _ => id⟩
  obtain ⟨hdet, -, h⟩ := oscOk_iff.1 h
  exact oscOk_iff.2 ⟨hdet, hd, h⟩

theorem oscSetMix_keeps {d : F32} (hd : inRange Const.mixMin Const.mixMax d = true) :
    KeepsOsc c fs fun o => { o with mix := d } := by
  refine ⟨fun h => ?_, fun _ => id⟩
  obtain ⟨hdet, hpw, -, h⟩ := oscOk_iff.1 h
  exact oscOk_iff.2 ⟨hdet, hpw, hd, h⟩

theorem entry_finite {i : Nat} {v : F32} {m : Memory} (hv : isFinite v = true)
    (h : m.all (fun e => isFinite e.2) = true) : (Memory.entry i v m).all (fun e => isFinite e.2) = true := by
  unfold Memory.entry
  split
  · exact h
  · simp [hv, h]

theorem write_finite {i : Nat} {v : F32} {m : Memory} (hv : isFinite v = true)
    (h : m.all (fun e => isFinite e.2) = true) : (m.write i v).all (fun e => isFinite e.2) = true := by
  induction m with
  | nil => exact entry_finite hv rfl
  | cons e m ih =>
    obtain ⟨j, w⟩ := e
    obtain ⟨hw, hm⟩ := Bool.and_eq_true_iff.1 h
    unfold Memory.write
    split
    · exact entry_finite hv hm
    · split
      · exact entry_finite hv h
      · exact Bool.and_eq_true_iff.2 ⟨hw, ih hm⟩

theorem oscCustWrite_keeps {n : Nat} {d : F32} (hn : n < c.uMax) (hd : isFinite d = true) :
    KeepsOsc c fs fun o => { o with user := o.user.write n d } := by
  constructor
  · intro o h
    obtain ⟨h1, h2, h3, h4, h5, h6, h7, h8, hwf, hbelow, h⟩ := oscOk_iff.1 h
    exact oscOk_iff.2 ⟨h1, h2, h3, h4, h5, h6, h7, h8, Memory.write_wf hwf n d, Memory.write_below hbelow hn d, h⟩
  · intro o _ h
    obtain ⟨h1, h2, h3, h4, h5, h6, h7, h8, h9, h10, h11, huser⟩ := oscLegal_iff.1 h
    exact oscLegal_iff.2 ⟨h1, h2, h3, h4, h5, h6, h7, h8, h9, h10, h11, write_finite hd huser⟩

theorem oscCustCommit_keeps {u : Nat} (f : Osc → Nat → F32) (hu : u ≤ c.uMax) :
    KeepsOsc c fs fun o => { o with ctab := Memory.tabulate (f o) c.tab 0, custLen := u } := by
  refine ⟨fun h => ?_, fun _ => id⟩
  obtain ⟨h1, h2, h3, h4, h5, h6, h7, -, h9, h10, -⟩ := oscOk_iff.1 h
  exact oscOk_iff.2 ⟨h1, h2, h3, h4, h5, h6, h7, hu, h9, h10, Memory.tabulate_wf _ _, Memory.tabulate_below _ _ _ _ (by omega)⟩

theorem oscAdvance_keeps (hfs : inRange Const.fsMin Const.fsMax fs = true) : KeepsOsc c fs oscAdvance := by
  have key : KeepsOsc c fs fun o => { o with phase := wrap (add o.phase o.inc) } := by
    refine oscPhase_keeps (fun o => wrap (add o.phase o.inc)) fun {o} h => ?_
    obtain ⟨-, hφ, -, -, -, hf, hinc, -⟩ := oscLegal_iff.1 h
    exact advance_unitPhase hφ (hinc ▸ increment_between (hi := Const.fMax) hfs (by decide) (by decide)
      (inRange_mono (by decide) (by decide) hf))
  constructor
  · intro o h
    unfold oscAdvance
    split
    · exact h
    · exact key.ok h
  · intro o ok h
    unfold oscAdvance
    split
    · exact h
    · exact key.legal ok h

theorem bandBelow_lt (nb : Nat) (f : F32) : ∀ n, 1 ≤ n → Tables.bandBelow nb f n < n
  | n + 1, _ => by
    unfold Tables.bandBelow
    split
    · omega
    · rcases Nat.eq_zero_or_pos n with rfl | hp
      · exact Nat.one_pos
      · exact (bandBelow_lt nb f n hp).trans n.lt_succ_self

/-- The oscillator as `oscEffective` reads it, the registers it derives at values within their ranges. -/
def oscBase (c : Config) (fs : F32) (o : Osc) : Osc :=
  { o with
    fEff := Const.fMin, inc := div Const.fMin fs, band := Tables.selectBand c.nb Const.fMin
    pwEff := Const.pwMin, mixEff := Const.mixMin }

theorem oscEffective_base (a b d : F32) : oscEffective c fs a b d (oscBase c fs o) = oscEffective c fs a b d o := rfl

theorem oscBase_ok (hc : 1 ≤ c.nb) (h : oscOk c o = true) : oscOk c (oscBase c fs o) = true := by
  obtain ⟨h1, h2, h3, -, -, -, -, h⟩ := oscOk_iff.1 h
  have hband : Tables.selectBand c.nb Const.fMin < c.nb := bandBelow_lt _ _ _ hc
  exact oscOk_iff.2 ⟨h1, h2, h3, show notOutside _ _ Const.fMin = true by decide,
    show notOutside _ _ Const.pwMin = true by decide, show notOutside _ _ Const.mixMin = true by decide, hband, h⟩

/-- The derived registers are legal at any sample rate, whatever they were before (70_reset_and_hazards.md R702). -/
theorem oscEffective_legal_of_base {a b d : F32} (hc : 1 ≤ c.nb) (hfs : inRange Const.fsMin Const.fsMax fs = true)
    (ok : oscOk c o = true) (hfreq : inRange 0x4102D013#32 Const.fMax o.freq = true) (hφ : unitPhase o.phase = true)
    (h0 : unitPhase o.ph0 = true) (hs : o.dscale = FastMath.dscale o.detune)
    (hu : o.user.all (fun e => isFinite e.2) = true) (ha : isFinite a = true) (hb : isFinite b = true)
    (hd : isFinite d = true) : oscLegal c fs (oscEffective c fs a b d o) = true := by
  rw [← oscEffective_base]
  refine oscEffective_legal hfs (oscBase_ok hc ok) (oscLegal_iff.2 ?_) ha hb hd
  refine ⟨hfreq, hφ, h0, hs, ?_, show inRange _ _ Const.fMin = true by decide, rfl, ?_, rfl,
    show inRange _ _ Const.pwMin = true by decide, show inRange _ _ Const.mixMin = true by decide, hu⟩
  · exact hs ▸ finite_of_inRange (by decide) (by decide) (FastMath.dscale_between (oscOk_iff.1 ok).1)
  · exact increment_finite (hi := Const.fMax) hfs (by decide) (by decide) (by decide)

end

/-! ### Filters -/

section
variable {c : Config} {fs : F32} {f : Flt}

theorem fltOk_iff : fltOk f = true ↔
    inRange Const.cutMin Const.cutMax f.cutoff = true ∧ inRange Const.qMin Const.qMax f.res = true ∧
    inRange Const.gainMin Const.gainMax f.gain = true ∧ notOutside Const.qMin Const.qMax f.qEff = true ∧
    notOutside Const.gainMin Const.gainMax f.gainEff = true ∧ f.a0 = one ∧ isFinite f.x1 = true ∧ isFinite f.x2 = true ∧
    isFinite f.y1 = true ∧ isFinite f.y2 = true := by
  simp [fltOk, and_assoc]

/-- An update of a filter that keeps its registers in their ranges. -/
structure KeepsFlt (fs : F32) (g : Flt → Flt) : Prop where
  ok : ∀ {f}, fltOk f = true → fltOk (g f) = true
  legal : ∀ {f}, fltLegal fs f = true → fltLegal fs (g f) = true

theorem fltClear_keeps : KeepsFlt fs fltClear := ⟨fltClear_ok, id⟩

theorem fltEnable_keeps (b : Flt → Bool) : KeepsFlt fs fun f => fltEnable (b f) f := by
  constructor
  · intro f h
    unfold fltEnable
    split
    · exact h
    · exact fltClear_ok (f := f) h
  · intro f h
    unfold fltEnable
    split <;> exact h

theorem fltSetCutoff_ok {d : F32} (hd : inRange Const.cutMin Const.cutMax d = true) (h : fltOk f = true) :
    fltOk { f with cutoff := d } = true := fltOk_iff.2 ⟨hd, (fltOk_iff.1 h).2⟩

theorem fltSetRes_ok {d : F32} (hd : inRange Const.qMin Const.qMax d = true) (h : fltOk f = true) :
    fltOk { f with res := d } = true := by
  obtain ⟨hcut, -, h⟩ := fltOk_iff.1 h
  exact fltOk_iff.2 ⟨hcut, hd, h⟩

theorem fltSetGain_ok {d : F32} (hd : inRange Const.gainMin Const.gainMax d = true) (h : fltOk f = true) :
    fltOk { f with gain := d } = true := by
  obtain ⟨hcut, hres, -, h⟩ := fltOk_iff.1 h
  exact fltOk_iff.2 ⟨hcut, hres, hd, h⟩

/-- The recurrence with its guard keeps the delay line finite (42_filter.md R331, R332). -/
theorem biquad_keeps (x : F32) : KeepsFlt fs fun f => (biquad f x).1 := by
  constructor
  · intro f h
    unfold biquad
    simp only
    split
    · exact fltClear_ok h
    · next hg =>
      have hy : isFinite (biquadOut f x) = true := by
        unfold guardTrips at hg
        simp only [Bool.or_eq_true, Bool.not_eq_true', not_or, Bool.not_eq_false] at hg
        exact hg.1
      obtain ⟨h1, h2, h3, h4, h5, h6, hx1, -, hy1, -⟩ := fltOk_iff.1 h
      exact fltOk_iff.2 ⟨h1, h2, h3, h4, h5, h6, finite_of_biquadOut hy, hx1, hy, hy1⟩
  · intro f h
    unfold biquad
    simp only
    split <;> exact h

/-- Each filter after a mix has gone through the cascade is the one before, or has taken one step (R330). -/
theorem cascade_forall₂ (fl : List Flt) (x : F32) :
    List.Forall₂ (fun f f' => f' = f ∨ ∃ x, f' = (biquad f x).1) fl (cascade fl x).1 := by
  induction fl generalizing x with
  | nil => exact .nil
  | cons f fl ih =>
    unfold cascade
    split
    · exact .cons (.inr ⟨x, rfl⟩) (ih _)
    · exact .cons (.inl rfl) (ih _)

end

/-! ### Envelopes -/

section
variable {fs : F32} {e : Env}

theorem envOk_iff : envOk e = true ↔
    inRange Const.timeMin Const.timeMax e.attack = true ∧ inRange Const.timeMin Const.timeMax e.decay = true ∧
    inRange Const.timeMin Const.timeMax e.release = true ∧ inRange Const.levelMin Const.levelMax e.sustain = true ∧
    inRange Const.levelMin Const.levelMax e.velsens = true ∧ 2 ≤ e.curve ∧ e.curve ≤ 8 ∧ 1 ≤ e.lenA ∧ 1 ≤ e.lenD ∧
    1 ≤ e.lenR ∧ 1 ≤ e.lenSh ∧ ((e.stage ≠ .idle ∧ e.stage ≠ .sustain) ∨ e.elapsed = 0) := by
  simp [envOk, and_assoc]

theorem envLegal_iff : envLegal e = true ↔
    inRange posZero one e.value = true ∧ inRange posZero one e.start = true ∧ inRange posZero one e.vm = true ∧
    e.elapsed ≤ 5760000 ∧ (e.lenA ≤ 5760000 ∧ e.slopeA = envSlope e.lenA) ∧
    (e.lenD ≤ 5760000 ∧ e.slopeD = envSlope e.lenD) ∧ (e.lenR ≤ 5760000 ∧ e.slopeR = envSlope e.lenR) ∧
    (e.lenSh ≤ 5760000 ∧ e.slopeSh = envSlope e.lenSh) := by
  simp [envLegal, envSlope, and_assoc]

/-- An update of an envelope that keeps its registers in their ranges. -/
structure KeepsEnv (g : Env → Env) : Prop where
  ok : ∀ {e}, envOk e = true → envOk (g e) = true
  legal : ∀ {e}, envOk e = true → envLegal e = true → envLegal (g e) = true

theorem KeepsEnv.comp {g g' : Env → Env} (h : KeepsEnv g) (h' : KeepsEnv g') : KeepsEnv fun e => g (g' e) :=
  ⟨fun ok => h.ok (h'.ok ok), fun ok l => h.legal (h'.ok ok) (h'.legal ok l)⟩

theorem unit_posZero : inRange posZero one posZero = true := by decide

theorem one_le_envLen (t fs : F32) : 1 ≤ envLen t fs := Nat.le_max_left _ _

/-- The longest stage, 30 s at 192 kHz (43_envelope.md R351). -/
theorem envLen_le {t : F32} (ht : inRange Const.timeMin Const.timeMax t = true)
    (hfs : inRange Const.fsMin Const.fsMax fs = true) : envLen t fs ≤ 5760000 := by
  obtain ⟨-, t0, t1⟩ := (inRange_iff (by decide) (by decide)).1 ht
  obtain ⟨-, s0, s1⟩ := (inRange_iff (by decide) (by decide)).1 hfs
  have e0 : toInt Const.timeMin = 0 := by decide
  have e1 : toInt Const.timeMax = 30 * 2 ^ 149 := by decide
  have e2 : toInt Const.fsMin = 8000 * 2 ^ 149 := by decide
  have e3 : toInt Const.fsMax = 192000 * 2 ^ 149 := by decide
  have e4 : toInt 0x4AAFC800#32 = 5760000 * 2 ^ 149 := by decide
  have hp : inRange posZero 0x4AAFC800#32 (mul t fs) = true := by
    refine mul_between (finite_of_inRange (by decide) (by decide) ht) (finite_of_inRange (by decide) (by decide) hfs)
      (by decide) (by decide) ?_ ?_
    · rw [toInt_posZero, zero_mul]
      exact mul_nonneg (by omega) (by omega)
    · rw [e4]
      calc toInt t * toInt fs ≤ (30 * 2 ^ 149) * (192000 * 2 ^ 149) := mul_le_mul (by omega) (by omega) (by omega) (by norm_num)
        _ = _ := by norm_num
  obtain ⟨-, p0, p1⟩ := (inRange_iff (by decide) (by decide)).1 hp
  have hm : mag (mul t fs) ≤ 5760000 * 2 ^ 149 := by
    have := natAbs_toInt (mul t fs)
    rw [toInt_posZero] at p0
    omega
  have hr : roundHalfEven (mag (mul t fs)) (2 ^ 149) ≤ 5760000 :=
    (roundHalfEven_mono (by positivity) Nat.one_pos (by simpa using hm)).trans_eq (roundHalfEven_exact 5760000 Nat.one_pos)
  unfold envLen roundeven
  split <;> omega

theorem envLenA_keeps (hfs : inRange Const.fsMin Const.fsMax fs = true) : KeepsEnv (envLenA fs) := by
  constructor
  · intro e h
    obtain ⟨h1, h2, h3, h4, h5, h6, h7, -, h⟩ := envOk_iff.1 h
    exact envOk_iff.2 ⟨h1, h2, h3, h4, h5, h6, h7, one_le_envLen _ _, h⟩
  · intro e ok h
    obtain ⟨h1, h2, h3, h4, -, h⟩ := envLegal_iff.1 h
    exact envLegal_iff.2 ⟨h1, h2, h3, h4, ⟨envLen_le (envOk_iff.1 ok).1 hfs, rfl⟩, h⟩

theorem envLenD_keeps (hfs : inRange Const.fsMin Const.fsMax fs = true) : KeepsEnv (envLenD fs) := by
  constructor
  · intro e h
    obtain ⟨h1, h2, h3, h4, h5, h6, h7, h8, -, h⟩ := envOk_iff.1 h
    exact envOk_iff.2 ⟨h1, h2, h3, h4, h5, h6, h7, h8, one_le_envLen _ _, h⟩
  · intro e ok h
    obtain ⟨-, hd, -⟩ := envOk_iff.1 ok
    obtain ⟨h1, h2, h3, h4, h5, -, h⟩ := envLegal_iff.1 h
    exact envLegal_iff.2 ⟨h1, h2, h3, h4, h5, ⟨envLen_le hd hfs, rfl⟩, h⟩

theorem envLenR_keeps (hfs : inRange Const.fsMin Const.fsMax fs = true) : KeepsEnv (envLenR fs) := by
  constructor
  · intro e h
    obtain ⟨h1, h2, h3, h4, h5, h6, h7, h8, h9, -, h⟩ := envOk_iff.1 h
    exact envOk_iff.2 ⟨h1, h2, h3, h4, h5, h6, h7, h8, h9, one_le_envLen _ _, h⟩
  · intro e ok h
    obtain ⟨-, -, hr, -⟩ := envOk_iff.1 ok
    obtain ⟨h1, h2, h3, h4, h5, h6, -, h⟩ := envLegal_iff.1 h
    exact envLegal_iff.2 ⟨h1, h2, h3, h4, h5, h6, ⟨envLen_le hr hfs, rfl⟩, h⟩

theorem envLenSh_keeps (hfs : inRange Const.fsMin Const.fsMax fs = true) : KeepsEnv (envLenSh fs) := by
  constructor
  · intro e h
    obtain ⟨h1, h2, h3, h4, h5, h6, h7, h8, h9, h10, -, h⟩ := envOk_iff.1 h
    exact envOk_iff.2 ⟨h1, h2, h3, h4, h5, h6, h7, h8, h9, h10, one_le_envLen _ _, h⟩
  · intro e ok h
    obtain ⟨h1, h2, h3, h4, h5, h6, h7, -⟩ := envLegal_iff.1 h
    exact envLegal_iff.2 ⟨h1, h2, h3, h4, h5, h6, h7, envLen_le (by decide) hfs, rfl⟩

theorem envLens_keeps (hfs : inRange Const.fsMin Const.fsMax fs = true) : KeepsEnv (envLens fs) :=
  (envLenSh_keeps hfs).comp ((envLenR_keeps hfs).comp ((envLenD_keeps hfs).comp (envLenA_keeps hfs)))

theorem envSetAttack_keeps {d : F32} (hd : inRange Const.timeMin Const.timeMax d = true) :
    KeepsEnv fun e => { e with attack := d } :=
  ⟨fun h => envOk_iff.2 ⟨hd, (envOk_iff.1 h).2⟩, fun _ => id⟩

theorem envSetDecay_keeps {d : F32} (hd : inRange Const.timeMin Const.timeMax d = true) :
    KeepsEnv fun e => { e with decay := d } := by
  refine ⟨fun h => ?_, fun _ => id⟩
  obtain ⟨h1, -, h⟩ := envOk_iff.1 h
  exact envOk_iff.2 ⟨h1, hd, h⟩

theorem envSetRelease_keeps {d : F32} (hd : inRange Const.timeMin Const.timeMax d = true) :
    KeepsEnv fun e => { e with release := d } := by
  refine ⟨fun h => ?_, fun _ => id⟩
  obtain ⟨h1, h2, -, h⟩ := envOk_iff.1 h
  exact envOk_iff.2 ⟨h1, h2, hd, h⟩

theorem envSetSustain_keeps {d : F32} (hd : inRange Const.levelMin Const.levelMax d = true) :
    KeepsEnv fun e => { e with sustain := d } := by
  refine ⟨fun h => ?_, fun _ => id⟩
  obtain ⟨h1, h2, h3, -, h⟩ := envOk_iff.1 h
  exact envOk_iff.2 ⟨h1, h2, h3, hd, h⟩

theorem envSetVelsens_keeps {d : F32} (hd : inRange Const.levelMin Const.levelMax d = true) :
    KeepsEnv fun e => { e with velsens := d } := by
  refine ⟨fun h => ?_, fun _ => id⟩
  obtain ⟨h1, h2, h3, h4, -, h⟩ := envOk_iff.1 h
  exact envOk_iff.2 ⟨h1, h2, h3, h4, hd, h⟩

theorem envSetCurve_keeps {n : Nat} (h2 : 2 ≤ n) (h8 : n ≤ 8) : KeepsEnv fun e => { e with curve := n } := by
  refine ⟨fun h => ?_, fun _ => id⟩
  obtain ⟨g1, g2, g3, g4, g5, -, -, h⟩ := envOk_iff.1 h
  exact envOk_iff.2 ⟨g1, g2, g3, g4, g5, h2, h8, h⟩

/-- A stage begins: ELAPSED at 0, VALUE and START anew (43_envelope.md R360 to R362; 45_voice.md R454). -/
theorem envBegin_keeps (st : Stage) (v w : Env → F32)
    (hv : ∀ {e}, envLegal e = true → inRange posZero one (v e) = true ∧ inRange posZero one (w e) = true) :
    KeepsEnv fun e => { e with stage := st, value := v e, elapsed := 0, start := w e } := by
  constructor
  · intro e h
    obtain ⟨h1, h2, h3, h4, h5, h6, h7, h8, h9, h10, h11, -⟩ := envOk_iff.1 h
    exact envOk_iff.2 ⟨h1, h2, h3, h4, h5, h6, h7, h8, h9, h10, h11, .inr rfl⟩
  · intro e _ h
    obtain ⟨-, -, hvm, -, h'⟩ := envLegal_iff.1 h
    exact envLegal_iff.2 ⟨(hv h).1, (hv h).2, hvm, Nat.zero_le _, h'⟩

theorem envRestart_keeps (st : Stage) : KeepsEnv fun e => { e with start := e.value, elapsed := 0, stage := st } :=
  envBegin_keeps st Env.value Env.value fun h => ⟨(envLegal_iff.1 h).1, (envLegal_iff.1 h).1⟩

theorem envZeroed_keeps : KeepsEnv envZeroed :=
  envBegin_keeps .idle (fun _ => posZero) (fun _ => posZero) fun _ => ⟨unit_posZero, unit_posZero⟩

theorem envTriggered_keeps : KeepsEnv envTriggered := envRestart_keeps .attack

theorem envReleased_keeps : KeepsEnv envReleased := by
  constructor <;> intro e ok
  · unfold envReleased
    split
    iterate 3 exact (envRestart_keeps .release).ok ok
    iterate 3 exact ok
  · intro h
    unfold envReleased
    split
    iterate 3 exact (envRestart_keeps .release).legal ok h
    iterate 3 exact h

theorem envStopped_keeps : KeepsEnv envStopped := by
  constructor <;> intro e ok
  · unfold envStopped
    split
    iterate 4 exact (envRestart_keeps .shutdown).ok ok
    iterate 2 exact ok
  · intro h
    unfold envStopped
    split
    iterate 4 exact (envRestart_keeps .shutdown).legal ok h
    iterate 2 exact h

theorem envSetVm_keeps {vel : Byte} (hv : vel.toNat ≤ 127) : KeepsEnv fun e => { e with vm := envVm e.velsens vel } := by
  refine ⟨id, fun {e} ok h => ?_⟩
  obtain ⟨-, -, -, -, hs, -⟩ := envOk_iff.1 ok
  obtain ⟨h1, h2, -, h⟩ := envLegal_iff.1 h
  exact envLegal_iff.2 ⟨h1, h2, envVm_unit hs hv, h⟩

theorem envNoteOn_keeps {vel : Byte} (hv : vel.toNat ≤ 127) : KeepsEnv (envNoteOn vel) :=
  envTriggered_keeps.comp (envSetVm_keeps hv)

theorem envStep_keeps : KeepsEnv envStep := ⟨envStep_ok, envStep_legal⟩

end

/-! ### LFOs -/

section
variable {fs : F32} {l : Lfo}

theorem lfoOk_iff : lfoOk l = true ↔
    inRange Const.lfoFMin Const.lfoFMax l.freq = true ∧ inRange Const.levelMin Const.levelMax l.depth = true ∧
    inRange Const.pwMin Const.pwMax l.pw = true ∧ l.div ≤ 15 ∧ notOutside Const.lfoFMin Const.lfoFMax l.fEff = true := by
  simp [lfoOk, and_assoc]

theorem lfoLegal_iff : lfoLegal fs l = true ↔
    unitPhase l.phase = true ∧ inRange Const.minusOne one l.value = true ∧
    inRange Const.lfoFMin Const.lfoFMax l.fEff = true ∧ l.inc = div l.fEff fs ∧ isFinite l.inc = true := by
  simp [lfoLegal, and_assoc]

/-- An update of an LFO that keeps its registers in their ranges. -/
structure KeepsLfo (fs : F32) (g : Lfo → Lfo) : Prop where
  ok : ∀ {l}, lfoOk l = true → lfoOk (g l) = true
  legal : ∀ {l}, lfoOk l = true → lfoLegal fs l = true → lfoLegal fs (g l) = true

/-- WAVE, MODE, INVERT and RETRIG take every value. -/
theorem lfoSetSwitch_keeps (w : Lfo → LfoWave) (m : Lfo → LfoMode) (i r : Lfo → Bool) :
    KeepsLfo fs fun l => { l with wave := w l, mode := m l, invert := i l, retrig := r l } := ⟨id, fun _ => id⟩

theorem lfoSetFreq_keeps {d : F32} (hd : inRange Const.lfoFMin Const.lfoFMax d = true) :
    KeepsLfo fs fun l => { l with freq := d } := ⟨fun h => lfoOk_iff.2 ⟨hd, (lfoOk_iff.1 h).2⟩, fun _ => id⟩

theorem lfoSetDepth_keeps {d : F32} (hd : inRange Const.levelMin Const.levelMax d = true) :
    KeepsLfo fs fun l => { l with depth := d } := by
  refine ⟨fun h => ?_, fun _ => id⟩
  obtain ⟨h1, -, h⟩ := lfoOk_iff.1 h
  exact lfoOk_iff.2 ⟨h1, hd, h⟩

theorem lfoSetPw_keeps {d : F32} (hd : inRange Const.pwMin Const.pwMax d = true) :
    KeepsLfo fs fun l => { l with pw := d } := by
  refine ⟨fun h => ?_, fun _ => id⟩
  obtain ⟨h1, h2, -, h⟩ := lfoOk_iff.1 h
  exact lfoOk_iff.2 ⟨h1, h2, hd, h⟩

theorem lfoSetDiv_keeps {n : Nat} (hn : n ≤ 15) : KeepsLfo fs fun l => { l with div := n } := by
  refine ⟨fun h => ?_, fun _ => id⟩
  obtain ⟨h1, h2, h3, -, h⟩ := lfoOk_iff.1 h
  exact lfoOk_iff.2 ⟨h1, h2, h3, hn, h⟩

theorem lfoSetPhase_keeps {φ : F32} (hφ : unitPhase φ = true) : KeepsLfo fs fun l => { l with phase := φ } :=
  ⟨id, fun _ h => lfoLegal_iff.2 ⟨hφ, (lfoLegal_iff.1 h).2⟩⟩

theorem lfoTriggered_keeps : KeepsLfo fs lfoTriggered := by
  constructor <;> intro l ok
  · unfold lfoTriggered
    split <;> exact ok
  · intro h
    unfold lfoTriggered
    split
    · exact (lfoSetPhase_keeps unitPhase_posZero).legal ok h
    · exact h

theorem lfoNoteOn_keeps : KeepsLfo fs lfoNoteOn := by
  constructor <;> intro l ok
  · unfold lfoNoteOn
    split <;> exact ok
  · intro h
    unfold lfoNoteOn
    split
    · exact (lfoSetPhase_keeps unitPhase_posZero).legal ok h
    · exact h

theorem lfoAdvance_keeps (hfs : inRange Const.fsMin Const.fsMax fs = true) : KeepsLfo fs lfoAdvance := by
  refine ⟨id, fun _ h => ?_⟩
  obtain ⟨hφ, hv, hf, hinc, hi⟩ := lfoLegal_iff.1 h
  exact lfoLegal_iff.2 ⟨advance_unitPhase hφ (hinc ▸ increment_between (hi := Const.lfoFMax) hfs (by decide) (by decide)
    (inRange_mono (by decide) (by decide) hf)), hv, hf, hinc, hi⟩

/-- The rate of an LFO is legal at any sample rate, whatever INC was before (70_reset_and_hazards.md R702). -/
theorem lfoEffective_legal_of_base {tempo : F32} (hfs : inRange Const.fsMin Const.fsMax fs = true)
    (ht : inRange Const.tempoMin Const.tempoMax tempo = true) (ok : lfoOk l = true) (hφ : unitPhase l.phase = true)
    (hv : inRange Const.minusOne one l.value = true) : lfoLegal fs (lfoEffective fs tempo l) = true := by
  obtain ⟨hf, h2, h3, h4, -⟩ := lfoOk_iff.1 ok
  have ok' : lfoOk { l with fEff := l.freq, inc := div l.freq fs } = true :=
    lfoOk_iff.2 ⟨hf, h2, h3, h4, notOutside_of_inRange hf⟩
  have base : lfoLegal fs { l with fEff := l.freq, inc := div l.freq fs } = true :=
    lfoLegal_iff.2 ⟨hφ, hv, hf, rfl, increment_finite (hi := Const.lfoFMax) hfs (by decide) (by decide)
      (inRange_mono (by decide) (by decide) hf)⟩
  have key := lfoEffective_legal hfs ht ok' base
  exact key

/-- The bank at block start: each LFO has the VALUE of some waveform (45_voice.md R471 step 2). -/
theorem lfoBank_forall₂ (tsin : Nat) (ls : List Lfo) (prng : Word) :
    List.Forall₂ (fun l l' => ∃ p, l' = lfoValue l (lfoWave tsin l p).2) ls (lfoBank tsin ls prng).2 := by
  induction ls generalizing prng with
  | nil => exact .nil
  | cons l ls ih => exact .cons ⟨prng, rfl⟩ (ih _)

end

theorem oscBank_oscs (c : Config) (fs : F32) (os : List Osc) (prng : Word) :
    (oscBank c fs os prng).2.2 = os.map oscAdvance := by
  induction os generalizing prng with
  | nil => rfl
  | cons o os ih => exact congrArg (oscAdvance o :: ·) (ih _)

/-! ### Accumulators -/

theorem accOk_iff {c : Config} {a : Acc} : accOk c a = true ↔
    a.oscFreq.length = c.nOsc ∧ a.oscPw.length = c.nOsc ∧ a.oscMix.length = c.nOsc ∧ a.fltCutoff.length = c.nFlt ∧
    a.fltRes.length = c.nFlt ∧ a.fltGain.length = c.nFlt := by
  simp [accOk, and_assoc]

theorem accZero_ok (c : Config) : accOk c (accZero c) = true := by simp [accOk_iff, accZero]

theorem accGet_accZero (c : Config) (t n : Nat) : accGet (accZero c) t n = posZero := by
  have rep (k : Nat) : (List.replicate k posZero).getD n posZero = posZero := by
    rw [List.getD_eq_getElem?_getD, List.getElem?_replicate]
    split <;> rfl
  unfold accGet
  split
  iterate 6 exact rep _
  iterate 2 rfl

theorem accAdd_ok {c : Config} {a : Acc} (h : accOk c a = true) (t n : Nat) (v : F32) : accOk c (accAdd a t n v) = true := by
  rw [accOk_iff] at h ⊢
  unfold accAdd
  split <;> simp [h]

/-- An accumulator after a term has been added to one of them. -/
theorem accGet_accAdd (a : Acc) (t n : Nat) (v : F32) (t' n' : Nat) :
    accGet (accAdd a t n v) t' n' = accGet a t' n' ∨ accGet (accAdd a t n v) t' n' = add (accGet a t' n') v := by
  have bank (l : List F32) : (l.modify n (add · v)).getD n' posZero = l.getD n' posZero ∨
      (l.modify n (add · v)).getD n' posZero = add (l.getD n' posZero) v := by
    simp only [List.getD_eq_getElem?_getD, List.getElem?_modify]
    split <;> cases l[n']? <;> simp
  unfold accAdd
  split <;> unfold accGet <;> split <;> simp [-List.getD_eq_getElem?_getD, bank]

/-- A multiple of 2^20 up to 2^26 is representable. -/
theorem representable_megas {k : Nat} (h : k ≤ 64) : Representable (k * 2 ^ 20) := by
  have key : ∀ j, j < 65 → isFinite (float ((j * 2 ^ 20 : Nat) : Int)) = true ∧
      toInt (float ((j * 2 ^ 20 : Nat) : Int)) = ((j * 2 ^ 20 : Nat) : Int) * 2 ^ 149 := by decide +kernel
  obtain ⟨hf, he⟩ := key k (by omega)
  exact ⟨_, hf, by unfold val; rw [he]; push_cast; exact mul_div_cancel_right₀ _ (by norm_num)⟩

theorem within_of_bipolar {x : F32} (h : inRange Const.minusOne one x = true) : Within 1 x :=
  bounded_of_inRange (by decide) (by decide) h (by unfold val; rw [toInt_minusOne]; norm_num) val_one.le

/-- AMOUNT times a source is within 2^20 (10_state.md R41, 45_voice.md R462). -/
theorem term_within {a v : F32} (ha : inRange Const.amtMin Const.amtMax a = true)
    (hv : inRange Const.minusOne one v = true) : Within (2 ^ 20) (mul a v) := by
  have e0 : val Const.amtMin = -1000000 := by
    unfold val; rw [show toInt Const.amtMin = -(1000000 * 2 ^ 149) by decide]; norm_num
  have e1 : val Const.amtMax = 1000000 := by
    unfold val; rw [show toInt Const.amtMax = 1000000 * 2 ^ 149 by decide]; norm_num
  have ha' : Within 1000000 a := bounded_of_inRange (by decide) (by decide) ha e0.ge e1.le
  exact_mod_cast mul_within (2 ^ 20) (by norm_num) ha' (within_of_bipolar hv) (by norm_num)

/-- A sum of k terms and one more. -/
theorem sum_within {a v : F32} {k : Nat} (hk : k < 64) (ha : Within (k * 2 ^ 20) a) (hv : Within (2 ^ 20) v) :
    Within ((k + 1 : Nat) * 2 ^ 20) (add a v) := by
  have r := representable_megas (k := k + 1) (by omega)
  refine add_bounded ha.finite hv.finite r.neg r ?_ ?_
  · push_cast; linarith [ha.lower, hv.lower]
  · push_cast; linarith [ha.upper, hv.upper]

end Sys2Proof.Machine

/-! PROOFS. The invariant and the ranges of every register, at reset and after every step (O13, O14, O15). -/

namespace Sys2Proof.Machine

open F32

/-! ### Banks, element by element -/

section
variable {α : Type} {R : α → α → Prop}

theorem forall₂_map {g : α → α} (h : ∀ {a}, R a (g a)) (l : List α) : List.Forall₂ R l (l.map g) :=
  List.forall₂_map_right_iff.2 (List.forall₂_same.2 fun _ _ => h)

theorem forall₂_mapIdx {g : Nat → α → α} (h : ∀ i {a}, R a (g i a)) (l : List α) : List.Forall₂ R l (l.mapIdx g) :=
  List.forall₂_iff_get.2 ⟨by simp, fun i _ _ => by simpa using h i⟩

theorem forall₂_modify {x : Nat} {g : α → α} (hr : ∀ {a}, R a a) (h : ∀ {a}, R a (g a)) (l : List α) :
    List.Forall₂ R l (l.modify x g) := by
  refine List.forall₂_iff_get.2 ⟨by simp, fun i _ _ => ?_⟩
  simp only [List.get_eq_getElem, List.getElem_modify]
  split
  · exact h
  · exact hr

theorem forall₂_map_map (f g : α → α) (l : List α) : List.Forall₂ (fun a b => b = g (f a)) l ((l.map f).map g) := by
  rw [List.map_map]
  exact forall₂_map (R := fun a b => b = g (f a)) (g := g ∘ f) rfl l

theorem forall₂_mapIdx_map (f : α → α) (g : Nat → α → α) (l : List α) :
    List.Forall₂ (fun a b => ∃ i, b = g i (f a)) l ((l.map f).mapIdx g) :=
  List.forall₂_map_left_iff.1 (forall₂_mapIdx (R := fun a b => ∃ i, b = g i a) (fun i _ => ⟨i, rfl⟩) _)

/-- What every element of the one list has gives what every element of the other has. -/
theorem forall_of_forall₂ {p q : α → Prop} {l l' : List α} (hr : List.Forall₂ (fun a b => p a → q b) l l')
    (h : ∀ a ∈ l, p a) : ∀ b ∈ l', q b := by
  induction hr with
  | nil => simp
  | cons hab _ ih =>
    obtain ⟨ha, hl⟩ := List.forall_mem_cons.1 h
    exact List.forall_mem_cons.2 ⟨hab ha, ih hl⟩

end

/-! ### Updates of the state -/

/-- `t` is legal where `s` is: for the invariant and for every register's range. -/
structure Keeps (s t : State) : Prop where
  inv : s.Inv → t.Inv
  legal : s.Legal → t.Legal

theorem Keeps.refl (s : State) : Keeps s s := ⟨id, id⟩

theorem Keeps.trans {s t u : State} (h : Keeps s t) (h' : Keeps t u) : Keeps s u :=
  ⟨fun i => h'.inv (h.inv i), fun l => h'.legal (h.legal l)⟩

/-- What the invariant gives may be used. -/
theorem Keeps.of_inv {s t : State} (h : s.Inv → Keeps s t) : Keeps s t :=
  ⟨fun i => (h i).inv i, fun l => (h l.inv).legal l⟩

section
variable {s : State}

/-- The oscillators replaced, each by one that is legal where it was. -/
theorem oscs_keeps {os : List Osc}
    (ok : s.Inv → List.Forall₂ (fun o o' => oscOk s.cfg o = true → oscOk s.cfg o' = true) s.osc os)
    (legal : s.Legal → List.Forall₂ (fun o o' => oscOk s.cfg o = true ∧ oscLegal s.cfg s.fs o = true →
      oscLegal s.cfg s.fs o' = true) s.osc os) : Keeps s { s with osc := os } := by
  have inv (i : s.Inv) : State.Inv { s with osc := os } :=
    { i with oscCount := (ok i).length_eq.symm.trans i.oscCount, osc := forall_of_forall₂ (ok i) i.osc }
  exact ⟨inv, fun l => { l with
    inv := inv l.inv
    osc := forall_of_forall₂ (legal l) fun o ho => ⟨l.inv.osc o ho, l.osc o ho⟩ }⟩

theorem modOsc_keeps {x : Byte} {g : Osc → Osc} (h : KeepsOsc s.cfg s.fs g) : Keeps s (s.modOsc x g) :=
  oscs_keeps (fun _ => forall₂_modify id h.ok _) fun _ => forall₂_modify And.right (fun p => h.legal p.1 p.2) _

theorem mapOsc_keeps {g : Osc → Osc} (h : KeepsOsc s.cfg s.fs g) : Keeps s { s with osc := s.osc.map g } :=
  oscs_keeps (fun _ => forall₂_map h.ok _) fun _ => forall₂_map (fun p => h.legal p.1 p.2) _

/-- The filters replaced, each by one that is legal where it was. -/
theorem flts_keeps {fl : List Flt} (ok : s.Inv → List.Forall₂ (fun f f' => fltOk f = true → fltOk f' = true) s.flt fl)
    (legal : s.Legal → List.Forall₂ (fun f f' => fltOk f = true ∧ fltLegal s.fs f = true → fltLegal s.fs f' = true)
      s.flt fl) : Keeps s { s with flt := fl } := by
  have inv (i : s.Inv) : State.Inv { s with flt := fl } :=
    { i with fltCount := (ok i).length_eq.symm.trans i.fltCount, flt := forall_of_forall₂ (ok i) i.flt }
  exact ⟨inv, fun l => { l with
    inv := inv l.inv
    flt := forall_of_forall₂ (legal l) fun f hf => ⟨l.inv.flt f hf, l.flt f hf⟩ }⟩

theorem modFlt_keeps {x : Byte} {g : Flt → Flt} (h : KeepsFlt s.fs g) : Keeps s (s.modFlt x g) :=
  flts_keeps (fun _ => forall₂_modify id h.ok _) fun _ => forall₂_modify And.right (fun p => h.legal p.2) _

/-- The envelopes replaced, each by one that is legal where it was. -/
theorem envs_keeps {es : List Env} (ok : s.Inv → List.Forall₂ (fun e e' => envOk e = true → envOk e' = true) s.env es)
    (legal : s.Legal → List.Forall₂ (fun e e' => envOk e = true ∧ envLegal e = true → envLegal e' = true) s.env es) :
    Keeps s { s with env := es } := by
  have inv (i : s.Inv) : State.Inv { s with env := es } :=
    { i with envCount := (ok i).length_eq.symm.trans i.envCount, env := forall_of_forall₂ (ok i) i.env }
  exact ⟨inv, fun l => { l with
    inv := inv l.inv
    env := forall_of_forall₂ (legal l) fun e he => ⟨l.inv.env e he, l.env e he⟩ }⟩

theorem modEnv_keeps {x : Byte} {g : Env → Env} (h : KeepsEnv g) : Keeps s (s.modEnv x g) :=
  envs_keeps (fun _ => forall₂_modify id h.ok _) fun _ => forall₂_modify And.right (fun p => h.legal p.1 p.2) _

theorem mapEnv_keeps {g : Env → Env} (h : KeepsEnv g) : Keeps s { s with env := s.env.map g } :=
  envs_keeps (fun _ => forall₂_map h.ok _) fun _ => forall₂_map (fun p => h.legal p.1 p.2) _

/-- The LFOs replaced, each by one that is legal where it was. -/
theorem lfos_keeps {ls : List Lfo} (ok : s.Inv → List.Forall₂ (fun l l' => lfoOk l = true → lfoOk l' = true) s.lfo ls)
    (legal : s.Legal → List.Forall₂ (fun l l' => lfoOk l = true ∧ lfoLegal s.fs l = true → lfoLegal s.fs l' = true)
      s.lfo ls) : Keeps s { s with lfo := ls } := by
  have inv (i : s.Inv) : State.Inv { s with lfo := ls } :=
    { i with lfoCount := (ok i).length_eq.symm.trans i.lfoCount, lfo := forall_of_forall₂ (ok i) i.lfo }
  exact ⟨inv, fun l => { l with
    inv := inv l.inv
    lfo := forall_of_forall₂ (legal l) fun o ho => ⟨l.inv.lfo o ho, l.lfo o ho⟩ }⟩

theorem modLfo_keeps {x : Byte} {g : Lfo → Lfo} (h : KeepsLfo s.fs g) : Keeps s (s.modLfo x g) :=
  lfos_keeps (fun _ => forall₂_modify id h.ok _) fun _ => forall₂_modify And.right (fun p => h.legal p.1 p.2) _

theorem mapLfo_keeps {g : Lfo → Lfo} (h : KeepsLfo s.fs g) : Keeps s { s with lfo := s.lfo.map g } :=
  lfos_keeps (fun _ => forall₂_map h.ok _) fun _ => forall₂_map (fun p => h.legal p.1 p.2) _

theorem modRoute_keeps {x : Byte} {r : Route} (h : routeOk s.cfg r = true) : Keeps s (s.modRoute x fun _ => r) := by
  have inv (i : s.Inv) : (s.modRoute x fun _ => r).Inv :=
    { i with routeCount := (List.length_modify ..).trans i.routeCount, route := mem_modify i.route fun _ _ => h }
  exact ⟨inv, fun l => { l with inv := inv l.inv }⟩

/-! ### The registers that stand alone -/

theorem note_keeps {n v p : Byte} (hn : midiLegal n = true ∨ n = Const.noteNone) (hv : midiLegal v = true)
    (hp : midiLegal p = true) : Keeps s { s with note := n, vel := v, pressure := p } := by
  have inv (i : s.Inv) : State.Inv { s with note := n, vel := v, pressure := p } :=
    { i with note := hn, vel := hv, pressure := hp }
  exact ⟨inv, fun l => { l with inv := inv l.inv }⟩

theorem tempo_keeps {d : F32} (hd : inRange Const.tempoMin Const.tempoMax d = true) : Keeps s { s with tempo := d } := by
  have inv (i : s.Inv) : State.Inv { s with tempo := d } := { i with tempo := hd }
  exact ⟨inv, fun l => { l with inv := inv l.inv }⟩

theorem prng_keeps {w : Word} : Keeps s { s with prng := w } := by
  have inv (i : s.Inv) : State.Inv { s with prng := w } := { i with }
  exact ⟨inv, fun l => { l with inv := inv l.inv }⟩

theorem commands_keeps {ws : List Command} : Keeps s { s with commands := ws } := by
  have inv (i : s.Inv) : State.Inv { s with commands := ws } := { i with }
  exact ⟨inv, fun l => { l with inv := inv l.inv }⟩

theorem respond_keeps (w : Word) : Keeps s (s.respond w) := by
  have inv (i : s.Inv) : (s.respond w).Inv := { i with }
  exact ⟨inv, fun l => { l with inv := inv l.inv }⟩

theorem emit_keeps {x : F32} (hx : isFinite x = true) : Keeps s (s.emit x) := by
  have inv (i : s.Inv) : (s.emit x).Inv :=
    { i with frames := List.forall_mem_cons.2 ⟨by simp [frameOk, hx], i.frames⟩ }
  exact ⟨inv, fun l => { l with inv := inv l.inv }⟩

theorem events_keeps {sticky last reject instab sanitize : Word} (hs : s.Inv → sticky &&& 0xFFFFFE01#32 = 0#32)
    (hl : last &&& 0xFFFF0000#32 = 0#32) : Keeps s { s with
      evtSticky := sticky, lastEvt := last, rejectCount := reject, instabCount := instab, sanitizeCount := sanitize } := by
  have inv (i : s.Inv) : State.Inv { s with
      evtSticky := sticky, lastEvt := last, rejectCount := reject, instabCount := instab, sanitizeCount := sanitize } :=
    { i with sticky := hs i, lastEvt := hl }
  exact ⟨inv, fun l => { l with inv := inv l.inv }⟩

/-! ### Events -/

/-- Recording an event writes the five event registers alone (60_exceptions.md R602). -/
theorem raise_eq (op : Byte) (e : Event) : ∃ reject instab sanitize, s.raise op e = { s with
    evtSticky := s.evtSticky ||| eventBit e, lastEvt := lastEvtWord op e, rejectCount := reject, instabCount := instab,
    sanitizeCount := sanitize } := by
  cases e <;> exact ⟨_, _, _, rfl⟩

theorem lastEvtWord_high (op : Byte) (e : Event) : lastEvtWord op e &&& 0xFFFF0000#32 = 0#32 := by
  have hmask : ∀ k, k < 16 → (0xFFFF0000#32 : Word).getLsbD k = false := by decide
  have hword : ∀ k, 16 ≤ k → (lastEvtWord op e).getLsbD k = false := by
    intro k hk
    rw [lastEvtWord, BitVec.getLsbD_append, BitVec.getLsbD_append, if_neg (by omega), if_neg (by omega),
      BitVec.getLsbD_zero]
  apply BitVec.eq_of_getLsbD_eq
  intro k _
  rw [BitVec.getLsbD_and, BitVec.getLsbD_zero]
  rcases Nat.lt_or_ge k 16 with h | h
  · rw [hmask k h, Bool.and_false]
  · rw [hword k h, Bool.false_and]

theorem raise_keeps (op : Byte) (e : Event) : Keeps s (s.raise op e) := by
  obtain ⟨r, i, z, h⟩ := raise_eq (s := s) op e
  rw [h]
  refine events_keeps (fun inv => ?_) (lastEvtWord_high op e)
  rw [BitVec.and_or_distrib_right, inv.sticky]
  cases e <;> decide

theorem raiseAll_keeps (op : Byte) (es : List Event) : Keeps s (s.raiseAll op es) := by
  induction es generalizing s with
  | nil => exact Keeps.refl s
  | cons e es ih => exact (raise_keeps op e).trans ih

end

/-! ### Block start -/

/-- A 7-bit value as a fraction of 127 is in [0, 1] (30_encoding.md R153). -/
theorem midiFraction_unit {v : Byte} (h : midiLegal v = true) : inRange posZero one (midiFraction v) = true := by
  have hv : v.toNat ≤ 127 := of_decide_eq_true h
  have hf := toInt_float (n := v.toNat) (by omega)
  have h127 : toInt Const.f127 = 127 * 2 ^ 149 := by decide
  have hfin : inRange posZero Const.f127 (float v.toNat) = true :=
    float_between (by decide) (by decide) (by rw [toInt_posZero]; omega) (by rw [h127]; omega)
  refine div_between (finite_of_inRange (by decide) (by decide) hfin) (by decide) (by decide) (by decide) (by decide) ?_ ?_
  · rw [toInt_posZero, hf]; omega
  · rw [toInt_one, hf, h127]; omega

section
variable {s : State}

theorem startLfos_keeps : Keeps s s.startLfos := by
  have bank : List.Forall₂ (fun l l' => ∃ p, l' = lfoValue (lfoEffective s.fs s.tempo l)
      (lfoWave s.cfg.tsin (lfoEffective s.fs s.tempo l) p).2) s.lfo s.startLfos.lfo :=
    List.forall₂_map_left_iff.1 (lfoBank_forall₂ _ _ _)
  have lfos : Keeps s { s with lfo := s.startLfos.lfo } := by
    refine lfos_keeps (fun _ => bank.imp ?_) fun h => bank.imp ?_
    · rintro l _ ⟨p, rfl⟩ ok
      exact lfoEffective_ok (fs := s.fs) (l := l) ok
    · rintro l _ ⟨p, rfl⟩ ⟨ok, legal⟩
      have legal' := lfoEffective_legal h.inv.fs h.inv.tempo ok legal
      exact lfoValue_legal (lfoEffective_ok ok) legal' (lfoWave_bipolar h.inv.cfg (lfoLegal_iff.1 legal').1 p)
  exact lfos.trans prng_keeps

/-- A routing source in [−1, 1] (45_voice.md R460). -/
theorem sourceValue_bipolar (h : s.Legal) (st si : Nat) : inRange Const.minusOne one (s.sourceValue st si) = true := by
  have zero : inRange Const.minusOne one posZero = true := by decide
  unfold State.sourceValue
  split
  · cases he : s.env[si]? with
    | none => exact zero
    | some e => exact bipolar_of_unit (envLegal_iff.1 (h.env e (List.mem_of_getElem? he))).1
  · cases hl : s.lfo[si]? with
    | none => exact zero
    | some l => exact (lfoLegal_iff.1 (h.lfo l (List.mem_of_getElem? hl))).2.1
  · exact bipolar_of_unit (midiFraction_unit h.inv.vel)
  · exact bipolar_of_unit (midiFraction_unit h.inv.pressure)
  · exact zero

/-- One slot adds its term to an accumulator, or nothing (R462). -/
theorem accGet_accumulate (a : Acc) (r : Route) (t n : Nat) :
    accGet (s.accumulate a r) t n = accGet a t n ∨ accGet (s.accumulate a r) t n = add (accGet a t n)
      (mul r.amount (s.sourceValue (packedType r.src) (packedIndex r.src))) := by
  unfold State.accumulate
  split
  · exact .inl rfl
  · exact accGet_accAdd _ _ _ _ _ _

theorem accumulate_ok {a : Acc} (r : Route) (h : accOk s.cfg a = true) : accOk s.cfg (s.accumulate a r) = true := by
  unfold State.accumulate
  split
  · exact h
  · exact accAdd_ok h _ _ _

theorem foldl_accumulate_ok (rs : List Route) {a : Acc} (h : accOk s.cfg a = true) :
    accOk s.cfg (rs.foldl s.accumulate a) = true :=
  List.foldlRecOn rs s.accumulate (motive := fun a => accOk s.cfg a = true) h fun _ h r _ => accumulate_ok r h

/-- The accumulators stay finite over at most 64 slots: after k of them each is within k terms' bound. -/
theorem foldl_accumulate_finite (h : s.Legal) (rs : List Route) (hr : ∀ r ∈ rs, routeOk s.cfg r = true) {a : Acc} {k : Nat}
    (hk : k + rs.length ≤ 64) (w : ∀ t n, Within (k * 2 ^ 20) (accGet a t n)) (t n : Nat) :
    isFinite (accGet (rs.foldl s.accumulate a) t n) = true := by
  induction rs generalizing a k with
  | nil => exact (w t n).finite
  | cons r rs ih =>
    obtain ⟨hr, hrs⟩ := List.forall_mem_cons.1 hr
    rw [List.length_cons] at hk
    refine ih hrs (a := s.accumulate a r) (k := k + 1) (by omega) fun t n => ?_
    obtain e | e := accGet_accumulate (s := s) a r t n
    · rw [e]
      exact (w t n).mono (by push_cast; linarith) (by push_cast; linarith)
    · rw [e]
      have ha : inRange Const.amtMin Const.amtMax r.amount = true := (Bool.and_eq_true_iff.1 hr).2
      exact sum_within (by omega) (w t n) (term_within ha (sourceValue_bipolar h _ _))

theorem route_length_le (h : s.Inv) : s.route.length ≤ 64 := by
  have hc := h.cfg
  simp only [Config.legal, Bool.and_eq_true, decide_eq_true_eq] at hc
  rw [h.routeCount]
  omega

theorem startRoutes_keeps : Keeps s s.startRoutes := by
  have inv (i : s.Inv) : s.startRoutes.Inv := { i with acc := foldl_accumulate_ok _ (accZero_ok _) }
  have zero (t n : Nat) : Within ((0 : Nat) * 2 ^ 20) (accGet (accZero s.cfg) t n) := by
    rw [accGet_accZero]
    exact ⟨by decide, by simp [val, toInt_posZero], by simp [val, toInt_posZero]⟩
  exact ⟨inv, fun l => { l with
    inv := inv l.inv
    acc := foldl_accumulate_finite l _ l.inv.route (by have := route_length_le l.inv; omega) zero }⟩

theorem one_le_nb_of_legal {c : Config} (hc : c.legal = true) : 1 ≤ c.nb := by
  simp only [Config.legal, Bool.and_eq_true, decide_eq_true_eq] at hc
  exact hc.1.2.1

theorem one_le_nb (h : s.Inv) : 1 ≤ s.cfg.nb := one_le_nb_of_legal h.cfg

theorem deriveOscs_keeps : Keeps s { s with osc := s.osc.mapIdx s.oscDerive } :=
  oscs_keeps (fun i => forall₂_mapIdx (fun _ => oscEffective_ok (one_le_nb i)) _) fun l =>
    forall₂_mapIdx (fun _ _ p => oscEffective_legal l.inv.fs p.1 p.2 (l.acc _ _) (l.acc _ _) (l.acc _ _)) _

theorem deriveFlts_keeps : Keeps s { s with flt := s.flt.mapIdx s.fltDerive } :=
  flts_keeps (fun _ => forall₂_mapIdx (fun _ _ => fltUpdate_ok) _) fun l =>
    forall₂_mapIdx (fun _ _ p => fltUpdate_legal l.inv.cfg l.inv.fs p.1 (l.acc _ _) (l.acc _ _) (l.acc _ _)) _

theorem ampEff_keeps : Keeps s { s with ampEff := clamp (add one s.acc.amp) Const.ampMin Const.ampMax } := by
  have inv (i : s.Inv) : State.Inv { s with ampEff := clamp (add one s.acc.amp) Const.ampMin Const.ampMax } := { i with }
  exact ⟨inv, fun l => { l with
    inv := inv l.inv
    ampEff := clamp_add (by decide) (l.acc 7 0) (by decide) (by decide) (by decide) }⟩

theorem blockStart_keeps : Keeps s s.blockStart :=
  startLfos_keeps.trans <| startRoutes_keeps.trans <| deriveOscs_keeps.trans <| deriveFlts_keeps.trans ampEff_keeps

/-! ### The sample loop -/

theorem render_keeps : Keeps s s.render.1 := by
  have oscs : Keeps s { s with osc := (oscBank s.cfg s.fs s.osc s.prng).2.2 } :=
    .of_inv fun i => by rw [oscBank_oscs]; exact mapOsc_keeps (oscAdvance_keeps i.fs)
  have flts {t : State} (x : F32) : Keeps t { t with flt := (cascade t.flt x).1 } := by
    refine flts_keeps (fun _ => (cascade_forall₂ _ x).imp ?_) fun _ => (cascade_forall₂ _ x).imp ?_
    · rintro f _ (rfl | ⟨y, rfl⟩) ok
      · exact ok
      · exact (biquad_keeps (fs := t.fs) y).ok ok
    · rintro f _ (rfl | ⟨y, rfl⟩) ⟨ok, legal⟩
      · exact legal
      · exact (biquad_keeps y).legal legal
  exact oscs.trans <| (flts _).trans <| prng_keeps.trans <| raiseAll_keeps _ _

theorem sanitize_finite (x : F32) : isFinite (sanitize x).1 = true := by
  unfold sanitize
  split
  · assumption
  · decide

theorem finish_keeps (x : F32) : Keeps s (s.finish x) :=
  .of_inv fun i =>
    (mapEnv_keeps envStep_keeps).trans <| (raiseAll_keeps _ _).trans <|
      (mapLfo_keeps (lfoAdvance_keeps (by simpa using i.fs))).trans <| emit_keeps (sanitize_finite _)

theorem samples_keeps (n : Nat) : Keeps s (State.samples n s) := by
  induction n generalizing s with
  | zero => exact .refl s
  | succ n ih => exact (render_keeps.trans (finish_keeps _)).trans ih

theorem silence_keeps : Keeps s s.silence := by
  have note (i : s.Inv) : State.Inv { s with note := Const.noteNone } := { i with note := .inr rfl }
  have hn : Keeps s { s with note := Const.noteNone } := ⟨note, fun l => { l with inv := note l.inv }⟩
  exact hn.trans (mapEnv_keeps envZeroed_keeps)

theorem reclaim_keeps : Keeps s s.reclaim := by
  unfold State.reclaim
  split
  · exact silence_keeps
  · exact .refl s

theorem processed_keeps (n : Nat) : Keeps s (s.processed n) := by
  unfold State.processed
  split
  · exact .refl s
  · exact blockStart_keeps.trans ((samples_keeps n).trans reclaim_keeps)

end

/-! ### The reset values of the derived registers (70_reset_and_hazards.md R702) -/

theorem oscEffective_oscReset (c : Config) (i : Nat) :
    oscEffective c Const.fsReset posZero posZero posZero (oscReset i) =
      { oscReset i with
        fEff := Const.freqReset, inc := 0x3C162FC9#32, band := Tables.selectBand c.nb Const.freqReset
        pwEff := Const.half, mixEff := if i = 0 then one else posZero } := by
  have hf : clamp (add (mul Const.freqReset one) posZero) Const.fMin Const.fMax = Const.freqReset := by decide
  have hinc : div Const.freqReset Const.fsReset = 0x3C162FC9#32 := by decide
  have hpw : clamp (add Const.half posZero) Const.pwMin Const.pwMax = Const.half := by decide
  have hmix : clamp (add (if i = 0 then one else posZero) posZero) Const.mixMin Const.mixMax =
      if i = 0 then one else posZero := by split <;> decide
  simp only [oscEffective, oscReset, hf, hinc, hpw, hmix]

theorem envLens_envReset : envLens Const.fsReset envReset = { envReset with
    lenA := 480, lenD := 4800, lenR := 9600, lenSh := 144
    slopeA := 0x3B088889#32, slopeD := 0x395A740E#32, slopeR := 0x38DA740E#32, slopeSh := 0x3BE38E39#32 } := by
  decide +kernel

theorem lfoEffective_lfoReset : lfoEffective Const.fsReset Const.tempoReset lfoReset =
    { lfoReset with fEff := one, inc := 0x37AEC33E#32 } := by decide +kernel

theorem oscAtReset_ok {c : Config} (hc : 1 ≤ c.nb) (i : Nat) :
    oscOk c (oscEffective c Const.fsReset posZero posZero posZero (oscReset i)) = true := by
  have hdet : inRange Const.detMin Const.detMax posZero = true := by decide
  have hpw : inRange Const.pwMin Const.pwMax Const.half = true := by decide
  have hmix : inRange Const.mixMin Const.mixMax (if i = 0 then one else posZero) = true := by split <;> decide
  exact oscEffective_ok_of hc hdet hpw hmix (decide_eq_true (Nat.zero_le _)) rfl rfl rfl rfl

theorem oscAtReset_legal {c : Config} (i : Nat) :
    oscLegal c Const.fsReset (oscEffective c Const.fsReset posZero posZero posZero (oscReset i)) = true := by
  have hs : one = FastMath.dscale posZero := by decide +kernel
  have hmix : inRange Const.mixMin Const.mixMax (if i = 0 then one else posZero) = true := by split <;> decide
  rw [oscEffective_oscReset, oscLegal_iff]
  dsimp only [oscReset]
  exact ⟨by decide, by decide, by decide, hs, by decide, by decide, by decide, by decide, rfl, by decide, hmix, rfl⟩

/-- The filter as `fltUpdate` reads it at reset, the effective parameters within their ranges. -/
theorem fltAtReset_legal {c : Config} (hc : c.legal = true) :
    fltOk (fltUpdate c Const.fsReset posZero posZero posZero fltReset) = true ∧
      fltLegal Const.fsReset (fltUpdate c Const.fsReset posZero posZero posZero fltReset) = true := by
  have base : fltOk { fltReset with qEff := Const.resReset } = true := by decide
  have ok := fltUpdate_ok (c := c) (fs := Const.fsReset) (a := posZero) (b := posZero) (d := posZero) base
  have legal := fltUpdate_legal hc (a := posZero) (b := posZero) (d := posZero) (show inRange _ _ Const.fsReset = true by decide)
    base (by decide) (by decide) (by decide)
  exact ⟨ok, legal⟩

theorem envAtReset_legal : envOk (envLens Const.fsReset envReset) = true ∧ envLegal (envLens Const.fsReset envReset) = true := by
  rw [envLens_envReset]
  decide

theorem lfoAtReset_legal : lfoOk (lfoEffective Const.fsReset Const.tempoReset lfoReset) = true ∧
    lfoLegal Const.fsReset (lfoEffective Const.fsReset Const.tempoReset lfoReset) = true := by
  rw [lfoEffective_lfoReset]
  decide

theorem routeEmpty_ok (c : Config) : routeOk c routeEmpty = true := rfl

/-! ### Reset -/

theorem resetOf_inv {c : Config} (hc : c.legal = true) : (State.resetOf c).Inv where
  cfg := hc
  oscCount := by simp [State.resetOf, oscsAtReset]
  fltCount := List.length_replicate
  envCount := List.length_replicate
  lfoCount := List.length_replicate
  routeCount := List.length_replicate
  osc := List.forall_mem_map.2 fun i _ => oscAtReset_ok (one_le_nb_of_legal hc) i
  flt _ hf := List.eq_of_mem_replicate hf ▸ (fltAtReset_legal hc).1
  env _ he := List.eq_of_mem_replicate he ▸ envAtReset_legal.1
  lfo _ hl := List.eq_of_mem_replicate hl ▸ lfoAtReset_legal.1
  route _ hr := List.eq_of_mem_replicate hr ▸ routeEmpty_ok c
  acc := accZero_ok c
  fs := show inRange _ _ Const.fsReset = true by decide
  tempo := show inRange _ _ Const.tempoReset = true by decide
  note := .inr rfl
  vel := show midiLegal 0#8 = true by decide
  pressure := show midiLegal 0#8 = true by decide
  sticky := show 0#32 &&& _ = 0#32 by decide
  lastEvt := show 0#32 &&& _ = 0#32 by decide
  frames := nofun

theorem resetOf_legal {c : Config} (hc : c.legal = true) : (State.resetOf c).Legal where
  inv := resetOf_inv hc
  osc := List.forall_mem_map.2 fun i _ => oscAtReset_legal i
  flt _ hf := List.eq_of_mem_replicate hf ▸ (fltAtReset_legal hc).2
  env _ he := List.eq_of_mem_replicate he ▸ envAtReset_legal.2
  lfo _ hl := List.eq_of_mem_replicate hl ▸ lfoAtReset_legal.2
  ampEff := show inRange _ _ one = true by decide
  acc t n := by
    rw [show (State.resetOf c).acc = accZero c from rfl, accGet_accZero]
    decide

/-- Settles O13: `resetOf_inv` and `resetOf_legal`. -/
theorem invariantAtReset : Obligations.InvariantAtReset :=
  ⟨resetOf_inv (by decide), rfl, fun _ hc => ⟨resetOf_inv hc, resetOf_legal hc⟩⟩

section
variable {s t : State}

/-- FullReset leaves the frames the host has not taken (R701). -/
theorem fullReset_keeps : Keeps s s.fullReset := by
  have inv (i : s.Inv) : s.fullReset.Inv := { resetOf_inv i.cfg with frames := i.frames }
  exact ⟨inv, fun l => { resetOf_legal l.inv.cfg with inv := inv l.inv }⟩

/-! ### SET_SAMPLE_RATE -/

/-- Every bank after SET_SAMPLE_RATE, unit by unit: running state at its initial value, then the derived registers
(R702, R704). -/
theorem withSampleRate_osc (d : Word) : List.Forall₂ (fun o o' => ∃ i, o' = oscEffective s.cfg (clamp d Const.fsMin Const.fsMax)
    (accGet (accZero s.cfg) 1 i) (accGet (accZero s.cfg) 2 i) (accGet (accZero s.cfg) 3 i) { o with phase := o.ph0 })
    s.osc (s.withSampleRate d).osc :=
  forall₂_mapIdx_map _ _ _

theorem withSampleRate_flt (d : Word) : List.Forall₂ (fun f f' => ∃ j, f' = fltUpdate s.cfg (clamp d Const.fsMin Const.fsMax)
    (accGet (accZero s.cfg) 4 j) (accGet (accZero s.cfg) 5 j) (accGet (accZero s.cfg) 6 j) (fltClear f))
    s.flt (s.withSampleRate d).flt :=
  forall₂_mapIdx_map _ _ _

theorem withSampleRate_env (d : Word) : List.Forall₂ (fun e e' => e' = envLens (clamp d Const.fsMin Const.fsMax) (envZeroed e))
    s.env (s.withSampleRate d).env :=
  forall₂_map_map _ _ _

theorem withSampleRate_lfo (d : Word) : List.Forall₂ (fun l l' => l' = lfoEffective (clamp d Const.fsMin Const.fsMax) s.tempo
    { l with phase := posZero, value := posZero }) s.lfo (s.withSampleRate d).lfo :=
  forall₂_map_map _ _ _

theorem accZero_finite (c : Config) (t n : Nat) : isFinite (accGet (accZero c) t n) = true := by
  rw [accGet_accZero]
  decide

theorem withSampleRate_keeps {d : Word} (hd : inRange Const.fsMin Const.fsMax (clamp d Const.fsMin Const.fsMax) = true) :
    Keeps s (s.withSampleRate d) := by
  have inv (i : s.Inv) : (s.withSampleRate d).Inv := { i with
    oscCount := (withSampleRate_osc d).length_eq.symm.trans i.oscCount
    fltCount := (withSampleRate_flt d).length_eq.symm.trans i.fltCount
    envCount := (withSampleRate_env d).length_eq.symm.trans i.envCount
    lfoCount := (withSampleRate_lfo d).length_eq.symm.trans i.lfoCount
    osc := forall_of_forall₂ ((withSampleRate_osc d).imp fun o _ ⟨_, e⟩ ok => e ▸
      oscEffective_ok (o := { o with phase := o.ph0 }) (one_le_nb_of_legal i.cfg) ok) i.osc
    flt := forall_of_forall₂ ((withSampleRate_flt d).imp fun _ _ ⟨_, e⟩ ok => e ▸ fltUpdate_ok (fltClear_ok ok)) i.flt
    env := forall_of_forall₂ ((withSampleRate_env d).imp fun _ _ e ok => e ▸
      (envLens_keeps hd).ok (envZeroed_keeps.ok ok)) i.env
    lfo := forall_of_forall₂ ((withSampleRate_lfo d).imp fun l _ e ok => e ▸
      lfoEffective_ok (l := { l with phase := posZero, value := posZero }) ok) i.lfo
    acc := accZero_ok _, fs := hd, note := .inr rfl
    vel := show midiLegal 0#8 = true by decide
    pressure := show midiLegal 0#8 = true by decide }
  refine ⟨inv, fun l => ⟨inv l.inv, ?_, ?_, ?_, ?_, show inRange _ _ one = true by decide, accZero_finite _⟩⟩
  · refine forall_of_forall₂ ((withSampleRate_osc d).imp ?_) fun o ho => And.intro (l.inv.osc o ho) (l.osc o ho)
    rintro o _ ⟨i, rfl⟩ ⟨ok, legal⟩
    obtain ⟨hf, -, h0, hs, -, -, -, -, -, -, -, hu⟩ := oscLegal_iff.1 legal
    exact oscEffective_legal_of_base (o := { o with phase := o.ph0 }) (one_le_nb_of_legal l.inv.cfg) hd ok hf h0 h0 hs hu
      (accZero_finite _ _ _) (accZero_finite _ _ _) (accZero_finite _ _ _)
  · refine forall_of_forall₂ ((withSampleRate_flt d).imp ?_) l.inv.flt
    rintro f _ ⟨j, rfl⟩ ok
    exact fltUpdate_legal l.inv.cfg hd (fltClear_ok ok) (accZero_finite _ _ _) (accZero_finite _ _ _) (accZero_finite _ _ _)
  · refine forall_of_forall₂ ((withSampleRate_env d).imp ?_) fun e he => And.intro (l.inv.env e he) (l.env e he)
    rintro e _ rfl ⟨ok, legal⟩
    exact (envLens_keeps hd).legal (envZeroed_keeps.ok ok) (envZeroed_keeps.legal ok legal)
  · refine forall_of_forall₂ ((withSampleRate_lfo d).imp ?_) l.inv.lfo
    rintro o _ rfl ok
    exact lfoEffective_legal_of_base (l := { o with phase := posZero, value := posZero }) hd l.inv.tempo ok
      unitPhase_posZero (show inRange _ _ posZero = true by decide)

end

/-! ### What the check phase lets through (30_encoding.md R160) -/

section
variable {a b c : Bool} {e e' e'' : Event}

theorem check_one (h : firstFailure [need a e] = none) : a = true := by
  cases a
  · cases h
  · rfl

theorem check_two (h : firstFailure [need a e, need b e'] = none) : a = true ∧ b = true := by
  cases a
  · cases h
  · exact ⟨rfl, check_one h⟩

theorem check_three (h : firstFailure [need a e, need b e', need c e''] = none) : a = true ∧ b = true ∧ c = true := by
  cases a
  · cases h
  · exact ⟨rfl, check_two h⟩

end

/-- A clamped operand that is no NaN lands in the range (R163). -/
theorem clamp_operand {d lo hi : F32} (hd : acceptsClamped d = true) (h : F32.le lo hi = true) :
    inRange lo hi (clamp d lo hi) = true := by
  have h' := h
  simp only [F32.le, Bool.and_eq_true, Bool.not_eq_true'] at h'
  exact clamp_inRange (by simpa [acceptsClamped] using hd) h'.1.1 h'.1.2 h

/-- Every frequency of the note table is in FREQ's range (40_fastmath.md R211). -/
theorem n2f_between {n : Nat} (h : n ≤ 127) : inRange 0x4102D013#32 Const.fMax (FastMath.n2f n) = true := by
  have key : ∀ n, n < 128 → inRange 0x4102D013#32 Const.fMax (FastMath.n2f n) = true := by decide +kernel
  exact key n (by omega)

theorem noteFreq_between {note : Byte} {d : Word} (hn : midiLegal note = true) (hd : acceptsClamped d = true) :
    inRange 0x4102D013#32 Const.fMax (noteFreq note d) = true := by
  unfold noteFreq
  split
  · exact n2f_between (of_decide_eq_true hn)
  · exact inRange_mono (by decide) (by decide) (clamp_operand hd (show F32.le Const.fMin Const.fMax = true by decide))

theorem oscNoteOn_keeps {c : Config} {fs f : F32} (reuse : Bool) (hf : inRange 0x4102D013#32 Const.fMax f = true) :
    KeepsOsc c fs (oscNoteOn f reuse) := by
  refine ⟨id, fun {o} _ h => ?_⟩
  obtain ⟨-, hp, h0, h'⟩ := oscLegal_iff.1 h
  have hφ : unitPhase (if reuse then o.ph0 else o.phase) = true := by
    split
    · exact h0
    · exact hp
  exact oscLegal_iff.2 ⟨hf, hφ, h0, h'⟩

section
variable {s t : State}

theorem noteOn_keeps {note vel : Byte} {d : Word} (hn : midiLegal note = true) (hv : midiLegal vel = true)
    (hd : acceptsClamped d = true) : Keeps s (s.noteOn note vel d) :=
  (note_keeps (.inl hn) hv (by decide)).trans <|
    (mapOsc_keeps (oscNoteOn_keeps (!s.active) (noteFreq_between hn hd))).trans <|
      (mapEnv_keeps (envNoteOn_keeps (of_decide_eq_true hv))).trans (mapLfo_keeps lfoNoteOn_keeps)

theorem next_keeps {u : State} (h : (.next u : Result) = .next t) (k : Keeps s u) : Keeps s t := by
  cases h
  exact k

/-- A checked command: its effect, or its event alone. -/
theorem checked_keeps {i : Instr} {cs : List (Option Event)} {eff : State} (h : s.checked i cs eff = .next t)
    (k : firstFailure cs = none → Keeps s eff) : Keeps s t := by
  obtain ⟨hp, rfl⟩ | ⟨e, -, rfl⟩ := checked_cases h
  · exact k hp
  · exact raise_keeps _ _

/-- A filter setter: the register, then the coefficient update (42_filter.md R320 (b)). -/
theorem setFlt_keeps {x : Byte} {g : Flt → Flt} (hg : ∀ {f}, fltOk f = true → fltOk (g f) = true) :
    Keeps s (s.setFlt x g) :=
  flts_keeps (fun _ => forall₂_modify id (fun ok => fltUpdate_ok (hg ok)) _) fun l =>
    forall₂_modify And.right (fun p => fltUpdate_legal l.inv.cfg l.inv.fs (hg p.1) (l.acc _ _) (l.acc _ _) (l.acc _ _)) _

theorem read_keeps {cls idx fld : Byte} (h : execRead cls idx fld s = .next t) : Keeps s t := by
  unfold execRead at h
  split at h
  · exact next_keeps h (respond_keeps _)
  · exact next_keeps h ((respond_keeps _).trans (raise_keeps _ _))

/-- Every command keeps the invariant and every register's range. -/
theorem exec_keeps (i : Instr) (h : exec i s = .next t) : Keeps s t :=
  match i with
  | .nop => next_keeps h (.refl s)
  | .reset => next_keeps h fullReset_keeps
  | .setSampleRate _ => checked_keeps h fun p => withSampleRate_keeps (clamp_operand (check_one p) (by decide))
  | .setTempo _ => checked_keeps h fun p => tempo_keeps (clamp_operand (check_one p) (by decide))
  | .seedPrng _ => next_keeps h prng_keeps
  | .read _ _ _ => read_keeps h
  | .clearStatus => next_keeps h (events_keeps (fun _ => by decide) (by decide))
  | .noteOn _ _ _ => checked_keeps h fun p =>
      have ⟨hm, hd⟩ := check_two p
      have ⟨hn, hv⟩ := Bool.and_eq_true_iff.1 hm
      noteOn_keeps hn hv hd
  | .noteOff => next_keeps h (mapEnv_keeps envReleased_keeps)
  | .voiceStop => next_keeps h (mapEnv_keeps envStopped_keeps)
  | .voiceKill => next_keeps h silence_keeps
  | .setPressure _ => checked_keeps h fun p => .of_inv fun i => note_keeps i.note i.vel (check_one p)
  | .process _ => next_keeps h (processed_keeps _)
  | .oscSetWave _ _ => checked_keeps h fun _ => modOsc_keeps (oscSetWave_keeps _)
  | .oscSetFreq _ _ => checked_keeps h fun p => modOsc_keeps (oscSetFreq_keeps (inRange_mono (by decide) (by decide)
      (clamp_operand (check_two p).2 (show F32.le Const.fMin Const.fMax = true by decide))))
  | .oscSetPhase _ _ => checked_keeps h fun p => modOsc_keeps (oscSetPhase_keeps (wrap_unitPhase (check_two p).2))
  | .oscSetDetune _ _ => checked_keeps h fun p =>
      modOsc_keeps (oscSetDetune_keeps (clamp_operand (check_two p).2 (by decide)))
  | .oscSetPw _ _ => checked_keeps h fun p => modOsc_keeps (oscSetPw_keeps (clamp_operand (check_two p).2 (by decide)))
  | .oscSetMix _ _ => checked_keeps h fun p => modOsc_keeps (oscSetMix_keeps (clamp_operand (check_two p).2 (by decide)))
  | .oscCustWrite _ _ _ => checked_keeps h fun p =>
      have ⟨_, hn, hd⟩ := check_three p
      modOsc_keeps (oscCustWrite_keeps (of_decide_eq_true hn) hd)
  | .oscCustCommit _ d => checked_keeps h fun p =>
      have ⟨_, hu⟩ := Bool.and_eq_true_iff.1 (check_two p).2
      modOsc_keeps (oscCustCommit_keeps (fun o => custResample s.cfg.tab d.toNat o.user) (of_decide_eq_true hu))
  | .fltSetType _ _ => checked_keeps h fun _ => setFlt_keeps id
  | .fltSetCutoff _ _ => checked_keeps h fun p => setFlt_keeps (fltSetCutoff_ok (clamp_operand (check_two p).2 (by decide)))
  | .fltSetRes _ _ => checked_keeps h fun p => setFlt_keeps (fltSetRes_ok (clamp_operand (check_two p).2 (by decide)))
  | .fltSetGain _ _ => checked_keeps h fun p => setFlt_keeps (fltSetGain_ok (clamp_operand (check_two p).2 (by decide)))
  | .fltSetEnable _ _ => checked_keeps h fun _ => modFlt_keeps (fltEnable_keeps _)
  | .fltReset _ => checked_keeps h fun _ => modFlt_keeps fltClear_keeps
  | .envSetAttack _ _ => checked_keeps h fun p => .of_inv fun i =>
      modEnv_keeps ((envLenA_keeps i.fs).comp (envSetAttack_keeps (clamp_operand (check_two p).2 (by decide))))
  | .envSetDecay _ _ => checked_keeps h fun p => .of_inv fun i =>
      modEnv_keeps ((envLenD_keeps i.fs).comp (envSetDecay_keeps (clamp_operand (check_two p).2 (by decide))))
  | .envSetSustain _ _ => checked_keeps h fun p =>
      modEnv_keeps (envSetSustain_keeps (clamp_operand (check_two p).2 (by decide)))
  | .envSetRelease _ _ => checked_keeps h fun p => .of_inv fun i =>
      modEnv_keeps ((envLenR_keeps i.fs).comp (envSetRelease_keeps (clamp_operand (check_two p).2 (by decide))))
  | .envSetCurve _ _ => checked_keeps h fun p =>
      have ⟨h2, h8⟩ := Bool.and_eq_true_iff.1 (check_two p).2
      modEnv_keeps (envSetCurve_keeps (of_decide_eq_true h2) (of_decide_eq_true h8))
  | .envSetVelsens _ _ => checked_keeps h fun p =>
      modEnv_keeps (envSetVelsens_keeps (clamp_operand (check_two p).2 (by decide)))
  | .envTrigger _ => checked_keeps h fun _ => modEnv_keeps envTriggered_keeps
  | .envRelease _ => checked_keeps h fun _ => modEnv_keeps envReleased_keeps
  | .envStop _ => checked_keeps h fun _ => modEnv_keeps envStopped_keeps
  | .lfoSetWave _ y => checked_keeps h fun _ =>
      modLfo_keeps (lfoSetSwitch_keeps (fun l => (lfoWaveOf y).getD l.wave) Lfo.mode Lfo.invert Lfo.retrig)
  | .lfoSetFreq _ _ => checked_keeps h fun p => modLfo_keeps (lfoSetFreq_keeps (clamp_operand (check_two p).2 (by decide)))
  | .lfoSetMode _ y => checked_keeps h fun _ =>
      modLfo_keeps (lfoSetSwitch_keeps Lfo.wave (fun l => (lfoModeOf y).getD l.mode) Lfo.invert Lfo.retrig)
  | .lfoSetDiv _ _ => checked_keeps h fun p => modLfo_keeps (lfoSetDiv_keeps (of_decide_eq_true (check_two p).2))
  | .lfoSetDepth _ _ => checked_keeps h fun p =>
      modLfo_keeps (lfoSetDepth_keeps (clamp_operand (check_two p).2 (by decide)))
  | .lfoSetInvert _ y => checked_keeps h fun _ =>
      modLfo_keeps (lfoSetSwitch_keeps Lfo.wave Lfo.mode (fun l => (bitOf y).getD l.invert) Lfo.retrig)
  | .lfoSetRetrig _ y => checked_keeps h fun _ =>
      modLfo_keeps (lfoSetSwitch_keeps Lfo.wave Lfo.mode Lfo.invert fun l => (bitOf y).getD l.retrig)
  | .lfoSetPw _ _ => checked_keeps h fun p => modLfo_keeps (lfoSetPw_keeps (clamp_operand (check_two p).2 (by decide)))
  | .lfoSetPhase _ _ => checked_keeps h fun p => modLfo_keeps (lfoSetPhase_keeps (wrap_unitPhase (check_two p).2))
  | .lfoTrigger _ => checked_keeps h fun _ => modLfo_keeps lfoTriggered_keeps
  | .routeSet _ _ _ _ => checked_keeps h fun p =>
      have ⟨_, hsd, hd⟩ := check_three p
      modRoute_keeps (Bool.and_eq_true_iff.2 ⟨hsd, clamp_operand hd (by decide)⟩)
  | .routeClear _ => checked_keeps h fun _ => modRoute_keeps (routeEmpty_ok _)

theorem execDecoded_keeps {c : Decoded} (h : execDecoded c s = .next t) : Keeps s t := by
  cases c with
  | instr i => exact exec_keeps i h
  | illegalOpcode op => exact next_keeps h (raise_keeps _ _)
  | reservedNonzero op =>
    refine next_keeps h (Keeps.trans ?_ (raise_keeps _ _))
    split
    · exact respond_keeps _
    · exact .refl s

theorem step_keeps (h : step s = .next t) : Keeps s t := by
  obtain ⟨-, e⟩ | ⟨-, -, e⟩ | ⟨w, rest, -, -, ⟨-, e⟩ | ⟨-, -, e⟩ | ⟨-, -, e⟩⟩ := step_cases s <;> rw [e] at h
  · cases h
  · exact next_keeps h (.refl s)
  · cases h
  · exact next_keeps h (.refl s)
  · exact commands_keeps.trans (execDecoded_keeps h)

end

/-- Settles O14: `step_keeps`, for the invariant. -/
theorem invariantKept : Obligations.InvariantKept := fun _ _ hs h => (step_keeps h).inv hs

/-- Settles O15: `step_keeps`, for every register's range. -/
theorem legalRegistersKept : Obligations.LegalRegistersKept := fun _ _ hs h => (step_keeps h).legal hs

end Sys2Proof.Machine

/-! PROOFS. What commands leave alone: the event registers but for CLEAR_STATUS and RESET (O18), and the configuration, the host's
input, the table memories, PRNG_STATE and SAMPLE_COUNT but for the commands that write them (O21). -/

namespace Sys2Proof.Machine

/-! ### Event registers that persist (10_state.md R35) -/

/-- Nothing recorded in `s` is lost in `t`. -/
structure EventsPersist (s t : State) : Prop where
  sticky : s.evtSticky &&& t.evtSticky = s.evtSticky
  reject : s.rejectCount ≤ t.rejectCount
  instab : s.instabCount ≤ t.instabCount
  sanitize : s.sanitizeCount ≤ t.sanitizeCount
  last : s.lastEvt ≠ 0#32 → t.lastEvt ≠ 0#32

theorem EventsPersist.refl (s : State) : EventsPersist s s :=
  ⟨BitVec.and_self, BitVec.le_refl _, BitVec.le_refl _, BitVec.le_refl _, id⟩

theorem EventsPersist.trans {s t u : State} (h : EventsPersist s t) (h' : EventsPersist t u) : EventsPersist s u where
  sticky := by rw [← h.sticky, BitVec.and_assoc, h'.sticky]
  reject := BitVec.le_trans h.reject h'.reject
  instab := BitVec.le_trans h.instab h'.instab
  sanitize := BitVec.le_trans h.sanitize h'.sanitize
  last := h'.last ∘ h.last

theorem le_saturatingInc (w : Word) : w ≤ saturatingInc w := by
  unfold saturatingInc
  split
  · exact BitVec.le_refl w
  · next h =>
    have hne : w.toNat ≠ 0xFFFFFFFF := fun e => h (BitVec.eq_of_toNat_eq e)
    have hlt := w.isLt
    rw [BitVec.le_def, BitVec.toNat_add, BitVec.toNat_ofNat]
    omega

theorem lastEvtWord_ne_zero (op : Byte) (e : Event) : lastEvtWord op e ≠ 0#32 := by
  intro h
  have hlow : BitVec.ofNat 8 (eventCode e) = 0#8 := by
    have h' := congrArg (BitVec.setWidth 8) h
    rwa [lastEvtWord, BitVec.setWidth_append, dif_pos (Nat.le_refl 8), BitVec.setWidth_eq] at h'
  cases e <;> exact absurd hlow (by decide)

theorem raise_persists (s : State) (op : Byte) (e : Event) : EventsPersist s (s.raise op e) := by
  have sticky : s.evtSticky &&& (s.raise op e).evtSticky = s.evtSticky := by
    rw [State.raise_evtSticky, BitVec.and_or_distrib_left, BitVec.and_self]
    ext k
    simp +contextual
  have last : s.lastEvt ≠ 0#32 → (s.raise op e).lastEvt ≠ 0#32 := fun _ => by
    rw [State.raise_lastEvt]
    exact lastEvtWord_ne_zero op e
  have counts : s.rejectCount ≤ (s.raise op e).rejectCount ∧ s.instabCount ≤ (s.raise op e).instabCount ∧
      s.sanitizeCount ≤ (s.raise op e).sanitizeCount := by
    cases e <;> simp [State.raise, le_saturatingInc]
  exact ⟨sticky, counts.1, counts.2.1, counts.2.2, last⟩

theorem raiseAll_persists (s : State) (op : Byte) (es : List Event) : EventsPersist s (s.raiseAll op es) := by
  induction es generalizing s with
  | nil => exact .refl s
  | cons e es ih => exact (raise_persists s op e).trans (ih _)

/-- The event registers as they were. -/
theorem EventsPersist.of_eq {s t : State} (h1 : t.evtSticky = s.evtSticky) (h2 : t.rejectCount = s.rejectCount)
    (h3 : t.instabCount = s.instabCount) (h4 : t.sanitizeCount = s.sanitizeCount) (h5 : t.lastEvt = s.lastEvt) :
    EventsPersist s t :=
  ⟨by rw [h1, BitVec.and_self], h2 ▸ BitVec.le_refl _, h3 ▸ BitVec.le_refl _, h4 ▸ BitVec.le_refl _, h5 ▸ id⟩

/-! ### What a command leaves alone -/

/-- An oscillator's table memories. -/
def oscTables (o : Osc) : Memory × Memory := (o.user, o.ctab)

/-- What every command but RESET, CLEAR_STATUS and the two table commands leaves alone. -/
structure Runs (s t : State) : Prop where
  cfg : t.cfg = s.cfg
  commands : t.commands = s.commands
  rxBytes : t.rxBytes = s.rxBytes
  tables : t.osc.map oscTables = s.osc.map oscTables
  events : EventsPersist s t

theorem Runs.refl (s : State) : Runs s s := ⟨rfl, rfl, rfl, rfl, .refl s⟩

theorem Runs.trans {s t u : State} (h : Runs s t) (h' : Runs t u) : Runs s u :=
  ⟨h'.cfg.trans h.cfg, h'.commands.trans h.commands, h'.rxBytes.trans h.rxBytes, h'.tables.trans h.tables,
   h.events.trans h'.events⟩

/-- What is left alone beside that by every command that neither seeds the PRNG nor renders. -/
structure Still (s t : State) : Prop extends Runs s t where
  prng : t.prng = s.prng
  sampleCount : t.sampleCount = s.sampleCount

theorem Still.refl (s : State) : Still s s := ⟨.refl s, rfl, rfl⟩

theorem Still.trans {s t u : State} (h : Still s t) (h' : Still t u) : Still s u :=
  ⟨h.toRuns.trans h'.toRuns, h'.prng.trans h.prng, h'.sampleCount.trans h.sampleCount⟩

/-- The tables of `o'` are those of `o`. -/
def SameOscTables (o o' : Osc) : Prop := oscTables o' = oscTables o

theorem tables_of_forall₂ {os os' : List Osc} (h : List.Forall₂ SameOscTables os os') :
    os'.map oscTables = os.map oscTables := by
  induction h with
  | nil => rfl
  | cons h _ ih => exact congrArg₂ List.cons h ih

theorem Runs.sameTables {s t : State} (h : Runs s t) : SameTables s t :=
  sameTables_of_osc fun i => by
    simpa using! congrArg (fun l : List (Memory × Memory) => l[i]?) h.tables

section
variable {s t : State}

theorem raise_still (op : Byte) (e : Event) : Still s (s.raise op e) :=
  ⟨⟨by simp, by simp, by simp, by simp, raise_persists s op e⟩, by simp, by simp⟩

theorem raiseAll_still (op : Byte) (es : List Event) : Still s (s.raiseAll op es) :=
  ⟨⟨by simp, by simp, by simp, by simp, raiseAll_persists s op es⟩, by simp, by simp⟩

theorem respond_still (w : Word) : Still s (s.respond w) := ⟨⟨rfl, rfl, rfl, rfl, .of_eq rfl rfl rfl rfl rfl⟩, rfl, rfl⟩

theorem modOsc_still {x : Byte} {g : Osc → Osc} (h : ∀ o, SameOscTables o (g o)) : Still s (s.modOsc x g) :=
  ⟨⟨rfl, rfl, rfl, tables_of_forall₂ (forall₂_modify (R := SameOscTables) rfl (h _) _), .of_eq rfl rfl rfl rfl rfl⟩, rfl, rfl⟩

theorem modFlt_still (x : Byte) (g : Flt → Flt) : Still s (s.modFlt x g) :=
  ⟨⟨rfl, rfl, rfl, rfl, .of_eq rfl rfl rfl rfl rfl⟩, rfl, rfl⟩

theorem modEnv_still (x : Byte) (g : Env → Env) : Still s (s.modEnv x g) :=
  ⟨⟨rfl, rfl, rfl, rfl, .of_eq rfl rfl rfl rfl rfl⟩, rfl, rfl⟩

theorem modLfo_still (x : Byte) (g : Lfo → Lfo) : Still s (s.modLfo x g) :=
  ⟨⟨rfl, rfl, rfl, rfl, .of_eq rfl rfl rfl rfl rfl⟩, rfl, rfl⟩

theorem modRoute_still (x : Byte) (g : Route → Route) : Still s (s.modRoute x g) :=
  ⟨⟨rfl, rfl, rfl, rfl, .of_eq rfl rfl rfl rfl rfl⟩, rfl, rfl⟩

theorem voice_still (env : List Env) (note pressure : Byte) :
    Still s { s with env := env, note := note, pressure := pressure } :=
  ⟨⟨rfl, rfl, rfl, rfl, .of_eq rfl rfl rfl rfl rfl⟩, rfl, rfl⟩

theorem tempo_still (d : F32) : Still s { s with tempo := d } := ⟨⟨rfl, rfl, rfl, rfl, .of_eq rfl rfl rfl rfl rfl⟩, rfl, rfl⟩

theorem noteOn_still (note vel : Byte) (d : Word) : Still s (s.noteOn note vel d) :=
  ⟨⟨rfl, rfl, rfl, tables_of_forall₂ (forall₂_map (R := SameOscTables) (by intro; rfl) _), .of_eq rfl rfl rfl rfl rfl⟩, rfl, rfl⟩

theorem withSampleRate_still (d : Word) : Still s (s.withSampleRate d) :=
  ⟨⟨rfl, rfl, rfl, tables_of_forall₂ ((withSampleRate_osc d).imp fun _ _ ⟨_, e⟩ => e ▸ rfl), .of_eq rfl rfl rfl rfl rfl⟩,
   rfl, rfl⟩

/-! ### PROCESS -/

theorem blockStart_runs : Runs s s.blockStart :=
  ⟨rfl, rfl, rfl, tables_of_forall₂ (forall₂_mapIdx (R := SameOscTables) (fun _ _ => by rfl) _), .of_eq rfl rfl rfl rfl rfl⟩

theorem render_runs : Runs s s.render.1 := by
  have units : Runs s { s with
      prng := (oscBank s.cfg s.fs s.osc s.prng).1, osc := (oscBank s.cfg s.fs s.osc s.prng).2.2
      flt := (cascade s.flt (oscMix s.osc (oscBank s.cfg s.fs s.osc s.prng).2.1 F32.posZero)).1 } := by
    refine ⟨rfl, rfl, rfl, ?_, .of_eq rfl rfl rfl rfl rfl⟩
    simp only [oscBank_oscs]
    refine tables_of_forall₂ (forall₂_map (fun {o} => ?_) _)
    unfold oscAdvance
    split <;> rfl
  exact units.trans (raiseAll_still _ _).toRuns

theorem finish_runs (x : F32) : Runs s (s.finish x) := by
  have envs : Runs s { s with env := s.env.map envStep } := (voice_still _ s.note s.pressure).toRuns
  have emits (u : State) (ls : List Lfo) (y : F32) : Runs u ({ u with lfo := ls }.emit y) :=
    ⟨rfl, rfl, rfl, rfl, .of_eq rfl rfl rfl rfl rfl⟩
  exact envs.trans ((raiseAll_still _ _).toRuns.trans (emits _ _ _))

theorem samples_runs (n : Nat) : Runs s (State.samples n s) := by
  induction n generalizing s with
  | zero => exact .refl s
  | succ n ih => exact (render_runs.trans (finish_runs _)).trans ih

theorem reclaim_runs : Runs s s.reclaim := by
  unfold State.reclaim
  split
  · exact (voice_still _ _ _).toRuns
  · exact .refl s

theorem processed_runs (n : Nat) : Runs s (s.processed n) := by
  unfold State.processed
  split
  · exact .refl s
  · exact blockStart_runs.trans ((samples_runs n).trans reclaim_runs)

/-! ### Command by command -/

/-- What command `i` leaves alone. -/
structure CommandFrame (i : Instr) (s t : State) : Prop where
  cfg : t.cfg = s.cfg
  commands : t.commands = s.commands
  rxBytes : t.rxBytes = s.rxBytes
  tables : (∀ x n d, i ≠ .oscCustWrite x n d) → (∀ x d, i ≠ .oscCustCommit x d) → i ≠ .reset → SameTables s t
  prng : (∀ d, i ≠ .process d) → (∀ d, i ≠ .seedPrng d) → i ≠ .reset → t.prng = s.prng
  sampleCount : (∀ d, i ≠ .process d) → i ≠ .reset → t.sampleCount = s.sampleCount
  events : i ≠ .clearStatus → i ≠ .reset → EventsPersist s t

theorem Still.frame {i : Instr} (h : Still s t) : CommandFrame i s t :=
  ⟨h.cfg, h.commands, h.rxBytes, fun _ _ _ => h.sameTables, fun _ _ _ => h.prng, fun _ _ => h.sampleCount,
   fun _ _ => h.events⟩

theorem next_frame {i : Instr} {u : State} (h : (.next u : Result) = .next t) (k : CommandFrame i s u) : CommandFrame i s t := by
  cases h
  exact k

/-- A checked command leaves alone what its effect does. -/
theorem checked_frame {i j : Instr} {cs : List (Option Event)} {eff : State} (h : s.checked j cs eff = .next t)
    (k : CommandFrame i s eff) : CommandFrame i s t := by
  obtain ⟨-, rfl⟩ | ⟨e, -, rfl⟩ := checked_cases h
  · exact k
  · exact (raise_still _ _).frame

theorem process_frame (d : Word) : CommandFrame (.process d) s (s.processed (framesOf d)) :=
  have r := processed_runs (framesOf d)
  ⟨r.cfg, r.commands, r.rxBytes, fun _ _ _ => r.sameTables, fun h => absurd rfl (h d), fun h => absurd rfl (h d),
   fun _ _ => r.events⟩

theorem read_frame {cls idx fld : Byte} (h : execRead cls idx fld s = .next t) : CommandFrame (.read cls idx fld) s t := by
  unfold execRead at h
  split at h
  · exact next_frame h (respond_still _).frame
  · exact next_frame h ((respond_still _).trans (raise_still _ _)).frame

theorem exec_frame (i : Instr) (h : exec i s = .next t) : CommandFrame i s t :=
  match i with
  | .nop => next_frame h (Still.refl s).frame
  | .reset => next_frame h ⟨rfl, rfl, rfl, fun _ _ h => absurd rfl h, fun _ _ h => absurd rfl h, fun _ h => absurd rfl h,
      fun _ h => absurd rfl h⟩
  | .clearStatus => next_frame h ⟨rfl, rfl, rfl, fun _ _ _ _ _ => ⟨rfl, rfl⟩, fun _ _ _ => rfl, fun _ _ => rfl,
      fun h => absurd rfl h⟩
  | .seedPrng d => next_frame h ⟨rfl, rfl, rfl, fun _ _ _ _ _ => ⟨rfl, rfl⟩, fun _ h => absurd rfl (h d), fun _ _ => rfl,
      fun _ _ => .of_eq rfl rfl rfl rfl rfl⟩
  | .process d => next_frame h (process_frame d)
  | .read _ _ _ => read_frame h
  | .setSampleRate d => checked_frame h (withSampleRate_still d).frame
  | .setTempo _ => checked_frame h (tempo_still _).frame
  | .noteOn _ _ _ => checked_frame h (noteOn_still _ _ _).frame
  | .noteOff | .voiceStop | .voiceKill => next_frame h (voice_still _ _ s.pressure).frame
  | .setPressure _ => checked_frame h (voice_still s.env s.note _).frame
  | .oscCustWrite x n d => checked_frame h ⟨rfl, rfl, rfl, fun h => absurd rfl (h x n d), fun _ _ _ => rfl, fun _ _ => rfl,
      fun _ _ => .of_eq rfl rfl rfl rfl rfl⟩
  | .oscCustCommit x d => checked_frame h ⟨rfl, rfl, rfl, fun _ h => absurd rfl (h x d), fun _ _ _ => rfl, fun _ _ => rfl,
      fun _ _ => .of_eq rfl rfl rfl rfl rfl⟩
  | .oscSetWave _ _ | .oscSetFreq _ _ | .oscSetPhase _ _ | .oscSetDetune _ _ | .oscSetPw _ _ | .oscSetMix _ _ =>
    checked_frame h (modOsc_still fun _ => by rfl).frame
  | .fltSetType _ _ | .fltSetCutoff _ _ | .fltSetRes _ _ | .fltSetGain _ _ | .fltSetEnable _ _ | .fltReset _ =>
    checked_frame h (modFlt_still _ _).frame
  | .envSetAttack _ _ | .envSetDecay _ _ | .envSetSustain _ _ | .envSetRelease _ _ | .envSetCurve _ _
  | .envSetVelsens _ _ | .envTrigger _ | .envRelease _ | .envStop _ => checked_frame h (modEnv_still _ _).frame
  | .lfoSetWave _ _ | .lfoSetFreq _ _ | .lfoSetMode _ _ | .lfoSetDiv _ _ | .lfoSetDepth _ _ | .lfoSetInvert _ _
  | .lfoSetRetrig _ _ | .lfoSetPw _ _ | .lfoSetPhase _ _ | .lfoTrigger _ => checked_frame h (modLfo_still _ _).frame
  | .routeSet _ _ _ _ | .routeClear _ => checked_frame h (modRoute_still _ _).frame

end

/-- Settles O18: `exec_frame`, for the event registers. -/
theorem eventRegistersPersist : Obligations.EventRegistersPersist := by
  unfold Obligations.EventRegistersPersist
  intro i s t hc hr h
  have e := (exec_frame i h).events hc hr
  exact ⟨e.sticky, e.reject, e.instab, e.sanitize, e.last⟩

/-- Settles O21: `exec_frame`, for everything else. -/
theorem whoWritesWhat : Obligations.WhoWritesWhat := by
  unfold Obligations.WhoWritesWhat
  intro i s t h
  have f := exec_frame i h
  exact ⟨f.cfg, f.commands, f.rxBytes, f.tables, f.prng, f.sampleCount⟩

end Sys2Proof.Machine

/-! PROOFS. The register map (O28), the reset values (O24), and STATUS and the configuration words bit by bit (O29). -/

namespace Sys2Proof.Machine
open F32

/-! ### Reading the accumulators (10_state.md R43) -/

/-- The accumulators of destination type `t`, in index order. -/
def accBank (a : Acc) (t : Nat) : List F32 :=
  match t with
  | 1 => a.oscFreq
  | 2 => a.oscPw
  | 3 => a.oscMix
  | 4 => a.fltCutoff
  | 5 => a.fltRes
  | 6 => a.fltGain
  | 7 => [a.amp]
  | _ => []

theorem accBank_high (a : Acc) {t : Nat} (h : 8 ≤ t) : accBank a t = [] := by
  unfold accBank
  split
  iterate 7 omega
  rfl

theorem read_bank {l : List F32} {k : Nat} (hl : l.length = k) (n : Nat) :
    (if decide (n < k) then some (l.getD n posZero) else none) = l[n]? := by
  subst hl
  rw [List.getD_eq_getElem?_getD]
  by_cases hn : n < l.length
  · simp [hn]
  · simp [hn]

theorem readRegister_acc {s : State} (h : accOk s.cfg s.acc = true) (t n : Nat) :
    s.readRegister 7 t n = (accBank s.acc t)[n]? := by
  obtain ⟨h1, h2, h3, h4, h5, h6⟩ := accOk_iff.1 h
  match t with
  | 1 => exact read_bank h1 n
  | 2 => exact read_bank h2 n
  | 3 => exact read_bank h3 n
  | 4 => exact read_bank h4 n
  | 5 => exact read_bank h5 n
  | 6 => exact read_bank h6 n
  | 7 => cases n <;> rfl
  | 0 | _ + 8 => rfl

/-! ### One unit's registers -/

section
variable {s : State} (h : s.Sized)
include h

theorem read_osc {i : Nat} {o : Osc} (ho : s.osc[i]? = some o) (f : Nat) : s.readRegister 1 i f = (oscFields o)[f]? := by
  rw [readRegister_osc h, ho, Option.bind_some]

theorem read_flt {j : Nat} {u : Flt} (hu : s.flt[j]? = some u) (f : Nat) : s.readRegister 2 j f = (fltFields u)[f]? := by
  rw [readRegister_flt h, hu, Option.bind_some]

theorem read_env {k : Nat} {e : Env} (he : s.env[k]? = some e) (f : Nat) : s.readRegister 3 k f = (envFields e)[f]? := by
  rw [readRegister_env h, he, Option.bind_some]

theorem read_lfo {l : Nat} {u : Lfo} (hu : s.lfo[l]? = some u) (f : Nat) : s.readRegister 4 l f = (lfoFields u)[f]? := by
  rw [readRegister_lfo h, hu, Option.bind_some]

theorem read_route {r : Nat} {u : Route} (hu : s.route[r]? = some u) (f : Nat) :
    s.readRegister 5 r f = (routeFields u)[f]? := by
  rw [readRegister_route h, hu, Option.bind_some]

/-- An index past the last unit of a class names no register. -/
theorem read_no_unit (i f : Nat) : (s.cfg.nOsc ≤ i → s.readRegister 1 i f = none) ∧
    (s.cfg.nFlt ≤ i → s.readRegister 2 i f = none) ∧ (s.cfg.nEnv ≤ i → s.readRegister 3 i f = none) ∧
    (s.cfg.nLfo ≤ i → s.readRegister 4 i f = none) ∧ (s.cfg.nRoute ≤ i → s.readRegister 5 i f = none) := by
  rw [readRegister_osc h, readRegister_flt h, readRegister_env h, readRegister_lfo h, readRegister_route h,
    ← h.osc, ← h.flt, ← h.env, ← h.lfo, ← h.route]
  have none_of {α : Type} (us : List α) (fields : α → List Word) (hi : us.length ≤ i) :
      (us[i]?.bind fun u => (fields u)[f]?) = none := by
    rw [List.getElem?_eq_none hi, Option.bind_none]
  exact ⟨none_of _ _, none_of _ _, none_of _ _, none_of _ _, none_of _ _⟩

end

theorem read_global (s : State) (f : Nat) : s.readRegister 0 0 f = s.globalFields[f]? := readRegister_global s 0 f

theorem read_voice (s : State) (f : Nat) : s.readRegister 6 0 f = s.voiceFields[f]? := readRegister_voice s 0 f

/-- Settles O28: one read lemma a class. STATUS and ACTIVE, which the map leaves out, are O29's. -/
theorem registerMap : Obligations.RegisterMap := by
  unfold Obligations.RegisterMap
  intro s h
  have hz := h.sized
  refine ⟨fun f h4 h10 => ?_, fun f hf => ?_, fun _ _ => read_osc hz, fun _ _ => read_flt hz, fun _ _ => read_env hz,
    fun _ _ => read_lfo hz, fun _ _ => read_route hz, fun f h3 => ?_, fun n => ?_, fun i n => ?_, readRegister_high s⟩
  · calc s.readRegister 0 0 f = s.globalFields[f]? := read_global s f
      _ = (s.globalFields.take 10)[f]? := (List.getElem?_take_of_lt h10).symm
      _ = ((s.globalFields.take 10).set 4 0#32)[f]? := (List.getElem?_set_ne h4.symm).symm
  · exact (read_global s f).trans (List.getElem?_eq_none hf)
  · calc s.readRegister 6 0 f = s.voiceFields[f]? := read_voice s f
      _ = (s.voiceFields.set 3 0#32)[f]? := (List.getElem?_set_ne h3.symm).symm
  · have acc := fun t => readRegister_acc h.acc t n
    exact ⟨acc 1, acc 2, acc 3, acc 4, acc 5, acc 6, acc 7⟩
  · obtain ⟨osc, flt, env, lfo, route⟩ := read_no_unit hz i n
    refine ⟨readRegister_acc h.acc 0 n, osc, flt, env, lfo, route, fun hi => ?_, fun hi => ?_⟩
    · rw [readRegister_global, readRegister_voice, if_neg (by omega), if_neg (by omega)]
      exact ⟨rfl, rfl⟩
    · rw [readRegister_acc h.acc, accBank_high _ hi, List.getElem?_nil]

/-! ### The reset values (10_state.md R33 to R43, 70_reset_and_hazards.md R701, R702) -/

/-- The coefficients by the formulas of 42_filter.md R302 to R311 written out. -/
theorem coefs_eq_filterCoefficients (tsin : Nat) (fs : F32) (ty : FilterType) (fc q g : F32) :
    coefs tsin fs ty fc q g = filterCoefficients tsin fs ty fc q g := by
  cases ty <;> rfl

/-- The coefficients of a filter at reset. -/
def coefsAtReset (c : Config) : Coefs :=
  filterCoefficients c.tsin Const.fsReset .lowPass Const.cutMax Const.resReset posZero

theorem fltUpdate_fltReset (c : Config) : fltUpdate c Const.fsReset posZero posZero posZero fltReset =
    { fltReset with
      cutEff := Const.cutMax, qEff := Const.resReset, gainEff := posZero
      b0 := (coefsAtReset c).b0, b1 := (coefsAtReset c).b1, b2 := (coefsAtReset c).b2, a0 := (coefsAtReset c).a0
      a1 := (coefsAtReset c).a1, a2 := (coefsAtReset c).a2 } := by
  have hcut : clamp (add Const.cutMax posZero) Const.cutMin (F32.min Const.cutMax (mul Const.nyqFrac Const.fsReset)) =
      Const.cutMax := by decide
  have hq : clamp (add Const.resReset posZero) Const.qMin Const.qMax = Const.resReset := by decide
  have hg : clamp (add posZero posZero) Const.gainMin Const.gainMax = posZero := by decide
  simp only [fltUpdate, fltReset, hcut, hq, hg, coefs_eq_filterCoefficients, coefsAtReset]

section
variable {c : Config}

theorem resetOf_osc {i : Nat} (hi : i < c.nOsc) : (State.resetOf c).osc[i]? =
    some (oscEffective c Const.fsReset posZero posZero posZero (oscReset i)) := by
  simp [State.resetOf, oscsAtReset, hi]

theorem resetOf_flt {j : Nat} (hj : j < c.nFlt) : (State.resetOf c).flt[j]? =
    some (fltUpdate c Const.fsReset posZero posZero posZero fltReset) := List.getElem?_replicate_of_lt hj

theorem resetOf_env {k : Nat} (hk : k < c.nEnv) : (State.resetOf c).env[k]? = some (envLens Const.fsReset envReset) :=
  List.getElem?_replicate_of_lt hk

theorem resetOf_lfo {l : Nat} (hl : l < c.nLfo) : (State.resetOf c).lfo[l]? =
    some (lfoEffective Const.fsReset Const.tempoReset lfoReset) := List.getElem?_replicate_of_lt hl

theorem resetOf_route {r : Nat} (hr : r < c.nRoute) : (State.resetOf c).route[r]? = some routeEmpty :=
  List.getElem?_replicate_of_lt hr

end

/-- env[0] is Idle at reset, an envelope list without an env[0] included. -/
theorem ampEnv_resetOf (c : Config) : (State.resetOf c).ampEnv.stage = .idle := by
  have idle (n : Nat) : ((List.replicate n (envLens Const.fsReset envReset)).getD 0 envReset).stage = .idle := by
    cases n <;> rfl
  exact idle c.nEnv

theorem active_resetOf (c : Config) : (State.resetOf c).active = false := by
  rw [State.active, envActive, ampEnv_resetOf]
  rfl

theorem status_resetOf (c : Config) : (State.resetOf c).status = 0#32 := by
  have err : (State.resetOf c).err = false := bne_self_eq_false 0#32
  have note : (State.resetOf c).noteValid = false := bne_self_eq_false Const.noteNone
  rw [State.status, active_resetOf, ampEnv_resetOf, err, note]
  decide

theorem entries_resetOf (c : Config) (i n : Nat) :
    (State.resetOf c).userEntry i n = posZero ∧ (State.resetOf c).custEntry i n = posZero := by
  unfold State.userEntry State.custEntry
  by_cases hi : i < c.nOsc
  · rw [resetOf_osc hi]
    exact ⟨rfl, rfl⟩
  · have len : (State.resetOf c).osc.length = c.nOsc := by simp [State.resetOf, oscsAtReset]
    rw [List.getElem?_eq_none (len ▸ Nat.le_of_not_lt hi)]
    exact ⟨rfl, rfl⟩

theorem registerValue_of_read {s : State} {c i f : Nat} {w : Word} (h : s.readRegister c i f = some w) :
    w = s.registerValue c i f := by
  unfold State.readRegister at h
  split at h
  · exact (Option.some.inj h).symm
  · nomatch h

/-- A register of a filter at reset that holds no coefficient but A0. -/
theorem fltFields_without_coefficients (u : Flt) {f : Nat} (hf : f < 5 ∨ f = 8 ∨ 11 ≤ f) : (fltFields u)[f]? =
    (fltFields { u with b0 := posZero, b1 := posZero, b2 := posZero, a1 := posZero, a2 := posZero })[f]? := by
  have e : fltFields { u with b0 := posZero, b1 := posZero, b2 := posZero, a1 := posZero, a2 := posZero } =
      (((((fltFields u).set 5 posZero).set 6 posZero).set 7 posZero).set 9 posZero).set 10 posZero := rfl
  rw [e, List.getElem?_set_ne (by omega), List.getElem?_set_ne (by omega), List.getElem?_set_ne (by omega),
    List.getElem?_set_ne (by omega), List.getElem?_set_ne (by omega)]

/-- Settles O24: the reset state unit by unit, each with its derived registers. -/
theorem resetValues : Obligations.ResetValues := by
  unfold Obligations.ResetValues
  intro c hc
  dsimp only
  have hz := (resetOf_inv hc).sized
  have osc {i : Nat} (hi : i < c.nOsc) := oscEffective_oscReset c i ▸ read_osc hz (resetOf_osc hi)
  have flt {j : Nat} (hj : j < c.nFlt) := fltUpdate_fltReset c ▸ read_flt hz (resetOf_flt hj)
  have env {k : Nat} (hk : k < c.nEnv) := envLens_envReset ▸ read_env hz (resetOf_env hk)
  have lfo {l : Nat} (hl : l < c.nLfo) := lfoEffective_lfoReset ▸ read_lfo hz (resetOf_lfo hl)
  refine ⟨fun f hf => ?_, fun i hi f hf => ?_, fun i hi => osc hi 10, fun j hj => ⟨fun f hf => ?_, ?_⟩, fun _ => env,
    fun _ => lfo, fun _ hr => read_route hz (resetOf_route hr), fun f => ?_, fun t n w h => ?_, entries_resetOf c⟩
  · rw [read_global, ← List.getElem?_take_of_lt hf, State.globalFields, status_resetOf]
    rfl
  · rw [osc hi, ← List.getElem?_set_ne hf.symm (a := 0#32)]
    rfl
  · rw [flt hj, fltFields_without_coefficients _ hf]
    rfl
  · exact ⟨flt hj 5, flt hj 6, flt hj 7, flt hj 9, flt hj 10⟩
  · rw [read_voice, State.voiceFields, active_resetOf]
    rfl
  · exact (registerValue_of_read h).trans (accGet_accZero c t n)

/-! ### STATUS and the configuration words (10_state.md R34, R36) -/

/-- The fields of a word laid out as STATUS is. -/
theorem status_fields (active err note : Bool) (stage : BitVec 3) :
    let w : Word := 0#26 ++ BitVec.ofBool err ++ BitVec.ofBool note ++ stage ++ BitVec.ofBool active
    w.getLsbD 0 = active ∧ w.extractLsb' 1 3 = stage ∧ w.getLsbD 4 = note ∧ w.getLsbD 5 = err ∧
      w.extractLsb' 6 26 = 0#26 ∧ Word.ofBool active = w &&& 1#32 := by
  revert active err note stage
  decide

/-- The bytes of a word laid out as a configuration word is. -/
theorem config_fields (b3 b2 b1 b0 : Byte) :
    (b3 ++ b2 ++ b1 ++ b0).extractLsb' 0 8 = b0 ∧ (b3 ++ b2 ++ b1 ++ b0).extractLsb' 8 8 = b1 ∧
      (b3 ++ b2 ++ b1 ++ b0).extractLsb' 16 8 = b2 ∧ (b3 ++ b2 ++ b1 ++ b0).extractLsb' 24 8 = b3 := by
  have drop {n : Nat} {a : BitVec n} {b : Byte} {k : Nat} : (a ++ b).extractLsb' (k + 8) 8 = a.extractLsb' k 8 :=
    BitVec.extractLsb'_append_eq_of_le (Nat.le_add_left 8 k)
  exact ⟨BitVec.extractLsb'_append_eq_right, drop.trans BitVec.extractLsb'_append_eq_right,
    drop.trans (drop.trans BitVec.extractLsb'_append_eq_right), drop.trans (drop.trans BitVec.extractLsb'_append_eq_left)⟩

/-- A count that fits a byte. -/
theorem byte_toNat {n : Nat} (h : n < 256) : (BitVec.ofNat 8 n).toNat = n := Nat.mod_eq_of_lt h

theorem log2_of_size {n : Nat} (hp : isPowerOfTwo n = true) (hn : n ≤ 65536) : 2 ^ Nat.log2 n = n ∧ Nat.log2 n < 256 := by
  have e : 2 ^ Nat.log2 n = n := beq_iff_eq.1 hp
  have : Nat.log2 n ≤ 16 := (Nat.pow_le_pow_iff_right Nat.one_lt_two).1 (e.le.trans hn)
  exact ⟨e, by omega⟩

/-- Settles O29: `status_fields` and `config_fields`, the counts and the table sizes as a legal configuration bounds them. -/
theorem statusAndConfigWords : Obligations.StatusAndConfigWords := by
  unfold Obligations.StatusAndConfigWords
  refine ⟨fun s e he => ⟨s.status, rfl, ?_⟩, fun s hc => ⟨config0 s.cfg, config1 s.cfg, rfl, rfl, rfl, ?_⟩, rfl, rfl, rfl⟩
  · have amp : s.ampEnv = e := by rw [State.ampEnv, List.getD_eq_getElem?_getD, he, Option.getD_some]
    subst amp
    obtain ⟨b0, stage, b4, b5, high, low⟩ := status_fields s.active s.err s.noteValid (BitVec.ofNat 3 (stageCode s.ampEnv.stage))
    exact ⟨b0, stage, b4, b5, high, congrArg some low⟩
  · simp only [Config.legal, Bool.and_eq_true, decide_eq_true_eq] at hc
    obtain ⟨⟨⟨⟨⟨⟨⟨⟨⟨-, ho⟩, ⟨-, hf⟩⟩, ⟨-, he⟩⟩, ⟨-, hl⟩⟩, ⟨-, hr⟩⟩, ⟨⟨-, hs⟩, hsp⟩⟩, ⟨⟨-, ht⟩, htp⟩⟩, ⟨-, hn⟩⟩, -⟩ := hc
    obtain ⟨es, ls⟩ := log2_of_size hsp hs
    obtain ⟨et, lt⟩ := log2_of_size htp ht
    obtain ⟨osc, flt, env, lfo⟩ :=
      config_fields (.ofNat 8 s.cfg.nLfo) (.ofNat 8 s.cfg.nEnv) (.ofNat 8 s.cfg.nFlt) (.ofNat 8 s.cfg.nOsc)
    obtain ⟨route, tsin, tab, nb⟩ :=
      config_fields (.ofNat 8 s.cfg.nb) (.ofNat 8 s.cfg.tab.log2) (.ofNat 8 s.cfg.tsin.log2) (.ofNat 8 s.cfg.nRoute)
    simp only [config0, config1]
    rw [osc, flt, env, lfo, route, tsin, tab, nb, byte_toNat ls, byte_toNat lt]
    exact ⟨byte_toNat (by omega), byte_toNat (by omega), byte_toNat (by omega), byte_toNat (by omega), byte_toNat (by omega),
      es, et, byte_toNat (by omega)⟩

end Sys2Proof.Machine

/-! PROOFS. The streams and the transports (20_memory.md): the bytes of words and frames (O7), when a step runs the next command
and when it waits (O9, O11), what each command puts on the output streams (O19, O20), and that the setters repeat (O22). -/

namespace Sys2Proof.Machine

/-! ### Bytes on a transport (R107, R108) -/

/-- A word is its eight bytes, the first the least significant. -/
theorem assembleBytes_toBytes (w : Command) : assembleBytes (Command.toBytes w) = ([w], []) := by
  have whole : w.extractLsb' 56 8 ++ w.extractLsb' 48 8 ++ w.extractLsb' 40 8 ++ w.extractLsb' 32 8 ++
      w.extractLsb' 24 8 ++ w.extractLsb' 16 8 ++ w.extractLsb' 8 8 ++ w.extractLsb' 0 8 = w := by
    iterate 7 rw [BitVec.extractLsb'_append_extractLsb'_eq_extractLsb']
    · exact BitVec.extractLsb'_eq_self
    all_goals rfl
  exact congrArg (fun v : Command => ([v], ([] : List Byte))) whole

/-- A word's bytes are those of its low half, then those of its high half. -/
theorem wordBytes_halves (w : Command) :
    wordBytes (w.extractLsb' 0 32) ++ wordBytes (w.extractLsb' 32 32) = Command.toBytes w := by
  have nested (i k : Nat) (h : k + 8 ≤ 32) : (w.extractLsb' i 32).extractLsb' k 8 = w.extractLsb' (i + k) 8 := by
    ext j hj
    simp [show k + j < 32 by omega, Nat.add_assoc]
  simp only [wordBytes, nested, Nat.reduceLeDiff, Nat.reduceAdd]
  rfl

theorem wordBytes_getElem? (w : Word) {k : Nat} (hk : k < 4) : (wordBytes w)[k]? = some (w.extractLsb' (8 * k) 8) := by
  match k, hk with
  | 0, _ | 1, _ | 2, _ | 3, _ => rfl

/-- Fewer than eight bytes are no word. -/
theorem assembleBytes_short {l : List Byte} (h : l.length < 8) : assembleBytes l = ([], l) := by
  unfold assembleBytes
  split
  · simp only [List.length_cons] at h
    omega
  · rfl

/-- Bytes that follow are assembled behind those left over. -/
theorem assembleBytes_append (l b : List Byte) : assembleBytes (l ++ b) =
    ((assembleBytes l).1 ++ (assembleBytes ((assembleBytes l).2 ++ b)).1, (assembleBytes ((assembleBytes l).2 ++ b)).2) := by
  fun_induction assembleBytes l with
  | case1 b0 b1 b2 b3 b4 b5 b6 b7 rest r ih => simp [assembleBytes, ih, r]
  | case2 rest => simp

theorem receive_append (s : State) (a b : List Byte) : (s.receive a).receive b = s.receive (a ++ b) := by
  simp only [State.receive, ← List.append_assoc, assembleBytes_append (s.rxBytes ++ a) b]

theorem receive_short {s : State} {a : List Byte} (h : s.rxBytes.length + a.length < 8) :
    s.receive a = { s with rxBytes := s.rxBytes ++ a } := by
  simp [State.receive, assembleBytes_short (l := s.rxBytes ++ a) (by simpa using h)]

theorem receive_toBytes {s : State} (h : s.rxBytes = []) (w : Command) :
    s.receive (Command.toBytes w) = { s with commands := s.commands ++ [w] } := by
  simp [State.receive, h, assembleBytes_toBytes]

theorem foldl_sendByte (s : State) (a bs : List Byte) :
    bs.foldl (fun t b => t.host (.sendByte b)) (s.receive a) = s.receive (a ++ bs) := by
  induction bs generalizing a with
  | nil => simp
  | cons b bs ih =>
    calc (b :: bs).foldl (fun t b => t.host (.sendByte b)) (s.receive a)
        = bs.foldl (fun t b => t.host (.sendByte b)) (s.receive (a ++ [b])) := by rw [← receive_append]; rfl
      _ = s.receive (a ++ b :: bs) := by simp [ih]

/-- Settles O7: however a word is cut up, the block assembles the same bytes. -/
theorem transportAssembly : Obligations.TransportAssembly := by
  unfold Obligations.TransportAssembly
  refine ⟨fun w k hk => ?_, fun s w h => ⟨receive_toBytes h w, ?_, ?_⟩, receive_append, fun s a => receive_short,
    fun f k hk => ⟨?_, ?_⟩⟩
  · rw [Command.toBytes, List.getElem?_map, List.getElem?_range hk, Option.map_some]
  · calc (s.receive (wordBytes (w.extractLsb' 0 32))).receive (wordBytes (w.extractLsb' 32 32))
        = s.receive (Command.toBytes w) := by rw [receive_append, wordBytes_halves]
      _ = { s with commands := s.commands ++ [w] } := receive_toBytes h w
  · exact (foldl_sendByte s [w.extractLsb' 0 8] _).trans (receive_toBytes h w)
  · rw [frameBytes, List.getElem?_append_left hk, wordBytes_getElem? _ hk]
  · rw [frameBytes, List.getElem?_append_right (Nat.le_add_left 4 k)]
    exact wordBytes_getElem? _ hk

/-! ### Running and waiting (R100, R103) -/

section
variable {s : State} {w : Command} {rest : List Command}

/-- After a reset, under a legal configuration, the next word is carried out if the streams have room for it; if not, it waits. -/
theorem step_of_word (hl : s.cfg.legal = true) (hd : s.resetDone = true) (hc : s.commands = w :: rest) :
    step s = if s.hasRoom (decodeCommand w) then execDecoded (decodeCommand w) { s with commands := rest } else .next s := by
  have hp : s.popCommand = { s with commands := rest } := by rw [State.popCommand, hc, List.tail_cons]
  cases hr : s.hasRoom (decodeCommand w) <;> simp [step, hl, hc, State.take, State.mayRun, hd, hr, hp]

/-- With no word, or one the streams have no room for, the block waits. -/
theorem step_waits (h : s.Ready) (hw : ∀ w rest, s.commands = w :: rest → s.hasRoom (decodeCommand w) = false) :
    step s = .next s := by
  cases hc : s.commands with
  | nil => simp [step, h.inv.cfg, hc]
  | cons w rest => rw [step_of_word h.inv.cfg h.resetDone hc, hw w rest hc, if_neg Bool.false_ne_true]

end

/-- A command that emits no more frames than the audio stream accepts has room for its frames. -/
theorem accepts_framesOfDecoded {s : State} {i : Instr} (hn : s.NotFull)
    (hp : ∀ d, i = .process d → Accepts s.audioCap s.audio.length d.toInt.toNat) :
    Accepts s.audioCap s.audio.length (framesOfDecoded (.instr i)) := by
  unfold framesOfDecoded
  split
  · next d h => exact hp d (Decoded.instr.inj h)
  · exact fun k hk => ⟨hn.1 k hk, .inl (hn.1 k hk).le⟩

/-- Settles O9: `step_of_word`, the streams having room. -/
theorem stepRunsDecodedCommand : Obligations.StepRunsDecodedCommand := by
  unfold Obligations.StepRunsDecodedCommand
  intro s w rest i h hn hc hi hp
  have room : s.hasRoom (decodeCommand w) = true := by
    rw [hi]
    exact hasRoom_of_notFull hn (accepts_framesOfDecoded hn hp)
  rw [step_of_word h.inv.cfg h.resetDone hc, if_pos room, hi]
  rfl

theorem hasRoom_of_empty {s : State} (ha : s.audioCap ≠ some 0) (hr : s.respCap ≠ some 0) (c : Decoded) :
    State.hasRoom { s with audio := [], responses := [] } c = true :=
  Bool.and_eq_true_iff.2 ⟨roomFor_empty ha _, roomFor_empty hr _⟩

/-- Settles O11: `step_waits` while there is no room, `step_of_word` once the host has taken all. -/
theorem stepWaits : Obligations.StepWaits := by
  unfold Obligations.StepWaits
  intro s h
  refine ⟨fun hc => ?_, fun hn => ?_, fun w rest d hc hd ha => ?_, List.tail_reverse.symm, rfl, List.tail_reverse.symm, rfl,
    fun w rest i hc hi ha hr => ?_⟩
  · exact step_waits h fun w rest hw => nomatch hc.symm.trans hw
  · exact step_waits h fun w _ _ => hasRoom_of_full hn _
  · refine step_waits h fun w' rest' hw => ?_
    obtain ⟨rfl, rfl⟩ := List.cons.inj (hc.symm.trans hw)
    have full : roomFor s.audioCap s.audio.length d.toInt.toNat = false := Bool.eq_false_iff.2 (mt (roomFor_iff _ _ _).1 ha)
    rw [hd]
    exact Bool.and_eq_false_imp.2 fun hr => nomatch full.symm.trans hr
  · have run := step_of_word (s := { s with audio := [], responses := [] }) h.inv.cfg h.resetDone hc
    rw [drained_eq, run, if_pos (hasRoom_of_empty ha hr _), hi]
    rfl

/-! ### What a command puts on the output streams (R101, R102) -/

/-- Neither output stream changes. -/
structure Silent (s t : State) : Prop where
  audio : t.audio = s.audio
  responses : t.responses = s.responses

section
variable {s t : State}

theorem next_silent {u : State} (h : (.next u : Result) = .next t) (k : Silent s u) : Silent s t := by
  cases h
  exact k

/-- A checked command is silent where its effect is: an event is. -/
theorem checked_silent {i : Instr} {cs : List (Option Event)} {eff : State} (h : s.checked i cs eff = .next t)
    (k : Silent s eff) : Silent s t := by
  obtain ⟨-, rfl⟩ | ⟨e, -, rfl⟩ := checked_cases h
  · exact k
  · exact ⟨State.raise_audio _ _ _, State.raise_responses _ _ _⟩

/-- READ answers one word, also at a bad address (46_control.md R506), and emits no frame. -/
theorem read_answers {cls idx fld : Byte} (h : execRead cls idx fld s = .next t) :
    t.audio = s.audio ∧ ∃ w, t.responses = w :: s.responses := by
  unfold execRead at h
  split at h <;> cases h
  · exact ⟨rfl, _, rfl⟩
  · exact ⟨State.raise_audio _ _ _, _, State.raise_responses _ _ _⟩

/-- A sample emits one frame and answers nothing (45_voice.md R472). -/
theorem sample_emits (s : State) : ∃ f, s.sample.audio = f :: s.audio ∧ s.sample.responses = s.responses := by
  simp [State.sample, State.finish, State.render]

/-- The last of n + 1 samples apart. -/
theorem samples_succ (n : Nat) (s : State) : State.samples (n + 1) s = (State.samples n s).sample := by
  induction n generalizing s with
  | zero => rfl
  | succ n ih => exact ih s.sample

theorem samples_responses (n : Nat) : (State.samples n s).responses = s.responses := by
  induction n with
  | zero => rfl
  | succ n ih =>
    obtain ⟨f, -, hr⟩ := sample_emits (State.samples n s)
    rw [samples_succ, hr, ih]

/-- n samples emit n frames, the k-th of them the newest after k + 1 samples. -/
theorem samples_emit (n : Nat) (s : State) : ∃ new, (State.samples n s).audioStream = s.audioStream ++ new ∧
    new.length = n ∧ ∀ k, k < n → new[k]? = (State.samples (k + 1) s).audio.head? := by
  induction n with
  | zero => exact ⟨[], (List.append_nil _).symm, rfl, nofun⟩
  | succ n ih =>
    obtain ⟨new, hs, hn, hk⟩ := ih
    obtain ⟨f, ha, -⟩ := sample_emits (State.samples n s)
    rw [← samples_succ] at ha
    refine ⟨new ++ [f], ?_, by simp [hn], fun k h => ?_⟩
    · calc (State.samples (n + 1) s).audioStream = (State.samples n s).audioStream ++ [f] := by
            rw [State.audioStream, ha, List.reverse_cons]; rfl
        _ = s.audioStream ++ (new ++ [f]) := by rw [hs, List.append_assoc]
    · obtain h | rfl := Nat.lt_succ_iff_lt_or_eq.1 h
      · rw [List.getElem?_append_left (hn ▸ h), hk k h]
      · rw [ha, ← hn, List.getElem?_concat_length, List.head?_cons]

/-- Block start and reclaim touch no stream: a PROCESS emits its samples' frames (R470, R471, R474). -/
theorem samples_processed_silent (n : Nat) : Silent (State.samples n s.blockStart) (s.processed n) := by
  have reclaim (u : State) : Silent u u.reclaim := by
    unfold State.reclaim
    split <;> exact ⟨rfl, rfl⟩
  unfold State.processed
  split
  · next h => subst h; exact ⟨rfl, rfl⟩
  · exact reclaim _

/-- Every command but PROCESS and READ leaves both output streams alone. -/
theorem exec_silent (i : Instr) (hp : ∀ d, i ≠ .process d) (hr : ∀ c x f, i ≠ .read c x f) (h : exec i s = .next t) :
    Silent s t :=
  match i with
  | .process d => absurd rfl (hp d)
  | .read c x f => absurd rfl (hr c x f)
  | .nop | .reset | .seedPrng _ | .clearStatus | .noteOff | .voiceStop | .voiceKill => next_silent h ⟨rfl, rfl⟩
  | .setSampleRate _ | .setTempo _ | .noteOn _ _ _ | .setPressure _
  | .oscSetWave _ _ | .oscSetFreq _ _ | .oscSetPhase _ _ | .oscSetDetune _ _ | .oscSetPw _ _ | .oscSetMix _ _
  | .oscCustWrite _ _ _ | .oscCustCommit _ _
  | .fltSetType _ _ | .fltSetCutoff _ _ | .fltSetRes _ _ | .fltSetGain _ _ | .fltSetEnable _ _ | .fltReset _
  | .envSetAttack _ _ | .envSetDecay _ _ | .envSetSustain _ _ | .envSetRelease _ _ | .envSetCurve _ _
  | .envSetVelsens _ _ | .envTrigger _ | .envRelease _ | .envStop _
  | .lfoSetWave _ _ | .lfoSetFreq _ _ | .lfoSetMode _ _ | .lfoSetDiv _ _ | .lfoSetDepth _ _ | .lfoSetInvert _ _
  | .lfoSetRetrig _ _ | .lfoSetPw _ _ | .lfoSetPhase _ _ | .lfoTrigger _
  | .routeSet _ _ _ _ | .routeClear _ => checked_silent h ⟨rfl, rfl⟩

/-- A word that is refused for a reserved field emits no frame, and answers 0 if its opcode is READ's (R506). -/
theorem reservedNonzero_answers {op : Byte} (h : execReservedNonzero op s = .next t) :
    t.audio = s.audio ∧ t.responses = if op = 5#8 then 0#32 :: s.responses else s.responses := by
  cases h
  have read : isReadOp op = (op == 5#8) := rfl
  rw [State.raise_audio, State.raise_responses, read]
  by_cases hop : op = 5#8 <;> simp [hop]

theorem illegalOpcode_silent {op : Byte} (h : execIllegalOpcode op s = .next t) : Silent s t :=
  next_silent h ⟨State.raise_audio _ _ _, State.raise_responses _ _ _⟩

end

/-- Settles O19: `samples_emit` for PROCESS, `exec_silent` and `read_answers` for the others. -/
theorem onlyProcessEmits : Obligations.OnlyProcessEmits := by
  unfold Obligations.OnlyProcessEmits
  refine ⟨fun i s t h => ⟨?_, fun hp => ?_⟩, fun _ _ _ h => (reservedNonzero_answers h).1,
    fun _ _ _ h => (illegalOpcode_silent h).audio⟩
  · rintro d rfl
    cases h
    obtain ⟨new, hs, hn, hk⟩ := samples_emit (framesOf d) s.blockStart
    refine ⟨new, ?_, ?_, fun k h => hk k (hn ▸ h)⟩
    · rw [State.audioStream, (samples_processed_silent _).audio]
      exact hs
    · rw [hn]
      exact Int.ofNat_toNat d.toInt
  · by_cases hr : ∃ c x f, i = .read c x f
    · obtain ⟨c, x, f, rfl⟩ := hr
      exact (read_answers h).1
    · exact (exec_silent i hp (fun c x f e => hr ⟨c, x, f, e⟩) h).audio

/-- Settles O20: `read_answers` for READ, `exec_silent` and `samples_responses` for the others. -/
theorem onlyReadResponds : Obligations.OnlyReadResponds := by
  unfold Obligations.OnlyReadResponds
  refine ⟨fun i s t h => ⟨?_, fun hr => ?_⟩, fun op s t h => ?_, fun _ _ _ h => (illegalOpcode_silent h).responses⟩
  · rintro c x f rfl
    obtain ⟨-, w, hw⟩ := read_answers h
    exact ⟨w, by rw [State.responseStream, hw, List.reverse_cons]; rfl⟩
  · by_cases hp : ∃ d, i = .process d
    · obtain ⟨d, rfl⟩ := hp
      cases h
      exact (samples_processed_silent _).responses.trans (samples_responses _)
    · exact (exec_silent i (fun d e => hp ⟨d, e⟩) hr h).responses
  · obtain ⟨-, hw⟩ := reservedNonzero_answers h
    refine ⟨fun hop => ?_, fun hop => ?_⟩
    · rw [State.responseStream, hw, if_pos hop, List.reverse_cons]; rfl
    · rw [hw, if_neg hop]

/-! ### Setters that repeat (R109) -/

/-- The command answers a next state, and repeated on it the same state. -/
def Repeats (i : Instr) (s : State) : Prop := ∃ t, exec i s = .next t ∧ exec i t = .next t

/-- A command whose effect `eff`, repeated, leaves what it has left. -/
theorem repeats_of_effect {i : Instr} {s : State} {eff : State → State} (hw : i.wellFormed s.cfg = true)
    (he : ∀ {u : State}, i.wellFormed u.cfg = true → exec i u = .next (eff u)) (hc : (eff s).cfg = s.cfg)
    (h : eff (eff s) = eff s) : Repeats i s :=
  ⟨eff s, he hw, by rw [he (hc ▸ hw), h]⟩

theorem modify_modify_of_eq {α : Type} {l : List α} {x : Nat} {g g' : α → α} (h : ∀ a ∈ l, g' (g a) = g a) :
    (l.modify x g).modify x g' = l.modify x g := by
  rw [List.modify_modify_eq]
  refine List.ext_getElem (by simp) fun i hi _ => ?_
  rw [List.getElem_modify, List.getElem_modify, Function.comp_apply, h _ (List.getElem_mem _)]

section
variable {s : State} {x : Byte}

theorem modOsc_modOsc {g g' : Osc → Osc} (h : ∀ o ∈ s.osc, g' (g o) = g o) :
    (s.modOsc x g).modOsc x g' = s.modOsc x g :=
  congrArg (fun os => { s with osc := os }) (modify_modify_of_eq h)

theorem modFlt_modFlt {g g' : Flt → Flt} (h : ∀ f ∈ s.flt, g' (g f) = g f) :
    (s.modFlt x g).modFlt x g' = s.modFlt x g :=
  congrArg (fun fs => { s with flt := fs }) (modify_modify_of_eq h)

theorem modEnv_modEnv {g g' : Env → Env} (h : ∀ e ∈ s.env, g' (g e) = g e) :
    (s.modEnv x g).modEnv x g' = s.modEnv x g :=
  congrArg (fun es => { s with env := es }) (modify_modify_of_eq h)

theorem modLfo_modLfo {g g' : Lfo → Lfo} (h : ∀ l ∈ s.lfo, g' (g l) = g l) :
    (s.modLfo x g).modLfo x g' = s.modLfo x g :=
  congrArg (fun ls => { s with lfo := ls }) (modify_modify_of_eq h)

end

theorem getD_getD {α : Type} (o : Option α) (a : α) : o.getD (o.getD a) = o.getD a := by cases o <;> rfl

/-- A table entry written twice, the table in canonical form. -/
theorem write_write {m : Memory} (h : m.wf = true) (i : Nat) (v : F32) : (m.write i v).write i v = m.write i v := by
  have hw := Memory.write_wf h i v
  refine Memory.ext_wf (Memory.write_wf hw i v) hw fun n => ?_
  rw [Memory.read_write hw, Memory.read_write h]
  split <;> rfl

theorem user_wf {c : Config} {o : Osc} (h : oscOk c o = true) : o.user.wf = true := by
  simp only [oscOk, Bool.and_eq_true] at h
  obtain ⟨⟨⟨⟨-, hu⟩, -⟩, -⟩, -⟩ := h
  exact hu

/-- FLT_SET_ENABLE repeated clears no delay line (42_filter.md R344). -/
theorem fltEnable_fltEnable (y : Byte) (f : Flt) :
    fltEnable ((bitOf y).getD (fltEnable ((bitOf y).getD f.enable) f).enable) (fltEnable ((bitOf y).getD f.enable) f) =
      fltEnable ((bitOf y).getD f.enable) f := by
  have bit : (fltEnable ((bitOf y).getD f.enable) f).enable = (bitOf y).getD f.enable := rfl
  rw [bit, getD_getD]
  simp [fltEnable]

theorem setter_repeats {i : Instr} {s : State} (hs : s.Inv) (hi : isSetter i = true) (hw : i.wellFormed s.cfg = true) :
    Repeats i s :=
  match i, hi with
  | .oscSetWave x y, _ => repeats_of_effect hw (execOscSetWave_next x y) rfl (modOsc_modOsc fun o _ =>
      congrArg (fun v => { o with wave := v }) (getD_getD _ _))
  | .oscSetFreq x d, _ => repeats_of_effect hw (execOscSetFreq_next x d) rfl (modOsc_modOsc fun _ _ => rfl)
  | .oscSetDetune x d, _ => repeats_of_effect hw (execOscSetDetune_next x d) rfl (modOsc_modOsc fun _ _ => rfl)
  | .oscSetPw x d, _ => repeats_of_effect hw (execOscSetPw_next x d) rfl (modOsc_modOsc fun _ _ => rfl)
  | .oscSetMix x d, _ => repeats_of_effect hw (execOscSetMix_next x d) rfl (modOsc_modOsc fun _ _ => rfl)
  | .oscCustWrite x n d, _ => repeats_of_effect hw (execOscCustWrite_next x n d) rfl (modOsc_modOsc fun o ho =>
      congrArg (fun m => { o with user := m }) (write_write (user_wf (hs.osc o ho)) _ _))
  | .oscCustCommit x d, _ => repeats_of_effect hw (execOscCustCommit_next x d) rfl (modOsc_modOsc fun _ _ => rfl)
  | .fltSetType x y, _ => repeats_of_effect hw (execFltSetType_next x y) rfl (modFlt_modFlt fun f _ =>
      congrArg (fun v => s.fltDerive x.toNat { f with type := v }) (getD_getD _ _))
  | .fltSetCutoff x d, _ => repeats_of_effect hw (execFltSetCutoff_next x d) rfl (modFlt_modFlt fun _ _ => rfl)
  | .fltSetRes x d, _ => repeats_of_effect hw (execFltSetRes_next x d) rfl (modFlt_modFlt fun _ _ => rfl)
  | .fltSetGain x d, _ => repeats_of_effect hw (execFltSetGain_next x d) rfl (modFlt_modFlt fun _ _ => rfl)
  | .fltSetEnable x y, _ => repeats_of_effect hw (execFltSetEnable_next x y) rfl (modFlt_modFlt fun f _ =>
      fltEnable_fltEnable y f)
  | .envSetAttack x d, _ => repeats_of_effect hw (execEnvSetAttack_next x d) rfl (modEnv_modEnv fun _ _ => rfl)
  | .envSetDecay x d, _ => repeats_of_effect hw (execEnvSetDecay_next x d) rfl (modEnv_modEnv fun _ _ => rfl)
  | .envSetSustain x d, _ => repeats_of_effect hw (execEnvSetSustain_next x d) rfl (modEnv_modEnv fun _ _ => rfl)
  | .envSetRelease x d, _ => repeats_of_effect hw (execEnvSetRelease_next x d) rfl (modEnv_modEnv fun _ _ => rfl)
  | .envSetCurve x y, _ => repeats_of_effect hw (execEnvSetCurve_next x y) rfl (modEnv_modEnv fun _ _ => rfl)
  | .envSetVelsens x d, _ => repeats_of_effect hw (execEnvSetVelsens_next x d) rfl (modEnv_modEnv fun _ _ => rfl)
  | .lfoSetWave x y, _ => repeats_of_effect hw (execLfoSetWave_next x y) rfl (modLfo_modLfo fun l _ =>
      congrArg (fun v => { l with wave := v }) (getD_getD _ _))
  | .lfoSetFreq x d, _ => repeats_of_effect hw (execLfoSetFreq_next x d) rfl (modLfo_modLfo fun _ _ => rfl)
  | .lfoSetMode x y, _ => repeats_of_effect hw (execLfoSetMode_next x y) rfl (modLfo_modLfo fun l _ =>
      congrArg (fun v => { l with mode := v }) (getD_getD _ _))
  | .lfoSetDiv x y, _ => repeats_of_effect hw (execLfoSetDiv_next x y) rfl (modLfo_modLfo fun _ _ => rfl)
  | .lfoSetDepth x d, _ => repeats_of_effect hw (execLfoSetDepth_next x d) rfl (modLfo_modLfo fun _ _ => rfl)
  | .lfoSetInvert x y, _ => repeats_of_effect hw (execLfoSetInvert_next x y) rfl (modLfo_modLfo fun l _ =>
      congrArg (fun v => { l with invert := v }) (getD_getD _ _))
  | .lfoSetRetrig x y, _ => repeats_of_effect hw (execLfoSetRetrig_next x y) rfl (modLfo_modLfo fun l _ =>
      congrArg (fun v => { l with retrig := v }) (getD_getD _ _))
  | .lfoSetPw x d, _ => repeats_of_effect hw (execLfoSetPw_next x d) rfl (modLfo_modLfo fun _ _ => rfl)
  | .lfoSetPhase x d, _ => repeats_of_effect hw (execLfoSetPhase_next x d) rfl (modLfo_modLfo fun _ _ => rfl)

/-- Settles O22: `setter_repeats`. -/
theorem settersAreIdempotent : Obligations.SettersAreIdempotent := fun _ _ => setter_repeats

end Sys2Proof.Machine

/-! PROOFS. The encoding (30_encoding.md): decoding what was encoded (O1), the opcode map on every word (O2), the words that are
refused and NOP (O4, O5, O6), the check phase (O17), the assembler's examples (O8). -/

namespace Sys2Proof.Machine
open Laws.Encoding (op_word)

/-! ### A word and its fields (R140) -/

/-- A word is its five fields. -/
theorem word_of_fields (w : Command) :
    (Command.op w ++ Command.x w ++ Command.y w ++ Command.z w ++ Command.d w : Command) = w := by
  unfold Command.op Command.x Command.y Command.z Command.d
  iterate 4 rw [BitVec.extractLsb'_append_extractLsb'_eq_extractLsb']
  · exact BitVec.extractLsb'_eq_self
  all_goals rfl

theorem word_eq_iff {w v : Command} : w = v ↔ Command.op w = Command.op v ∧ Command.x w = Command.x v ∧
    Command.y w = Command.y v ∧ Command.z w = Command.z v ∧ Command.d w = Command.d v := by
  refine ⟨fun h => h ▸ ⟨rfl, rfl, rfl, rfl, rfl⟩, fun ⟨ho, hx, hy, hz, hd⟩ => ?_⟩
  rw [← word_of_fields w, ho, hx, hy, hz, hd, word_of_fields]

/-! ### Decoding what was encoded (R143) -/

theorem decodeCommand_word (o x y z : Byte) (d : Word) :
    decodeCommand (o ++ x ++ y ++ z ++ d : Command) = decodeFields o x y z d := by
  rw [decodeCommand, op_word, x_word, y_word, z_word, d_word]

theorem decodeFields_fields (i : Instr) :
    decodeFields i.opcode i.fields.1 i.fields.2.1 i.fields.2.2.1 i.fields.2.2.2 = .instr i := by
  cases i
  case oscCustWrite x n d => exact congrArg (fun k => Decoded.instr (.oscCustWrite x k d)) (index_word n)
  all_goals rfl

theorem decodeCommand_encode (i : Instr) : decodeCommand i.encode = .instr i :=
  (decodeCommand_word _ _ _ _ _).trans (decodeFields_fields i)

/-- `n` bytes of a word from byte `k` on. -/
theorem wordOfBytes_range' (w : Command) (k n : Nat) :
    wordOfBytes ((List.range' k n).map fun j => w.extractLsb' (8 * j) 8) = w.toNat / 256 ^ k % 256 ^ n := by
  induction n generalizing k with
  | zero => exact (Nat.mod_one _).symm
  | succ n ih =>
    have byte : (w.extractLsb' (8 * k) 8).toNat = w.toNat / 256 ^ k % 256 := by
      rw [BitVec.extractLsb'_toNat, Nat.shiftRight_eq_div_pow, Nat.pow_mul]
    calc wordOfBytes ((List.range' k (n + 1)).map fun j => w.extractLsb' (8 * j) 8)
        = w.toNat / 256 ^ k % 256 + 256 * (w.toNat / 256 ^ (k + 1) % 256 ^ n) := by rw [← byte, ← ih (k + 1)]; rfl
      _ = w.toNat / 256 ^ k % 256 ^ (n + 1) := by
        rw [Nat.pow_succ, Nat.pow_succ', Nat.mod_mul, Nat.div_div_eq_div_mul]

theorem decodeBytes_toBytes (w : Command) : decodeBytes (Command.toBytes w) = some (decodeCommand w, []) := by
  have whole : wordOfBytes (Command.toBytes w) = w.toNat := by
    rw [Command.toBytes, List.range_eq_range', wordOfBytes_range', Nat.pow_zero, Nat.div_one]
    exact Nat.mod_eq_of_lt w.isLt
  have first : BitVec.ofNat 64 (wordOfBytes ((Command.toBytes w).take 8)) = w := by
    rw [show (Command.toBytes w).take 8 = Command.toBytes w from rfl, whole, BitVec.ofNat_toNat, BitVec.setWidth_eq]
  exact congrArg (fun v => some (decodeCommand v, ([] : List Byte))) first

theorem decodeTableWord_toNat {w : Command} {i : Instr} (h : decodeCommand w = .instr i) :
    decodeTableWord 64 w.toNat = some i := by
  have whole : tableWord 64 w.toNat = w := by
    rw [tableWord, Nat.mod_eq_of_lt w.isLt, BitVec.ofNat_toNat, BitVec.setWidth_eq]
  rw [decodeTableWord, whole, decodeBytes_toBytes, h]

/-- Settles O1: `decodeCommand_encode`, also through the word's bytes and through the table's numbering. -/
theorem decodeEncode : Obligations.DecodeEncode := by
  unfold Obligations.DecodeEncode
  intro i
  have h := decodeCommand_encode i
  exact ⟨h, by rw [decodeBytes_toBytes, h], decodeTableWord_toNat h⟩

/-! ### The opcode map, row by row (R143) -/

/-- `ok`, and the field `f` zero if the mask `m` fixes it. -/
def zeroWhere {n : Nat} (m f : BitVec n) (ok : Bool) : Bool := if m = 0 then ok else ok && f == 0

/-- The field `f` if the mask `m` leaves it free, else zero. -/
def freeWhere {n : Nat} (m f : BitVec n) : BitVec n := if m = 0 then f else 0

/-- The fields a row's mask fixes, its reserved-zero fields, are zero (R161). -/
def reservedZero (mask : Command) (x y z : Byte) (d : Word) : Bool :=
  zeroWhere (Command.d mask) d (zeroWhere (Command.z mask) z (zeroWhere (Command.y mask) y
    (zeroWhere (Command.x mask) x true)))

/-- Row `r` makes of the fields X, Y, Z, D the command `i`: so the decoder reads them, if the reserved-zero fields are zero,
and so the encoder writes them. -/
structure RowGives (r : OpcodeRow) (x y z : Byte) (d : Word) (i : Instr) : Prop where
  decode : decodeFields (Command.op r.pattern) x y z d =
    ifReservedZero (Command.op r.pattern) (reservedZero r.mask x y z d) i
  mnemonic : i.mnemonic = r.mnemonic
  opcode : i.opcode = Command.op r.pattern
  fields : i ≠ .nop → i.fields = (freeWhere (Command.x r.mask) x, freeWhere (Command.y r.mask) y,
    freeWhere (Command.z r.mask) z, freeWhere (Command.d r.mask) d)

theorem opcodeRows_give (x y z : Byte) (d : Word) : ∀ r ∈ opcodeRows, ∃ i, RowGives r x y z d i := by
  simp only [opcodeRows, opcodeRowsVoice, opcodeRowsOscFlt, opcodeRowsEnvLfo, List.cons_append, List.nil_append,
    List.forall_mem_cons]
  -- apart from the others: NOP, whose fields are ignored (R165), and OSC_CUST_WRITE, whose index is two fields (R141)
  refine ⟨⟨.nop, rfl, rfl, rfl, fun h => absurd rfl h⟩, ?_⟩
  iterate 18 refine ⟨⟨_, rfl, rfl, rfl, fun _ => rfl⟩, ?_⟩
  refine ⟨⟨.oscCustWrite x (y ++ z) d, rfl, rfl, rfl, fun _ => ?_⟩, ?_⟩
  · exact congrArg₂ (fun a b => (x, a, b, d)) BitVec.extractLsb'_append_eq_left BitVec.extractLsb'_append_eq_right
  iterate 28 refine ⟨⟨_, rfl, rfl, rfl, fun _ => rfl⟩, ?_⟩
  exact nofun

/-- A mask that fixes the whole field, or leaves the whole field free. -/
theorem zeroWhere_iff {n : Nat} {m f : BitVec n} {ok : Bool} (hm : m = 0 ∨ m = BitVec.allOnes n) :
    zeroWhere m f ok = true ↔ ok = true ∧ f &&& m = 0 := by
  unfold zeroWhere
  split
  · next h => simp [h]
  · next h => simp [hm.resolve_left h]

/-- A field that is zero if the mask fixes it is what the mask leaves free. -/
theorem freeWhere_of_zeroWhere {n : Nat} {m f : BitVec n} {ok : Bool} (h : zeroWhere m f ok = true) :
    ok = true ∧ freeWhere m f = f := by
  unfold zeroWhere at h
  unfold freeWhere
  split at h
  · next hm => exact ⟨h, if_pos hm⟩
  · next hm =>
    rw [Bool.and_eq_true, beq_iff_eq] at h
    exact ⟨h.1, by rw [if_neg hm, h.2]⟩

/-- Every row fixes the opcode and whole fields, and fixes them to zero. -/
theorem opcodeRows_shape : ∀ r ∈ opcodeRows, (Command.op r.mask = BitVec.allOnes 8 ∧
      (Command.x r.mask = 0 ∨ Command.x r.mask = BitVec.allOnes 8) ∧
      (Command.y r.mask = 0 ∨ Command.y r.mask = BitVec.allOnes 8) ∧
      (Command.z r.mask = 0 ∨ Command.z r.mask = BitVec.allOnes 8) ∧
      (Command.d r.mask = 0 ∨ Command.d r.mask = BitVec.allOnes 32)) ∧
    Command.x r.pattern = 0 ∧ Command.y r.pattern = 0 ∧ Command.z r.pattern = 0 ∧ Command.d r.pattern = 0 := by
  decide

/-- A word is a row's where its opcode is and the row's reserved-zero fields are zero. -/
theorem match_row_iff {r : OpcodeRow} (hr : r ∈ opcodeRows) (w : Command) : w &&& r.mask = r.pattern ↔
    Command.op w = Command.op r.pattern ∧
      reservedZero r.mask (Command.x w) (Command.y w) (Command.z w) (Command.d w) = true := by
  obtain ⟨⟨ho, hx, hy, hz, hd⟩, px, py, pz, pd⟩ := opcodeRows_shape r hr
  have field (k n : Nat) : (w &&& r.mask).extractLsb' k n = w.extractLsb' k n &&& r.mask.extractLsb' k n :=
    BitVec.extractLsb'_and
  have op : Command.op (w &&& r.mask) = Command.op w :=
    (field 56 8).trans ((congrArg (Command.op w &&& ·) ho).trans BitVec.and_allOnes)
  rw [word_eq_iff, px, py, pz, pd, op, reservedZero, zeroWhere_iff hd, zeroWhere_iff hz, zeroWhere_iff hy, zeroWhere_iff hx]
  simp only [Command.x, Command.y, Command.z, Command.d, field, and_assoc, true_and]

/-! ### The opcodes of no row (R164) -/

/-- The unassigned opcodes. -/
def Unassigned (n : Nat) : Prop :=
  (7 ≤ n ∧ n ≤ 0x0F) ∨ (0x16 ≤ n ∧ n ≤ 0x1F) ∨ (0x28 ≤ n ∧ n ≤ 0x2F) ∨ (0x36 ≤ n ∧ n ≤ 0x3F) ∨
    (0x49 ≤ n ∧ n ≤ 0x4F) ∨ (0x5A ≤ n ∧ n ≤ 0x5F) ∨ 0x62 ≤ n

theorem unassigned_or_row : ∀ op : Byte, Unassigned op.toNat ∨ ∃ r ∈ opcodeRows, op = Command.op r.pattern := by
  unfold Unassigned
  decide +kernel

theorem decodeFields_unassigned {op : Byte} (h : Unassigned op.toNat) (x y z : Byte) (d : Word) :
    decodeFields op x y z d = .illegalOpcode op := by
  unfold Unassigned at h
  unfold decodeFields
  split
  case h_49 => rfl
  all_goals omega

/-- What the decoder answers where the opcode is row `r`'s. -/
theorem decodeCommand_of_row {r : OpcodeRow} {w : Command} (hr : r ∈ opcodeRows) (ho : Command.op w = Command.op r.pattern) :
    ∃ i, RowGives r (Command.x w) (Command.y w) (Command.z w) (Command.d w) i ∧
      decodeCommand w = if w &&& r.mask = r.pattern then .instr i else .reservedNonzero (Command.op w) := by
  obtain ⟨i, hi⟩ := opcodeRows_give (Command.x w) (Command.y w) (Command.z w) (Command.d w) r hr
  refine ⟨i, hi, ?_⟩
  rw [decodeCommand, ho, hi.decode, ifReservedZero]
  simp only [match_row_iff hr, ho, true_and]

theorem decodeCommand_reserved {r : OpcodeRow} {w : Command} (hr : r ∈ opcodeRows)
    (ho : Command.op w = Command.op r.pattern) (hm : w &&& r.mask ≠ r.pattern) :
    decodeCommand w = .reservedNonzero (Command.op w) := by
  obtain ⟨i, -, hw⟩ := decodeCommand_of_row hr ho
  rw [hw, if_neg hm]

theorem decodeCommand_unassigned {w : Command} (h : Unassigned (Command.op w).toNat) :
    decodeCommand w = .illegalOpcode (Command.op w) := decodeFields_unassigned h _ _ _ _

/-- The fields a command's row gives are the word's, where the word is the row's: the encoder gives the word back. -/
theorem RowGives.encode {r : OpcodeRow} {w : Command} {i : Instr} (hr : r ∈ opcodeRows) (hm : w &&& r.mask = r.pattern)
    (h : RowGives r (Command.x w) (Command.y w) (Command.z w) (Command.d w) i) (hi : i ≠ .nop) : i.encode = w := by
  obtain ⟨ho, hz⟩ := (match_row_iff hr w).1 hm
  obtain ⟨hz, d⟩ := freeWhere_of_zeroWhere hz
  obtain ⟨hz, z⟩ := freeWhere_of_zeroWhere hz
  obtain ⟨hz, y⟩ := freeWhere_of_zeroWhere hz
  obtain ⟨-, x⟩ := freeWhere_of_zeroWhere hz
  rw [Instr.encode, h.opcode, h.fields hi, x, y, z, d, ← ho]
  exact word_of_fields w

/-- Settles O2: `decodeCommand_of_row` where the opcode is a row's, `decodeCommand_unassigned` where it is no row's, and
`RowGives.encode` for the way back. -/
theorem decodeFollowsOpcodeMap : Obligations.DecodeFollowsOpcodeMap := by
  unfold Obligations.DecodeFollowsOpcodeMap
  intro w
  refine ⟨fun r hr hm => ?_, fun r hr ho hm => decodeCommand_reserved hr ho hm, fun hn => ?_, fun i hi hnop => ?_⟩
  · obtain ⟨i, hi, hw⟩ := decodeCommand_of_row hr ((match_row_iff hr w).1 hm).1
    exact ⟨i, by rw [hw, if_pos hm], hi.mnemonic⟩
  · obtain h | ⟨r, hr, ho⟩ := unassigned_or_row (Command.op w)
    · exact decodeCommand_unassigned h
    · exact absurd ho (hn r hr)
  · obtain h | ⟨r, hr, ho⟩ := unassigned_or_row (Command.op w)
    · nomatch hi.symm.trans (decodeCommand_unassigned h)
    · obtain ⟨j, hj, hw⟩ := decodeCommand_of_row hr ho
      split at hw
      · next hm =>
        obtain rfl := Decoded.instr.inj (hi.symm.trans hw)
        exact hj.encode hr hm hnop
      · nomatch hi.symm.trans hw

/-! ### Refused words and NOP (R160, R164, R165) -/

theorem saturatingInc_eq (w : Word) : saturatingInc w = BitVec.ofNat 32 (min (w.toNat + 1) 0xFFFFFFFF) := by
  unfold saturatingInc
  split
  · next h => subst h; rfl
  · next h =>
    have hne : w.toNat ≠ 0xFFFFFFFF := fun e => h (BitVec.eq_of_toNat_eq e)
    have hlt := w.isLt
    rw [min_eq_left (by omega), BitVec.ofNat_add, BitVec.ofNat_toNat, BitVec.setWidth_eq]

theorem lastEvtWord_eq (op : Byte) (e : Event) : lastEvtWord op e = BitVec.ofNat 32 (256 * op.toNat + eventCode e) := by
  have hc : eventCode e < 2 ^ 8 := by cases e <;> decide
  have hop := op.isLt
  apply BitVec.eq_of_toNat_eq
  simp only [lastEvtWord, BitVec.toNat_append, BitVec.toNat_ofNat, Nat.mod_eq_of_lt hc, Nat.zero_shiftLeft, Nat.zero_or,
    Nat.zero_mod]
  rw [← Nat.shiftLeft_add_eq_or_of_lt hc, Nat.shiftLeft_eq]
  omega

/-- An event by its code (60_exceptions.md R601, R602). -/
theorem raise_eq_recorded (s : State) (op : Byte) (e : Event) : s.raise op e = recorded op (eventCode e) s := by
  have bit : eventBit e = BitVec.ofNat 32 (2 ^ eventCode e) := by cases e <;> rfl
  simp only [recorded, ← bit, ← lastEvtWord_eq, ← saturatingInc_eq]
  cases e <;> rfl

/-- While neither stream is full, a step takes the next word, if it emits no frame. -/
theorem step_of_frameless {s : State} {w : Command} {rest : List Command} (h : s.Ready) (hn : s.NotFull)
    (hc : s.commands = w :: rest) (hf : framesOfDecoded (decodeCommand w) = 0) :
    step s = execDecoded (decodeCommand w) { s with commands := rest } := by
  have room : s.hasRoom (decodeCommand w) = true :=
    hasRoom_of_notFull hn (hf ▸ fun k hk => ⟨hn.1 k hk, .inl (hn.1 k hk).le⟩)
  rw [step_of_word h.inv.cfg h.resetDone hc, if_pos room]

theorem illegalOpcode_iff (w : Command) :
    (∃ op, decodeCommand w = .illegalOpcode op) ↔ Unassigned (Command.op w).toNat := by
  refine ⟨fun ⟨op, h⟩ => ?_, fun h => ⟨_, decodeCommand_unassigned h⟩⟩
  refine (unassigned_or_row (Command.op w)).resolve_right fun ⟨r, hr, ho⟩ => ?_
  obtain ⟨i, -, hw⟩ := decodeCommand_of_row hr ho
  split at hw <;> nomatch h.symm.trans hw

/-- Settles O4: `illegalOpcode_iff`, and the step on a word that emits no frame. -/
theorem unassignedOpcodesRefused : Obligations.UnassignedOpcodesRefused := by
  unfold Obligations.UnassignedOpcodesRefused
  intro s w rest h hc
  refine ⟨illegalOpcode_iff w, fun hn hi => ?_⟩
  have hw := decodeCommand_unassigned ((illegalOpcode_iff w).1 hi)
  rw [step_of_frameless h hn hc (by rw [hw]; rfl), hw]
  exact congrArg Host.Outcome.next (raise_eq_recorded _ _ _)

/-- READ's row is the one with READ's opcode. -/
theorem isReadOp_row : ∀ r ∈ opcodeRows, isReadOp (Command.op r.pattern) = (r.mnemonic == "READ") := by
  decide +kernel

/-- Settles O5: the word decodes to RESERVED_NONZERO, and READ's opcode alone answers (46_control.md R506). -/
theorem reservedFieldsRefused : Obligations.ReservedFieldsRefused := by
  unfold Obligations.ReservedFieldsRefused
  intro s r w rest h hn hc hr ho hm
  have hw := decodeCommand_reserved hr ho hm
  have read : isReadOp (Command.op w) = (r.mnemonic == "READ") := ho ▸ isReadOp_row r hr
  rw [step_of_frameless h hn hc (by rw [hw]; rfl), hw, execDecoded, execReservedNonzero, raise_eq_recorded]
  refine ⟨fun hmn => ?_, fun hmn => ?_⟩
  · rw [read, beq_false_of_ne hmn]
    rfl
  · have op : Command.op w = 5#8 := beq_iff_eq.1 (read.trans (beq_iff_eq.2 hmn))
    rw [op]
    rfl

/-- Settles O6: opcode 0 decodes to NOP whatever the other fields hold. -/
theorem hintSpaceIsNop : Obligations.HintSpaceIsNop := by
  unfold Obligations.HintSpaceIsNop
  intro s w rest h hc ho
  have hw : decodeCommand w = .instr .nop := by
    rw [decodeCommand, ho]
    rfl
  exact ⟨rfl, fun hn => by rw [step_of_frameless h hn hc (by rw [hw]; rfl), hw]; rfl⟩

/-! ### The check phase (R160 steps 3 to 5) -/

/-- Steps 3 to 5 as one list of checks, of the same form for every command. -/
def phaseChecks (c : Config) (i : Instr) : List (Option Event) :=
  [need (unitIndexLegal c i) .badIndex, need (operandsLegal c i) .badOperand, need (numberLegal i) .nonfiniteOperand]

/-- EVT_STICKY, LAST_EVT and the three counters (10_state.md R35). -/
def eventRegisters (s : State) : Word × Word × Word × Word × Word :=
  (s.evtSticky, s.lastEvt, s.rejectCount, s.instabCount, s.sanitizeCount)

theorem waveOf_isSome : ∀ y : Byte, (waveOf y).isSome = decide (y.toNat ≤ 5) := by decide
theorem lfoWaveOf_isSome : ∀ y : Byte, (lfoWaveOf y).isSome = decide (y.toNat ≤ 4) := by decide
theorem filterTypeOf_isSome : ∀ y : Byte, (filterTypeOf y).isSome = decide (y.toNat ≤ 7) := by decide
theorem lfoModeOf_isSome : ∀ y : Byte, (lfoModeOf y).isSome = decide (y.toNat ≤ 2) := by decide
theorem bitOf_isSome : ∀ y : Byte, (bitOf y).isSome = decide (y.toNat ≤ 1) := by decide

section
variable {a b b' c : Bool} {e e' e'' : Event}

theorem failure_index : firstFailure [need a e] = firstFailure [need a e, need true e', need true e''] := by
  cases a <;> rfl

theorem failure_operand : firstFailure [need b e'] = firstFailure [need true e, need b e', need true e''] := by
  cases b <;> rfl

theorem failure_index_operand (h : b = b') :
    firstFailure [need a e, need b e'] = firstFailure [need a e, need b' e', need true e''] := by
  subst h
  cases a <;> cases b <;> rfl

theorem failure_index_number :
    firstFailure [need a e, need c e''] = firstFailure [need a e, need true e', need c e''] := by
  cases a <;> rfl

end

section
variable {s : State} {i : Instr}

/-- Command `i` runs under the whole check phase, which passes it when it is well-formed; its effect then keeps the event
registers, that of PROCESS, which records events of its own, of RESET and of CLEAR_STATUS apart. -/
def RunsChecked (i : Instr) (s : State) : Prop :=
  ∃ eff, exec i s = s.checked i (phaseChecks s.cfg i) eff ∧
    (i.wellFormed s.cfg = true → firstFailure (phaseChecks s.cfg i) = none ∧
      ((∀ d, i ≠ .process d) → i ≠ .reset → i ≠ .clearStatus → eventRegisters eff = eventRegisters s))

/-- A command that makes only the checks `cs`, those of the check phase that can fail it. -/
theorem runsChecked_of_checked {cs : List (Option Event)} {eff : State} (h : exec i s = s.checked i cs eff)
    (hc : firstFailure cs = firstFailure (phaseChecks s.cfg i)) (hw : i.wellFormed s.cfg = true → firstFailure cs = none)
    (k : eventRegisters eff = eventRegisters s) : RunsChecked i s :=
  ⟨eff, by rw [h, State.checked, hc]; rfl, fun w => ⟨hc.symm.trans (hw w), fun _ _ _ => k⟩⟩

theorem read_runsChecked (cls idx fld : Byte) : RunsChecked (.read cls idx fld) s := by
  have h : exec (.read cls idx fld) s = execRead cls idx fld s := rfl
  unfold execRead at h
  split at h
  · exact ⟨_, h, fun _ => ⟨rfl, fun _ _ _ => rfl⟩⟩
  · next hr =>
    refine ⟨_, h, fun hw => ?_⟩
    nomatch hr.symm.trans (if_pos hw)

theorem exec_runsChecked (i : Instr) (s : State) : RunsChecked i s :=
  match i with
  | .nop | .seedPrng _ | .noteOff | .voiceStop | .voiceKill => ⟨_, rfl, fun _ => ⟨rfl, fun _ _ _ => rfl⟩⟩
  | .reset => ⟨_, rfl, fun _ => ⟨rfl, fun _ h => absurd rfl h⟩⟩
  | .clearStatus => ⟨_, rfl, fun _ => ⟨rfl, fun _ _ h => absurd rfl h⟩⟩
  | .process d => ⟨_, rfl, fun _ => ⟨rfl, fun h => absurd rfl (h d)⟩⟩
  | .read _ _ _ => read_runsChecked _ _ _
  | .setSampleRate _ | .setTempo _ => runsChecked_of_checked rfl rfl pass1 rfl
  | .noteOn _ _ _ => runsChecked_of_checked rfl rfl pass2 rfl
  | .oscCustWrite _ _ _ | .routeSet _ _ _ _ => runsChecked_of_checked rfl rfl pass3 rfl
  | .setPressure _ => runsChecked_of_checked rfl failure_operand pass1 rfl
  | .oscSetWave _ y => runsChecked_of_checked rfl (failure_index_operand (waveOf_isSome y)) pass2 rfl
  | .fltSetType _ y => runsChecked_of_checked rfl (failure_index_operand (filterTypeOf_isSome y)) pass2 rfl
  | .lfoSetWave _ y => runsChecked_of_checked rfl (failure_index_operand (lfoWaveOf_isSome y)) pass2 rfl
  | .lfoSetMode _ y => runsChecked_of_checked rfl (failure_index_operand (lfoModeOf_isSome y)) pass2 rfl
  | .fltSetEnable _ y | .lfoSetInvert _ y | .lfoSetRetrig _ y =>
    runsChecked_of_checked rfl (failure_index_operand (bitOf_isSome y)) pass2 rfl
  | .oscCustCommit _ _ | .envSetCurve _ _ | .lfoSetDiv _ _ =>
    runsChecked_of_checked rfl (failure_index_operand rfl) pass2 rfl
  | .oscSetFreq _ _ | .oscSetPhase _ _ | .oscSetDetune _ _ | .oscSetPw _ _ | .oscSetMix _ _
  | .fltSetCutoff _ _ | .fltSetRes _ _ | .fltSetGain _ _
  | .envSetAttack _ _ | .envSetDecay _ _ | .envSetSustain _ _ | .envSetRelease _ _ | .envSetVelsens _ _
  | .lfoSetFreq _ _ | .lfoSetDepth _ _ | .lfoSetPw _ _ | .lfoSetPhase _ _ =>
    runsChecked_of_checked rfl failure_index_number pass2 rfl
  | .fltReset _ | .envTrigger _ | .envRelease _ | .envStop _ | .lfoTrigger _ | .routeClear _ =>
    runsChecked_of_checked rfl failure_index pass1 rfl

end

/-- Settles O17: `exec_runsChecked`, the first failing check being the event. -/
theorem checkPhase : Obligations.CheckPhase := by
  unfold Obligations.CheckPhase
  intro i s
  obtain ⟨eff, h, pass⟩ := exec_runsChecked i s
  have refused (e : Event) (hf : firstFailure (phaseChecks s.cfg i) = some e) :
      exec i s = .next (recorded i.opcode (eventCode e) s) := by
    rw [h, checked_fail hf, raise_eq_recorded]
  refine ⟨fun hx => refused .badIndex ?_, fun hx hy => refused .badOperand ?_,
    fun hx hy hd => refused .nonfiniteOperand ?_, fun hw hp hr hc => ?_⟩
  · simp [phaseChecks, hx]
  · simp [phaseChecks, hx, hy]
  · simp [phaseChecks, hx, hy, hd]
  · obtain ⟨hf, keep⟩ := pass hw
    exact ⟨eff, h.trans (checked_pass hf), by simpa [eventRegisters] using keep hp hr hc⟩

/-- Settles O8: the assembler runs on the lines, and the expansions are the definition's. -/
theorem assemblerExamples : Obligations.AssemblerExamples := by
  unfold Obligations.AssemblerExamples
  refine ⟨by decide +kernel, by decide +kernel, by decide +kernel, by decide +kernel, fun _ _ _ _ _ _ _ => ?_⟩
  exact ⟨rfl, rfl, rfl, rfl, rfl, rfl⟩

end Sys2Proof.Machine

/-! PROOFS. FastMath (40_fastmath.md): the draw is exact (O59), the inverse of the note table (R212), and the words (O3) and
values (O60) the rules write out. -/

namespace Sys2Proof.F32

/-! ### Exact results -/

/-- A pattern of `k` doublings of a significand, short of infinity. -/
theorem toInt_significand {k s : Nat} (hs : s < 2 ^ 24) (hk : k = 0 ∨ 2 ^ 23 ≤ s) (h : k ≤ 200) :
    isFinite (ofMag false (k * 2 ^ 23 + s)) = true ∧ toInt (ofMag false (k * 2 ^ 23 + s)) = s * 2 ^ k := by
  have hcap : k * 2 ^ 23 + s ≤ 0x7F800000 := by omega
  have hx := expo_frac (ofMag false (k * 2 ^ 23 + s))
  rw [ofMag_mod false hcap] at hx
  constructor
  · rw [isFinite, bne_iff_ne]
    omega
  · rw [toInt, neg?_ofMag false hcap, mag_of_significand hs.le hk (ofMag_mod false hcap)]
    simp

/-- A whole number of 24 bits, doubled `k` times, is a value. -/
theorem exists_toInt_eq_nat : ∀ (k s : Nat), s < 2 ^ 24 → k ≤ 200 → ∃ c, isFinite c = true ∧ toInt c = s * 2 ^ k
  | 0, _, hs, h => ⟨_, toInt_significand hs (.inl rfl) h⟩
  | k + 1, s, hs, h => by
    rcases Nat.lt_or_ge s (2 ^ 23) with hlt | hge
    · obtain ⟨c, hf, hc⟩ := exists_toInt_eq_nat k (2 * s) (by omega) (by omega)
      exact ⟨c, hf, by rw [hc]; push_cast; ring⟩
    · exact ⟨_, toInt_significand hs (.inr hge) h⟩

theorem exists_toInt_eq {z : Int} {k : Nat} (hz : z.natAbs < 2 ^ 24) (hk : k ≤ 200) :
    ∃ c, isFinite c = true ∧ toInt c = z * 2 ^ k := by
  obtain ⟨c, hf, hc⟩ := exists_toInt_eq_nat k z.natAbs hz hk
  rcases Int.natAbs_eq z with h | h
  · exact ⟨c, hf, by rw [hc, ← h]⟩
  · exact ⟨neg c, (isFinite_neg c).trans hf, by rw [toInt_neg, hc, ← neg_mul, ← h]⟩

/-- A result held between a value and itself is exact. -/
theorem exact_of_inRange {c x : F32} (hc : isFinite c = true) (h : Machine.inRange c c x = true) :
    isFinite x = true ∧ toInt x = toInt c := by
  have hn := ((isFinite_iff c).1 hc).1
  obtain ⟨-, h1, h2⟩ := (inRange_iff hn hn).1 h
  exact ⟨finite_of_inRange hc hc h, le_antisymm h2 h1⟩

theorem mul_exact {a b : F32} {z : Int} {k : Nat} (ha : isFinite a = true) (hb : isFinite b = true)
    (hz : z.natAbs < 2 ^ 24) (hk : k ≤ 200) (h : toInt a * toInt b = z * 2 ^ k * 2 ^ 149) :
    isFinite (mul a b) = true ∧ toInt (mul a b) = z * 2 ^ k := by
  obtain ⟨c, hc, e⟩ := exists_toInt_eq hz hk
  have hn := ((isFinite_iff c).1 hc).1
  have heq : toInt a * toInt b = toInt c * (2 ^ 149 : Nat) := by rw [h, e]; norm_cast
  rw [← e]
  exact exact_of_inRange hc (mul_between ha hb hn hn heq.ge heq.le)

theorem sub_exact {a b : F32} {z : Int} {k : Nat} (ha : isFinite a = true) (hb : isFinite b = true)
    (hz : z.natAbs < 2 ^ 24) (hk : k ≤ 200) (h : toInt a - toInt b = z * 2 ^ k) :
    isFinite (sub a b) = true ∧ toInt (sub a b) = z * 2 ^ k := by
  obtain ⟨c, hc, e⟩ := exists_toInt_eq hz hk
  have hn := ((isFinite_iff c).1 hc).1
  rw [← e] at h ⊢
  exact exact_of_inRange hc (sub_between ha hb hn hn h.ge h.le)

theorem isFinite_float {n : Nat} (h : n < 2 ^ 24) : isFinite (float n) = true := by
  obtain ⟨c, hc, e⟩ := exists_toInt_eq_nat 149 n h (by norm_num)
  have hn := ((isFinite_iff c).1 hc).1
  exact finite_of_inRange hc hc (float_between hn hn e.le e.ge)

end Sys2Proof.F32

namespace Sys2Proof.FastMath
open F32 Machine

/-! ### The draw (R210) -/

theorem prngNext_toNat (p : Word) : (prngNext p).toNat = (1664525 * p.toNat + 1013904223) % 2 ^ 32 := by
  rw [prngNext, BitVec.toNat_add, BitVec.toNat_mul, Nat.mod_add_mod]
  rfl

/-- The product and the difference of a draw are both exact. -/
theorem prngValue_exact (s : Word) :
    isFinite (prngValue s) = true ∧ toInt (prngValue s) = ((s.toNat / 256 : Nat) - 2 ^ 23) * 2 ^ 126 := by
  have hm : s.toNat / 256 < 2 ^ 24 := by omega
  simp only [prngValue, Nat.shiftRight_eq_div_pow, Nat.reducePow]
  generalize s.toNat / 256 = m at *
  have hscale : toInt 0x34000000#32 = 2 ^ 126 := by decide
  obtain ⟨pf, pe⟩ := mul_exact (b := 0x34000000#32) (z := m) (k := 126) (isFinite_float hm)
    (by decide) (by omega) (by norm_num) (by rw [toInt_float hm, hscale]; ring)
  exact sub_exact pf (by decide) (by omega) (by norm_num) (by rw [pe, toInt_one]; ring)

end Sys2Proof.FastMath

namespace Sys2Proof.Machine
open F32 FastMath

/-- Settles O59: `prngNext_toNat` and `prngValue_exact`, whose exact value lies in [−1, 1). -/
theorem drawIsExact : Obligations.DrawIsExact := by
  unfold Obligations.DrawIsExact
  intro p
  obtain ⟨hf, he⟩ := prngValue_exact (prngNext p)
  have hn := ((isFinite_iff _).1 hf).1
  have hm := (prngNext p).isLt
  simp only [draw]
  refine ⟨prngNext_toNat p, hf, he, ?_, ?_⟩
  · rw [le_iff_toInt (by decide) hn, he, show toInt 0xBF800000#32 = _ from toInt_minusOne]
    omega
  · rw [lt_iff_toInt hn (by decide), he, show toInt 0x3F800000#32 = _ from toInt_one]
    omega

/-! ### The note of a frequency (R212) -/

/-- The two forms in which `floorLog2` compares a power of two with n/d. -/
theorem zpow_le_div_iff {n d : Nat} (hd : 0 < d) (k : Int) :
    (2 : ℚ) ^ k ≤ n / d ↔ if 0 ≤ k then d <<< k.toNat ≤ n else d ≤ n <<< (-k).toNat := by
  have hd' : (0 : ℚ) < d := Nat.cast_pos.2 hd
  rw [le_div_iff₀ hd']
  split
  · next h =>
    obtain ⟨j, rfl⟩ := Int.eq_ofNat_of_zero_le h
    rw [Int.toNat_natCast, Nat.shiftLeft_eq, zpow_natCast, mul_comm]
    norm_cast
  · next h =>
    obtain ⟨j, rfl⟩ := Int.exists_eq_neg_ofNat (not_le.1 h).le
    rw [neg_neg, Int.toNat_natCast, Nat.shiftLeft_eq, zpow_neg, zpow_natCast, inv_mul_le_iff₀ (by positivity), mul_comm]
    norm_cast

theorem zpow_log2_between {n : Nat} (hn : 0 < n) :
    (2 : ℚ) ^ (Nat.log2 n : Int) ≤ n ∧ (n : ℚ) < 2 ^ (Nat.log2 n + 1 : Int) :=
  ⟨by exact_mod_cast Nat.log2_self_le hn.ne', by exact_mod_cast Nat.lt_log2_self⟩

theorem floorLog2_eq_log {n d : Nat} (hn : 0 < n) (hd : 0 < d) : Fix.floorLog2 n d = Int.log 2 (n / d : ℚ) := by
  have hn' : (0 : ℚ) < n := Nat.cast_pos.2 hn
  have hd' : (0 : ℚ) < d := Nat.cast_pos.2 hd
  have hlog (k : Int) : (2 : ℚ) ^ k ≤ n / d ↔ k ≤ Int.log 2 (n / d : ℚ) :=
    mod_cast Int.zpow_le_iff_le_log (b := 2) one_lt_two (div_pos hn' hd')
  obtain ⟨n0, n1⟩ := zpow_log2_between hn
  obtain ⟨d0, d1⟩ := zpow_log2_between hd
  have lower : (Nat.log2 n : Int) - (Nat.log2 d + 1) ≤ Int.log 2 (n / d : ℚ) := by
    rw [← hlog, zpow_sub₀ two_ne_zero]
    exact div_le_div₀ hn'.le n0 hd' d1.le
  have upper : ¬ (Nat.log2 n + 1 : Int) - Nat.log2 d ≤ Int.log 2 (n / d : ℚ) := by
    rw [← hlog, zpow_sub₀ two_ne_zero, not_le]
    exact div_lt_div₀ n1 d0 (by positivity) (by positivity)
  unfold Fix.floorLog2
  simp only [← zpow_le_div_iff hd, hlog]
  split <;> omega

theorem le_floorLog2_iff {n d : Nat} (hn : 0 < n) (hd : 0 < d) (a b : Nat) :
    (a : Int) - b ≤ Fix.floorLog2 n d ↔ d * 2 ^ a ≤ n * 2 ^ b := by
  have hd' : (0 : ℚ) < d := Nat.cast_pos.2 hd
  have hr : (0 : ℚ) < n / d := div_pos (Nat.cast_pos.2 hn) hd'
  rw [floorLog2_eq_log hn hd, ← Int.zpow_le_iff_le_log one_lt_two hr, Nat.cast_ofNat, zpow_sub₀ two_ne_zero,
    div_le_div_iff₀ (by positivity) hd', mul_comm]
  norm_cast

/-- Within a quarter tone of note n, where the 24th power of f/440 is within a factor of 2 of 4^(n − 69), the note is n; with
both sides scaled to whole numbers, 139 = 2·69 + 1 and 137 = 2·69 − 1. -/
theorem frequencyToNote_of_near {f : F32} {n : Nat} (hf : isFinite f = true) (h0 : F32.lt posZero f = true)
    (lo : (440 * 2 ^ 149) ^ 24 * 2 ^ (2 * n) ≤ mag f ^ 24 * 2 ^ 139)
    (hi : mag f ^ 24 * 2 ^ 137 < (440 * 2 ^ 149) ^ 24 * 2 ^ (2 * n)) : frequencyToNote f = some (n : Int) := by
  have hm : 0 < mag f ^ 24 := Nat.pos_of_mul_pos_right (lt_of_lt_of_le (by positivity) lo)
  have hlog := le_floorLog2_iff hm (d := (440 * 2 ^ 149) ^ 24) (by norm_num) (2 * n)
  have lower := (hlog 139).2 lo
  have upper := mt (hlog 137).1 (not_le.2 hi)
  rw [frequencyToNote, hf, h0, Bool.and_self, if_pos rfl, Option.some.injEq]
  generalize Fix.floorLog2 _ _ = l at *
  omega

/-- The rounding of a note's frequency (R211) stays within the quarter tone. -/
theorem n2f_near : ∀ n, n < 128 →
    (440 * 2 ^ 149) ^ 24 * 2 ^ (2 * n) ≤ mag (n2f n) ^ 24 * 2 ^ 139 ∧
    mag (n2f n) ^ 24 * 2 ^ 137 < (440 * 2 ^ 149) ^ 24 * 2 ^ (2 * n) := by decide +kernel

theorem frequencyToNote_n2f {n : Nat} (h : n < 128) : frequencyToNote (n2f n) = some (n : Int) := by
  have hr := n2f_between (n := n) (by omega)
  obtain ⟨hn, h1, -⟩ := (inRange_iff (by decide) (by decide)).1 hr
  have hlow : toInt posZero < toInt 0x4102D013#32 := by decide
  obtain ⟨lo, hi⟩ := n2f_near n h
  exact frequencyToNote_of_near (finite_of_inRange (by decide) (by decide) hr)
    ((lt_iff_toInt (by decide) hn).2 (hlow.trans_le h1)) lo hi

/-! ### Words and values written out -/

theorem decodeCommand_of_encode {w : Command} {i : Instr} (h : i.encode = w) : decodeCommand w = .instr i :=
  h ▸ decodeCommand_encode i

/-- Settles O3: each word is the encoding of its command. -/
theorem specWordsDecode : Obligations.SpecWordsDecode := by
  unfold Obligations.SpecWordsDecode
  and_intros <;> exact decodeCommand_of_encode (by decide)

/-- Settles O60: evaluation of the model's tables and functions, and `frequencyToNote_n2f`. -/
theorem writtenOutValues : Obligations.WrittenOutValues := by
  unfold Obligations.WrittenOutValues
  -- pitch (R211, R213), level (R209), sine (R206), tempo (R420), band edges (R260)
  iterate 15 refine ⟨by decide +kernel, ?_⟩
  -- the coefficients of each filter type (R312)
  refine ⟨by decide +kernel, ?_⟩
  -- the harmonic counts at each sample rate (R261)
  iterate 5 refine ⟨by decide +kernel, ?_⟩
  -- the entries of the band-limited tables (R262)
  iterate 8 refine ⟨by decide +kernel, ?_⟩
  -- the waveforms (R263, R258)
  iterate 8 refine ⟨by decide +kernel, ?_⟩
  exact fun n hn => frequencyToNote_n2f hn

end Sys2Proof.Machine

/-! PROOFS. The oscillators' commands and bands (41_oscillator.md): the setters (O40), the user buffer (O41), the custom table
(O42), and the choice of a band (O43). -/

namespace Sys2Proof.Memory

/-- A table reads the unlisted value from its size on. -/
theorem read_of_below {b : Nat} {m : Memory} (h : m.below b = true) {i : Nat} (hi : b ≤ i) : m.read i = unlisted := by
  induction m with
  | nil => rfl
  | cons e m ih =>
    simp only [below, List.all_cons, Bool.and_eq_true, decide_eq_true_eq] at h
    rw [read_cons, if_neg (by omega), if_neg (by omega), ih h.2]

end Sys2Proof.Memory

namespace Sys2Proof.Machine
open F32

/-! ### One oscillator's tables and registers -/

theorem State.Inv.exists_osc {s : State} (h : s.Inv) {x : Byte} (hx : x.toNat < s.cfg.nOsc) :
    ∃ o, s.osc[x.toNat]? = some o ∧ oscOk s.cfg o = true :=
  have hi : x.toNat < s.osc.length := h.oscCount ▸ hx
  ⟨s.osc[x.toNat], List.getElem?_eq_getElem hi, h.osc _ (List.getElem_mem hi)⟩

section
variable {s : State}

theorem userEntry_of_osc {i : Nat} {o : Osc} (ho : s.osc[i]? = some o) (n : Nat) : s.userEntry i n = o.user.read n := by
  rw [State.userEntry, ho]; rfl

theorem custEntry_of_osc {i : Nat} {o : Osc} (ho : s.osc[i]? = some o) (n : Nat) : s.custEntry i n = o.ctab.read n := by
  rw [State.custEntry, ho]; rfl

theorem modOsc_sized (h : s.Sized) (x : Byte) (g : Osc → Osc) : (s.modOsc x g).Sized :=
  { h with osc := by simp [h.osc] }

variable {x : Byte} {u : Osc} (hu : s.osc[x.toNat]? = some u) (g : Osc → Osc)
include hu

theorem modOsc_userEntry (i n : Nat) :
    (s.modOsc x g).userEntry i n = if i = x.toNat then (g u).user.read n else s.userEntry i n := by
  split
  · next hi => exact userEntry_of_osc (by simp [hi, hu]) n
  · next hi => simp [State.userEntry, Ne.symm hi]

theorem modOsc_custEntry (i n : Nat) :
    (s.modOsc x g).custEntry i n = if i = x.toNat then (g u).ctab.read n else s.custEntry i n := by
  split
  · next hi => exact custEntry_of_osc (by simp [hi, hu]) n
  · next hi => simp [State.custEntry, Ne.symm hi]

theorem modOsc_reads (h : s.Sized) {f : Nat} {w : Word} (hf : (oscFields (g u))[f]? = some w) :
    Reads (s.modOsc x g) (1, x.toNat, f) w :=
  (read_osc (modOsc_sized h x g) (by simp [hu]) f).trans hf

/-- Rewriting oscillator x changes at most those of its registers whose fields the rewriting changes. -/
theorem modOsc_sameRegisters (h : s.Sized) {changed : Address → Bool}
    (hs : ∀ f, changed (1, x.toNat, f) = false → (oscFields (g u))[f]? = (oscFields u)[f]?) :
    SameRegisters changed s (s.modOsc x g) := by
  refine sameRegisters_of_bank 1 oscFields s.osc x.toNat g u hu (readRegister_osc h)
    (readRegister_osc (modOsc_sized h x g)) changed hs ?_
  exact fun c i f hc _ => readRegister_of_class (s := s) (t := s.modOsc x g) c rfl (.inr rfl) (.inl hc) (.inr rfl)
    (.inr rfl) (.inr rfl) (.inr rfl) (.inr rfl) (.inr rfl) i f

end

/-! ### The setters (R270 to R275) -/

theorem getElem?_foldr_set (l : List Word) (k : Nat) : ∀ ws : List (Nat × Word), (∀ w ∈ ws, w.1 ≠ k) →
    (ws.foldr (fun w l => l.set w.1 w.2) l)[k]? = l[k]?
  | [], _ => rfl
  | w :: ws, h => by
    rw [List.foldr_cons, List.getElem?_set_ne (h w List.mem_cons_self),
      getElem?_foldr_set l k ws fun v hv => h v (List.mem_cons_of_mem w hv)]

/-- A command that sets the listed fields of oscillator x, and keeps its tables, writes these registers and nothing else. -/
theorem writes_oscFields {i : Instr} {s : State} {x : Byte} {g : Osc → Osc} (hs : s.Inv) (hx : x.toNat < s.cfg.nOsc)
    (he : exec i s = .next (s.modOsc x g)) (ws : List (Nat × Word))
    (htab : ∀ o, ((g o).user, (g o).ctab) = (o.user, o.ctab))
    (hset : ∀ o, oscFields (g o) = ws.foldr (fun w l => l.set w.1 w.2) (oscFields o))
    (hread : ∀ o, ∀ w ∈ ws, (oscFields (g o))[w.1]? = some w.2) :
    Writes i s (ws.map fun w => ((1, x.toNat, w.1), w.2)) [] := by
  obtain ⟨o, ho, -⟩ := hs.exists_osc hx
  refine writes_modOsc hs.sized he ho (htab o) ?_ fun f hf => ?_
  · rw [List.forall_mem_map]
    exact fun w hw => ⟨rfl, rfl, hread o w hw⟩
  · rw [List.forall_mem_map] at hf
    rw [hset, getElem?_foldr_set _ _ ws fun w hw hk => hf w hw (by rw [hk])]

theorem waveOf_code : ∀ y : Byte, y.toNat ≤ 5 →
    (waveOf y).map (fun w => BitVec.ofNat 32 (waveCode w)) = some (y.setWidth 32) := by decide

/-- Settles O40: `writes_oscFields`, each setter setting one or two fields of its oscillator. -/
theorem oscillatorSetters : Obligations.OscillatorSetters := by
  unfold Obligations.OscillatorSetters
  intro s x y d hs hx
  have legal {b : Bool} (hb : b = true) : (decide (x.toNat < s.cfg.nOsc) && b) = true := by simp [hx, hb]
  refine ⟨fun hy => ?_, fun hd => ?_, fun hd => ?_⟩
  · obtain ⟨w, hw, hc⟩ := Option.map_eq_some_iff.1 (waveOf_code y hy)
    have he := execOscSetWave_next x y (s := s) (legal (by rw [hw]; rfl))
    simp only [hw, Option.getD_some] at he
    exact writes_oscFields hs hx he [(0, y.setWidth 32)] (fun _ => rfl) (fun _ => by simp [oscFields, hc])
      (by simp [oscFields, hc])
  · have hn : acceptsClamped d = true := by rw [acceptsClamped, hd]; rfl
    refine ⟨?_, ?_, ?_, ?_⟩
    · exact writes_oscFields hs hx (execOscSetFreq_next x d (legal hn)) [(1, clamp d Const.fMin Const.fMax)]
        (fun _ => rfl) (fun _ => rfl) (by simp [oscFields])
    · exact writes_oscFields hs hx (execOscSetDetune_next x d (legal hn))
        [(4, clamp d Const.detMin Const.detMax), (5, FastMath.dscale (clamp d Const.detMin Const.detMax))]
        (fun _ => rfl) (fun _ => rfl) (by simp [oscFields])
    · exact writes_oscFields hs hx (execOscSetPw_next x d (legal hn)) [(6, clamp d Const.pwMin Const.pwMax)]
        (fun _ => rfl) (fun _ => rfl) (by simp [oscFields])
    · exact writes_oscFields hs hx (execOscSetMix_next x d (legal hn)) [(7, clamp d Const.mixMin Const.mixMax)]
        (fun _ => rfl) (fun _ => rfl) (by simp [oscFields])
  · exact writes_oscFields hs hx (execOscSetPhase_next x d (legal hd)) [(2, wrap d), (3, wrap d)]
      (fun _ => rfl) (fun _ => rfl) (by simp [oscFields])

/-! ### The user buffer and the custom table (R276, R277) -/

/-- Settles O41: a read after a write, in the user buffer of the one oscillator rewritten. -/
theorem customWrite : Obligations.CustomWrite := by
  unfold Obligations.CustomWrite
  intro s x n d hs hx hn hd
  obtain ⟨o, ho, ok⟩ := hs.exists_osc hx
  have hread := Memory.read_write (user_wf ok) n.toNat d
  refine ⟨_, execOscCustWrite_next x n d ?_, ?_, fun i m him => ?_, fun i m => ?_,
    modOsc_sameRegisters ho _ hs.sized fun _ _ => rfl, ⟨rfl, rfl, rfl, rfl⟩, rfl, rfl, rfl, rfl⟩
  · simp [Instr.wellFormed, userIndexLegal, acceptsFinite, hx, hn, hd]
  · rw [modOsc_userEntry ho, if_pos rfl, hread, if_pos rfl]
  · rw [modOsc_userEntry ho, ite_eq_right_iff]
    exact fun hi => by rw [hread, if_neg fun hm => him (by rw [hi, hm]), hi, userEntry_of_osc ho]
  · rw [modOsc_custEntry ho, ite_eq_right_iff]
    exact fun hi => by rw [hi, custEntry_of_osc ho]

/-- Settles O42: the custom table of the one oscillator rewritten is `custResample` tabulated. -/
theorem customCommit : Obligations.CustomCommit := by
  unfold Obligations.CustomCommit
  intro s x d hs hx h1 hU
  obtain ⟨o, ho, ok⟩ := hs.exists_osc hx
  obtain ⟨-, -, -, -, -, -, -, -, -, -, -, hbelow⟩ := oscOk_iff.1 ok
  have hread := Memory.read_tabulate (custResample s.cfg.tab d.toNat o.user) s.cfg.tab
  refine ⟨_, execOscCustCommit_next x d ?_, fun m hm => ?_, fun i m him => ?_, fun i m => ?_,
    modOsc_reads ho _ hs.sized (by simp [oscFields]), modOsc_sameRegisters ho _ hs.sized fun f hf => ?_,
    ⟨rfl, rfl, rfl, rfl⟩, rfl, rfl, rfl, rfl⟩
  · simp [Instr.wellFormed, commitLengthLegal, hx, h1, hU]
  · simp only [userEntry_of_osc ho]
    rw [modOsc_custEntry ho, if_pos rfl, hread, if_pos hm]
    rfl
  · rw [modOsc_custEntry ho, ite_eq_right_iff]
    intro hi
    have hm := him.resolve_left (not_not.2 hi)
    rw [hread, if_neg hm.not_gt, hi, custEntry_of_osc ho, Memory.read_of_below hbelow hm]
  · rw [modOsc_userEntry ho, ite_eq_right_iff]
    exact fun hi => by rw [hi, userEntry_of_osc ho]
  · exact List.getElem?_set_ne (l := oscFields o) (i := 13) fun hk => by simp [← hk] at hf

/-! ### The band of a frequency (R260) -/

/-- The band `bandBelow` answers has its edge not above the frequency, and the bands between it and `n` have theirs above. -/
theorem bandBelow_largest {nb : Nat} {f : F32} (h0 : le (Tables.edge nb 0) f = true) {n : Nat} (hn : 1 ≤ n) :
    le (Tables.edge nb (Tables.bandBelow nb f n)) f = true ∧
      ∀ b, Tables.bandBelow nb f n < b → b < n → le (Tables.edge nb b) f = false := by
  induction n, hn using Nat.le_induction with
  | base => exact ⟨by simp [Tables.bandBelow, h0], fun b _ hb => by omega⟩
  | succ n hn ih =>
    rw [Tables.bandBelow]
    split
    · next h => exact ⟨h, fun b _ _ => by omega⟩
    · next h =>
      refine ⟨ih.1, fun b hlt hb => ?_⟩
      rcases Nat.lt_succ_iff_lt_or_eq.1 hb with hb | rfl
      · exact ih.2 b hlt hb
      · exact Bool.eq_false_iff.2 h

/-- Settles O43: `bandBelow_lt` and `bandBelow_largest` at the number of bands, where `selectBand` starts. -/
theorem bandIsLargest : Obligations.BandIsLargest := by
  unfold Obligations.BandIsLargest
  exact fun nb f hn h0 => ⟨bandBelow_lt nb f nb hn, bandBelow_largest h0 hn⟩

end Sys2Proof.Machine

/-! PROOFS. The filters (42_filter.md): the setters with their coefficient update (O44), the enable bit and the delay line
(O45), the biquad with its guard (O46), and the cascade (O47). -/

namespace Sys2Proof.Machine
open F32

/-! ### The setters (R320, R340 to R343) -/

section
variable {s : State} {x y : Byte} {f : Flt}

theorem State.Inv.filter_lt (h : s.Inv) (hf : s.flt[x.toNat]? = some f) : x.toNat < s.cfg.nFlt :=
  h.fltCount ▸ (List.getElem?_eq_some_iff.1 hf).1

/-- The normalised a0 is 1.0 whatever the type (R311). -/
theorem filterCoefficients_a0 (tsin : Nat) (fs : F32) (ty : FilterType) (fc q g : F32) :
    (filterCoefficients tsin fs ty fc q g).a0 = one := by
  cases ty <;> rfl

/-- The coefficient update sets exactly the registers `coefficientUpdate` lists. -/
theorem fltFields_fltDerive (s : State) (j : Nat) (f : Flt) : fltFields (s.fltDerive j f) =
    ((coefficientUpdate s j f).map fun w => (w.1.2.2, w.2)).foldr (fun w l => l.set w.1 w.2) (fltFields f) := by
  simp only [State.fltDerive, fltUpdate, coefs_eq_filterCoefficients, filterCoefficients_a0]
  rfl

theorem fltDerive_reads (s : State) (j : Nat) (f : Flt) : ∀ w ∈ coefficientUpdate s j f,
    w.1.1 = 2 ∧ w.1.2.1 = j ∧ (fltFields (s.fltDerive j f))[w.1.2.2]? = some w.2 := by
  rw [fltFields_fltDerive]
  simp [coefficientUpdate, fltFields]

theorem fltDerive_keeps {j k : Nat} (h : ∀ w ∈ coefficientUpdate s j f, w.1 ≠ (2, j, k)) :
    (fltFields (s.fltDerive j f))[k]? = (fltFields f)[k]? := by
  rw [fltFields_fltDerive]
  refine getElem?_foldr_set _ _ _ ?_
  rw [List.forall_mem_map]
  rintro w hw rfl
  obtain ⟨h2, hj, -⟩ := fltDerive_reads s j f w hw
  exact h w hw (by rw [← h2, ← hj])

/-- The coefficient update writes no parameter register. -/
theorem five_le_coefficientUpdate (s : State) (j : Nat) (f : Flt) : ∀ w ∈ coefficientUpdate s j f, 5 ≤ w.1.2.2 := by
  simp [coefficientUpdate]

/-- A filter setter whose update sets parameter register k writes it and the coefficient update, and nothing else. -/
theorem writes_setFlt {i : Instr} {g : Flt → Flt} (hs : s.Inv) (hf : s.flt[x.toNat]? = some f)
    (he : exec i s = .next (s.setFlt x g)) {k : Nat} {v : Word} (hk : k < 4)
    (hset : fltFields (g f) = (fltFields f).set k v) :
    Writes i s (((2, x.toNat, k), v) :: coefficientUpdate s x.toNat (g f)) [] := by
  refine writes_modFlt hs.sized he hf ?_ fun n hn => ?_
  · rw [List.forall_mem_cons]
    refine ⟨⟨rfl, rfl, ?_⟩, fltDerive_reads s x.toNat (g f)⟩
    have hlen : k < (fltFields f).length := hk.trans (by decide : 4 < 18)
    have hparam : ∀ w ∈ coefficientUpdate s x.toNat (g f), w.1 ≠ (2, x.toNat, k) := by
      rintro ⟨-, w⟩ hw rfl
      have h5 : 5 ≤ k := five_le_coefficientUpdate s x.toNat (g f) _ hw
      omega
    rw [fltDerive_keeps hparam, hset, List.getElem?_set_self hlen]
  · rw [List.forall_mem_cons] at hn
    rw [fltDerive_keeps hn.2, hset, List.getElem?_set_ne fun h => hn.1 (by rw [h])]

end

theorem filterTypeOf_code : ∀ y : Byte, ∀ k ∈ filterTypeOf y, BitVec.ofNat 32 (filterTypeCode k) = y.setWidth 32 := by
  decide

/-- Settles O44: `writes_setFlt`, each setter setting one parameter register of its filter. -/
theorem filterSetters : Obligations.FilterSetters := by
  unfold Obligations.FilterSetters
  intro s x y d f hs hf
  have legal {b : Bool} (hb : b = true) : (decide (x.toNat < s.cfg.nFlt) && b) = true := by simp [hs.filter_lt hf, hb]
  refine ⟨fun k hk => ?_, fun hd => ?_⟩
  · have he := execFltSetType_next x y (s := s) (legal (by rw [hk]; rfl))
    simp only [hk, Option.getD_some] at he
    exact writes_setFlt hs hf he (k := 0) (by decide) (by rw [← filterTypeOf_code y k hk]; rfl)
  · have hn : acceptsClamped d = true := by rw [acceptsClamped, hd]; rfl
    exact ⟨writes_setFlt hs hf (execFltSetCutoff_next x d (legal hn)) (k := 1) (by decide) rfl,
      writes_setFlt hs hf (execFltSetRes_next x d (legal hn)) (k := 2) (by decide) rfl,
      writes_setFlt hs hf (execFltSetGain_next x d (legal hn)) (k := 3) (by decide) rfl⟩

/-! ### The enable bit and the delay line (R344, R345) -/

/-- A command that sets the listed fields of filter x writes these registers and nothing else. -/
theorem writes_fltFields {i : Instr} {s : State} {x : Byte} {f : Flt} {g : Flt → Flt} (hs : s.Inv)
    (hf : s.flt[x.toNat]? = some f) (he : exec i s = .next (s.modFlt x g)) (ws : List (Nat × Word))
    (hset : fltFields (g f) = ws.foldr (fun w l => l.set w.1 w.2) (fltFields f))
    (hread : ∀ w ∈ ws, (fltFields (g f))[w.1]? = some w.2) :
    Writes i s (ws.map fun w => ((2, x.toNat, w.1), w.2)) [] := by
  refine writes_modFlt hs.sized he hf ?_ fun k hk => ?_
  · rw [List.forall_mem_map]
    exact fun w hw => ⟨rfl, rfl, hread w hw⟩
  · rw [List.forall_mem_map] at hk
    rw [hset, getElem?_foldr_set _ _ ws fun w hw h => hk w hw (by rw [h])]

theorem bitOf_code : ∀ y : Byte, y.toNat ≤ 1 → (bitOf y).map Word.ofBool = some (y.setWidth 32) := by decide

theorem ofBool_inj : ∀ {b c : Bool}, Word.ofBool b = Word.ofBool c ↔ b = c := by decide

/-- Settles O45: a bit that stays sets its own field alone; one that changes, the delay fields with it. -/
theorem filterEnableAndReset : Obligations.FilterEnableAndReset := by
  unfold Obligations.FilterEnableAndReset
  intro s x y f hs hf
  have hx := hs.filter_lt hf
  refine ⟨fun hy => ?_, ?_⟩
  · obtain ⟨b, hb, hc⟩ := Option.map_eq_some_iff.1 (bitOf_code y hy)
    have he := execFltSetEnable_next x y (s := s) (by simp [Instr.wellFormed, hx, hb])
    simp only [hb, Option.getD_some] at he
    change Writes _ s (_ :: if _ = Word.ofBool f.enable then _ else _) []
    simp only [← hc, ofBool_inj]
    split
    · next heq =>
      have hg : fltFields (fltEnable b f) = (fltFields f).set 4 (Word.ofBool b) := by rw [fltEnable, if_pos heq]; rfl
      exact writes_fltFields hs hf he [(4, Word.ofBool b)] hg (by rw [hg]; simp [fltFields])
    · next hne =>
      have hg : fltEnable b f = { fltClear f with enable := b } := by rw [fltEnable, if_neg hne]
      exact writes_fltFields hs hf he
        [(4, Word.ofBool b), (11, posZero), (12, posZero), (13, posZero), (14, posZero)] (by rw [hg]; rfl)
        (by simp [hg, fltFields, fltClear])
  · exact writes_fltFields hs hf (execFltReset_next x (by simp [Instr.wellFormed, hx]))
      [(11, posZero), (12, posZero), (13, posZero), (14, posZero)] rfl (by simp [fltFields, fltClear])

/-! ### The biquad and its guard (R331, R332) -/

theorem guardTrips_iff (y : F32) :
    guardTrips y = true ↔ isFinite y = false ∨ lt Const.guardLimit (abs y) = true := by simp [guardTrips]

theorem guardTrips_eq_false_iff (y : F32) :
    guardTrips y = false ↔ isFinite y = true ∧ lt Const.guardLimit (abs y) = false := by simp [guardTrips]

section
variable {f : Flt} {x : F32}

theorem biquad_of_trips (h : guardTrips (biquadOut f x) = true) :
    biquad f x = (fltClear f, posZero, [.filterInstability]) := if_pos h

theorem biquad_of_passes (h : guardTrips (biquadOut f x) = false) :
    biquad f x = ({ f with x2 := f.x1, x1 := x, y2 := f.y1, y1 := biquadOut f x }, biquadOut f x, []) :=
  if_neg (Bool.eq_false_iff.1 h)

end

/-- Settles O46: the two outcomes of the guard on `biquadOut`. -/
theorem biquadWithGuard : Obligations.BiquadWithGuard := by
  unfold Obligations.BiquadWithGuard
  exact fun f x => ⟨fun h => biquad_of_trips ((guardTrips_iff _).2 h),
    fun hfin hle => biquad_of_passes ((guardTrips_eq_false_iff _).2 ⟨hfin, hle⟩)⟩

/-! ### The cascade (R330) -/

/-- What filter f does with a cascade input x: its biquad step when enabled; otherwise x passes (R330). -/
def filterStep (f : Flt) (x : F32) : Flt × F32 × List Event := if f.enable then biquad f x else (f, x, [])

section
variable {f : Flt} {fs : List Flt} {m x : F32}

theorem filterStep_of_enabled (h : f.enable = true) : filterStep f x = biquad f x := if_pos h

theorem filterStep_of_disabled (h : f.enable = false) : filterStep f x = (f, x, []) := if_neg (Bool.eq_false_iff.1 h)

theorem cascade_cons (f : Flt) (fs : List Flt) (x : F32) : cascade (f :: fs) x =
    ((filterStep f x).1 :: (cascade fs (filterStep f x).2.1).1, (cascade fs (filterStep f x).2.1).2.1,
      (filterStep f x).2.2 ++ (cascade fs (filterStep f x).2.1).2.2) := by
  rw [cascade]
  split
  · next h => rw [filterStep_of_enabled h]
  · next h => rw [filterStep_of_disabled (Bool.eq_false_iff.2 h)]; rfl

theorem filterInput_succ (f : Flt) (fs : List Flt) (m : F32) (j : Nat) :
    filterInput (f :: fs) m (j + 1) = filterInput fs (filterStep f m).2.1 j := by
  cases h : f.enable
  · simp [filterInput, h, filterStep_of_disabled h]
  · simp [filterInput, h, filterStep_of_enabled h]

theorem filtersAfter_eq (fs : List Flt) (m : F32) :
    filtersAfter fs m = fs.mapIdx fun j f => (filterStep f (filterInput fs m j)).1 := by
  simp only [filtersAfter, filterStep, apply_ite Prod.fst]

theorem filterEvents_eq (fs : List Flt) (m : F32) :
    filterEvents fs m = (fs.mapIdx fun j f => (filterStep f (filterInput fs m j)).2.2).flatten := by
  simp only [filterEvents, filterStep, apply_ite Prod.snd]

/-- Each enabled filter steps on the output of the one before it. -/
theorem cascade_eq (fs : List Flt) (m : F32) :
    cascade fs m = (filtersAfter fs m, filterInput fs m fs.length, filterEvents fs m) := by
  rw [filtersAfter_eq, filterEvents_eq]
  induction fs generalizing m with
  | nil => rfl
  | cons f fs ih =>
    have hin : filterInput (f :: fs) m 0 = m := rfl
    simp [cascade_cons, ih, filterInput_succ, hin]

theorem cascade_of_disabled (h : ∀ f ∈ fs, f.enable = false) : cascade fs m = (fs, m, []) := by
  induction fs with
  | nil => rfl
  | cons f fs ih =>
    obtain ⟨hf, hfs⟩ := List.forall_mem_cons.1 h
    rw [cascade_cons, filterStep_of_disabled hf, ih hfs]
    rfl

/-- What a biquad lets out never trips the guard: a y that passed it, or +0.0. -/
theorem guardTrips_biquad (f : Flt) (x : F32) : guardTrips (biquad f x).2.1 = false := by
  cases h : guardTrips (biquadOut f x)
  · rw [biquad_of_passes h]; exact h
  · rw [biquad_of_trips h]; exact (by decide : guardTrips posZero = false)

/-- A bounded value entering the cascade, or an enabled filter in it, bounds what leaves. -/
theorem guardTrips_cascade (h : guardTrips m = false ∨ ∃ f ∈ fs, f.enable = true) :
    guardTrips (cascade fs m).2.1 = false := by
  induction fs generalizing m with
  | nil => exact h.resolve_right (by simp)
  | cons f fs ih =>
    rw [cascade_cons]
    refine ih ?_
    cases hf : f.enable
    · rw [filterStep_of_disabled hf]
      simpa [hf] using h
    · rw [filterStep_of_enabled hf]
      exact .inl (guardTrips_biquad f m)

theorem biquad_keeps_coefficients (f : Flt) (x : F32) : let g := (biquad f x).1
    g = { f with x1 := g.x1, x2 := g.x2, y1 := g.y1, y2 := g.y2 } := by
  cases h : guardTrips (biquadOut f x)
  · rw [biquad_of_passes h]
  · rw [biquad_of_trips h]; rfl

theorem filterStep_keeps_coefficients (f : Flt) (x : F32) : let g := (filterStep f x).1
    g = { f with x1 := g.x1, x2 := g.x2, y1 := g.y1, y2 := g.y2 } := by
  unfold filterStep
  split
  · exact biquad_keeps_coefficients f x
  · rfl

theorem biquad_events (f : Flt) (x : F32) : ∃ n ≤ 1, (biquad f x).2.2 = List.replicate n .filterInstability := by
  cases h : guardTrips (biquadOut f x)
  · exact ⟨0, by decide, by rw [biquad_of_passes h]; rfl⟩
  · exact ⟨1, by decide, by rw [biquad_of_trips h]; rfl⟩

/-- The events of a cascade are FILTER_INSTABILITY alone, at most one for each enabled filter. -/
theorem cascade_events (fs : List Flt) (m : F32) :
    ∃ n ≤ fs.countP Flt.enable, (cascade fs m).2.2 = List.replicate n .filterInstability := by
  induction fs generalizing m with
  | nil => exact ⟨0, by decide, rfl⟩
  | cons f fs ih =>
    obtain ⟨n, hn, he⟩ := ih (filterStep f m).2.1
    rw [cascade_cons, he]
    cases hf : f.enable
    · exact ⟨n, by simpa [hf] using hn, by rw [filterStep_of_disabled hf]; rfl⟩
    · obtain ⟨k, hk, hb⟩ := biquad_events f m
      refine ⟨k + n, ?_, by rw [filterStep_of_enabled hf, hb, List.replicate_append_replicate]⟩
      rw [List.countP_cons_of_pos hf]
      omega

end

/-- Settles O47: `cascade_eq` gives the filters one by one; the bound and the events are inductions along the cascade. -/
theorem cascadeOutput : Obligations.CascadeOutput := by
  unfold Obligations.CascadeOutput
  intro fs m
  obtain ⟨n, hn, he⟩ := cascade_events fs m
  refine ⟨cascade_eq fs m, cascade_of_disabled, fun h => (guardTrips_eq_false_iff _).1 (guardTrips_cascade (.inr h)),
    fun j f hj => ⟨(filterStep f (filterInput fs m j)).1, ?_, filterStep_keeps_coefficients f _, fun h => ?_⟩, ?_, ?_⟩
  · simp [cascade_eq, filtersAfter_eq, hj]
  · rw [filterStep_of_disabled h]
  · rw [he]
    exact fun e => List.eq_of_mem_replicate
  · rw [he, List.length_replicate]
    exact hn

end Sys2Proof.Machine

/-! PROOFS. The envelopes (43_envelope.md): one step in each stage (O50) and the length of a stage (O51), the stage commands (O49)
and the setters (O48), the stage machine over all commands (O52), and full velocity (O53). -/

namespace Sys2Proof.Machine
open F32

/-! ### One step (R352 to R359) -/

section
variable {e : Env}

theorem powBy_eq_foldl (q : F32) (n : Nat) (a : F32) : powBy q n a = (List.replicate n q).foldl mul a := by
  induction n generalizing a with
  | zero => rfl
  | succ n ih => exact ih (mul a q)

theorem envCurve_eq (c : Nat) (p : F32) :
    envCurve c p = sub one ((List.replicate (c - 1) (sub one p)).foldl mul (sub one p)) :=
  congrArg (sub one) (powBy_eq_foldl _ _ _)

theorem envRamp_last {len : Nat} (h : len ≤ e.elapsed + 1) (slope τ : F32) (next : Stage) :
    envRamp e len slope τ next = envEnter e τ next := if_pos h

theorem envRamp_running {len : Nat} (h : e.elapsed + 1 < len) (slope τ : F32) (next : Stage) :
    envRamp e len slope τ next = { e with
      elapsed := e.elapsed + 1
      value := add e.start (mul (sub τ e.start) (envCurve e.curve (mul (float (e.elapsed + 1)) slope))) } :=
  if_neg h.not_ge

theorem envShutdown_last (h : e.lenSh ≤ e.elapsed + 1) : envShutdown e = envEnter e posZero .idle := if_pos h

theorem envShutdown_running (h : e.elapsed + 1 < e.lenSh) : envShutdown e = { e with
    elapsed := e.elapsed + 1, value := mul e.start (sub one (mul (float (e.elapsed + 1)) e.slopeSh)) } :=
  if_neg h.not_ge

theorem envStep_attack (h : e.stage = .attack) : envStep e = envRamp e e.lenA e.slopeA e.vm .decay := by
  rw [envStep, h]

theorem envStep_decay (h : e.stage = .decay) :
    envStep e = envRamp e e.lenD e.slopeD (mul e.sustain e.vm) .sustain := by rw [envStep, h]

theorem envStep_sustain (h : e.stage = .sustain) : envStep e = { e with value := mul e.sustain e.vm } := by
  rw [envStep, h]

theorem envStep_release (h : e.stage = .release) : envStep e = envRamp e e.lenR e.slopeR posZero .idle := by
  rw [envStep, h]

theorem envStep_shutdown (h : e.stage = .shutdown) : envStep e = envShutdown e := by rw [envStep, h]

theorem envStep_idle (h : e.stage = .idle) : envStep e = { e with value := posZero } := by rw [envStep, h]

end

/-- Settles O50: the equation of each stage, the curve's power written as repeated multiplication. -/
theorem envelopeStep : Obligations.EnvelopeStep := by
  unfold Obligations.EnvelopeStep
  intro e
  have ramp (len : Nat) (slope τ : F32) (next : Stage) : envRamp e len slope τ next =
      if len ≤ e.elapsed + 1 then envEnter e τ next else { e with
        elapsed := e.elapsed + 1
        value := add e.start (mul (sub τ e.start) (sub one ((List.replicate (e.curve - 1)
          (sub one (mul (float (e.elapsed + 1)) slope))).foldl mul (sub one (mul (float (e.elapsed + 1)) slope))))) } := by
    rw [← envCurve_eq]; rfl
  refine ⟨fun h => ?_, fun h => ?_, envStep_sustain, fun h => ?_, fun h hn => ?_, fun h hn => ?_, envStep_idle⟩
  · exact (envStep_attack h).trans (ramp _ _ _ _)
  · exact (envStep_decay h).trans (ramp _ _ _ _)
  · exact (envStep_release h).trans (ramp _ _ _ _)
  · exact (envStep_shutdown h).trans (envShutdown_last hn)
  · exact (envStep_shutdown h).trans (envShutdown_running hn)

/-! ### A timed stage (R352, R354 to R358) -/

/-- The envelope is in a timed stage of `len` samples, which takes it to `τ` and to the stage `next`. -/
inductive TimedStage : Env → Nat → F32 → Stage → Prop
  | attack {e : Env} (h : e.stage = .attack) : TimedStage e e.lenA e.vm .decay
  | decay {e : Env} (h : e.stage = .decay) : TimedStage e e.lenD (mul e.sustain e.vm) .sustain
  | release {e : Env} (h : e.stage = .release) : TimedStage e e.lenR posZero .idle
  | shutdown {e : Env} (h : e.stage = .shutdown) : TimedStage e e.lenSh posZero .idle

section
variable {e : Env} {len : Nat} {τ : F32} {next : Stage}

/-- Counting samples and moving VALUE leave a timed stage what it is. -/
theorem TimedStage.advance (h : TimedStage e len τ next) (n : Nat) (v : F32) :
    TimedStage { e with elapsed := n, value := v } len τ next := by
  cases h with
  | attack h => exact .attack (e := { e with elapsed := n, value := v }) h
  | decay h => exact .decay (e := { e with elapsed := n, value := v }) h
  | release h => exact .release (e := { e with elapsed := n, value := v }) h
  | shutdown h => exact .shutdown (e := { e with elapsed := n, value := v }) h

theorem envStep_last (h : TimedStage e len τ next) (hl : len ≤ e.elapsed + 1) : envStep e = envEnter e τ next := by
  cases h with
  | attack h => rw [envStep_attack h, envRamp_last hl]
  | decay h => rw [envStep_decay h, envRamp_last hl]
  | release h => rw [envStep_release h, envRamp_last hl]
  | shutdown h => rw [envStep_shutdown h, envShutdown_last hl]

theorem envStep_running (h : TimedStage e len τ next) (hl : e.elapsed + 1 < len) :
    ∃ v, envStep e = { e with elapsed := e.elapsed + 1, value := v } := by
  cases h with
  | attack h => exact ⟨_, (envStep_attack h).trans (envRamp_running hl _ _ _)⟩
  | decay h => exact ⟨_, (envStep_decay h).trans (envRamp_running hl _ _ _)⟩
  | release h => exact ⟨_, (envStep_release h).trans (envRamp_running hl _ _ _)⟩
  | shutdown h => exact ⟨_, (envStep_shutdown h).trans (envShutdown_running hl)⟩

/-- Before its last sample a timed stage has only counted and moved VALUE. -/
theorem iterate_envStep_running (h : TimedStage e len τ next) (h0 : e.elapsed = 0) (n : Nat) (hn : n < len) :
    ∃ v, envStep^[n] e = { e with elapsed := n, value := v } := by
  induction n with
  | zero => exact ⟨e.value, congrArg (fun n => { e with elapsed := n }) h0⟩
  | succ n ih =>
    obtain ⟨v, hv⟩ := ih (by omega)
    obtain ⟨v', hv'⟩ := envStep_running (h.advance n v) hn
    exact ⟨v', by rw [Function.iterate_succ_apply', hv, hv']⟩

end

/-- Settles O51: `iterate_envStep_running`, and `envStep_last` for the last sample. -/
theorem envelopeStageLength : Obligations.EnvelopeStageLength := by
  unfold Obligations.EnvelopeStageLength
  intro e len τ next h0 hlen hstage
  have timed : TimedStage e len τ next := by
    rcases hstage with ⟨h, rfl, rfl, rfl⟩ | ⟨h, rfl, rfl, rfl⟩ | ⟨h, rfl, rfl, rfl⟩ | ⟨h, rfl, rfl, rfl⟩
    · exact .attack h
    · exact .decay h
    · exact .release h
    · exact .shutdown h
  refine ⟨fun n hn => ?_, ?_⟩
  · obtain ⟨v, hv⟩ := iterate_envStep_running timed h0 n hn
    rw [hv]
    exact ⟨rfl, rfl⟩
  · obtain ⟨m, rfl⟩ : ∃ m, len = m + 1 := ⟨len - 1, by omega⟩
    obtain ⟨v, hv⟩ := iterate_envStep_running timed h0 m (Nat.lt_succ_self m)
    rw [Function.iterate_succ_apply', hv, envStep_last (timed.advance m v) le_rfl]
    rfl

/-! ### Trigger, Release and Stop (R360 to R362) -/

/-- The stages Release acts in. -/
def held (a : Stage) : Bool := a == .attack || a == .decay || a == .sustain

/-- The stages Stop acts in. -/
def sounding (a : Stage) : Bool := a == .attack || a == .decay || a == .sustain || a == .release

theorem held_iff {a : Stage} : held a = true ↔ a = .attack ∨ a = .decay ∨ a = .sustain := by
  simp [held, or_assoc]

theorem not_sounding_iff {a : Stage} : ¬ sounding a = true ↔ a = .idle ∨ a = .shutdown := by
  cases a <;> decide

theorem envReleased_eq (e : Env) : envReleased e =
    if held e.stage then { e with start := e.value, elapsed := 0, stage := .release } else e := by
  unfold envReleased
  cases h : e.stage <;> rfl

theorem envStopped_eq (e : Env) : envStopped e =
    if sounding e.stage then { e with start := e.value, elapsed := 0, stage := .shutdown } else e := by
  unfold envStopped
  cases h : e.stage <;> rfl

theorem envReleased_stage (e : Env) : (envReleased e).stage = if held e.stage then .release else e.stage := by
  rw [envReleased_eq, apply_ite Env.stage]

theorem envStopped_stage (e : Env) : (envStopped e).stage = if sounding e.stage then .shutdown else e.stage := by
  rw [envStopped_eq, apply_ite Env.stage]

/-! ### Writes to an envelope's registers -/

section
variable {s : State} {x : Byte} {e : Env}

theorem State.Inv.exists_env (h : s.Inv) (hx : x.toNat < s.cfg.nEnv) : ∃ e, s.env[x.toNat]? = some e :=
  ⟨_, List.getElem?_eq_getElem (h.envCount ▸ hx)⟩

theorem State.Inv.env_lt (h : s.Inv) (he : s.env[x.toNat]? = some e) : x.toNat < s.cfg.nEnv :=
  h.envCount ▸ (List.getElem?_eq_some_iff.1 he).1

theorem modEnv_of_eq {g : Env → Env} (he : s.env[x.toNat]? = some e) (hg : g e = e) : s.modEnv x g = s := by
  have envs : s.env.modify x.toNat g = s.env := by
    obtain ⟨hx, rfl⟩ := List.getElem?_eq_some_iff.1 he
    rw [List.modify_eq_set_get g hx, List.get_eq_getElem, hg, List.set_getElem_self]
  rw [State.modEnv, envs]

/-- A command that sets the listed fields of envelope x writes these registers, those that follow its stage if it may change
the stage, and nothing else. -/
theorem writes_envFields {i : Instr} {g : Env → Env} {also : List Address} (hs : s.Inv) (he : s.env[x.toNat]? = some e)
    (hi : exec i s = .next (s.modEnv x g)) (ws : List (Nat × Word))
    (hset : envFields (g e) = ws.foldr (fun w l => l.set w.1 w.2) (envFields e))
    (hread : ∀ w ∈ ws, (envFields (g e))[w.1]? = some w.2)
    (hstage : also = derivedFrom x.toNat ∨ (g e).stage = e.stage) :
    Writes i s (ws.map fun w => ((3, x.toNat, w.1), w.2)) also := by
  have stage {a : Address} (ha : a ∈ derivedFrom 0) :
      a ∈ also ∨ ∀ v ∈ s.env[0]?, x.toNat = 0 → (g v).stage = v.stage := by
    by_cases hx : x.toNat = 0
    · refine hstage.imp (fun h => by rwa [h, hx]) fun h v hv _ => ?_
      rw [hx] at he
      obtain rfl := Option.some.inj (he.symm.trans hv)
      exact h
    · exact .inr fun _ _ h => absurd h hx
  refine writes_modEnv hs.sized hi he also ?_ (fun k hk => ?_) (stage (by decide)) (stage (by decide))
  · rw [List.forall_mem_map]
    exact fun w hw => ⟨rfl, rfl, hread w hw⟩
  · rw [List.forall_mem_map] at hk
    rw [hset, getElem?_foldr_set _ _ ws fun w hw h => hk w hw (by rw [h])]

/-- A command that takes envelope x to the start of a stage writes STAGE, ELAPSED and START, and nothing else. -/
theorem writes_stageStart {i : Instr} {g : Env → Env} {a : Stage} (hs : s.Inv) (he : s.env[x.toNat]? = some e)
    (hi : exec i s = .next (s.modEnv x g)) (hg : g e = { e with start := e.value, elapsed := 0, stage := a }) :
    Writes i s [((3, x.toNat, 0), BitVec.ofNat 32 (stageCode a)), ((3, x.toNat, 2), 0#32), ((3, x.toNat, 3), e.value)]
      (derivedFrom x.toNat) :=
  writes_envFields hs he hi [(0, BitVec.ofNat 32 (stageCode a)), (2, 0#32), (3, e.value)] (by rw [hg]; rfl)
    (by simp [hg, envFields]) (.inl rfl)

end

/-- Settles O49: `writes_stageStart` where the command acts, `modEnv_of_eq` where it does not. -/
theorem envelopeStageCommands : Obligations.EnvelopeStageCommands := by
  unfold Obligations.EnvelopeStageCommands
  intro s x e hs he
  have hx := decide_eq_true (hs.env_lt he)
  have hrelease := execEnvRelease_next x (s := s) hx
  have hstop := execEnvStop_next x (s := s) hx
  refine ⟨writes_stageStart hs he (execEnvTrigger_next x hx) (a := .attack) rfl, ?_, ?_⟩
  · simp only [← held_iff]
    split
    · next h => exact writes_stageStart hs he hrelease (a := .release) (by rw [envReleased_eq, if_pos h])
    · next h => rw [hrelease, modEnv_of_eq he (by rw [envReleased_eq, if_neg h])]
  · simp only [← not_sounding_iff, ite_not]
    split
    · next h => exact writes_stageStart hs he hstop (a := .shutdown) (by rw [envStopped_eq, if_pos h])
    · next h => rw [hstop, modEnv_of_eq he (by rw [envStopped_eq, if_neg h])]

/-- Settles O48: `writes_envFields`, each setter setting one register, a time its length and slope too. -/
theorem envelopeSetters : Obligations.EnvelopeSetters := by
  unfold Obligations.EnvelopeSetters
  intro s x y d hs hx
  obtain ⟨e, he⟩ := hs.exists_env hx
  have legal {b : Bool} (hb : b = true) : (decide (x.toNat < s.cfg.nEnv) && b) = true := by simp [hx, hb]
  refine ⟨fun h2 h8 => ?_, fun hd => ?_⟩
  · have hy : curveLegal y = true := by simp [curveLegal, h2, h8]
    exact writes_envFields hs he (execEnvSetCurve_next x y (legal hy)) [(8, y.setWidth 32)] (by simp [envFields])
      (by simp [envFields]) (.inr rfl)
  · have hn : acceptsClamped d = true := by rw [acceptsClamped, hd]; rfl
    let time := clamp d Const.timeMin Const.timeMax
    let len := envLen time s.fs
    refine ⟨?_, ?_, ?_, ?_, ?_⟩
    · exact writes_envFields hs he (execEnvSetAttack_next x d (legal hn))
        [(4, time), (11, BitVec.ofNat 32 len), (15, envSlope len)] rfl (by simp [envFields, envLenA, time, len]) (.inr rfl)
    · exact writes_envFields hs he (execEnvSetDecay_next x d (legal hn))
        [(5, time), (12, BitVec.ofNat 32 len), (16, envSlope len)] rfl (by simp [envFields, envLenD, time, len]) (.inr rfl)
    · exact writes_envFields hs he (execEnvSetRelease_next x d (legal hn))
        [(7, time), (13, BitVec.ofNat 32 len), (17, envSlope len)] rfl (by simp [envFields, envLenR, time, len]) (.inr rfl)
    · exact writes_envFields hs he (execEnvSetSustain_next x d (legal hn)) [(6, clamp d Const.levelMin Const.levelMax)]
        rfl (by simp [envFields]) (.inr rfl)
    · exact writes_envFields hs he (execEnvSetVelsens_next x d (legal hn)) [(9, clamp d Const.levelMin Const.levelMax)]
        rfl (by simp [envFields]) (.inr rfl)

/-! ### The stage machine (R350) -/

section
variable (k : Nat) (a b : Stage)

theorem stageAfter_setSampleRate (d : Word) : stageAfter (.setSampleRate d) k a b = (b == a || b == .idle) := rfl

theorem stageAfter_noteOn (note vel : Byte) (d : Word) :
    stageAfter (.noteOn note vel d) k a b = (b == a || b == .attack) := rfl

theorem stageAfter_noteOff : stageAfter .noteOff k a b = (b == a && !held a || held a && b == .release) := rfl

theorem stageAfter_voiceStop : stageAfter .voiceStop k a b = (b == a && !sounding a || sounding a && b == .shutdown) := by
  cases a <;> rfl

theorem stageAfter_envTrigger (x : Byte) :
    stageAfter (.envTrigger x) k a b = (b == a || x.toNat == k && b == .attack) := rfl

theorem stageAfter_envRelease (x : Byte) :
    stageAfter (.envRelease x) k a b = (b == a || x.toNat == k && (held a && b == .release)) := rfl

theorem stageAfter_envStop (x : Byte) :
    stageAfter (.envStop x) k a b = (b == a || x.toNat == k && (sounding a && b == .shutdown)) := rfl

end

/-- Every envelope there before and after went along a change of stage that `R` allows at its index. -/
def StagesFollow (R : Nat → Stage → Stage → Bool) (s t : State) : Prop :=
  ∀ (k : Nat) (e e' : Env), s.env[k]? = some e → t.env[k]? = some e' → R k e.stage e'.stage = true

section
variable {s t : State} {R : Nat → Stage → Stage → Bool}

theorem stages_of_env (hR : ∀ k a, R k a a = true) (h : t.env = s.env) : StagesFollow R s t := by
  intro k e e' he he'
  obtain rfl := Option.some.inj (he.symm.trans (h ▸ he'))
  exact hR k e.stage

theorem stages_of_map {g : Env → Env} (hg : ∀ k e, R k e.stage (g e).stage = true) (h : t.env = s.env.map g) :
    StagesFollow R s t := by
  intro k e e' he he'
  rw [h, List.getElem?_map, he] at he'
  obtain rfl := Option.some.inj he'
  exact hg k e

theorem stages_modEnv {x : Byte} {g : Env → Env} (hR : ∀ k a, R k a a = true)
    (hg : ∀ e, R x.toNat e.stage (g e).stage = true) : StagesFollow R s (s.modEnv x g) := by
  intro k e e' he he'
  rw [State.modEnv_env, List.getElem?_modify, he] at he'
  obtain rfl := Option.some.inj he'
  by_cases hk : x.toNat = k
  · subst hk; simpa using hg e
  · simpa [hk] using hR k e.stage

theorem next_stages {u : State} (h : (.next u : Result) = .next t) (hu : StagesFollow R s u) : StagesFollow R s t := by
  cases h
  exact hu

/-- A checked command whose event, which touches no envelope, `R` allows. -/
theorem checked_stages {i : Instr} {cs : List (Option Event)} {eff : State} (h : s.checked i cs eff = .next t)
    (hR : ∀ k a, R k a a = true) (he : StagesFollow R s eff) : StagesFollow R s t := by
  obtain ⟨-, rfl⟩ | ⟨ev, -, rfl⟩ := checked_cases h
  · exact he
  · exact stages_of_env hR (State.raise_env _ _ _)

theorem checked_modEnv_stages {i : Instr} {cs : List (Option Event)} {x : Byte} {g : Env → Env}
    (h : s.checked i cs (s.modEnv x g) = .next t) (hR : ∀ k a, R k a a = true)
    (hg : ∀ e, R x.toNat e.stage (g e).stage = true) : StagesFollow R s t :=
  checked_stages h hR (stages_modEnv hR hg)

theorem stageForward_refl (a : Stage) : stageForward a a = true := by cases a <;> rfl

theorem stageForward_trans {a b c : Stage} (h : stageForward a b = true) (h' : stageForward b c = true) :
    stageForward a c = true := by
  cases a with
  | idle | sustain => exact beq_iff_eq.1 h ▸ h'
  | attack | decay | release | shutdown => cases b <;> cases c <;> trivial

theorem TimedStage.forward {e : Env} {len : Nat} {τ : F32} {next : Stage} (h : TimedStage e len τ next) :
    stageForward e.stage next = true := by
  cases h with
  | attack h | decay h | release h | shutdown h => rw [h]; rfl

/-- A step stays in the stage or completes a timed one. -/
theorem envStep_forward (e : Env) : stageForward e.stage (envStep e).stage = true := by
  have timed {len : Nat} {τ : F32} {next : Stage} (h : TimedStage e len τ next) :
      stageForward e.stage (envStep e).stage = true := by
    rcases Nat.lt_or_ge (e.elapsed + 1) len with hlt | hge
    · obtain ⟨v, hv⟩ := envStep_running h hlt
      rw [hv]
      exact stageForward_refl _
    · rw [envStep_last h hge]
      exact h.forward
  cases h : e.stage with
  | attack => exact h ▸ timed (.attack h)
  | decay => exact h ▸ timed (.decay h)
  | release => exact h ▸ timed (.release h)
  | shutdown => exact h ▸ timed (.shutdown h)
  | sustain => rw [envStep_sustain h, h]; rfl
  | idle => rw [envStep_idle h, h]; rfl

theorem iterate_envStep_forward (n : Nat) (e : Env) : stageForward e.stage (envStep^[n] e).stage = true := by
  induction n with
  | zero => exact stageForward_refl _
  | succ n ih =>
    rw [Function.iterate_succ_apply']
    exact stageForward_trans ih (envStep_forward _)

/-- A sample steps every envelope once (45_voice.md R472). -/
theorem sample_env (s : State) : s.sample.env = s.env.map envStep := by
  simp [State.sample, State.finish, State.render]

theorem samples_env (n : Nat) (s : State) : (State.samples n s).env = s.env.map envStep^[n] := by
  induction n generalizing s with
  | zero => exact (List.map_id _).symm
  | succ n ih => rw [State.samples, ih, sample_env, List.map_map]; rfl

theorem blockStart_env (s : State) : s.blockStart.env = s.env := rfl

/-- PROCESS runs the envelopes on, and a reclaim sets Idle (R470, R474). -/
theorem processed_stages (n : Nat) : StagesFollow (fun _ a b => stageForward a b || b == .idle) s (s.processed n) := by
  unfold State.processed State.reclaim
  split
  · exact stages_of_env (by simp [stageForward_refl]) rfl
  · split
    · refine stages_of_map (g := envZeroed ∘ envStep^[n]) (fun _ _ => by simp [envZeroed]) ?_
      rw [State.silence_env, samples_env, blockStart_env, List.map_map]
    · exact stages_of_map (g := envStep^[n]) (by simp [iterate_envStep_forward]) (by rw [samples_env, blockStart_env])

theorem read_env_unchanged {cls idx fld : Byte} (h : execRead cls idx fld s = .next t) : t.env = s.env := by
  unfold execRead at h
  split at h <;> cases h
  · rfl
  · exact State.raise_env _ _ _

theorem reset_stages : StagesFollow (stageAfter .reset) s s.fullReset := by
  intro k e e' _ he'
  obtain ⟨-, rfl⟩ := List.mem_replicate.1 (List.mem_of_getElem? he')
  rfl

theorem withSampleRate_stages (d : Word) : StagesFollow (stageAfter (.setSampleRate d)) s (s.withSampleRate d) :=
  stages_of_map (g := envLens (clamp d Const.fsMin Const.fsMax) ∘ envZeroed)
    (fun k e => (stageAfter_setSampleRate k e.stage .idle d).trans (Bool.or_true _)) List.map_map

/-- After every command each envelope is in a stage the table allows. -/
theorem exec_stages (i : Instr) (h : exec i s = .next t) : StagesFollow (stageAfter i) s t :=
  match i with
  | .nop | .seedPrng _ | .clearStatus => next_stages h (stages_of_env (fun _ _ => beq_self_eq_true _) rfl)
  | .read _ _ _ => stages_of_env (fun _ _ => beq_self_eq_true _) (read_env_unchanged h)
  | .reset => next_stages h reset_stages
  | .setSampleRate d => checked_stages h (by simp [stageAfter_setSampleRate]) (withSampleRate_stages d)
  | .noteOn _ vel _ => checked_stages h (by simp [stageAfter_noteOn])
      (stages_of_map (g := envNoteOn vel) (by simp [stageAfter_noteOn, envNoteOn, envTriggered]) rfl)
  | .noteOff => next_stages h (stages_of_map (fun _ e => by
      rw [stageAfter_noteOff, envReleased_stage]; cases held e.stage <;> simp) rfl)
  | .voiceStop => next_stages h (stages_of_map (fun _ e => by
      rw [stageAfter_voiceStop, envStopped_stage]; cases sounding e.stage <;> simp) rfl)
  | .voiceKill => next_stages h (stages_of_map (fun _ _ => rfl) rfl)
  | .process _ => next_stages h (processed_stages _)
  | .envTrigger _ => checked_modEnv_stages h (by simp [stageAfter_envTrigger])
      (by simp [stageAfter_envTrigger, envTriggered])
  | .envRelease _ => checked_modEnv_stages h (by simp [stageAfter_envRelease]) fun e => by
      rw [stageAfter_envRelease, envReleased_stage]; cases held e.stage <;> simp
  | .envStop _ => checked_modEnv_stages h (by simp [stageAfter_envStop]) fun e => by
      rw [stageAfter_envStop, envStopped_stage]; cases sounding e.stage <;> simp
  | .envSetAttack _ _ | .envSetDecay _ _ | .envSetSustain _ _ | .envSetRelease _ _ | .envSetCurve _ _
  | .envSetVelsens _ _ => checked_modEnv_stages h (fun _ _ => beq_self_eq_true _) fun _ => beq_self_eq_true _
  | .setTempo _ | .setPressure _
  | .oscSetWave _ _ | .oscSetFreq _ _ | .oscSetPhase _ _ | .oscSetDetune _ _ | .oscSetPw _ _ | .oscSetMix _ _
  | .oscCustWrite _ _ _ | .oscCustCommit _ _
  | .fltSetType _ _ | .fltSetCutoff _ _ | .fltSetRes _ _ | .fltSetGain _ _ | .fltSetEnable _ _ | .fltReset _
  | .lfoSetWave _ _ | .lfoSetFreq _ _ | .lfoSetMode _ _ | .lfoSetDiv _ _ | .lfoSetDepth _ _ | .lfoSetInvert _ _
  | .lfoSetRetrig _ _ | .lfoSetPw _ _ | .lfoSetPhase _ _ | .lfoTrigger _
  | .routeSet _ _ _ _ | .routeClear _ => checked_stages h (fun _ _ => beq_self_eq_true _)
      (stages_of_env (fun _ _ => beq_self_eq_true _) rfl)

end

/-- Settles O52: `exec_stages`. -/
theorem stageTransitions : Obligations.StageTransitions := fun i _ _ h => exec_stages i h

end Sys2Proof.Machine

namespace Sys2Proof.F32
open Machine

/-! ### Sums near 1 -/

/-- A magnitude below 2^25 times `2 ^ b` is rounded by at most `2 ^ b`. -/
theorem roundMag_near_of_lt (t : Bool) {b z : Nat} (hb : b ≤ 175) (h : z < 2 ^ (b + 25)) :
    mag (ofMag t (roundMag z 1)) ≤ z + 2 ^ b ∧ z ≤ mag (ofMag t (roundMag z 1)) + 2 ^ b := by
  have hlog : Nat.log2 z ≤ b + 24 := by
    rcases Nat.eq_zero_or_pos z with rfl | hz
    · simp
    · exact Nat.lt_succ_iff.1 ((Nat.log2_lt hz.ne').2 h)
  have hn := roundHalfEven_near (n := z) (d := 1 <<< (Nat.log2 (z / 1) - 23)) (by rw [Nat.shiftLeft_eq]; positivity)
  rw [mag_roundMag t (by rw [Nat.div_one]; exact h.trans_le (Nat.pow_le_pow_right Nat.two_pos (by omega)))]
  simp only [Nat.shiftLeft_eq, one_mul, Nat.div_one] at hn ⊢
  have unit : 2 ^ (Nat.log2 z - 23) ≤ 2 ^ (b + 1) := Nat.pow_le_pow_right Nat.two_pos (by omega)
  rw [pow_succ] at unit
  omega

/-- 1 ⊖ v is within half of the unit below 1 of the exact difference. -/
theorem one_sub_near {v : F32} (hv : inRange posZero one v = true) :
    toInt (sub one v) ≤ 2 ^ 149 - toInt v + 2 ^ 124 ∧ 2 ^ 149 - toInt v ≤ toInt (sub one v) + 2 ^ 124 := by
  obtain ⟨-, h0, h1⟩ := (unit_iff v).1 hv
  have hneg : isFinite (neg v) = true := (isFinite_neg v).trans (unit_finite hv)
  have hz : toInt one + toInt (neg v) = 2 ^ 149 - toInt v := by rw [toInt_neg, toInt_one, sub_eq_add_neg]
  rcases h0.eq_or_lt with hv0 | hpos
  · have hone : inRange one one (sub one v) = true :=
      sub_between (by decide) (unit_finite hv) (by decide) (by decide) (by rw [← hv0]; simp) (by rw [← hv0]; simp)
    rw [(exact_of_inRange (by decide) hone).2, toInt_one, ← hv0]
    norm_num
  · rcases h1.eq_or_lt with hv1 | hlt
    · rw [sub, toInt_add_of_zero (by decide) hneg (by rw [hz, hv1]; norm_num), hv1]
      norm_num
    · rw [sub, add_of_finite (by decide) hneg, hz, if_neg (by omega), toInt_roundInt, if_neg (by omega)]
      have hn := roundMag_near_of_lt (decide (2 ^ 149 - toInt v < 0)) (b := 124) (z := (2 ^ 149 - toInt v).natAbs)
        (by norm_num) (by omega)
      omega

/-- A magnitude within half of the unit below 1 of 1 rounds to 1. -/
theorem roundMag_eq_one {n : Nat} (h1 : 2 ^ 149 ≤ n + 2 ^ 124) (h2 : n ≤ 2 ^ 149 + 2 ^ 124) :
    roundMag n 1 = 0x3F800000 := by
  obtain ⟨hr, nearest⟩ := nearestEven_roundMag n Nat.one_pos
  by_contra hne
  have hone : magOfPattern 0x3F800000 = 2 ^ 149 := by decide
  have hn := nearest 0x3F800000 (by norm_num) (Ne.symm hne)
  rw [hone] at hn
  rcases Nat.lt_or_gt_of_ne hne with hlt | hgt
  · have hpred : magOfPattern 0x3F7FFFFF = 2 ^ 149 - 2 ^ 125 := by decide
    have hmag := magOfPattern_le (by norm_num) (Nat.le_pred_of_lt hlt)
    rw [Nat.pred_eq_sub_one, hpred] at hmag
    rcases hn with hn | ⟨hn, heven⟩
    · omega
    · -- a tie with the pattern below 1, which is odd
      have hr' : magOfPattern (roundMag n 1) = magOfPattern 0x3F7FFFFF := by omega
      have heq : roundMag n 1 = 0x3F7FFFFF := by
        rw [← roundMag_magOfPattern hr, hr', roundMag_magOfPattern (by norm_num)]
      omega
  · have hsucc : magOfPattern 0x3F800001 = 2 ^ 149 + 2 ^ 126 := by decide
    have hmag := magOfPattern_le hr (Nat.succ_le_of_lt hgt)
    rw [hsucc] at hmag
    omega

/-- A sum within half of the unit below 1 of 1 is 1. -/
theorem add_eq_one {a b : F32} (ha : isFinite a = true) (hb : isFinite b = true)
    (h1 : 2 ^ 149 ≤ toInt a + toInt b + 2 ^ 124) (h2 : toInt a + toInt b ≤ 2 ^ 149 + 2 ^ 124) : add a b = one := by
  rw [add_of_finite ha hb, if_neg (by omega), roundInt, roundMag_eq_one (by omega) (by omega), decide_eq_false (by omega)]
  rfl

end Sys2Proof.F32

namespace Sys2Proof.Machine
open F32

/-! ### Full velocity (R354, R363) -/

/-- The velocity multiplier is 1.0 where the product VELSENS ⊗ v is VELSENS. -/
theorem envVm_eq_one {v : F32} {vel : Byte} (hv : inRange posZero one v = true) (hvel : vel.toNat ≤ 127)
    (h : toInt v * toInt (midiFraction vel) = toInt v * 2 ^ 149) : envVm v vel = one := by
  have hr := unit_finite (midiFraction_unit (decide_eq_true hvel))
  have hn := ((isFinite_iff v).1 (unit_finite hv)).1
  have product : inRange v v (mul v (midiFraction vel)) = true :=
    mul_between (unit_finite hv) hr hn hn (by rw [h]; rfl) (by rw [h]; rfl)
  obtain ⟨hfin, hprod⟩ := exact_of_inRange (unit_finite hv) product
  obtain ⟨hle, hge⟩ := one_sub_near hv
  change add (sub one v) (mul v (midiFraction vel)) = one
  exact add_eq_one (unit_finite (one_sub_unit hv)) hfin (by rw [hprod]; omega) (by rw [hprod]; omega)

/-- Settles O53: `envVm_eq_one`, the fraction 127/127 being 1.0. -/
theorem fullVelocityIsOne : Obligations.FullVelocityIsOne := by
  unfold Obligations.FullVelocityIsOne
  intro v vel hv hvel
  refine ⟨fun h => envVm_eq_one hv hvel ?_, fun h => envVm_eq_one hv hvel ?_⟩
  · have hone : toInt (midiFraction 127#8) = 2 ^ 149 := by decide +kernel
    rw [h, hone]
  · rw [h, zero_mul, zero_mul]

end Sys2Proof.Machine

/-! PROOFS. The LFOs' commands (44_lfo.md R430 to R439): each writes one register of its LFO (O54). -/

namespace Sys2Proof.Machine
open F32

/-! ### Writes to an LFO's registers -/

section
variable {s : State} {x : Byte} {l : Lfo}

theorem State.Inv.lfo_lt (h : s.Inv) (hl : s.lfo[x.toNat]? = some l) : x.toNat < s.cfg.nLfo :=
  h.lfoCount ▸ (List.getElem?_eq_some_iff.1 hl).1

/-- A command that sets the one field `k` of LFO x writes this register and nothing else. -/
theorem writes_lfoField {i : Instr} {g : Lfo → Lfo} (hs : s.Inv) (hl : s.lfo[x.toNat]? = some l)
    (he : exec i s = .next (s.modLfo x g)) {k : Nat} {v : Word} (hset : lfoFields (g l) = (lfoFields l).set k v)
    (hk : k < 12 := by decide) : Writes i s [((4, x.toNat, k), v)] [] := by
  refine writes_modLfo hs.sized he hl ?_ fun f hf => ?_
  · rw [List.forall_mem_singleton, hset]
    exact ⟨rfl, rfl, List.getElem?_set_self hk⟩
  · have hne : k ≠ f := fun h => hf _ List.mem_cons_self (by rw [h])
    rw [hset, List.getElem?_set_ne hne]

/-- A trigger sets PHASE: to 0 under RETRIG, else to what it is (R405). -/
theorem lfoFields_lfoTriggered (l : Lfo) :
    lfoFields (lfoTriggered l) = (lfoFields l).set 8 (if l.retrig then posZero else l.phase) := by
  unfold lfoTriggered
  split <;> rfl

end

/-! ### The codes of R430 and R432 -/

theorem lfoWaveOf_code : ∀ y : Byte, y.toNat ≤ 4 →
    (lfoWaveOf y).map (fun w => BitVec.ofNat 32 (lfoWaveCode w)) = some (y.setWidth 32) := by decide

theorem lfoModeOf_code : ∀ y : Byte, y.toNat ≤ 2 →
    (lfoModeOf y).map (fun m => BitVec.ofNat 32 (lfoModeCode m)) = some (y.setWidth 32) := by decide

/-- Settles O54: `writes_lfoField`, each setter setting one field, the code of an operand that names a kind being the operand;
`lfoFields_lfoTriggered` for the trigger. -/
theorem lfoCommands : Obligations.LfoCommands := by
  unfold Obligations.LfoCommands
  intro s x y d l hs hl
  have hx := hs.lfo_lt hl
  have legal {b : Bool} (hb : b = true) : (decide (x.toNat < s.cfg.nLfo) && b) = true := by simp [hx, hb]
  refine ⟨fun hy => ?_, fun hy => ?_, fun hy => ?_, fun hy => ?_, fun hd => ?_, fun hd => ?_, ?_⟩
  · obtain ⟨w, hw, hc⟩ := Option.map_eq_some_iff.1 (lfoWaveOf_code y hy)
    exact writes_lfoField hs hl (execLfoSetWave_next x y (legal (by rw [hw]; rfl))) (by simp [lfoFields, hw, hc])
  · obtain ⟨m, hm, hc⟩ := Option.map_eq_some_iff.1 (lfoModeOf_code y hy)
    exact writes_lfoField hs hl (execLfoSetMode_next x y (legal (by rw [hm]; rfl))) (by simp [lfoFields, hm, hc])
  · exact writes_lfoField hs hl (execLfoSetDiv_next x y (legal (decide_eq_true hy))) (by simp [lfoFields])
  · obtain ⟨b, hb, hc⟩ := Option.map_eq_some_iff.1 (bitOf_code y hy)
    have bit := legal (b := (bitOf y).isSome) (by rw [hb]; rfl)
    exact ⟨writes_lfoField hs hl (execLfoSetInvert_next x y bit) (by simp [lfoFields, hb, hc]),
      writes_lfoField hs hl (execLfoSetRetrig_next x y bit) (by simp [lfoFields, hb, hc])⟩
  · have number := legal (b := acceptsClamped d) (by rw [acceptsClamped, hd]; rfl)
    exact ⟨writes_lfoField hs hl (execLfoSetFreq_next x d number) rfl,
      writes_lfoField hs hl (execLfoSetDepth_next x d number) rfl,
      writes_lfoField hs hl (execLfoSetPw_next x d number) rfl⟩
  · exact writes_lfoField hs hl (execLfoSetPhase_next x d (legal hd)) rfl
  · exact writes_lfoField hs hl (execLfoTrigger_next x (decide_eq_true hx)) (lfoFields_lfoTriggered l)

end Sys2Proof.Machine

/-! PROOFS. The voice commands (45_voice.md) but PROCESS: NOTE_ON (O30), NOTE_OFF and VOICE_STOP (O31), VOICE_KILL and
SET_PRESSURE (O32), and the routing commands (O55). -/

namespace Sys2Proof.Machine
open F32

/-! ### Registers that stay, class by class -/

/-- Outside the fields `ch i` of unit i the two banks read alike. -/
def SameBank {α : Type} (fields : α → List Word) (ch : Nat → Nat → Bool) (us us' : List α) : Prop :=
  ∀ i f, ch i f = false → (us'[i]?.bind fun u => (fields u)[f]?) = us[i]?.bind fun u => (fields u)[f]?

section
variable {α : Type} {fields : α → List Word} {ch : Nat → Nat → Bool} {us us' : List α}

theorem SameBank.of_units {g : Nat → α → α} (hg : ∀ i, us'[i]? = us[i]?.map (g i))
    (h : ∀ i u f, ch i f = false → (fields (g i u))[f]? = (fields u)[f]?) : SameBank fields ch us us' := by
  intro i f hf
  rw [hg]
  cases us[i]? with
  | none => rfl
  | some u => exact h i u f hf

theorem SameBank.map {g : α → α} (h : ∀ i u f, ch i f = false → (fields (g u))[f]? = (fields u)[f]?) :
    SameBank fields ch us (us.map g) :=
  .of_units (fun _ => List.getElem?_map) h

theorem SameBank.mapIdx {g : Nat → α → α} (h : ∀ i u f, ch i f = false → (fields (g i u))[f]? = (fields u)[f]?) :
    SameBank fields ch us (us.mapIdx g) :=
  .of_units (fun _ => List.getElem?_mapIdx) h

theorem SameBank.value (h : SameBank fields ch us us') {i f : Nat} (hf : ch i f = false) :
    (fieldsOf fields us' i).getD f 0#32 = (fieldsOf fields us i).getD f 0#32 := by
  have bank (vs : List α) : (fieldsOf fields vs i).getD f 0#32 = (vs[i]?.bind fun u => (fields u)[f]?).getD 0#32 := by
    rw [List.getD_eq_getElem?_getD, fieldsOf]
    cases vs[i]? <;> rfl
  rw [bank, bank, h i f hf]

end

/-- Setting listed fields leaves every field outside `ch`, where `ch` has the listed ones. -/
theorem getElem?_of_sets {l l' : List Word} {ch : Nat → Bool} (ws : List (Nat × Word))
    (h : l' = ws.foldr (fun w l => l.set w.1 w.2) l) (hc : ∀ w ∈ ws, ch w.1 = true) (f : Nat) (hf : ch f = false) :
    l'[f]? = l[f]? := by
  rw [h, getElem?_foldr_set l f ws]
  rintro w hw rfl
  exact absurd (hc w hw) (by simp [hf])

section
variable {s t : State} {changed : Address → Bool}

theorem readRegister_of_value (hc : t.cfg = s.cfg) {c i f : Nat} (h : t.registerValue c i f = s.registerValue c i f) :
    t.readRegister c i f = s.readRegister c i f := by
  rw [State.readRegister, State.readRegister, hc, h]

/-- Registers stay outside `changed` where each class of them does. -/
theorem sameRegisters_of_banks (hc : t.cfg = s.cfg)
    (global : ∀ f, changed (0, 0, f) = false → t.globalFields[f]? = s.globalFields[f]? := by exact fun _ _ => rfl)
    (osc : SameBank oscFields (fun i f => changed (1, i, f)) s.osc t.osc := by exact fun _ _ _ => rfl)
    (flt : SameBank fltFields (fun i f => changed (2, i, f)) s.flt t.flt := by exact fun _ _ _ => rfl)
    (env : SameBank envFields (fun i f => changed (3, i, f)) s.env t.env := by exact fun _ _ _ => rfl)
    (lfo : SameBank lfoFields (fun i f => changed (4, i, f)) s.lfo t.lfo := by exact fun _ _ _ => rfl)
    (route : t.route = s.route := by rfl)
    (voice : ∀ f, changed (6, 0, f) = false → t.voiceFields[f]? = s.voiceFields[f]? := by exact fun _ _ => rfl)
    (acc : ∀ i f, changed (7, i, f) = false → t.acc = s.acc := by exact fun _ _ _ => rfl) :
    SameRegisters changed s t := by
  intro c i f hf
  match c with
  | 0 =>
    rw [readRegister_global, readRegister_global]
    split
    · next hi => exact global f (hi ▸ hf)
    · rfl
  | 1 => exact readRegister_of_value hc (osc.value hf)
  | 2 => exact readRegister_of_value hc (flt.value hf)
  | 3 => exact readRegister_of_value hc (env.value hf)
  | 4 => exact readRegister_of_value hc (lfo.value hf)
  | 5 => exact readRegister_of_value hc (by rw [State.registerValue, State.registerValue, route])
  | 6 =>
    rw [readRegister_voice, readRegister_voice]
    split
    · next hi => exact voice f (hi ▸ hf)
    · rfl
  | 7 => exact readRegister_of_value hc (congrArg (accGet · i f) (acc i f hf))
  | _ + 8 => rw [readRegister_high _ _ _ _ (by omega), readRegister_high _ _ _ _ (by omega)]

end

/-! ### The amplitude envelope (R39, R364) -/

section
variable {s : State} {e : Env}

theorem State.Inv.exists_ampEnv (h : s.Inv) : ∃ e, s.env[0]? = some e := by
  have hc := h.cfg
  simp only [Config.legal, Bool.and_eq_true, decide_eq_true_eq] at hc
  exact h.exists_env (x := 0#8) (show 0 < s.cfg.nEnv by omega)

theorem ampEnv_eq (he : s.env[0]? = some e) : s.ampEnv = e := by
  rw [State.ampEnv, List.getD_eq_getElem?_getD, he, Option.getD_some]

/-- A voice is free exactly when its amplitude envelope is Idle. -/
theorem active_eq_false_iff (he : s.env[0]? = some e) : s.active = false ↔ e.stage = .idle := by
  simp [State.active, envActive, ampEnv_eq he]

end

/-! ### NOTE_ON (R451, R452) -/

section
variable {s : State} {note vel : Byte} {d : Word}

theorem noteOn_sized (h : s.Sized) : (s.noteOn note vel d).Sized where
  osc := (List.length_map _).trans h.osc
  flt := h.flt
  env := (List.length_map _).trans h.env
  lfo := (List.length_map _).trans h.lfo
  route := h.route

theorem lfoNoteOn_eq (l : Lfo) :
    lfoNoteOn l = { l with phase := if l.retrig = true ∨ l.mode = .keySync then posZero else l.phase } := by
  unfold lfoNoteOn
  by_cases h : l.retrig = true ∨ l.mode = .keySync
  · simp [h]
  · simp [h]

end

/-- Settles O30: each unit's register list after its note start; the registers outside it class by class. -/
theorem noteOn : Obligations.NoteOn := by
  unfold Obligations.NoteOn
  intro s note vel d hs hn hv hd
  obtain ⟨e₀, he₀⟩ := hs.exists_ampEnv
  have wf : (Instr.noteOn note vel d).wellFormed s.cfg = true := by
    simp [Instr.wellFormed, midiLegal, acceptsClamped, hn, hv, hd]
  have hz := noteOn_sized (note := note) (vel := vel) (d := d) hs.sized
  have free : (s.env[0]?).map Env.stage = some .idle ↔ (!s.active) = true := by
    simp [he₀, active_eq_false_iff he₀]
  have frame : SameElse s (s.noteOn note vel d) :=
    ⟨(noteOn_still note vel d).sameTables, ⟨rfl, rfl, rfl, rfl⟩, rfl, rfl, rfl, rfl⟩
  refine ⟨_, execNoteOn_next note vel d wf, frame, rfl, rfl, rfl, fun i o ho => ?_, fun k e he => ?_, fun l o ho => ?_, ?_⟩
  · have ho' : (s.noteOn note vel d).osc[i]? = some (oscNoteOn (noteFreq note d) (!s.active) o) := by
      simp [State.noteOn, ho]
    simp only [free]
    exact ⟨read_osc hz ho' 1, read_osc hz ho' 2⟩
  · have he' : (s.noteOn note vel d).env[k]? = some (envNoteOn vel e) := by simp [State.noteOn, he]
    exact ⟨read_env hz he' 10, read_env hz he' 0, read_env hz he' 2, read_env hz he' 3⟩
  · have ho' : (s.noteOn note vel d).lfo[l]? = some (lfoNoteOn o) := by simp [State.noteOn, ho]
    rw [lfoNoteOn_eq] at ho'
    exact read_lfo hz ho' 8
  · refine sameRegisters_of_banks rfl (osc := .map fun i o => ?_) (env := .map fun k e => ?_) (lfo := .map fun l o => ?_)
      (global := getElem?_of_sets [(4, (s.noteOn note vel d).status)] rfl (by simp))
      (voice := getElem?_of_sets [(0, _), (1, _), (2, _), (3, _)] rfl (by simp))
    · exact getElem?_of_sets [(1, noteFreq note d), (2, if !s.active then o.ph0 else o.phase)] rfl (by simp)
    · exact getElem?_of_sets [(0, 1#32), (2, 0#32), (3, e.value), (10, envVm e.velsens vel)] rfl (by simp)
    · rw [lfoNoteOn_eq]
      exact getElem?_of_sets [(8, _)] rfl (by simp)

/-! ### Commands to every envelope (R453, R454, R455) -/

/-- Nothing happens to an envelope, or a stage other than Idle begins in one that is not Idle. -/
def StartsStage (e e' : Env) : Prop :=
  e' = e ∨ ∃ a, e.stage ≠ .idle ∧ a ≠ .idle ∧ e' = { e with start := e.value, elapsed := 0, stage := a }

theorem envReleased_starts (e : Env) : StartsStage e (envReleased e) := by
  rw [envReleased_eq]
  split
  · next h => exact .inr ⟨.release, fun hi => by simp [hi, held] at h, by decide, rfl⟩
  · exact .inl rfl

theorem envStopped_starts (e : Env) : StartsStage e (envStopped e) := by
  rw [envStopped_eq]
  split
  · next h => exact .inr ⟨.shutdown, fun hi => by simp [hi, sounding] at h, by decide, rfl⟩
  · exact .inl rfl

theorem envReleased_envReleased (e : Env) : envReleased (envReleased e) = envReleased e := by
  rw [envReleased_eq (envReleased e), if_neg]
  rw [envReleased_stage]
  split
  · decide
  · assumption

theorem envStopped_envStopped (e : Env) : envStopped (envStopped e) = envStopped e := by
  rw [envStopped_eq (envStopped e), if_neg]
  rw [envStopped_stage]
  split
  · decide
  · assumption

/-- Every envelope rewritten by `g`. -/
def State.mapEnv (s : State) (g : Env → Env) : State := { s with env := s.env.map g }

theorem execNoteOff_next (s : State) : exec .noteOff s = .next (s.mapEnv envReleased) := rfl

theorem execVoiceStop_next (s : State) : exec .voiceStop s = .next (s.mapEnv envStopped) := rfl

section
variable {s : State} {g : Env → Env}

theorem mapEnv_sized (h : s.Sized) : (s.mapEnv g).Sized := { h with env := (List.length_map _).trans h.env }

theorem mapEnv_mapEnv (h : ∀ e, g (g e) = g e) : (s.mapEnv g).mapEnv g = s.mapEnv g := by
  have envs : (s.env.map g).map g = s.env.map g := by simp [h]
  exact congrArg (fun es => { s with env := es }) envs

theorem mapEnv_getElem? {k : Nat} {e : Env} (he : s.env[k]? = some e) : (s.mapEnv g).env[k]? = some (g e) := by
  simp [State.mapEnv, he]

theorem sameElse_mapEnv : SameElse s (s.mapEnv g) := ⟨fun _ _ => ⟨rfl, rfl⟩, ⟨rfl, rfl, rfl, rfl⟩, rfl, rfl, rfl, rfl⟩

/-- The registers of an envelope that begins a stage. -/
theorem mapEnv_stage_reads (h : s.Sized) {k : Nat} {e : Env} {a : Stage} (he : s.env[k]? = some e)
    (hg : g e = { e with start := e.value, elapsed := 0, stage := a }) :
    Reads (s.mapEnv g) (3, k, 0) (BitVec.ofNat 32 (stageCode a)) ∧ Reads (s.mapEnv g) (3, k, 2) 0#32 ∧
      Reads (s.mapEnv g) (3, k, 3) e.value := by
  have read := read_env (mapEnv_sized h) (mapEnv_getElem? (g := g) he)
  rw [hg] at read
  exact ⟨read 0, read 2, read 3⟩

/-- Beginning stages other than Idle leaves ACTIVE alone. -/
theorem active_mapEnv (h : ∀ e, StartsStage e (g e)) : (s.mapEnv g).active = s.active := by
  have idle : ∀ e, envActive (g e) = envActive e := by
    intro e
    obtain h | ⟨a, he, ha, h⟩ := h e
    · rw [h]
    · rw [h, envActive, envActive, bne_iff_ne.2 ha, bne_iff_ne.2 he]
  unfold State.active State.ampEnv State.mapEnv
  rw [List.getD_eq_getElem?_getD, List.getD_eq_getElem?_getD, List.getElem?_map]
  cases s.env[0]? with
  | none => rfl
  | some e => exact idle e

/-- Beginning stages other than Idle writes STAGE, ELAPSED and START of the envelopes, and STATUS. -/
theorem mapEnv_sameRegisters (h : ∀ e, StartsStage e (g e)) : SameRegisters
    (fun a => (a.1 == 3 && (a.2.2 == 0 || a.2.2 == 2 || a.2.2 == 3)) || a == (0, 0, 4)) s (s.mapEnv g) := by
  have voice : (s.mapEnv g).voiceFields = s.voiceFields := by
    rw [State.voiceFields, active_mapEnv h]; rfl
  refine sameRegisters_of_banks rfl (env := .map fun k e => ?_) (voice := fun _ _ => by rw [voice])
    (global := getElem?_of_sets [(4, (s.mapEnv g).status)] rfl (by simp))
  obtain h | ⟨a, -, -, h⟩ := h e
  · exact fun _ _ => by rw [h]
  · rw [h]
    exact getElem?_of_sets [(0, BitVec.ofNat 32 (stageCode a)), (2, 0#32), (3, e.value)] rfl (by simp)

theorem silence_sized (h : s.Sized) : s.silence.Sized := { h with env := (List.length_map _).trans h.env }

theorem silence_sameRegisters : SameRegisters
    (fun a => (a.1 == 3 && decide (a.2.2 < 4)) || a == (0, 0, 4) || a == (6, 0, 0) || a == (6, 0, 3)) s s.silence :=
  sameRegisters_of_banks rfl
    (env := .map fun _ _ => getElem?_of_sets [(0, 0#32), (1, posZero), (2, 0#32), (3, posZero)] rfl (by simp))
    (global := getElem?_of_sets [(4, s.silence.status)] rfl (by simp))
    (voice := getElem?_of_sets [(0, 255#32), (3, Word.ofBool s.silence.active)] rfl (by simp))

end

/-- Settles O31: `StartsStage` for both commands. -/
theorem noteOffAndVoiceStop : Obligations.NoteOffAndVoiceStop := by
  unfold Obligations.NoteOffAndVoiceStop
  intro s hs
  refine ⟨⟨_, execNoteOff_next s, ?_, sameElse_mapEnv, fun k e he => ?_, mapEnv_sameRegisters envReleased_starts⟩,
    ⟨_, execVoiceStop_next s, ?_, sameElse_mapEnv, fun k e he => ?_, mapEnv_sameRegisters envStopped_starts⟩⟩
  · rw [execNoteOff_next, mapEnv_mapEnv envReleased_envReleased]
  · have eq := envReleased_eq e
    simp only [← held_iff]
    split at eq
    · next h => rw [if_pos h]; exact mapEnv_stage_reads hs.sized he eq
    · next h => rw [if_neg h, mapEnv_getElem? he, eq]
  · rw [execVoiceStop_next, mapEnv_mapEnv envStopped_envStopped]
  · have eq := envStopped_eq e
    simp only [← not_sounding_iff, ite_not]
    split at eq
    · next h => rw [if_pos h]; exact mapEnv_stage_reads hs.sized he eq
    · next h => rw [if_neg h, mapEnv_getElem? he, eq]

/-- Settles O32: `silence_sameRegisters`; SET_PRESSURE sets one register of the voice. -/
theorem voiceKillAndPressure : Obligations.VoiceKillAndPressure := by
  unfold Obligations.VoiceKillAndPressure
  intro s hs
  obtain ⟨e₀, he₀⟩ := hs.exists_ampEnv
  refine ⟨⟨s.silence, rfl, sameElse_mapEnv (g := envZeroed), rfl, ?_, fun k hk f hf => ?_, silence_sameRegisters⟩,
    fun y hy => ?_⟩
  · have free : s.silence.active = false := (active_eq_false_iff (e := envZeroed e₀) (by simp [he₀])).2 rfl
    exact (read_voice s.silence 3).trans (by simp [State.voiceFields, free, Word.ofBool])
  · have he : s.env[k]? = some _ := List.getElem?_eq_getElem (hs.envCount ▸ hk)
    refine (read_env (silence_sized hs.sized) (mapEnv_getElem? (g := envZeroed) he) f).trans ?_
    interval_cases f <;> rfl
  · refine ⟨_, execSetPressure_next y (decide_eq_true hy), ?_, ?_, fun _ _ => ⟨rfl, rfl⟩, ⟨rfl, rfl, rfl, rfl⟩, rfl, rfl,
      rfl, rfl⟩
    · rw [List.forall_mem_singleton]
      rfl
    · exact sameRegisters_of_banks rfl (voice := getElem?_of_sets [(2, y.setWidth 32)] rfl (by simp))

/-! ### The routing commands (R463, R464) -/

theorem sourceLegal_iff {c : Config} {b : Byte} : sourceLegal c b = true ↔
    (b.toNat / 16 = 0 ∨ b.toNat / 16 = 3 ∨ b.toNat / 16 = 4) ∧ b.toNat % 16 = 0 ∨
      b.toNat / 16 = 1 ∧ b.toNat % 16 < c.nEnv ∨ b.toNat / 16 = 2 ∧ b.toNat % 16 < c.nLfo := by
  unfold sourceLegal packedType packedIndex
  match b.toNat / 16 with
  | 0 | 1 | 2 | 3 | 4 => simp
  | _ + 5 => simp

theorem destLegal_iff {c : Config} {b : Byte} : destLegal c b = true ↔
    (b.toNat / 16 = 0 ∨ b.toNat / 16 = 7) ∧ b.toNat % 16 = 0 ∨
      (b.toNat / 16 = 1 ∨ b.toNat / 16 = 2 ∨ b.toNat / 16 = 3) ∧ b.toNat % 16 < c.nOsc ∨
      (b.toNat / 16 = 4 ∨ b.toNat / 16 = 5 ∨ b.toNat / 16 = 6) ∧ b.toNat % 16 < c.nFlt := by
  unfold destLegal packedType packedIndex
  match b.toNat / 16 with
  | 0 | 1 | 2 | 3 | 4 | 5 | 6 | 7 => simp
  | _ + 8 => simp

/-- A command that rewrites routing slot x writes its three registers and nothing else. -/
theorem writes_route {i : Instr} {s : State} {x : Byte} {r : Route} (hs : s.Inv) (hx : x.toNat < s.cfg.nRoute)
    (he : exec i s = .next (s.modRoute x fun _ => r)) :
    Writes i s [((5, x.toNat, 0), r.src.setWidth 32), ((5, x.toNat, 1), r.dst.setWidth 32), ((5, x.toNat, 2), r.amount)]
      [] := by
  have hr : s.route[x.toNat]? = some _ := List.getElem?_eq_getElem (hs.routeCount ▸ hx)
  have set (v : Route) : routeFields r = [(0, r.src.setWidth 32), (1, r.dst.setWidth 32), (2, r.amount)].foldr
      (fun w l => l.set w.1 w.2) (routeFields v) := rfl
  refine writes_modRoute hs.sized he hr (by simp [routeFields]) fun f hf => ?_
  rw [set, getElem?_foldr_set]
  simpa using hf

/-- Settles O55: `writes_route`. -/
theorem routeCommands : Obligations.RouteCommands := by
  unfold Obligations.RouteCommands
  intro s x y z d hs hx
  refine ⟨fun hd hy hz => writes_route hs hx (execRouteSet_next x y z d ?_),
    writes_route hs hx (execRouteClear_next x (decide_eq_true hx))⟩
  simp [Instr.wellFormed, acceptsClamped, hx, hd, sourceLegal_iff.2 hy, destLegal_iff.2 hz]

end Sys2Proof.Machine

/-! PROOFS. Block start (45_voice.md R471): rates and values, effective parameters, coefficients (O35), and the accumulators
as sums over the routing slots (O36). -/

namespace Sys2Proof.Machine
open F32

/-! ### The LFO bank (44_lfo.md R402, R404) -/

theorem lfoDrawsBefore_cons (l : Lfo) (ls : List Lfo) (n : Nat) :
    lfoDrawsBefore (l :: ls) (n + 1) = lfoDrawsBefore ls n + if l.wave == .noise then 1 else 0 := by
  rw [lfoDrawsBefore, List.take_succ_cons, List.countP_cons]
  rfl

theorem lfoDrawsBefore_effective (fs tempo : F32) (ls : List Lfo) (n : Nat) :
    lfoDrawsBefore (ls.map (lfoEffective fs tempo)) n = lfoDrawsBefore ls n := by
  rw [lfoDrawsBefore, ← List.map_take, List.countP_map]
  rfl

/-- A Noise LFO draws once, the others not at all. -/
theorem lfoWave_prng (tsin : Nat) (l : Lfo) (p : Word) :
    (lfoWave tsin l p).1 = FastMath.prngNext^[if l.wave == .noise then 1 else 0] p := by
  unfold lfoWave
  cases l.wave <;> rfl

theorem lfoBank_prng (tsin : Nat) (ls : List Lfo) (p : Word) :
    (lfoBank tsin ls p).1 = FastMath.prngNext^[lfoDrawsBefore ls ls.length] p := by
  induction ls generalizing p with
  | nil => rfl
  | cons l ls ih =>
    rw [List.length_cons, lfoDrawsBefore_cons, Function.iterate_add_apply, ← lfoWave_prng tsin]
    exact ih _

/-- Each LFO takes its wave after the draws of the LFOs before it. -/
theorem lfoBank_getElem? (tsin : Nat) (ls : List Lfo) (p : Word) (n : Nat) : (lfoBank tsin ls p).2[n]? =
    ls[n]?.map fun l => lfoValue l (lfoWave tsin l (FastMath.prngNext^[lfoDrawsBefore ls n] p)).2 := by
  induction ls generalizing p n with
  | nil => rfl
  | cons l ls ih =>
    cases n with
    | zero => rfl
    | succ n =>
      rw [lfoDrawsBefore_cons, Function.iterate_add_apply, ← lfoWave_prng tsin]
      exact ih _ n

section
variable (s : State)

theorem lfoWave_eq_waveOfLfo (n : Nat) (l : Lfo) :
    (lfoWave s.cfg.tsin (lfoEffective s.fs s.tempo l) (FastMath.prngNext^[lfoDrawsBefore s.lfo n] s.prng)).2 =
      waveOfLfo s n l := by
  obtain ⟨wave⟩ := l
  cases wave <;> rfl

/-! ### What block start leaves, unit by unit (R471) -/

theorem blockStart_prng : s.blockStart.prng = FastMath.prngNext^[lfoDrawsBefore s.lfo s.lfo.length] s.prng := by
  have h := lfoBank_prng s.cfg.tsin (s.lfo.map (lfoEffective s.fs s.tempo)) s.prng
  rwa [lfoDrawsBefore_effective, List.length_map] at h

theorem blockStart_lfo (n : Nat) : s.blockStart.lfo[n]? =
    s.lfo[n]?.map fun l => lfoValue (lfoEffective s.fs s.tempo l) (waveOfLfo s n l) := by
  have h := lfoBank_getElem? s.cfg.tsin (s.lfo.map (lfoEffective s.fs s.tempo)) s.prng n
  rw [lfoDrawsBefore_effective, List.getElem?_map, Option.map_map] at h
  refine h.trans (congrArg (s.lfo[n]?.map ·) (funext fun l => ?_))
  exact congrArg (lfoValue _) (lfoWave_eq_waveOfLfo s n l)

/-- The derivations read the configuration, FS and the accumulators, which they leave alone. -/
theorem blockStart_osc : s.blockStart.osc = s.osc.mapIdx s.blockStart.oscDerive := rfl

theorem blockStart_flt : s.blockStart.flt = s.flt.mapIdx s.blockStart.fltDerive := rfl

theorem blockStart_ampEff :
    s.blockStart.ampEff = clamp (add one s.blockStart.acc.amp) Const.ampMin Const.ampMax := rfl

theorem lfoEffective_eq (fs tempo : F32) (l : Lfo) : lfoEffective fs tempo l =
    let fe := if l.mode = .tempoSync then clamp (mul tempo (Tables.rdiv l.div)) Const.lfoFMin Const.lfoFMax else l.freq
    { l with fEff := fe, inc := div fe fs } := by
  unfold lfoEffective
  cases l.mode <;> rfl

/-- The registers block start may write. -/
theorem blockStart_sameRegisters : SameRegisters (fun a =>
    a == (0, 0, 2) || (a.1 == 1 && decide (8 ≤ a.2.2) && decide (a.2.2 ≤ 12)) ||
    (a.1 == 2 && ((decide (5 ≤ a.2.2) && decide (a.2.2 ≤ 10)) || decide (15 ≤ a.2.2))) ||
    (a.1 == 4 && decide (9 ≤ a.2.2)) || a == (6, 0, 4) || a.1 == 7) s s.blockStart := by
  refine sameRegisters_of_banks rfl
    (global := getElem?_of_sets [(2, s.blockStart.prng)] rfl (by simp))
    (osc := .mapIdx fun i o => getElem?_of_sets [(8, _), (9, _), (10, _), (11, _), (12, _)] rfl (by simp))
    (flt := .mapIdx fun j f => getElem?_of_sets _ (fltFields_fltDerive _ j f) (by simp [coefficientUpdate]))
    (lfo := .of_units (blockStart_lfo s) fun n l => ?_)
    (voice := getElem?_of_sets [(4, s.blockStart.ampEff)] rfl (by simp))
    (acc := fun i f h => by simp at h)
  exact getElem?_of_sets [(9, _), (10, _), (11, _)] rfl (by simp)

end

/-- Settles O35: each unit's register list after block start, and `blockStart_sameRegisters`. -/
theorem blockStart : Obligations.BlockStart := by
  unfold Obligations.BlockStart
  intro s hs t
  have hz : t.Sized := (blockStart_keeps.inv hs).sized
  refine ⟨⟨blockStart_runs.sameTables, ⟨rfl, rfl, rfl, rfl⟩, rfl, rfl, rfl, rfl⟩, blockStart_prng s, ?_, ?_, ?_, ?_,
    blockStart_sameRegisters s⟩
  · rintro n l hl fe rfl
    have hl' : t.lfo[n]? = some (lfoValue (lfoEffective s.fs s.tempo l) (waveOfLfo s n l)) := by
      rw [blockStart_lfo, hl]; rfl
    rw [lfoEffective_eq] at hl'
    exact ⟨read_lfo hz hl' 10, read_lfo hz hl' 11, read_lfo hz hl' 9⟩
  · intro i o ho a1 a2 a3 h1 h2 h3
    obtain rfl := registerValue_of_read h1
    obtain rfl := registerValue_of_read h2
    obtain rfl := registerValue_of_read h3
    have ho' : t.osc[i]? = some (t.oscDerive i o) := by rw [blockStart_osc, List.getElem?_mapIdx, ho]; rfl
    exact ⟨read_osc hz ho' 8, read_osc hz ho' 9, read_osc hz ho' 10, read_osc hz ho' 11, read_osc hz ho' 12⟩
  · rintro j f hf ⟨⟨c, x, k⟩, w⟩ hw
    obtain ⟨rfl, rfl, hw⟩ := fltDerive_reads t j f _ hw
    have hf' : t.flt[x]? = some (t.fltDerive x f) := by rw [blockStart_flt, List.getElem?_mapIdx, hf]; rfl
    exact (read_flt hz hf' k).trans hw
  · rintro a ha
    obtain rfl := registerValue_of_read ha
    rfl

/-! ### The accumulators (R460, R462) -/

/-- What a routing slot adds to its destination. -/
def State.routeTerm (s : State) (r : Route) : F32 := mul r.amount (s.sourceValue (packedType r.src) (packedIndex r.src))

/-- Adding to accumulator (t, n) changes this one alone: the other banks are other fields. Type 7 has index 0 alone. -/
theorem accBank_accAdd (a : Acc) {t n : Nat} (h : t = 7 → n = 0) (v : F32) (t' : Nat) :
    accBank (accAdd a t n v) t' = if t = t' then (accBank a t').modify n (add · v) else accBank a t' := by
  split
  · next ht =>
    subst ht
    match t with
    | 1 | 2 | 3 | 4 | 5 | 6 => rfl
    | 7 => rw [h rfl]; rfl
    | 0 | _ + 8 => simp [accBank]
  · next ht =>
    unfold accAdd
    split <;> unfold accBank <;> split <;> simp_all

section
variable {s : State}

/-- A slot adds its term to the accumulator it feeds, in every bank (R462). -/
theorem accBank_accumulate (a : Acc) {r : Route} (hr : routeOk s.cfg r = true) (t n : Nat) :
    (accBank (s.accumulate a r) t)[n]? =
      (accBank a t)[n]?.map fun v => if feeds t n r then add v (s.routeTerm r) else v := by
  have hd : packedType r.dst = 7 → packedIndex r.dst = 0 := by
    obtain ⟨⟨-, hd⟩, -⟩ := by simpa [routeOk] using hr
    intro h7
    unfold destLegal at hd
    simpa [h7] using hd
  unfold State.accumulate
  split
  · next h =>
    cases hf : feeds t n r with
    | false => simp
    | true =>
      simp only [feeds, Bool.and_eq_true, bne_iff_ne, beq_iff_eq] at hf
      obtain ⟨⟨hsrc, rfl⟩, -⟩ := hf
      have h0 : packedType r.dst = 0 := by simpa [hsrc] using h
      rw [h0]
      rfl
  · next h =>
    have enabled : feeds t n r = (packedType r.dst == t && packedIndex r.dst == n) := by
      have hsrc : packedType r.src ≠ 0 := fun h0 => h (by simp [h0])
      rw [feeds, bne_iff_ne.2 hsrc, Bool.true_and]
    rw [accBank_accAdd a hd, enabled]
    by_cases ht : packedType r.dst = t
    · simp [ht, List.getElem?_modify, State.routeTerm]
    · simp [ht]

theorem accBank_foldl (rs : List Route) (hr : ∀ r ∈ rs, routeOk s.cfg r = true) (a : Acc) (t n : Nat) :
    (accBank (rs.foldl s.accumulate a) t)[n]? =
      (accBank a t)[n]?.map ((rs.filter (feeds t n)).foldl fun sum r => add sum (s.routeTerm r)) := by
  induction rs generalizing a with
  | nil => simp
  | cons r rs ih =>
    obtain ⟨hr, hrs⟩ := List.forall_mem_cons.1 hr
    rw [List.foldl_cons, ih hrs, accBank_accumulate a hr, Option.map_map]
    congr 1
    funext v
    cases h : feeds t n r <;> simp [h]

theorem accBank_accZero {c : Config} {t n : Nat} {v : F32} (h : (accBank (accZero c) t)[n]? = some v) : v = posZero := by
  have hm := List.mem_of_getElem? h
  unfold accBank accZero at hm
  split at hm <;> simp_all

/-- A legal source other than NONE is one of the four kinds (R460). -/
theorem sourceValue_of_legal {b : Byte} (hb : sourceLegal s.cfg b = true) (h0 : packedType b ≠ 0) (i : Nat) :
    s.sourceValue (packedType b) i =
      if packedType b = 1 then ((s.env[i]?).map Env.value).getD posZero
      else if packedType b = 2 then ((s.lfo[i]?).map Lfo.value).getD posZero
      else if packedType b = 3 then midiFraction s.vel else midiFraction s.pressure := by
  unfold sourceLegal at hb
  unfold State.sourceValue
  split <;> simp_all

end

/-- Settles O36: `accBank_foldl` from `accZero`, the state of the sources being the one after the LFOs. -/
theorem routingAccumulates : Obligations.RoutingAccumulates := by
  unfold Obligations.RoutingAccumulates
  intro s hs t source a n w hw
  rw [readRegister_acc (blockStart_keeps.inv hs).acc] at hw
  have sum := accBank_foldl (s := s.startLfos) s.route hs.route (accZero s.cfg) a n
  obtain ⟨v, hv, rfl⟩ := Option.map_eq_some_iff.1 (sum.symm.trans hw)
  rw [accBank_accZero hv]
  refine List.foldl_ext _ _ _ fun sum r hr => ?_
  obtain ⟨hr, hf⟩ := List.mem_filter.1 hr
  obtain ⟨⟨hsrc, -⟩, -⟩ := by simpa [routeOk] using hs.route r hr
  have h0 : packedType r.src ≠ 0 := fun h => by simp [feeds, h] at hf
  rw [State.routeTerm, sourceValue_of_legal (s := s.startLfos) hsrc h0]
  rfl

end Sys2Proof.Machine

/-! PROOFS. One sample (45_voice.md R472, R473, R475, R476): its frame, its units and its events (O37). -/

namespace Sys2Proof.Machine
open F32

/-! ### The oscillator bank (41_oscillator.md R254, R259) -/

theorem oscDrawsBefore_cons (o : Osc) (os : List Osc) (n : Nat) :
    oscDrawsBefore (o :: os) (n + 1) = oscDrawsBefore os n + if o.wave == .noise then 1 else 0 := by
  rw [oscDrawsBefore, List.take_succ_cons, List.countP_cons]
  rfl

/-- A Noise oscillator draws once, the others not at all. -/
theorem oscWave_prng (c : Config) (fs : F32) (o : Osc) (p : Word) :
    (oscWave c fs o p).1 = FastMath.prngNext^[if o.wave == .noise then 1 else 0] p := by
  unfold oscWave
  cases o.wave <;> rfl

theorem oscBank_prng (c : Config) (fs : F32) (os : List Osc) (p : Word) :
    (oscBank c fs os p).1 = FastMath.prngNext^[oscDrawsBefore os os.length] p := by
  induction os generalizing p with
  | nil => rfl
  | cons o os ih =>
    rw [List.length_cons, oscDrawsBefore_cons, Function.iterate_add_apply, ← oscWave_prng c fs]
    exact ih _

/-- Each oscillator takes its wave after the draws of the oscillators before it. -/
theorem oscBank_waves (c : Config) (fs : F32) (os : List Osc) (p : Word) : (oscBank c fs os p).2.1 =
    os.mapIdx fun n o => (oscWave c fs o (FastMath.prngNext^[oscDrawsBefore os n] p)).2 := by
  induction os generalizing p with
  | nil => rfl
  | cons o os ih =>
    rw [List.mapIdx_cons]
    simp only [oscDrawsBefore_cons, Function.iterate_add_apply, ← oscWave_prng c fs]
    exact congrArg _ (ih _)

/-- The mix is the sum in index order (R476). -/
theorem oscMix_eq_foldl (os : List Osc) (w : Nat → Osc → F32) (m : F32) :
    oscMix os (os.mapIdx w) m = (os.mapIdx fun i o => mul o.mixEff (w i o)).foldl add m := by
  induction os generalizing w m with
  | nil => rfl
  | cons o os ih => simp [oscMix, List.mapIdx_cons, ih]

theorem oscAdvance_eq (o : Osc) :
    oscAdvance o = { o with phase := if o.wave = .noise then o.phase else wrap (add o.phase o.inc) } := by
  obtain ⟨wave⟩ := o
  cases wave <;> rfl

section
variable (s : State)

theorem oscWave_eq_waveOfOsc {n : Nat} {o : Osc} (ho : s.osc[n]? = some o) :
    (oscWave s.cfg s.fs o (FastMath.prngNext^[oscDrawsBefore s.osc n] s.prng)).2 = waveOfOsc s n o := by
  have cust : s.custEntry n = o.ctab.read := funext (custEntry_of_osc ho)
  unfold oscWave waveOfOsc
  rw [cust]
  cases o.wave <;> rfl

/-! ### The sample, field by field (R472) -/

/-- The mix of the next sample. -/
def State.mix : F32 := oscMix s.osc (oscBank s.cfg s.fs s.osc s.prng).2.1 posZero

/-- What the next sample sends before it is sanitised. -/
def State.output : F32 := mul (mul (cascade s.flt s.mix).2.1 s.ampEff) ((s.env.map envStep).getD 0 envReset).value

theorem mix_eq_foldl : s.mix = (s.osc.mapIdx fun i o => mul o.mixEff (waveOfOsc s i o)).foldl add posZero := by
  rw [State.mix, oscBank_waves, oscMix_eq_foldl]
  congr 1
  refine List.ext_getElem? fun i => ?_
  rw [List.getElem?_mapIdx, List.getElem?_mapIdx]
  cases ho : s.osc[i]? with
  | none => rfl
  | some o => rw [Option.map_some, Option.map_some, oscWave_eq_waveOfOsc s ho]

theorem sample_audio :
    s.sample.audio = { l := (sanitize s.output).1, r := (sanitize s.output).1 } :: s.audio := by
  simp [State.sample, State.finish, State.render, State.output, State.mix, State.ampEnv]

theorem sample_sampleCount : s.sample.sampleCount = s.sampleCount + 1#32 := by
  simp [State.sample, State.finish, State.render]

theorem sample_prng : s.sample.prng = (oscBank s.cfg s.fs s.osc s.prng).1 := by
  simp [State.sample, State.finish, State.render]

theorem sample_osc : s.sample.osc = s.osc.map oscAdvance := by
  simp [State.sample, State.finish, State.render, oscBank_oscs]

theorem sample_flt : s.sample.flt = (cascade s.flt s.mix).1 := by
  simp [State.sample, State.finish, State.render, State.mix]

theorem sample_lfo : s.sample.lfo = s.lfo.map lfoAdvance := by
  simp [State.sample, State.finish, State.render]

end

/-- What no sample changes. -/
structure SameSetup (s t : State) : Prop where
  inputs : SameInputs s t
  responses : t.responses = s.responses
  respCap : t.respCap = s.respCap
  audioCap : t.audioCap = s.audioCap
  fs : t.fs = s.fs
  tempo : t.tempo = s.tempo
  route : t.route = s.route
  note : t.note = s.note
  vel : t.vel = s.vel
  pressure : t.pressure = s.pressure
  ampEff : t.ampEff = s.ampEff
  acc : t.acc = s.acc

theorem sample_setup (s : State) : SameSetup s s.sample := by
  constructor <;> simp [SameInputs, State.sample, State.finish, State.render]

/-! ### The events of a sample (R475, 42_filter.md R332, 60_exceptions.md R602) -/

/-- What recording an event leaves in the event registers depends on them alone. -/
theorem raiseAll_eventRegisters {s t : State} (h : eventRegisters s = eventRegisters t) (op : Byte) (es : List Event) :
    eventRegisters (s.raiseAll op es) = eventRegisters (t.raiseAll op es) := by
  induction es generalizing s t with
  | nil => exact h
  | cons e es ih =>
    refine ih ?_
    simp only [eventRegisters, Prod.mk.injEq] at h
    obtain ⟨hs, hl, hr, hi, hz⟩ := h
    cases e <;> simp [eventRegisters, State.raise, *]

/-- A sample records the events of the cascade, then that of the sanitiser (R605). -/
theorem sample_eventRegisters (s : State) : eventRegisters s.sample =
    eventRegisters ((s.raiseAll processOp (cascade s.flt s.mix).2.2).raiseAll processOp (sanitize s.output).2) := by
  have output : s.output =
      mul (mul s.render.2 s.render.1.ampEff) ((s.render.1.env.map envStep).getD 0 envReset).value := by
    simp [State.output, State.mix, State.render]
  have render : eventRegisters s.render.1 = eventRegisters (s.raiseAll processOp (cascade s.flt s.mix).2.2) := by
    unfold State.render
    refine raiseAll_eventRegisters (t := s) ?_ _ _
    rfl
  rw [output]
  exact raiseAll_eventRegisters (s := { s.render.1 with env := s.render.1.env.map envStep }) render _ _

/-- The cascade's events count in INSTAB_COUNT alone. -/
theorem raiseAll_instability (n : Nat) (s : State) :
    let t := s.raiseAll processOp (List.replicate n .filterInstability)
    t.instabCount.toNat = Min.min (s.instabCount.toNat + n) 0xFFFFFFFF ∧ t.sanitizeCount = s.sanitizeCount ∧
    t.rejectCount = s.rejectCount ∧ t.lastEvt = (if n = 0 then s.lastEvt else 0x00001506#32) ∧
    t.evtSticky = s.evtSticky ||| (if n = 0 then 0#32 else 0x40#32) := by
  induction n generalizing s with
  | zero =>
    have := s.instabCount.isLt
    exact ⟨by simp; omega, rfl, rfl, rfl, BitVec.or_zero.symm⟩
  | succ n ih =>
    obtain ⟨hi, hz, hr, hl, hs⟩ := ih (recorded processOp 6 s)
    have sticky : (recorded processOp 6 s).evtSticky = s.evtSticky ||| 0x40#32 := rfl
    rw [List.replicate_succ, State.raiseAll_cons, raise_eq_recorded]
    refine ⟨hi.trans ?_, hz, hr, hl.trans (ite_self _), hs.trans ?_⟩
    · simp [recorded]; omega
    · rw [sticky, BitVec.or_assoc]
      split <;> rfl

/-- What the sanitiser sends and records (R475). -/
theorem sanitize_of_finite {x : F32} (h : isFinite x = true) : sanitize x = (x, []) := if_pos h

theorem sanitize_of_not_finite {x : F32} (h : isFinite x = false) : sanitize x = (posZero, [.outputSanitized]) :=
  if_neg (Bool.eq_false_iff.1 h)

theorem sanitize_sends (x : F32) : (sanitize x).1 = if isFinite x then x else posZero := by
  rw [sanitize, apply_ite Prod.fst]

/-- The event registers after a sample whose cascade raises n events. -/
theorem sample_events {s : State} {n : Nat} (hn : (cascade s.flt s.mix).2.2 = List.replicate n .filterInstability) :
    let t := s.sample
    t.sanitizeCount = (if isFinite s.output then s.sanitizeCount else (recorded 0x15#8 7 s).sanitizeCount) ∧
    t.instabCount.toNat = Min.min (s.instabCount.toNat + n) 0xFFFFFFFF ∧
    t.lastEvt = (if isFinite s.output then if n = 0 then s.lastEvt else 0x00001506#32 else 0x00001507#32) ∧
    t.evtSticky = s.evtSticky ||| (if n = 0 then 0#32 else 0x40#32) ||| (if isFinite s.output then 0#32 else 0x80#32) ∧
    t.rejectCount = s.rejectCount := by
  have events := sample_eventRegisters s
  obtain ⟨hi, hz, hr, hl, hs⟩ := raiseAll_instability n s
  rw [hn] at events
  cases hf : isFinite s.output with
  | true =>
    rw [sanitize_of_finite hf] at events
    simp only [eventRegisters, State.raiseAll_nil, Prod.mk.injEq] at events
    obtain ⟨es, el, er, ei, ez⟩ := events
    exact ⟨ez.trans hz, ei ▸ hi, el.trans hl, (es.trans hs).trans BitVec.or_zero.symm, er.trans hr⟩
  | false =>
    have code : eventCode .outputSanitized = 7 := rfl
    rw [sanitize_of_not_finite hf, State.raiseAll_cons, State.raiseAll_nil, raise_eq_recorded, code] at events
    simp only [eventRegisters, Prod.mk.injEq] at events
    obtain ⟨es, el, er, ei, ez⟩ := events
    exact ⟨ez.trans (by simp [recorded, hz]), by rw [ei]; exact hi, el, es.trans (congrArg (· ||| 0x80#32) hs),
      er.trans hr⟩

/-- Settles O37: `sample_setup`, `sample_events` and the sample's fields, the cascade by `cascade_eq`. -/
theorem sampleFrame : Obligations.SampleFrame := by
  unfold Obligations.SampleFrame
  intro s e hs he t m x trips out sent
  have hm : m = s.mix := (mix_eq_foldl s).symm
  have casc : cascade s.flt s.mix = (filtersAfter s.flt m, x, trips) := hm ▸ cascade_eq s.flt m
  have hout : out = s.output := by
    simp [out, State.output, casc, he]
  have hsent : (sanitize s.output).1 = sent := by rw [sanitize_sends, ← hout]
  obtain ⟨n, -, hn⟩ := cascade_events s.flt s.mix
  obtain ⟨sanitized, instab, last, sticky, reject⟩ := sample_events hn
  obtain ⟨inputs, responses, respCap, audioCap, fs, tempo, route, note, vel, pressure, ampEff, acc⟩ := sample_setup s
  have htrips : trips = List.replicate n .filterInstability := by rw [← hn, casc]
  have no_trip : trips = [] ↔ n = 0 := by simp [htrips]
  rw [← hout] at sanitized last sticky
  refine ⟨?_, sample_sampleCount s, ?_, ?_, sample_env s, fun i o ho => ?_, fun l o ho => ?_, sanitized, ?_, ?_, ?_, ?_, ?_,
    acc, ampEff, note, vel, pressure, route, fs, tempo, reject, responses, respCap, audioCap, inputs⟩
  · rw [sample_audio, hsent]
  · rw [sample_prng, oscBank_prng]
  · rw [sample_flt, casc]
  · rw [sample_osc, List.getElem?_map, ho, Option.map_some, oscAdvance_eq]
  · rw [sample_lfo, List.getElem?_map, ho]; rfl
  · rw [instab, htrips, List.length_replicate]
  · exact fun hf => by rw [last, hf]; rfl
  · exact fun hf h => by rw [last, if_pos hf, if_neg (mt no_trip.2 h)]
  · exact fun hf h => by rw [last, if_pos hf, if_pos (no_trip.1 h)]
  · simp only [no_trip]
    exact sticky

end Sys2Proof.Machine

/-! PROOFS. PROCESS (45_voice.md R470, R473, R474): its frames (O33), the parameters it keeps (O34), the reclaim (O38), and
that splitting one changes no frame without routing and Noise LFOs (O39). -/

namespace Sys2Proof.Machine
open F32

/-! ### n samples -/

section
variable {s t u : State}

theorem SameSetup.refl (s : State) : SameSetup s s :=
  ⟨⟨rfl, rfl, rfl, rfl⟩, rfl, rfl, rfl, rfl, rfl, rfl, rfl, rfl, rfl, rfl, rfl⟩

theorem SameInputs.trans (h : SameInputs s t) (h' : SameInputs t u) : SameInputs s u := by
  obtain ⟨h1, h2, h3, h4⟩ := h
  obtain ⟨k1, k2, k3, k4⟩ := h'
  exact ⟨k1.trans h1, k2.trans h2, k3.trans h3, k4.trans h4⟩

theorem SameSetup.trans (h : SameSetup s t) (h' : SameSetup t u) : SameSetup s u where
  inputs := h.inputs.trans h'.inputs
  responses := h'.responses.trans h.responses
  respCap := h'.respCap.trans h.respCap
  audioCap := h'.audioCap.trans h.audioCap
  fs := h'.fs.trans h.fs
  tempo := h'.tempo.trans h.tempo
  route := h'.route.trans h.route
  note := h'.note.trans h.note
  vel := h'.vel.trans h.vel
  pressure := h'.pressure.trans h.pressure
  ampEff := h'.ampEff.trans h.ampEff
  acc := h'.acc.trans h.acc

/-- A relation every sample keeps holds after n of them. -/
theorem samples_induction {R : State → State → Prop} (refl : ∀ s, R s s) (trans : ∀ {s t u}, R s t → R t u → R s u)
    (sample : ∀ s, R s s.sample) (n : Nat) (s : State) : R s (State.samples n s) := by
  induction n generalizing s with
  | zero => exact refl s
  | succ n ih => exact trans (sample s) (ih _)

theorem samples_setup (n : Nat) (s : State) : SameSetup s (State.samples n s) :=
  samples_induction SameSetup.refl SameSetup.trans sample_setup n s

theorem samples_add (m n : Nat) (s : State) : State.samples (m + n) s = State.samples n (State.samples m s) := by
  induction m generalizing s with
  | zero => rw [Nat.zero_add]; rfl
  | succ m ih => rw [Nat.add_right_comm]; exact ih s.sample

theorem samples_sampleCount (n : Nat) (s : State) :
    (State.samples n s).sampleCount = s.sampleCount + BitVec.ofNat 32 n := by
  induction n with
  | zero => exact (BitVec.add_zero _).symm
  | succ n ih => rw [samples_succ, sample_sampleCount, ih, BitVec.add_assoc, BitVec.ofNat_add]

/-! ### The command (R470) -/

theorem framesOf_eq_zero {d : Word} (h : d.toInt ≤ 0) : framesOf d = 0 := Int.toNat_eq_zero.2 h

theorem framesOf_pos {d : Word} (h : 0 < d.toInt) : framesOf d ≠ 0 := by
  rw [framesOf, frameCount]; omega

theorem framesOf_eq_toNat {d : Word} (h : 0 < d.toInt) : framesOf d = d.toNat := by
  rw [framesOf, frameCount]
  rw [BitVec.toInt_eq_toNat_cond] at h ⊢
  split at h <;> omega

/-- A PROCESS of n > 0 frames: block start, n samples, the reclaim. -/
theorem execProcess_next {d : Word} (h : 0 < d.toInt) (s : State) :
    exec (.process d) s = .next (State.samples d.toNat s.blockStart).reclaim := by
  rw [← framesOf_eq_toNat h]
  exact congrArg Host.Outcome.next (if_neg (framesOf_pos h))

theorem execProcess_none {d : Word} (h : d.toInt ≤ 0) (s : State) : exec (.process d) s = .next s :=
  congrArg Host.Outcome.next (if_pos (framesOf_eq_zero h))

theorem reclaim_cases (s : State) : s.reclaim = s.silence ∨ s.reclaim = s := by
  unfold State.reclaim
  split
  · exact .inl rfl
  · exact .inr rfl

/-- A reclaim touches no stream and no input. -/
theorem reclaim_streams (s : State) : s.reclaim.audio = s.audio ∧ s.reclaim.sampleCount = s.sampleCount ∧
    s.reclaim.responses = s.responses ∧ s.reclaim.audioCap = s.audioCap ∧ s.reclaim.respCap = s.respCap ∧
    SameInputs s s.reclaim := by
  obtain h | h := reclaim_cases s <;> rw [h] <;> exact ⟨rfl, rfl, rfl, rfl, rfl, rfl, rfl, rfl, rfl⟩

/-! ### The parameters (R461, R470) -/

theorem SameRegisters.trans {changed : Address → Bool} (h : SameRegisters changed s t) (h' : SameRegisters changed t u) :
    SameRegisters changed s u :=
  fun c i f hf => (h' c i f hf).trans (h c i f hf)

theorem SameRegisters.mono {changed changed' : Address → Bool} (h : SameRegisters changed s t)
    (hc : ∀ c i f, changed (c, i, f) = true → changed' (c, i, f) = true) : SameRegisters changed' s t :=
  fun c i f hf => h c i f (Bool.eq_false_iff.2 fun ht => by simp [hc c i f ht] at hf)

/-- Every parameter register reads as before. -/
def SameParameters (s t : State) : Prop := SameRegisters (fun a => !isParameter a) s t

theorem blockStart_parameters (s : State) : SameParameters s s.blockStart := by
  refine (blockStart_sameRegisters s).mono fun c i f h => ?_
  simp only [Bool.or_eq_true, Bool.and_eq_true, beq_iff_eq, decide_eq_true_eq, Prod.mk.injEq] at h
  obtain ((((⟨rfl, -, rfl⟩ | ⟨⟨rfl, h8⟩, h12⟩) | ⟨rfl, h⟩) | ⟨rfl, h⟩) | ⟨rfl, -, rfl⟩) | rfl := h
  · rfl
  · simp [isParameter]; omega
  · simp [isParameter]; omega
  · simp [isParameter]; omega
  · rfl
  · rfl

/-- `g` differs from `e` in the running registers alone. -/
def SameEnvParameters (e g : Env) : Prop :=
  g = { e with stage := g.stage, value := g.value, elapsed := g.elapsed, start := g.start }

theorem envRamp_keeps_parameters (e : Env) (len : Nat) (slope τ : F32) (next : Stage) :
    SameEnvParameters e (envRamp e len slope τ next) := by
  unfold envRamp
  split <;> rfl

theorem envShutdown_keeps_parameters (e : Env) : SameEnvParameters e (envShutdown e) := by
  unfold envShutdown
  split <;> rfl

theorem envStep_keeps_parameters (e : Env) : SameEnvParameters e (envStep e) := by
  cases h : e.stage with
  | attack => rw [envStep_attack h]; exact envRamp_keeps_parameters _ _ _ _ _
  | decay => rw [envStep_decay h]; exact envRamp_keeps_parameters _ _ _ _ _
  | sustain => rw [envStep_sustain h]; rfl
  | release => rw [envStep_release h]; exact envRamp_keeps_parameters _ _ _ _ _
  | shutdown => rw [envStep_shutdown h]; exact envShutdown_keeps_parameters e
  | idle => rw [envStep_idle h]; rfl

theorem sample_parameters (s : State) : SameParameters s s.sample := by
  obtain ⟨⟨cfg, -⟩, -, -, -, fs, tempo, route, note, vel, pressure, ampEff, acc⟩ := sample_setup s
  have flt : s.sample.flt = _ := (sample_flt s).trans (congrArg Prod.fst (cascade_eq s.flt s.mix))
  rw [filtersAfter_eq] at flt
  refine sameRegisters_of_banks cfg (global := ?_) (osc := sample_osc s ▸ .map fun i o => ?_)
    (flt := flt ▸ .mapIdx fun j f => ?_) (env := sample_env s ▸ .map fun k e => ?_)
    (lfo := sample_lfo s ▸ .map fun l o => ?_) (route := route) (voice := ?_) (acc := fun _ _ _ => acc)
  · refine getElem?_of_sets [(2, s.sample.prng), (3, s.sample.sampleCount), (4, s.sample.status), (5, s.sample.evtSticky),
      (6, s.sample.lastEvt), (7, s.sample.rejectCount), (8, s.sample.instabCount), (9, s.sample.sanitizeCount)] ?_
      (by simp [isParameter])
    rw [State.globalFields, fs, tempo, cfg]
    rfl
  · rw [oscAdvance_eq]
    exact getElem?_of_sets [(2, _)] rfl (by simp [isParameter])
  · rw [filterStep_keeps_coefficients]
    exact getElem?_of_sets [(11, _), (12, _), (13, _), (14, _)] rfl (by simp [isParameter])
  · rw [envStep_keeps_parameters]
    exact getElem?_of_sets [(0, _), (1, _), (2, _), (3, _)] rfl (by simp [isParameter])
  · exact getElem?_of_sets [(8, _)] rfl (by simp [isParameter])
  · refine getElem?_of_sets [(3, Word.ofBool s.sample.active)] ?_ (by simp [isParameter])
    rw [State.voiceFields, note, vel, pressure, ampEff]
    rfl

theorem reclaim_parameters (s : State) : SameParameters s s.reclaim := by
  obtain h | h := reclaim_cases s
  · rw [h]
    refine silence_sameRegisters.mono fun c i f h => ?_
    simp only [Bool.or_eq_true, Bool.and_eq_true, beq_iff_eq, decide_eq_true_eq, Prod.mk.injEq] at h
    obtain ((⟨rfl, h⟩ | ⟨rfl, -, rfl⟩) | ⟨rfl, -, rfl⟩) | ⟨rfl, -, rfl⟩ := h
    · simp [isParameter]; omega
    · rfl
    · rfl
    · rfl
  · rw [h]
    exact fun _ _ _ _ => rfl

theorem samples_parameters (n : Nat) (s : State) : SameParameters s (State.samples n s) :=
  samples_induction (R := SameParameters) (fun _ _ _ _ _ => rfl) SameRegisters.trans sample_parameters n s

end

/-- Settles O33: `samples_emit`, `samples_sampleCount` and `samples_setup`. -/
theorem processRendersFrames : Obligations.ProcessRendersFrames := by
  unfold Obligations.ProcessRendersFrames
  refine fun s d => ⟨fun h => execProcess_none h s, fun h => ?_⟩
  let u := State.samples d.toNat s.blockStart
  obtain ⟨new, hnew, hn, -⟩ := samples_emit d.toNat s.blockStart
  obtain ⟨inputs, responses, respCap, audioCap, -⟩ := samples_setup d.toNat s.blockStart
  obtain ⟨audio, count, resp, acap, rcap, inp⟩ := reclaim_streams u
  refine ⟨_, new, execProcess_next h s, ?_, ?_, ?_, resp.trans responses, acap.trans audioCap, rcap.trans respCap,
    inputs.trans inp, ?_⟩
  · rw [State.audioStream, audio]; exact hnew
  · rw [hn, ← framesOf_eq_toNat h]; exact Int.toNat_of_nonneg h.le
  · have hd : BitVec.ofNat 32 d.toNat = d := by rw [BitVec.ofNat_toNat, BitVec.setWidth_eq]
    refine (read_global u.reclaim 3).trans (congrArg some (count.trans ?_))
    rw [samples_sampleCount, hd]
    rfl
  · exact ((blockStart_runs.trans (samples_runs _)).trans reclaim_runs).sameTables

/-- Settles O34: block start, every sample and the reclaim keep the parameters. -/
theorem processKeepsParameters : Obligations.ProcessKeepsParameters := by
  unfold Obligations.ProcessKeepsParameters
  intro s t d h
  by_cases hd : 0 < d.toInt
  · obtain rfl := Host.Outcome.next.inj ((execProcess_next hd s).symm.trans h)
    have params : SameParameters s (State.samples d.toNat s.blockStart).reclaim :=
      ((blockStart_parameters s).trans (samples_parameters _ _)).trans (reclaim_parameters _)
    refine ⟨fun c i f hp => params c i f (by simp [hp]), ?_⟩
    have note : (State.samples d.toNat s.blockStart).note = s.note := (samples_setup _ _).note
    obtain e | e := reclaim_cases (State.samples d.toNat s.blockStart)
    · exact .inr (by rw [e]; rfl)
    · exact .inl (by rw [e, note])
  · obtain rfl := Host.Outcome.next.inj ((execProcess_none (not_lt.1 hd) s).symm.trans h)
    exact ⟨fun _ _ _ _ => rfl, .inl rfl⟩

/-- Settles O38: the two cases of the reclaim check. -/
theorem reclaimAfterProcess : Obligations.ReclaimAfterProcess := by
  unfold Obligations.ReclaimAfterProcess
  intro s d e hs hd u he
  have amp : u.ampEnv = e := ampEnv_eq he
  refine ⟨u.reclaim, execProcess_next hd s, ?_⟩
  by_cases h : u.note ≠ 255#8 ∧ e.stage = .idle
  · have given_up : u.reclaim = u.silence := if_pos (amp.symm ▸ h)
    rw [if_pos h, given_up]
    exact ⟨fun hn => absurd rfl hn, rfl⟩
  · have kept : u.reclaim = u := if_neg (amp.symm ▸ h)
    rw [if_neg h, kept]
    refine ⟨fun hn => ?_, rfl⟩
    have busy : e.stage ≠ .idle := fun hi => h ⟨hn, hi⟩
    rw [State.active, amp, envActive, bne_iff_ne.2 busy]

end Sys2Proof.Machine

/-! PROOFS. Splitting a PROCESS (45_voice.md R470): without routing and Noise LFOs a second block start finds everything
a frame depends on as it would leave it (O39). -/

namespace Sys2Proof.Machine
open F32

/-! ### Blocks without routing and Noise LFOs -/

/-- No routing slot is enabled and no LFO is Noise. -/
structure State.Unmodulated (s : State) : Prop where
  route : ∀ r ∈ s.route, slotDisabled r = true
  lfo : ∀ w ∈ s.lfo.map Lfo.wave, w ≠ .noise

/-- Block start would find every effective parameter and coefficient, and AMP_EFF, as it leaves them. -/
structure State.Settled (s : State) : Prop where
  osc : ∀ o ∈ s.osc, oscEffective s.cfg s.fs posZero posZero posZero o = o
  flt : ∀ f ∈ s.flt, fltUpdate s.cfg s.fs posZero posZero posZero f = f
  ampEff : s.ampEff = clamp (add one posZero) Const.ampMin Const.ampMax

section
variable {s t : State}

theorem State.Unmodulated.of_eq (h : s.Unmodulated) (hr : t.route = s.route)
    (hl : t.lfo.map Lfo.wave = s.lfo.map Lfo.wave) : t.Unmodulated :=
  ⟨hr ▸ h.route, hl ▸ h.lfo⟩

theorem blockStart_lfoWaves (s : State) : s.blockStart.lfo.map Lfo.wave = s.lfo.map Lfo.wave := by
  refine List.ext_getElem? fun n => ?_
  rw [List.getElem?_map, blockStart_lfo, List.getElem?_map, Option.map_map]
  rfl

theorem sample_lfoWaves (s : State) : s.sample.lfo.map Lfo.wave = s.lfo.map Lfo.wave := by
  rw [sample_lfo, List.map_map]
  rfl

theorem samples_lfoWaves (n : Nat) (s : State) : (State.samples n s).lfo.map Lfo.wave = s.lfo.map Lfo.wave :=
  samples_induction (R := fun s t => t.lfo.map Lfo.wave = s.lfo.map Lfo.wave) (fun _ => rfl) (fun h h' => h'.trans h)
    sample_lfoWaves n s

/-- A disabled slot adds nothing (R462). -/
theorem foldl_accumulate_disabled {rs : List Route} (h : ∀ r ∈ rs, slotDisabled r = true) (a : Acc) :
    rs.foldl s.accumulate a = a := by
  induction rs with
  | nil => rfl
  | cons r rs ih =>
    obtain ⟨hr, hrs⟩ := List.forall_mem_cons.1 h
    have disabled : s.accumulate a r = a := if_pos (by simpa [slotDisabled] using hr)
    rw [List.foldl_cons, disabled, ih hrs]

section
variable (h : s.Unmodulated)
include h

theorem blockStart_acc_of_unmodulated : s.blockStart.acc = accZero s.cfg := foldl_accumulate_disabled h.route _

theorem blockStart_osc_of_unmodulated :
    s.blockStart.osc = s.osc.map (oscEffective s.cfg s.fs posZero posZero posZero) := by
  have derive (i : Nat) (o : Osc) : s.blockStart.oscDerive i o = oscEffective s.cfg s.fs posZero posZero posZero o := by
    simp only [State.oscDerive, blockStart_acc_of_unmodulated h, accGet_accZero]
    rfl
  rw [blockStart_osc]
  exact List.ext_getElem? fun i => by rw [List.getElem?_mapIdx, List.getElem?_map, funext (derive i)]

theorem blockStart_flt_of_unmodulated :
    s.blockStart.flt = s.flt.map (fltUpdate s.cfg s.fs posZero posZero posZero) := by
  have derive (j : Nat) (f : Flt) : s.blockStart.fltDerive j f = fltUpdate s.cfg s.fs posZero posZero posZero f := by
    simp only [State.fltDerive, blockStart_acc_of_unmodulated h, accGet_accZero]
    rfl
  rw [blockStart_flt]
  exact List.ext_getElem? fun j => by rw [List.getElem?_mapIdx, List.getElem?_map, funext (derive j)]

theorem blockStart_ampEff_of_unmodulated :
    s.blockStart.ampEff = clamp (add one posZero) Const.ampMin Const.ampMax := by
  rw [blockStart_ampEff, blockStart_acc_of_unmodulated h]
  rfl

theorem blockStart_prng_of_unmodulated : s.blockStart.prng = s.prng := by
  have draws : lfoDrawsBefore s.lfo s.lfo.length = 0 := by
    rw [lfoDrawsBefore, List.countP_eq_zero]
    intro l hl
    simpa using h.lfo l.wave (List.mem_map_of_mem (List.mem_of_mem_take hl))
  rw [blockStart_prng, draws]
  rfl

/-- The derivations do not read what they write. -/
theorem blockStart_settled : s.blockStart.Settled where
  osc := by
    rw [blockStart_osc_of_unmodulated h, List.forall_mem_map]
    exact fun _ _ => rfl
  flt := by
    rw [blockStart_flt_of_unmodulated h, List.forall_mem_map]
    exact fun _ _ => rfl
  ampEff := blockStart_ampEff_of_unmodulated h

end

theorem oscEffective_withPhase (c : Config) (fs a b d φ : F32) (o : Osc) :
    oscEffective c fs a b d { o with phase := φ } = { oscEffective c fs a b d o with phase := φ } := rfl

theorem fltUpdate_withDelays (c : Config) (fs a b d x1 x2 y1 y2 : F32) (f : Flt) :
    fltUpdate c fs a b d { f with x1 := x1, x2 := x2, y1 := y1, y2 := y2 } =
      { fltUpdate c fs a b d f with x1 := x1, x2 := x2, y1 := y1, y2 := y2 } := rfl

theorem oscAdvance_settled {c : Config} {fs a b d : F32} {o : Osc} (h : oscEffective c fs a b d o = o) :
    oscEffective c fs a b d (oscAdvance o) = oscAdvance o := by
  rw [oscAdvance_eq, oscEffective_withPhase, h]

theorem biquad_settled {c : Config} {fs a b d : F32} {f : Flt} (h : fltUpdate c fs a b d f = f) (x : F32) :
    fltUpdate c fs a b d (biquad f x).1 = (biquad f x).1 := by
  rw [biquad_keeps_coefficients f x, fltUpdate_withDelays, h]

/-- A sample moves phases and delay lines alone, which the derivations do not read. -/
theorem sample_settled (h : s.Settled) : s.sample.Settled := by
  obtain ⟨⟨cfg, -⟩, -, -, -, fs, -, -, -, -, -, ampEff, -⟩ := sample_setup s
  refine ⟨?_, ?_, ampEff.trans h.ampEff⟩
  · rw [cfg, fs, sample_osc, List.forall_mem_map]
    exact fun o ho => oscAdvance_settled (h.osc o ho)
  · rw [cfg, fs, sample_flt]
    refine forall_of_forall₂ ((cascade_forall₂ s.flt s.mix).imp ?_) h.flt
    rintro f _ (rfl | ⟨x, rfl⟩) hf
    · exact hf
    · exact biquad_settled hf x

theorem samples_settled (n : Nat) (h : s.Settled) : (State.samples n s).Settled :=
  samples_induction (R := fun s t => s.Settled → t.Settled) (fun _ => id) (fun h h' => h' ∘ h)
    (fun _ => sample_settled) n s h

/-! ### States that sound alike -/

/-- The two states have emitted the same frames and will emit the same: the registers a sample reads are the same, but that
two Idle amplitude envelopes may differ. -/
structure SoundAlike (s t : State) : Prop where
  cfg : t.cfg = s.cfg
  fs : t.fs = s.fs
  osc : t.osc = s.osc
  flt : t.flt = s.flt
  prng : t.prng = s.prng
  ampEff : t.ampEff = s.ampEff
  env : t.env[0]? = s.env[0]? ∨
    (s.env[0]?.map Env.stage = some .idle ∧ t.env[0]?.map Env.stage = some .idle)
  audio : t.audio = s.audio
  sampleCount : t.sampleCount = s.sampleCount

/-- An Idle envelope's step is at +0.0 and Idle (43_envelope.md R359). -/
theorem stepped_idle {es : List Env} (h : es[0]?.map Env.stage = some .idle) :
    ((es.map envStep).getD 0 envReset).value = posZero ∧ (es.map envStep)[0]?.map Env.stage = some .idle := by
  obtain ⟨e, he, hi⟩ := Option.map_eq_some_iff.1 h
  have step : (es.map envStep)[0]? = some (envStep e) := by rw [List.getElem?_map, he]; rfl
  rw [List.getD_eq_getElem?_getD, step, envStep_idle hi]
  exact ⟨rfl, congrArg some hi⟩

theorem SoundAlike.sample (h : SoundAlike s t) : SoundAlike s.sample t.sample := by
  have s' := sample_setup s
  have t' := sample_setup t
  have mix : t.mix = s.mix := by rw [State.mix, State.mix, h.cfg, h.fs, h.osc, h.prng]
  have env : ((t.env.map envStep).getD 0 envReset).value = ((s.env.map envStep).getD 0 envReset).value ∧
      ((t.env.map envStep)[0]? = (s.env.map envStep)[0]? ∨ ((s.env.map envStep)[0]?.map Env.stage = some .idle ∧
        (t.env.map envStep)[0]?.map Env.stage = some .idle)) := by
    obtain he | ⟨hs, ht⟩ := h.env
    · have step : (t.env.map envStep)[0]? = (s.env.map envStep)[0]? := by rw [List.getElem?_map, he, List.getElem?_map]
      exact ⟨by rw [List.getD_eq_getElem?_getD, step, List.getD_eq_getElem?_getD], .inl step⟩
    · exact ⟨(stepped_idle ht).1.trans (stepped_idle hs).1.symm, .inr ⟨(stepped_idle hs).2, (stepped_idle ht).2⟩⟩
  have output : t.output = s.output := by rw [State.output, State.output, mix, h.flt, h.ampEff, env.1]
  exact {
    cfg := t'.inputs.1.trans (h.cfg.trans s'.inputs.1.symm)
    fs := t'.fs.trans (h.fs.trans s'.fs.symm)
    osc := by rw [sample_osc, sample_osc, h.osc]
    flt := by rw [sample_flt, sample_flt, h.flt, mix]
    prng := by rw [sample_prng, sample_prng, h.cfg, h.fs, h.osc, h.prng]
    ampEff := t'.ampEff.trans (h.ampEff.trans s'.ampEff.symm)
    env := by rw [sample_env, sample_env]; exact env.2
    audio := by rw [sample_audio, sample_audio, output, h.audio]
    sampleCount := by rw [sample_sampleCount, sample_sampleCount, h.sampleCount] }

theorem SoundAlike.samples (h : SoundAlike s t) (n : Nat) : SoundAlike (State.samples n s) (State.samples n t) := by
  induction n generalizing s t with
  | zero => exact h
  | succ n ih => exact ih h.sample

/-- A reclaim rewrites Idle envelopes and the note. -/
theorem soundAlike_reclaim (h : s.Inv) : SoundAlike s s.reclaim := by
  obtain ⟨e, he⟩ := h.exists_ampEnv
  unfold State.reclaim
  split
  · next hr =>
    have idle : e.stage = .idle := ampEnv_eq he ▸ hr.2
    exact ⟨rfl, rfl, rfl, rfl, rfl, rfl, .inr ⟨by rw [he, Option.map_some, idle], by simp [he, envZeroed]⟩, rfl, rfl⟩
  · exact ⟨rfl, rfl, rfl, rfl, rfl, rfl, .inl rfl, rfl, rfl⟩

/-- A block start on a settled block without routing and Noise LFOs changes LFO registers alone. -/
theorem soundAlike_blockStart (hs : s.Settled) (hu : s.Unmodulated) : SoundAlike s s.blockStart := by
  refine ⟨rfl, rfl, ?_, ?_, blockStart_prng_of_unmodulated hu, (blockStart_ampEff_of_unmodulated hu).trans hs.ampEff.symm,
    .inl rfl, rfl, rfl⟩
  · rw [blockStart_osc_of_unmodulated hu, List.map_congr_left hs.osc, List.map_id']
  · rw [blockStart_flt_of_unmodulated hu, List.map_congr_left hs.flt, List.map_id']

theorem SoundAlike.trans {u : State} (h : SoundAlike s t) (h' : SoundAlike t u) : SoundAlike s u where
  cfg := h'.cfg.trans h.cfg
  fs := h'.fs.trans h.fs
  osc := h'.osc.trans h.osc
  flt := h'.flt.trans h.flt
  prng := h'.prng.trans h.prng
  ampEff := h'.ampEff.trans h.ampEff
  env := by
    obtain he | ⟨hs, ht⟩ := h.env <;> obtain he' | ⟨ht', hu⟩ := h'.env
    · exact .inl (he'.trans he)
    · exact .inr ⟨he ▸ ht', hu⟩
    · exact .inr ⟨hs, he' ▸ ht⟩
    · exact .inr ⟨hs, hu⟩
  audio := h'.audio.trans h.audio
  sampleCount := h'.sampleCount.trans h.sampleCount

/-- The reclaim keeps what a block start reads. -/
theorem reclaim_settled (h : s.Settled) : s.reclaim.Settled := by
  obtain e | e := reclaim_cases s <;> rw [e]
  · exact ⟨h.osc, h.flt, h.ampEff⟩
  · exact h

theorem reclaim_unmodulated (h : s.Unmodulated) : s.reclaim.Unmodulated := by
  obtain e | e := reclaim_cases s <;> rw [e]
  · exact ⟨h.route, h.lfo⟩
  · exact h

end

/-- Settles O39: the state between the two blocks sounds like the one the second block's samples start from. -/
theorem splitProcessSameFrames : Obligations.SplitProcessSameFrames := by
  unfold Obligations.SplitProcessSameFrames
  intro s d d1 d2 hs hr hl h1 h2 hd
  let u := State.samples d1.toNat s.blockStart
  have hu : s.Unmodulated := ⟨hr, List.forall_mem_map.2 hl⟩
  have u_inv : u.Inv := (samples_keeps _).inv (blockStart_keeps.inv hs)
  have u_settled : u.Settled := samples_settled _ (blockStart_settled hu)
  have u_unmodulated : u.Unmodulated := hu.of_eq (samples_setup d1.toNat s.blockStart).route
    ((samples_lfoWaves _ _).trans (blockStart_lfoWaves s))
  have alike := ((soundAlike_reclaim u_inv).trans
    (soundAlike_blockStart (reclaim_settled u_settled) (reclaim_unmodulated u_unmodulated))).samples d2.toNat
  have h : 0 < d.toInt := by omega
  have count : d.toNat = d1.toNat + d2.toNat := by
    rw [← framesOf_eq_toNat h, ← framesOf_eq_toNat h1, ← framesOf_eq_toNat h2]
    simp only [framesOf, frameCount]
    omega
  have whole : State.samples d.toNat s.blockStart = State.samples d2.toNat u := by rw [count, samples_add]
  obtain ⟨audio, sampleCount, -⟩ := reclaim_streams (State.samples d2.toNat u)
  obtain ⟨audio', sampleCount', -⟩ := reclaim_streams (State.samples d2.toNat u.reclaim.blockStart)
  refine ⟨_, _, _, execProcess_next h s, execProcess_next h1 s, execProcess_next h2 _, ?_, ?_⟩
  · rw [whole, State.audioStream, State.audioStream, audio', audio, alike.audio]
  · rw [whole, sampleCount', sampleCount, alike.sampleCount]

end Sys2Proof.Machine

/-! PROOFS. The control commands (46_control.md): RESET (O23), SET_SAMPLE_RATE (O25), the commands to the global registers (O26)
and READ (O27). -/

namespace Sys2Proof.Machine
open F32

/-! ### RESET (R501, R701) -/

/-- The registers of FullReset are those of power-on reset, which the streams and what the host has sent are no part of. -/
theorem readRegister_fullReset (s : State) (c i f : Nat) :
    s.fullReset.readRegister c i f = (State.resetOf s.cfg).readRegister c i f :=
  readRegister_congr rfl rfl rfl rfl rfl rfl rfl rfl rfl c i f

/-- Settles O23: `readRegister_fullReset`, the tables being those of the reset state. -/
theorem resetCommand : Obligations.ResetCommand := by
  unfold Obligations.ResetCommand
  exact fun s => ⟨s.fullReset, rfl, rfl, rfl, readRegister_fullReset s, entries_resetOf s.cfg, rfl, rfl, rfl, rfl, rfl, rfl⟩

/-! ### SET_SAMPLE_RATE (R502, R702, R704) -/

theorem mapIdx_map {α β γ : Type} (f : α → β) (g : Nat → β → γ) (l : List α) :
    (l.map f).mapIdx g = l.mapIdx fun i a => g i (f a) :=
  List.ext_getElem? fun i => by simp [Function.comp_def]

section
variable {s : State} (d : Word)

/-- With every accumulator at +0.0 there is no modulation (R704). -/
theorem withSampleRate_oscDerive (i : Nat) (o : Osc) : (s.withSampleRate d).oscDerive i o =
    oscEffective s.cfg (clamp d Const.fsMin Const.fsMax) posZero posZero posZero o := by
  have acc : (s.withSampleRate d).acc = accZero s.cfg := rfl
  simp only [State.oscDerive, acc, accGet_accZero]
  rfl

/-! Each bank after SET_SAMPLE_RATE: running state at its initial value, then the derived registers from the new rate. -/

theorem withSampleRate_osc_eq : (s.withSampleRate d).osc = s.osc.mapIdx fun i o =>
    (s.withSampleRate d).oscDerive i { o with phase := o.ph0 } := mapIdx_map _ _ _

theorem withSampleRate_flt_eq :
    (s.withSampleRate d).flt = s.flt.mapIdx fun j f => (s.withSampleRate d).fltDerive j (fltClear f) := mapIdx_map _ _ _

theorem withSampleRate_env_eq :
    (s.withSampleRate d).env = s.env.map fun e => envLens (clamp d Const.fsMin Const.fsMax) (envZeroed e) := List.map_map

theorem withSampleRate_lfo_eq : (s.withSampleRate d).lfo = s.lfo.map fun l =>
    lfoEffective (clamp d Const.fsMin Const.fsMax) s.tempo { l with phase := posZero, value := posZero } := List.map_map

theorem withSampleRate_sized (h : s.Sized) : (s.withSampleRate d).Sized where
  osc := by rw [withSampleRate_osc_eq, List.length_mapIdx]; exact h.osc
  flt := by rw [withSampleRate_flt_eq, List.length_mapIdx]; exact h.flt
  env := by rw [withSampleRate_env_eq, List.length_map]; exact h.env
  lfo := by rw [withSampleRate_lfo_eq, List.length_map]; exact h.lfo
  route := h.route

theorem withSampleRate_active (h : s.Inv) : (s.withSampleRate d).active = false := by
  obtain ⟨e, he⟩ := h.exists_ampEnv
  exact (active_eq_false_iff (by rw [withSampleRate_env_eq, List.getElem?_map, he]; rfl)).2 rfl

theorem withSampleRate_sameElse : SameElse s (s.withSampleRate d) :=
  ⟨(withSampleRate_still d).sameTables, ⟨rfl, rfl, rfl, rfl⟩, rfl, rfl, rfl, rfl⟩

theorem fltFields_fltClear (f : Flt) : fltFields (fltClear f) =
    [(11, posZero), (12, posZero), (13, posZero), (14, posZero)].foldr (fun w l => l.set w.1 w.2) (fltFields f) := rfl

/-- What R706 marks K stays: every other register of a unit is among those its reset and its derivation set. -/
theorem withSampleRate_sameRegisters : SameRegisters (fun a => !keptBySampleRate a) s (s.withSampleRate d) := by
  refine sameRegisters_of_banks rfl
    (global := getElem?_of_sets [(0, (s.withSampleRate d).fs), (4, (s.withSampleRate d).status)] rfl
      (by simp [keptBySampleRate]))
    (osc := withSampleRate_osc_eq d ▸ .mapIdx fun i o => ?_) (flt := withSampleRate_flt_eq d ▸ .mapIdx fun j f => ?_)
    (env := withSampleRate_env_eq d ▸ .map fun k e => ?_) (lfo := withSampleRate_lfo_eq d ▸ .map fun l o => ?_)
    (voice := fun f h => by simp [keptBySampleRate] at h) (acc := fun i f h => by simp [keptBySampleRate] at h)
  · exact getElem?_of_sets [(2, o.ph0), (8, _), (9, _), (10, _), (11, _), (12, _)] rfl (by simp [keptBySampleRate])
  · exact getElem?_of_sets _ (by rw [fltFields_fltDerive, fltFields_fltClear, ← List.foldr_append])
      (by simp [keptBySampleRate, coefficientUpdate])
  · exact getElem?_of_sets [(0, 0#32), (1, posZero), (2, 0#32), (3, posZero), (11, _), (12, _), (13, _), (14, _), (15, _), (16, _),
      (17, _), (18, _)] rfl (by simp [keptBySampleRate])
  · exact getElem?_of_sets [(8, posZero), (9, posZero), (10, _), (11, _)] rfl (by simp [keptBySampleRate])

end

/-- Settles O25: each unit's register list after its reset and its derivation; `withSampleRate_sameRegisters` for what is kept. -/
theorem sampleRateCommand : Obligations.SampleRateCommand := by
  unfold Obligations.SampleRateCommand
  intro s d hs hd fs
  have number : acceptsClamped d = true := by rw [acceptsClamped, hd]; rfl
  have hz := withSampleRate_sized d hs.sized
  refine ⟨s.withSampleRate d, execSetSampleRate_next d number, withSampleRate_sameElse d, rfl, fun c i f hk => ?_,
    fun i o ho => ?_, fun j f hf => ?_, fun k e he => ?_, fun l o ho => ?_, rfl, rfl, rfl, ?_, rfl, fun a n w hw => ?_⟩
  · exact withSampleRate_sameRegisters d c i f (by simp [hk])
  · have read := read_osc hz (i := i) (by
      rw [withSampleRate_osc_eq, List.getElem?_mapIdx, ho, Option.map_some, withSampleRate_oscDerive])
    exact ⟨read 2, read 8, read 9, read 10, read 11, read 12⟩
  · have read := read_flt hz (j := j) (by rw [withSampleRate_flt_eq, List.getElem?_mapIdx, hf]; rfl)
    refine List.forall_mem_append.2 ⟨?_, ?_⟩
    · simp only [delayCleared, List.forall_mem_cons]
      exact ⟨read 11, read 12, read 13, read 14, by simp⟩
    · rintro ⟨⟨c, x, k⟩, w⟩ hw
      obtain ⟨rfl, rfl, hw⟩ := fltDerive_reads (s.withSampleRate d) j (fltClear f) _ hw
      exact (read k).trans hw
  · have read := read_env hz (k := k) (by rw [withSampleRate_env_eq, List.getElem?_map, he]; rfl)
    refine ⟨read 0, read 1, read 2, read 3, fun f time hf => ?_⟩
    simp only [List.mem_cons, Prod.mk.injEq, List.not_mem_nil, or_false] at hf
    obtain ⟨rfl, rfl⟩ | ⟨rfl, rfl⟩ | ⟨rfl, rfl⟩ | ⟨rfl, rfl⟩ := hf
    · exact ⟨read 11, read 15⟩
    · exact ⟨read 12, read 16⟩
    · exact ⟨read 13, read 17⟩
    · exact ⟨read 14, read 18⟩
  · have read := read_lfo hz (l := l) (by rw [withSampleRate_lfo_eq, List.getElem?_map, ho]; rfl)
    refine ⟨read 8, read 9, ?_⟩
    rintro fe rfl
    simp only [lfoEffective_eq] at read
    exact ⟨read 10, read 11⟩
  · exact (read_voice _ 3).trans (by simp [State.voiceFields, withSampleRate_active d hs, Word.ofBool])
  · exact (registerValue_of_read hw).trans (accGet_accZero s.cfg a n)

/-! ### The global registers (R503, R507; 40_fastmath.md R220) -/

/-- `t` differs from `s` in TEMPO, PRNG_STATE and the event registers alone. -/
def OnlyGlobals (s t : State) : Prop :=
  ∃ tempo prng sticky last reject instab sanitize, t = { s with
    tempo := tempo, prng := prng, evtSticky := sticky, lastEvt := last, rejectCount := reject, instabCount := instab
    sanitizeCount := sanitize }

/-- A command that sets the listed class-0 fields, those of `also` to values of no interest, writes these registers and nothing
else. -/
theorem writes_globalFields {i : Instr} {s t : State} (he : exec i s = .next t) (h : OnlyGlobals s t)
    (ws also : List (Nat × Word))
    (hset : t.globalFields = (ws ++ also).foldr (fun w l => l.set w.1 w.2) s.globalFields)
    (hread : ∀ w ∈ ws, t.globalFields[w.1]? = some w.2) :
    Writes i s (ws.map fun w => ((0, 0, w.1), w.2)) (also.map fun w => (0, 0, w.1)) := by
  obtain ⟨_, _, _, _, _, _, _, rfl⟩ := h
  refine ⟨_, he, ?_, sameRegisters_of_banks rfl (global := getElem?_of_sets _ hset ?_), fun _ _ => ⟨rfl, rfl⟩,
    ⟨rfl, rfl, rfl, rfl⟩, rfl, rfl, rfl, rfl⟩
  · rw [List.forall_mem_map]
    exact fun w hw => (read_global _ w.1).trans (hread w hw)
  · intro w hw
    rw [List.contains_iff_mem, List.mem_append]
    exact (List.mem_append.1 hw).imp (fun h => List.mem_map_of_mem (List.mem_map_of_mem h)) List.mem_map_of_mem

/-- Settles O26: `writes_globalFields` for each command; `status_fields` for STATUS.ERR without an event. -/
theorem globalRegisterCommands : Obligations.GlobalRegisterCommands := by
  unfold Obligations.GlobalRegisterCommands
  refine fun s d => ⟨fun hd => ?_, ?_, ?_, ?_⟩
  · have number : acceptsClamped d = true := by rw [acceptsClamped, hd]; rfl
    exact writes_globalFields (execSetTempo_next d number) ⟨_, _, _, _, _, _, _, rfl⟩
      [(1, clamp d Const.tempoMin Const.tempoMax)] [] rfl (by simp [State.globalFields])
  · exact writes_globalFields rfl ⟨_, _, _, _, _, _, _, rfl⟩ [(2, d)] [] rfl (by simp [State.globalFields])
  · exact writes_globalFields rfl ⟨_, _, _, _, _, _, _, rfl⟩
      [(5, 0#32), (6, 0#32), (7, 0#32), (8, 0#32), (9, 0#32)] [(4, _)] rfl (by simp [State.globalFields])
  · obtain ⟨-, -, -, err, -⟩ := status_fields s.active false s.noteValid (BitVec.ofNat 3 (stageCode s.ampEnv.stage))
    exact ⟨_, _, rfl, rfl, err⟩

/-! ### READ (R506, 60_exceptions.md R604) -/

/-- Settles O27: the two branches of READ, the event being `raise_eq_recorded`'s. -/
theorem readAnswersRegister : Obligations.ReadAnswersRegister := by
  unfold Obligations.ReadAnswersRegister
  intro s c x f
  refine ⟨fun w hw => ?_, fun hbad => ?_⟩
  · change execRead c x f s = _
    rw [execRead, hw]
    rfl
  · change execRead c x f s = _
    rw [execRead, hbad]
    exact congrArg Host.Outcome.next (raise_eq_recorded _ _ .badAddress)

end Sys2Proof.Machine

/-! PROOFS. Exceptions (60_exceptions.md): a ready block stays ready and never stops (O12), what a step refuses (O10), and what
recording an event writes (O16). -/

namespace Sys2Proof.Machine

/-! ### A next state is always answered (R625) -/

section
variable {s t : State}

/-- Every command answers a next state: it is its check phase, with an event or an effect. -/
theorem exec_answers (i : Instr) (s : State) : ∃ t, exec i s = .next t := by
  obtain ⟨eff, h, -⟩ := exec_runsChecked i s
  rw [h]
  exact checked_next s i _ eff

theorem execDecoded_answers (c : Decoded) (s : State) : ∃ t, execDecoded c s = .next t := by
  cases c with
  | instr i => exact exec_answers i s
  | illegalOpcode op => exact ⟨_, rfl⟩
  | reservedNonzero op => exact ⟨_, rfl⟩

/-- After a reset, in a legal configuration, a step waits or carries a word out. -/
theorem step_answers (hl : s.cfg.legal = true) (hd : s.resetDone = true) : ∃ t, step s = .next t := by
  cases hc : s.commands with
  | nil => exact ⟨s, by simp [step, hl, hc]⟩
  | cons w rest =>
    rw [step_of_word hl hd hc]
    split
    · exact execDecoded_answers _ _
    · exact ⟨s, rfl⟩

/-! ### The launch condition is kept (70_reset_and_hazards.md R711, R712) -/

theorem next_resetDone {u : State} (h : (.next u : Result) = .next t) (hu : u.resetDone = true) : t.resetDone = true := by
  cases h
  exact hu

theorem checked_resetDone {i : Instr} {cs : List (Option Event)} {eff : State} (h : s.checked i cs eff = .next t)
    (hd : s.resetDone = true) (k : eff.resetDone = true) : t.resetDone = true := by
  obtain ⟨-, rfl⟩ | ⟨e, -, rfl⟩ := checked_cases h
  · exact k
  · rw [State.raise_resetDone, hd]

theorem read_resetDone {cls idx fld : Byte} (h : execRead cls idx fld s = .next t) : t.resetDone = s.resetDone := by
  unfold execRead at h
  split at h <;> cases h
  · rfl
  · exact State.raise_resetDone _ _ _

theorem processed_resetDone (n : Nat) : (s.processed n).resetDone = s.resetDone := by
  unfold State.processed
  split
  · rfl
  · obtain ⟨-, -, -, -, -, -, reclaim, -⟩ := reclaim_streams (State.samples n s.blockStart)
    obtain ⟨-, samples, -⟩ := (samples_setup n s.blockStart).inputs
    exact reclaim.trans samples

/-- No command takes back that a reset has run. -/
theorem exec_resetDone (i : Instr) (h : exec i s = .next t) (hd : s.resetDone = true) : t.resetDone = true :=
  match i with
  | .reset => next_resetDone h rfl
  | .read _ _ _ => (read_resetDone h).trans hd
  | .process _ => next_resetDone h ((processed_resetDone _).trans hd)
  | .nop | .seedPrng _ | .clearStatus | .noteOff | .voiceStop | .voiceKill => next_resetDone h hd
  | .setSampleRate _ | .setTempo _ | .noteOn _ _ _ | .setPressure _
  | .oscSetWave _ _ | .oscSetFreq _ _ | .oscSetPhase _ _ | .oscSetDetune _ _ | .oscSetPw _ _ | .oscSetMix _ _
  | .oscCustWrite _ _ _ | .oscCustCommit _ _
  | .fltSetType _ _ | .fltSetCutoff _ _ | .fltSetRes _ _ | .fltSetGain _ _ | .fltSetEnable _ _ | .fltReset _
  | .envSetAttack _ _ | .envSetDecay _ _ | .envSetSustain _ _ | .envSetRelease _ _ | .envSetCurve _ _
  | .envSetVelsens _ _ | .envTrigger _ | .envRelease _ | .envStop _
  | .lfoSetWave _ _ | .lfoSetFreq _ _ | .lfoSetMode _ _ | .lfoSetDiv _ _ | .lfoSetDepth _ _ | .lfoSetInvert _ _
  | .lfoSetRetrig _ _ | .lfoSetPw _ _ | .lfoSetPhase _ _ | .lfoTrigger _
  | .routeSet _ _ _ _ | .routeClear _ => checked_resetDone h hd hd

theorem execDecoded_resetDone {c : Decoded} (h : execDecoded c s = .next t) (hd : s.resetDone = true) :
    t.resetDone = true := by
  cases c with
  | instr i => exact exec_resetDone i h hd
  | illegalOpcode op => exact next_resetDone h ((State.raise_resetDone _ _ _).trans hd)
  | reservedNonzero op =>
    refine next_resetDone h ((State.raise_resetDone _ _ _).trans ?_)
    split <;> exact hd

theorem step_resetDone (h : step s = .next t) (hd : s.resetDone = true) : t.resetDone = true := by
  obtain ⟨-, e⟩ | ⟨-, -, e⟩ | ⟨w, rest, -, -, ⟨-, e⟩ | ⟨-, -, e⟩ | ⟨-, -, e⟩⟩ := step_cases s <;> rw [e] at h
  · cases h
  · exact next_resetDone h hd
  · cases h
  · exact next_resetDone h hd
  · exact execDecoded_resetDone h hd

/-- A step from a ready state answers a ready state. -/
theorem step_ready (h : s.Ready) : ∃ t, step s = .next t ∧ t.Ready := by
  obtain ⟨t, ht⟩ := step_answers h.inv.cfg h.resetDone
  exact ⟨t, ht, (step_keeps ht).inv h.inv, step_resetDone ht h.resetDone⟩

end

/-- A run of k + 1 steps is a step and a run of k. -/
theorem run_succ_of_step {M : Host.Core} {s t : M.State} (h : M.step s = .next t) (k : Nat) :
    M.run (k + 1) s = M.run k t := by
  rw [Host.Core.run, h]

/-- Settles O12, by induction on the number of steps: `step_ready`. -/
theorem readyRunsNeverStop : Obligations.ReadyRunsNeverStop := by
  unfold Obligations.ReadyRunsNeverStop
  intro k
  induction k with
  | zero => exact fun s h => ⟨s, rfl, h⟩
  | succ k ih =>
    intro s h
    obtain ⟨u, hu, ready⟩ := step_ready h
    have run : core.run (k + 1) s = core.run k u := run_succ_of_step hu k
    rw [run]
    exact ih u ready

/-! ### What a step refuses (R625) -/

section
variable {s : State} {w : Command} {rest : List Command}

/-- Before a reset, RESET alone may run. -/
theorem mayRun_before_reset (hd : s.resetDone = false) (c : Decoded) : s.mayRun c = true ↔ c = .instr .reset := by
  rw [State.mayRun, hd, Bool.false_or, beq_iff_eq]

theorem step_of_illegal (hl : s.cfg.legal = false) : step s = .refused .illegalConfiguration := by
  rw [step, hl, if_neg Bool.false_ne_true]

/-- In a legal configuration the next word is taken. -/
theorem step_eq_take (hl : s.cfg.legal = true) (hc : s.commands = w :: rest) : step s = s.take w := by
  rw [step, if_pos hl, hc]

end

/-- Settles O10: `mayRun_before_reset` decides the first word, `step_answers` every step after a reset. -/
theorem stepRefusals : Obligations.StepRefusals := by
  unfold Obligations.StepRefusals
  refine fun s => ⟨step_of_illegal, fun w rest hl hd hc => ⟨fun hw => ?_, fun hw hn => ?_⟩, step_answers⟩
  · have may : s.mayRun (decodeCommand w) = false := Bool.eq_false_iff.2 (mt (mayRun_before_reset hd _).1 hw)
    simp [step_eq_take hl hc, State.take, may]
  · have may : s.mayRun (.instr .reset) = true := (mayRun_before_reset hd _).2 rfl
    have room : s.hasRoom (.instr .reset) = true :=
      hasRoom_of_notFull hn fun k hk => ⟨hn.1 k hk, .inl (hn.1 k hk).le⟩
    simp [step_eq_take hl hc, State.take, hw, may, room, State.popCommand, hc, execDecoded]

/-! ### The event registers (R601, R602) -/

/-- The eight codes are the events' (R601). -/
theorem exists_event_of_code {code : Nat} (h1 : 1 ≤ code) (h8 : code ≤ 8) : ∃ e, eventCode e = code := by
  match code, h1, h8 with
  | 1, _, _ => exact ⟨.illegalOpcode, rfl⟩
  | 2, _, _ => exact ⟨.reservedNonzero, rfl⟩
  | 3, _, _ => exact ⟨.badIndex, rfl⟩
  | 4, _, _ => exact ⟨.badOperand, rfl⟩
  | 5, _, _ => exact ⟨.nonfiniteOperand, rfl⟩
  | 6, _, _ => exact ⟨.filterInstability, rfl⟩
  | 7, _, _ => exact ⟨.outputSanitized, rfl⟩
  | 8, _, _ => exact ⟨.badAddress, rfl⟩

theorem eventCode_lt (e : Event) : eventCode e < 32 := by cases e <;> decide

/-- An event's word has the one bit of its code. -/
theorem eventBit_getLsbD (e : Event) (b : Nat) : (eventBit e).getLsbD b = (b == eventCode e) := by
  have twoPow : eventBit e = BitVec.twoPow 32 (eventCode e) := rfl
  rw [twoPow, BitVec.getLsbD_twoPow, decide_eq_true (eventCode_lt e), Bool.true_and]
  exact decide_eq_decide.2 eq_comm

theorem reads_lastEvt (s : State) : Reads s (0, 0, 6) s.lastEvt := read_global s 6

/-- Settles O16: `raise_eq_recorded`, each code being an event's. -/
theorem eventRecord : Obligations.EventRecord := by
  unfold Obligations.EventRecord
  intro s op
  have record := raise_eq_recorded s op
  refine ⟨record _, record _, record _, record _, record _, record _, record _, record _, fun code h1 h8 => ?_⟩
  obtain ⟨e, rfl⟩ := exists_event_of_code h1 h8
  rw [← record e]
  refine ⟨?_, fun b => ?_⟩
  · have reads := reads_lastEvt (s.raise op e)
    rwa [State.raise_lastEvt] at reads
  · rw [State.raise_evtSticky, BitVec.getLsbD_or, eventBit_getLsbD]

end Sys2Proof.Machine
